-- ==== Sys2Proof/Word.lean ====
section
/-! DEFINITION. The word types of BBSE: 32-bit command, payload and result words, 8-bit frames. -/

namespace Sys2Proof

/-- A command, payload or result word: `CMD_BITS` = 32 (00_scope.md R6). -/
abbrev Word := BitVec 32

/-- A Bit Frame: `FRAME_BITS` = 8 (00_scope.md R6). -/
abbrev Byte := BitVec 8

/-- A Local Slave Address: `ADDR_BITS` = 7 (00_scope.md R6). -/
abbrev Addr := BitVec 7

end Sys2Proof
end

