-- ==== Sys2Proof/Config.lean ====
section
/-! DEFINITION. What an implementation fixes (the parameters of 00_scope.md R6) and the free values.

The open parameters are one record, `Params`, which State holds and no step changes; the machine after reset holds
`Config.params`, built from constants with no body, so nothing is known of them but their ranges. The free values are
constants with no body, applied to the counter `freeCtr` of State. -/

namespace Sys2Proof.Config

/-- `UART_RX_POLICY`: what buffer-full does (45_uart.md R247). -/
inductive RxPolicy where
  | flush
  | reset
deriving DecidableEq, Repr, Inhabited

/-- The OPEN parameters of 00_scope.md R6. -/
structure Params where
  /-- `I2C_T_EDGE`, microseconds, at least 1. -/
  i2cTEdge : Nat
  /-- `I2C_T_ACK_HOLD`, microseconds. -/
  i2cTAckHold : Nat
  /-- `SPI_T_HALF`, microseconds. -/
  spiTHalf : Nat
  /-- `UART_BAUD`, bits per second, 1 to 1000000. -/
  uartBaud : Nat
  /-- `UART_RX_CAP`, bytes, at least 1. -/
  rxCap : Nat
  /-- `UART_RX_POLICY`. -/
  rxPolicy : RxPolicy
  /-- `PINMAP`: the physical pin of each logical pin, in the order of the ids 0 to 7; injective. -/
  pinMap : List Nat
deriving DecidableEq, Repr

/-- `UART_T_BIT` = floor(1000000 / `UART_BAUD`) (00_scope.md R6, R10 item 7). -/
def Params.uartTBit (c : Params) : Nat := 1000000 / c.uartBaud

/-- `UART_T_HALF` = floor(`UART_T_BIT` / 2) (00_scope.md R6). -/
def Params.uartTHalf (c : Params) : Nat := c.uartTBit / 2

/-- The ranges of 00_scope.md R6, and `PINMAP` injective on 8 logical pins (20_memory.md R61, R78). -/
def Params.wf (c : Params) : Bool :=
  decide (1 ≤ c.i2cTEdge) && decide (1 ≤ c.uartBaud) && decide (c.uartBaud ≤ 1000000) && decide (1 ≤ c.rxCap)
    && decide (c.pinMap.length = 8) && decide c.pinMap.Nodup

/-! The fixed parameters of R6. -/

/-- `NPINS`. -/
def nPins : Nat := 8
/-- `NMBX`. -/
def nMbx : Nat := 3
/-- `STEP_OVERHEAD`: the time a micro-operation other than a wait takes (20_memory.md R70). -/
def stepOverhead : Nat := 0

/-! Open constants: no body, so no proof can lean on a value. -/

opaque i2cTEdgeLessOne : Nat
opaque i2cTAckHoldChoice : Option Nat
opaque spiTHalf : Nat
opaque uartBaudLessOne : Nat
opaque rxCapLessOne : Nat
opaque rxPolicy : RxPolicy
opaque pinMapChoice : Nat → Nat

/-- `PINMAP` as a list: the open choice where it is injective, else the identity; every injective map is such a choice. -/
def pinMap : List Nat :=
  let m := (List.range nPins).map pinMapChoice
  if m.Nodup then m else List.range nPins

/-- The parameters of this implementation. Each range of R6 holds by construction; `I2C_T_ACK_HOLD` defaults to
`I2C_T_EDGE` where it is not chosen (00_scope.md R6). -/
def params : Params where
  i2cTEdge := i2cTEdgeLessOne + 1
  i2cTAckHold := i2cTAckHoldChoice.getD (i2cTEdgeLessOne + 1)
  spiTHalf := spiTHalf
  uartBaud := uartBaudLessOne % 1000000 + 1
  rxCap := rxCapLessOne + 1
  rxPolicy := rxPolicy
  pinMap := pinMap

/-! Free values (log 3, 7, 8, 13). -/

/-- The platform's answer to a `PIN_CFG` or `IRQ_REG`: true = success (40_pin_ops.md R117). -/
opaque cfgAnswer : Nat → Bool

/-- The draw of an `X` line: the level a read returns, or whether a transition counts as the edge (20_memory.md R65). -/
opaque xDraw : Nat → Bool

/-- A byte whose value no rule states. -/
opaque freeByte : Nat → Byte

end Sys2Proof.Config
end

