-- ==== Sys2Proof/Syntax.lean ====
section
/-! DEFINITION. The commands of BBSE: one constructor of `Instr` for each row of the opcode map (30_encoding.md R94),
and the operand types. An operand type holds exactly the values an accepted encoding gives, so a reserved operand value
(R97) has no term here; the decoder refuses it by name. -/

namespace Sys2Proof

/-- The logical pins, ids 0 to 7 in this order (10_state.md R24). -/
inductive Pin where
  | sda | scl | sclk | sdo | sdi | cs | tx | rx
deriving DecidableEq, Repr

/-- The Edge Mailboxes, ids 0 to 2 in this order (10_state.md R25). -/
inductive Mbx where
  | mI2c | mSpi | mUart
deriving DecidableEq, Repr

/-- `DIR[p]`: the Line Direction State (10_state.md R24). -/
inductive Dir where
  | input | output
deriving DecidableEq, Repr

/-- `PULL[p]` (10_state.md R24). -/
inductive Pull where
  | none | up | down
deriving DecidableEq, Repr

/-- `IRQ[p]`: the armed edge (10_state.md R24). -/
inductive Irq where
  | none | falling | rising
deriving DecidableEq, Repr

/-- The 41 commands (30_encoding.md R94). -/
inductive Instr where
  /-- `PIN_CFG p, dir, pull, irq` -/
  | pinCfg (p : Pin) (dir : Dir) (pull : Pull) (irq : Irq)
  /-- `PIN_SET p, v` -/
  | pinSet (p : Pin) (v : Bool)
  /-- `PIN_GET p` -/
  | pinGet (p : Pin)
  /-- `IRQ_REG p, m, os`; `os` true = `once` -/
  | irqReg (p : Pin) (m : Mbx) (os : Bool)
  /-- `IRQ_UNREG p` -/
  | irqUnreg (p : Pin)
  /-- `WAIT_US n` -/
  | waitUs (n : BitVec 24)
  /-- `MBX_SIGNAL m` -/
  | mbxSignal (m : Mbx)
  /-- `MBX_WAITCLR m` -/
  | mbxWaitclr (m : Mbx)
  /-- `MBX_TEST m` -/
  | mbxTest (m : Mbx)
  /-- `MBX_CLEAR m` -/
  | mbxClear (m : Mbx)
  /-- `I2C_M_SETUP` -/
  | i2cMSetup
  /-- `I2C_M_START` -/
  | i2cMStart
  /-- `I2C_M_WRITE x` -/
  | i2cMWrite (x : Byte)
  /-- `I2C_M_ACKS` -/
  | i2cMAcks
  /-- `I2C_M_READ ack` -/
  | i2cMRead (ack : Bool)
  /-- `I2C_M_STOP` -/
  | i2cMStop
  /-- `I2C_M_XFER addr, n, [y0 .. y(n-1)]`; `n` is the length of the list -/
  | i2cMXfer (addr : Addr) (ys : List Byte)
  /-- `I2C_M_RDN addr, count` -/
  | i2cMRdn (addr : Addr) (count : Byte)
  /-- `I2C_S_SETUP` -/
  | i2cSSetup
  /-- `I2C_S_WSTART` -/
  | i2cSWstart
  /-- `I2C_S_RECV` -/
  | i2cSRecv
  /-- `I2C_S_ACK` -/
  | i2cSAck
  /-- `I2C_S_DISP lsa, v` -/
  | i2cSDisp (lsa : Addr) (v : Byte)
  /-- `I2C_S_WSTOP` -/
  | i2cSWstop
  /-- `I2C_S_SERVE lsa` -/
  | i2cSServe (lsa : Addr)
  /-- `SPI_M_SETUP m` -/
  | spiMSetup (m : BitVec 2)
  /-- `SPI_S_SETUP m` -/
  | spiSSetup (m : BitVec 2)
  /-- `SPI_M_XCHG0 x` -/
  | spiMXchg0 (x : Byte)
  /-- `SPI_M_XCHG1 x` -/
  | spiMXchg1 (x : Byte)
  /-- `SPI_M_XCHG2 x` -/
  | spiMXchg2 (x : Byte)
  /-- `SPI_M_XCHG3 x` -/
  | spiMXchg3 (x : Byte)
  /-- `SPI_S_RESP0 x` -/
  | spiSResp0 (x : Byte)
  /-- `SPI_S_RESP1 x` -/
  | spiSResp1 (x : Byte)
  /-- `SPI_S_RESP2 x` -/
  | spiSResp2 (x : Byte)
  /-- `SPI_S_RESP3 x` -/
  | spiSResp3 (x : Byte)
  /-- `UART_TX_SETUP` -/
  | uartTxSetup
  /-- `UART_TX_BYTE x` -/
  | uartTxByte (x : Byte)
  /-- `UART_SEND n, [y0 .. y(n-1)]`; `n` is the length of the list -/
  | uartSend (ys : List Byte)
  /-- `UART_RX_SETUP` -/
  | uartRxSetup
  /-- `UART_RX_FRAME` -/
  | uartRxFrame
  /-- `UART_RX_LOOP` -/
  | uartRxLoop
deriving DecidableEq, Repr

/-- The payload bytes a command carries in its payload words (30_encoding.md R93). -/
def Instr.payload : Instr → List Byte
  | .i2cMXfer _ ys => ys
  | .uartSend ys => ys
  | _ => []

/-- The command's length in words (30_encoding.md R93). -/
def Instr.lengthWords (i : Instr) : Nat := 1 + i.payload.length

end Sys2Proof
end

