-- ==== Sys2Proof/WellFormed.lean ====
section
/-! DEFINITION. Which commands an encoding exists for. The operand types already hold only encodable values; what is left
is the payload count, an 8-bit field (30_encoding.md R91, R93, R101: "an `I2C_M_XFER` payload longer than 255 cannot be
expressed in one transaction"). -/

namespace Sys2Proof

/-- The payload count fits the field `b` (30_encoding.md R91, formats `ABL` and `BL`). -/
def Instr.wf (i : Instr) : Bool := decide (i.payload.length ≤ 255)

end Sys2Proof
end

