-- ==== Sys2Proof/Decode.lean ====
section
/-! DEFINITION. The decoder, total on any words, refusing a reserved word by name (30_encoding.md R90 to R94, R97), and
the encoder written from the same tables. A command is a sequence of whole 32-bit words (20_memory.md R67, R68). -/

namespace Sys2Proof

/-! ## Fields of a command word (R90) -/

/-- `unit` = `W[31:28]`. -/
def unitOf (w : Word) : BitVec 4 := w.extractLsb' 28 4
/-- `op` = `W[27:24]`. -/
def opOf (w : Word) : BitVec 4 := w.extractLsb' 24 4
/-- `a` = `W[23:16]`. -/
def aOf (w : Word) : Byte := w.extractLsb' 16 8
/-- `b` = `W[15:8]`. -/
def bOf (w : Word) : Byte := w.extractLsb' 8 8
/-- `c` = `W[7:0]`. -/
def cOf (w : Word) : Byte := w.extractLsb' 0 8
/-- `n` = `W[23:0]`. -/
def nOf (w : Word) : BitVec 24 := w.extractLsb' 0 24

/-! ## Codes of the operands (10_state.md R24, R25; 30_encoding.md R92) -/

def Pin.code : Pin → Byte
  | .sda => 0 | .scl => 1 | .sclk => 2 | .sdo => 3 | .sdi => 4 | .cs => 5 | .tx => 6 | .rx => 7

def Mbx.code : Mbx → Byte
  | .mI2c => 0 | .mSpi => 1 | .mUart => 2

def Dir.code : Dir → Byte
  | .input => 0 | .output => 1

def Pull.code : Pull → Byte
  | .none => 0 | .up => 1 | .down => 2

def Irq.code : Irq → Byte
  | .none => 0 | .falling => 1 | .rising => 2

def boolCode (v : Bool) : Byte := if v then 1 else 0

/-- Why a command word is reserved: the cases of 30_encoding.md R97. -/
inductive Reject where
  /-- `unit` > 4 -/
  | unit
  /-- `op` not in the row list of R94 for that `unit` -/
  | op
  /-- a field the format does not use is non-zero -/
  | unusedField
  /-- a pin id above 7 -/
  | pinId
  /-- a mailbox id above 2 -/
  | mailboxId
  /-- `pull` = 3 in `PIN_CFG` -/
  | pull
  /-- `irq` = 3 in `PIN_CFG` -/
  | irq
  /-- bit 7 of a 7-bit address operand is 1 -/
  | addressBit7
  /-- a must-be-zero sub-field of `c` is non-zero -/
  | subField
  /-- a payload word has a non-zero bit in 31:8 -/
  | payload
deriving DecidableEq, Repr

/-- A pin id 0 to 7 (R97: above 7 is reserved). -/
def pinOf (a : Byte) : Except Reject Pin :=
  match a.toNat with
  | 0 => .ok .sda | 1 => .ok .scl | 2 => .ok .sclk | 3 => .ok .sdo
  | 4 => .ok .sdi | 5 => .ok .cs | 6 => .ok .tx | 7 => .ok .rx
  | _ => .error .pinId

/-- A mailbox id 0 to 2 (R97: above 2 is reserved). -/
def mbxOf (a : Nat) : Except Reject Mbx :=
  match a with
  | 0 => .ok .mI2c | 1 => .ok .mSpi | 2 => .ok .mUart
  | _ => .error .mailboxId

/-- `pull` = `c[2:1]` (R92; 3 is reserved). -/
def pullOf (c : Byte) : Except Reject Pull :=
  match (c.extractLsb' 1 2).toNat with
  | 0 => .ok .none | 1 => .ok .up | 2 => .ok .down
  | _ => .error .pull

/-- `irq` = `c[4:3]` (R92; 3 is reserved). -/
def irqOf (c : Byte) : Except Reject Irq :=
  match (c.extractLsb' 3 2).toNat with
  | 0 => .ok .none | 1 => .ok .falling | 2 => .ok .rising
  | _ => .error .irq

/-- A 7-bit address operand: bit 7 must be 0 (R91, R97). -/
def addrOf (a : Byte) : Except Reject Addr :=
  if a.getLsbD 7 then .error .addressBit7 else .ok (a.extractLsb' 0 7)

/-- A field or sub-field that must be 0. -/
def mustBeZero {n : Nat} (f : BitVec n) (r : Reject) : Except Reject Unit :=
  if f = 0 then .ok () else .error r

/-- The payload bytes of payload words: the byte in 7:0, bits 31:8 must be 0 (R93). -/
def payloadOf : List Word → Except Reject (List Byte)
  | [] => .ok []
  | y :: ys =>
    if y.extractLsb' 8 24 = 0 then (payloadOf ys).map (y.extractLsb' 0 8 :: ·) else .error .payload

/-! ## The formats (R91) -/

/-- Format `Z`: no operand. -/
def formatZ (w : Word) (i : Instr) : Except Reject Instr := do
  mustBeZero (nOf w) .unusedField
  return i

/-- Format `P`: `a` = pin id. -/
def formatP (w : Word) (k : Pin → Instr) : Except Reject Instr := do
  mustBeZero (bOf w) .unusedField
  mustBeZero (cOf w) .unusedField
  return k (← pinOf (aOf w))

/-- Format `PC`: `a` = pin id, `c` = flags. -/
def formatPC (w : Word) (k : Pin → Byte → Except Reject Instr) : Except Reject Instr := do
  mustBeZero (bOf w) .unusedField
  k (← pinOf (aOf w)) (cOf w)

/-- Format `M`: `a` = mailbox id. -/
def formatM (w : Word) (k : Mbx → Instr) : Except Reject Instr := do
  mustBeZero (bOf w) .unusedField
  mustBeZero (cOf w) .unusedField
  return k (← mbxOf (aOf w).toNat)

/-- Format `C`: `c` = byte, mode or flag. -/
def formatC (w : Word) (k : Byte → Except Reject Instr) : Except Reject Instr := do
  mustBeZero (aOf w) .unusedField
  mustBeZero (bOf w) .unusedField
  k (cOf w)

/-- Format `A`: `a` = 7-bit address. -/
def formatA (w : Word) (k : Addr → Instr) : Except Reject Instr := do
  mustBeZero (bOf w) .unusedField
  mustBeZero (cOf w) .unusedField
  return k (← addrOf (aOf w))

/-- Format `AC`: `a` = 7-bit address, `c` = byte. -/
def formatAC (w : Word) (k : Addr → Byte → Instr) : Except Reject Instr := do
  mustBeZero (bOf w) .unusedField
  return k (← addrOf (aOf w)) (cOf w)

/-- Format `AB`: `a` = 7-bit address, `b` = count. -/
def formatAB (w : Word) (k : Addr → Byte → Instr) : Except Reject Instr := do
  mustBeZero (cOf w) .unusedField
  return k (← addrOf (aOf w)) (bOf w)

/-- Format `ABL`: `a` = 7-bit address, `b` = count, then the payload. -/
def formatABL (w : Word) (ys : List Word) (k : Addr → List Byte → Instr) : Except Reject Instr := do
  mustBeZero (cOf w) .unusedField
  return k (← addrOf (aOf w)) (← payloadOf ys)

/-- Format `BL`: `b` = count, then the payload. -/
def formatBL (w : Word) (ys : List Word) (k : List Byte → Instr) : Except Reject Instr := do
  mustBeZero (aOf w) .unusedField
  mustBeZero (cOf w) .unusedField
  return k (← payloadOf ys)

/-! ## Sub-fields of `c` (R92) -/

/-- `PIN_CFG`: `c[0]` dir, `c[2:1]` pull, `c[4:3]` irq, `c[7:5]` = 0. -/
def subPinCfg (p : Pin) (c : Byte) : Except Reject Instr := do
  mustBeZero (c.extractLsb' 5 3) .subField
  return .pinCfg p (if c.getLsbD 0 then .output else .input) (← pullOf c) (← irqOf c)

/-- `PIN_SET`: `c[0]` level, `c[7:1]` = 0. -/
def subPinSet (p : Pin) (c : Byte) : Except Reject Instr := do
  mustBeZero (c.extractLsb' 1 7) .subField
  return .pinSet p (c.getLsbD 0)

/-- `IRQ_REG`: `c[1:0]` mailbox, `c[4]` os, `c[3:2]` = 0, `c[7:5]` = 0. -/
def subIrqReg (p : Pin) (c : Byte) : Except Reject Instr := do
  mustBeZero (c.extractLsb' 2 2) .subField
  mustBeZero (c.extractLsb' 5 3) .subField
  return .irqReg p (← mbxOf (c.extractLsb' 0 2).toNat) (c.getLsbD 4)

/-- `I2C_M_READ`: `c[0]` ack, `c[7:1]` = 0. -/
def subRead (c : Byte) : Except Reject Instr := do
  mustBeZero (c.extractLsb' 1 7) .subField
  return .i2cMRead (c.getLsbD 0)

/-- `SPI_M_SETUP`, `SPI_S_SETUP`: `c[1:0]` mode, `c[7:2]` = 0. -/
def subMode (k : BitVec 2 → Instr) (c : Byte) : Except Reject Instr := do
  mustBeZero (c.extractLsb' 2 6) .subField
  return k (c.extractLsb' 0 2)

/-- A whole byte operand. -/
def subByte (k : Byte → Instr) (c : Byte) : Except Reject Instr := .ok (k c)

/-! ## The opcode map (R94) -/

/-- The command of one command word and its payload words, by `unit` and `op`. -/
def decodeWord (w : Word) (ys : List Word) : Except Reject Instr :=
  match (unitOf w).toNat, (opOf w).toNat with
  | 0, 0 => formatPC w subPinCfg
  | 0, 1 => formatPC w subPinSet
  | 0, 2 => formatP w .pinGet
  | 0, 3 => formatPC w subIrqReg
  | 0, 4 => formatP w .irqUnreg
  | 0, 5 => .ok (.waitUs (nOf w))
  | 0, _ => .error .op
  | 1, 0 => formatM w .mbxSignal
  | 1, 1 => formatM w .mbxWaitclr
  | 1, 2 => formatM w .mbxTest
  | 1, 3 => formatM w .mbxClear
  | 1, _ => .error .op
  | 2, 0 => formatZ w .i2cMSetup
  | 2, 1 => formatZ w .i2cMStart
  | 2, 2 => formatC w (subByte .i2cMWrite)
  | 2, 3 => formatZ w .i2cMAcks
  | 2, 4 => formatC w subRead
  | 2, 5 => formatZ w .i2cMStop
  | 2, 6 => formatABL w ys .i2cMXfer
  | 2, 7 => formatAB w .i2cMRdn
  | 2, 8 => formatZ w .i2cSSetup
  | 2, 9 => formatZ w .i2cSWstart
  | 2, 10 => formatZ w .i2cSRecv
  | 2, 11 => formatZ w .i2cSAck
  | 2, 12 => formatAC w .i2cSDisp
  | 2, 13 => formatZ w .i2cSWstop
  | 2, 14 => formatA w .i2cSServe
  | 2, _ => .error .op
  | 3, 0 => formatC w (subMode .spiMSetup)
  | 3, 1 => formatC w (subMode .spiSSetup)
  | 3, 4 => formatC w (subByte .spiMXchg0)
  | 3, 5 => formatC w (subByte .spiMXchg1)
  | 3, 6 => formatC w (subByte .spiMXchg2)
  | 3, 7 => formatC w (subByte .spiMXchg3)
  | 3, 8 => formatC w (subByte .spiSResp0)
  | 3, 9 => formatC w (subByte .spiSResp1)
  | 3, 10 => formatC w (subByte .spiSResp2)
  | 3, 11 => formatC w (subByte .spiSResp3)
  | 3, _ => .error .op
  | 4, 0 => formatZ w .uartTxSetup
  | 4, 1 => formatC w (subByte .uartTxByte)
  | 4, 2 => formatBL w ys .uartSend
  | 4, 3 => formatZ w .uartRxSetup
  | 4, 4 => formatZ w .uartRxFrame
  | 4, 5 => formatZ w .uartRxLoop
  | 4, _ => .error .op
  | _, _ => .error .unit

/-- How many payload words follow a command word: `b` for `I2C_M_XFER` (2.6) and `UART_SEND` (4.2), told from the command
word alone, reserved or not (R93, R97). -/
def payloadWords (w : Word) : Nat :=
  match (unitOf w).toNat, (opOf w).toNat with
  | 2, 6 => (bOf w).toNat
  | 4, 2 => (bOf w).toNat
  | _, _ => 0

/-- What a stream of words begins with. -/
inductive Decoded where
  /-- a well-formed command -/
  | instr (i : Instr)
  /-- a reserved command, the reason, and how many words it consumes (R97) -/
  | reserved (why : Reject) (len : Nat)
  /-- no whole command: the stream is empty or ends inside a payload (log 16) -/
  | incomplete
deriving DecidableEq, Repr

/-- Decode the command a stream of words begins with. -/
def decode : List Word → Decoded
  | [] => .incomplete
  | w :: ws =>
    if (ws.take (payloadWords w)).length < payloadWords w then .incomplete
    else
      match decodeWord w (ws.take (payloadWords w)) with
      | .ok i => .instr i
      | .error r => .reserved r (1 + payloadWords w)

/-! ## The encoder -/

/-- `{unit, op, a, b, c}` (R90). -/
def mkWord (unit op : BitVec 4) (a b c : Byte) : Word :=
  unit ++ op ++ a ++ b ++ c

/-- A count or length operand. -/
def countByte (n : Nat) : Byte := BitVec.ofNat 8 n

/-- The field `a` of a 7-bit address. -/
def addrByte (x : Addr) : Byte := x.setWidth 8

/-- `c` of `PIN_CFG`: `{000, irq, pull, dir}` (R92). -/
def pinCfgByte (d : Dir) (pl : Pull) (ir : Irq) : Byte := (ir.code <<< 3) ||| (pl.code <<< 1) ||| d.code

/-- `c` of `IRQ_REG`: `{000, os, 00, m}` (R92). -/
def irqRegByte (m : Mbx) (os : Bool) : Byte := (boolCode os <<< 4) ||| m.code

/-- The command word (R90 to R94). -/
def encodeWord : Instr → Word
  | .pinCfg p d pl ir => mkWord 0 0 p.code 0 (pinCfgByte d pl ir)
  | .pinSet p v => mkWord 0 1 p.code 0 (boolCode v)
  | .pinGet p => mkWord 0 2 p.code 0 0
  | .irqReg p m os => mkWord 0 3 p.code 0 (irqRegByte m os)
  | .irqUnreg p => mkWord 0 4 p.code 0 0
  | .waitUs n => mkWord 0 5 (n.extractLsb' 16 8) (n.extractLsb' 8 8) (n.extractLsb' 0 8)
  | .mbxSignal m => mkWord 1 0 m.code 0 0
  | .mbxWaitclr m => mkWord 1 1 m.code 0 0
  | .mbxTest m => mkWord 1 2 m.code 0 0
  | .mbxClear m => mkWord 1 3 m.code 0 0
  | .i2cMSetup => mkWord 2 0 0 0 0
  | .i2cMStart => mkWord 2 1 0 0 0
  | .i2cMWrite x => mkWord 2 2 0 0 x
  | .i2cMAcks => mkWord 2 3 0 0 0
  | .i2cMRead ack => mkWord 2 4 0 0 (boolCode ack)
  | .i2cMStop => mkWord 2 5 0 0 0
  | .i2cMXfer addr ys => mkWord 2 6 (addrByte addr) (countByte ys.length) 0
  | .i2cMRdn addr count => mkWord 2 7 (addrByte addr) count 0
  | .i2cSSetup => mkWord 2 8 0 0 0
  | .i2cSWstart => mkWord 2 9 0 0 0
  | .i2cSRecv => mkWord 2 10 0 0 0
  | .i2cSAck => mkWord 2 11 0 0 0
  | .i2cSDisp lsa v => mkWord 2 12 (addrByte lsa) 0 v
  | .i2cSWstop => mkWord 2 13 0 0 0
  | .i2cSServe lsa => mkWord 2 14 (addrByte lsa) 0 0
  | .spiMSetup m => mkWord 3 0 0 0 (m.setWidth 8)
  | .spiSSetup m => mkWord 3 1 0 0 (m.setWidth 8)
  | .spiMXchg0 x => mkWord 3 4 0 0 x
  | .spiMXchg1 x => mkWord 3 5 0 0 x
  | .spiMXchg2 x => mkWord 3 6 0 0 x
  | .spiMXchg3 x => mkWord 3 7 0 0 x
  | .spiSResp0 x => mkWord 3 8 0 0 x
  | .spiSResp1 x => mkWord 3 9 0 0 x
  | .spiSResp2 x => mkWord 3 10 0 0 x
  | .spiSResp3 x => mkWord 3 11 0 0 x
  | .uartTxSetup => mkWord 4 0 0 0 0
  | .uartTxByte x => mkWord 4 1 0 0 x
  | .uartSend ys => mkWord 4 2 0 (countByte ys.length) 0
  | .uartRxSetup => mkWord 4 3 0 0 0
  | .uartRxFrame => mkWord 4 4 0 0 0
  | .uartRxLoop => mkWord 4 5 0 0 0

/-- The words of a command: the command word, then payload byte `k` in payload word `k` (R93). -/
def encode (i : Instr) : List Word :=
  encodeWord i :: i.payload.map (fun y => y.setWidth 32)

/-! ## A table row's word (the host's numbering: bit 0 is the least significant bit of the first word) -/

/-- The most words a command takes: `1 + 255` (R93). -/
def longestCommand : Nat := 256

/-- The words of an instruction whose bits are `w`, every bit above `nbits` 0, up to the longest command: a word for each 32
bits of `nbits` begun, then words of zeros. -/
def tableWords (nbits w : Nat) : List Word :=
  let v := w % 2 ^ nbits
  let k := (nbits + 31) / 32
  (List.range k).map (fun j => BitVec.ofNat 32 (v >>> (32 * j))) ++ List.replicate (longestCommand - k) 0

/-- The command the decoder reads from an instruction whose bits are `w`; none where it refuses. -/
def decodeTableWord (nbits w : Nat) : Option Instr :=
  match decode (tableWords nbits w) with
  | .instr i => some i
  | _ => none

end Sys2Proof
end

