-- ==== Sys2Proof/Machine/Micro.lean ====
section
/-! DEFINITION. The micro-operations a command is made of: the pseudocode primitives of 00_scope.md R8 and the register
assignments of the command rules. `SEQ_POS` (10_state.md R21) is a list of them. -/

namespace Sys2Proof.Machine

/-- `I2C_ROLE` and `SPI_ROLE`: codes 0, 1, 2; 3 is never held (10_state.md R27, R29). -/
inductive Role where
  | none | master | slave
deriving DecidableEq, Repr

/-- `I2C_M_STATE`, codes 0 to 5 in this order (10_state.md R28). -/
inductive MState where
  | idle | start | address | waitAck | data | stop
deriving DecidableEq, Repr

/-- `I2C_S_STATE`, codes 0 to 5 in this order (10_state.md R28). -/
inductive SState where
  | idleMonitor | startDetected | receiveByte | sendAck | dispatch | stopMonitor
deriving DecidableEq, Repr

/-- The value a `PIN_SET` writes: a constant, or a bit of a shift register. -/
inductive OutBit where
  | const (v : Bool)
  /-- `I2C_SHIFT[i]` -/
  | i2cShift (i : Fin 8)
  /-- `SPI_SHO[i]` -/
  | spiSho (i : Fin 8)
  /-- `UART_TXSH[i]` -/
  | uartTxsh (i : Fin 8)
deriving DecidableEq, Repr

/-- Where a `PIN_GET` puts its sample. -/
inductive Dest where
  /-- the sequencer's own place: `s` of R154, `stop` of R245, the level of R113 -/
  | tmp
  /-- `I2C_SHIFT[i]` -/
  | i2cShift (i : Fin 8)
  /-- `SPI_SHI[i]` -/
  | spiShi (i : Fin 8)
  /-- `UART_RXSH[i]` -/
  | uartRxsh (i : Fin 8)
deriving DecidableEq, Repr

/-- What a failed `PIN_CFG` or `IRQ_REG` does to its command (40_pin_ops.md R117; 60_exceptions.md R274). -/
inductive CfgUse where
  /-- issued directly or by a setup command: the command stops and returns `CFG_FAIL` -/
  | checked
  /-- in the middle of a transfer: the status is discarded -/
  | discarded
deriving DecidableEq, Repr

/-- The condition of a `spin until` (20_memory.md R72). -/
inductive SpinCond where
  /-- `MBX_TEST(m) == 1`, the flag kept -/
  | flag (m : Mbx)
  /-- `FLAG[m] == 1`, the flag cleared in the step that finds it 1 (41_mailbox.md R134) -/
  | flagClear (m : Mbx)
  /-- `PIN_GET(p) == v` -/
  | level (p : Pin) (v : Bool)
  /-- `PIN_GET(SCL) == 1 and MBX_TEST(M_I2C) == 1`, SCL read first (43_i2c_slave.md R182) -/
  | startSeen
deriving DecidableEq, Repr

/-- The register assignments of the command rules (`x <- v`, 00_scope.md R8), the appends to a result list, and the
notifications. -/
inductive RegOp where
  /-- `I2C_ROLE <- r` -/
  | i2cRole (r : Role)
  /-- `I2C_M_STATE <- x` -/
  | mState (x : MState)
  /-- `if I2C_M_STATE != ADDRESS: I2C_M_STATE <- DATA` (42_i2c_master.md R153) -/
  | mStateWrite
  /-- `I2C_S_STATE <- x` -/
  | sState (x : SState)
  /-- `I2C_SHIFT <- v ; I2C_BITCNT <- 8` -/
  | i2cLoad (v : Byte)
  /-- `I2C_BITCNT <- I2C_BITCNT - 1` -/
  | i2cDec
  /-- `I2C_ACK <- (s == 0)` (42_i2c_master.md R154) -/
  | i2cAck
  /-- `acks.append(a)` (42_i2c_master.md R157) -/
  | pushAck
  /-- `out.append(v)` (42_i2c_master.md R158) -/
  | pushByte
  /-- `emit EVT_DISPATCH(d, v)` where the dispatch of `v` = `I2C_SHIFT` on `lsa` is not `NONE` (43_i2c_slave.md R187) -/
  | emitDispatch (lsa : Addr)
  /-- `SPI_ROLE <- r` -/
  | spiRole (r : Role)
  /-- `SPI_MODE <- m` -/
  | spiMode (m : BitVec 2)
  /-- `SPI_SHO <- x ; SPI_SHI <- 0 ; SPI_BITCNT <- 8` -/
  | spiLoad (x : Byte)
  /-- `SPI_BITCNT <- SPI_BITCNT - 1` -/
  | spiDec
  /-- `UART_TX_RDY <- v` -/
  | uartTxRdy (v : Bool)
  /-- `UART_RX_RDY <- v` -/
  | uartRxRdy (v : Bool)
  /-- `UART_TXSH <- x ; UART_BITCNT <- 8` -/
  | uartTxLoad (x : Byte)
  /-- `UART_RXSH <- 0 ; UART_BITCNT <- 8` -/
  | uartRxLoad
  /-- `UART_BITCNT <- UART_BITCNT - 1` -/
  | uartDec
  /-- `RX_IDX <- 0` -/
  | rxIdxZero
  /-- the valid and invalid arms of the stop bit and `buffer_full()` (45_uart.md R245, R247), in one step: DESIGN CHOICE (log 28) -/
  | rxStop
  /-- `emit EVT_FRAME_DONE` (45_uart.md R245, R248) -/
  | emitFrameDone
deriving DecidableEq, Repr

/-- One micro-operation: one atomic step of the sequencer (00_scope.md R9), except `wait`, which lasts. -/
inductive Micro where
  /-- a register assignment -/
  | reg (r : RegOp)
  /-- `PIN_CFG(p, dir, pull, irq)` (40_pin_ops.md R111) -/
  | pinCfg (p : Pin) (dir : Dir) (pull : Pull) (irq : Irq) (use : CfgUse)
  /-- `PIN_SET(p, v)` (40_pin_ops.md R112) -/
  | pinSet (p : Pin) (v : OutBit)
  /-- `d <- PIN_GET(p)` (40_pin_ops.md R113) -/
  | sample (p : Pin) (d : Dest)
  /-- `IRQ_REG(p, m, os)` (40_pin_ops.md R114) -/
  | irqReg (p : Pin) (m : Mbx) (os : Bool) (use : CfgUse)
  /-- `IRQ_UNREG(p)` (40_pin_ops.md R115) -/
  | irqUnreg (p : Pin)
  /-- `WAIT_US(n)` (40_pin_ops.md R116); in progress while `WAITREM` > 0 -/
  | wait (n : Nat)
  /-- `result <- FLAG[m]` (41_mailbox.md R135) -/
  | mbxTest (m : Mbx)
  /-- `FLAG[m] <- 0` (41_mailbox.md R136) -/
  | mbxClear (m : Mbx)
  /-- `spin until c` (20_memory.md R72); `again` after an evaluation that found `c` false -/
  | spin (c : SpinCond) (again : Bool)
  /-- one pass of the loop of `I2C_S_WSTOP` (43_i2c_slave.md R186): on `STOP` the micro-operations after it run, on
  `NO_STOP` the next `detected` of them are left out; `again` after a pass that ended in neither -/
  | stopPass (detected : Nat) (again : Bool)
  /-- on a NACK (`I2C_ACK` = 0) only the last `keep` micro-operations of the command, its STOP, still run
  (42_i2c_master.md R157, R158) -/
  | nackKeep (keep : Nat)
  /-- `forever: UART_RX_FRAME()`: the next frame's micro-operations, then this again (45_uart.md R248) -/
  | rxAgain
deriving DecidableEq, Repr

/-- What the status word and the value words of a command are when it returns (30_encoding.md R95, R98). -/
inductive Ret where
  /-- `OK`, value 0 -/
  | ok
  /-- `OK`, value = `tmp` (a level, a flag, a stop result) -/
  | bit
  /-- `OK`, value = `I2C_ACK` -/
  | i2cAck
  /-- `OK`, value = `I2C_SHIFT` -/
  | i2cShift
  /-- `OK`, value = `SPI_SHI` -/
  | spiShi
  /-- `OK`, a value fixed by the operands (the dispatch code of `I2C_S_DISP`) -/
  | const (v : Byte)
  /-- `OK`, value = the number of gathered bytes, then one word for each (`I2C_M_XFER`, `I2C_M_RDN`) -/
  | gathered
  /-- `OK`, the received byte, then the dispatch code and the stop result (`I2C_S_SERVE`) -/
  | serve (lsa : Addr)
  /-- `CFG_FAIL` -/
  | cfgFail
deriving DecidableEq, Repr

end Sys2Proof.Machine
end

