-- ==== Sys2Proof/Machine/State.lean ====
section
/-! DEFINITION. The state of BBSE (10_state.md R20 to R35) and the model's environment beside it, as plain data; the
reasons a step could stop; the state after reset (R35, 70_reset_and_hazards.md R310, R311). -/

namespace Sys2Proof.Machine

/-! ## Tables indexed by pin and by mailbox -/

/-- One value for each logical pin (10_state.md R24). -/
structure PerPin (α : Type) where
  sda : α
  scl : α
  sclk : α
  sdo : α
  sdi : α
  cs : α
  tx : α
  rx : α
deriving DecidableEq, Repr

/-- The value of pin `p`. -/
def PerPin.get {α : Type} (t : PerPin α) : Pin → α
  | .sda => t.sda | .scl => t.scl | .sclk => t.sclk | .sdo => t.sdo
  | .sdi => t.sdi | .cs => t.cs | .tx => t.tx | .rx => t.rx

/-- The table with the value of pin `p` replaced. -/
def PerPin.set {α : Type} (t : PerPin α) (p : Pin) (v : α) : PerPin α :=
  match p with
  | .sda => { t with sda := v } | .scl => { t with scl := v } | .sclk => { t with sclk := v }
  | .sdo => { t with sdo := v } | .sdi => { t with sdi := v } | .cs => { t with cs := v }
  | .tx => { t with tx := v } | .rx => { t with rx := v }

/-- One value for each mailbox (10_state.md R25). -/
structure PerMbx (α : Type) where
  mI2c : α
  mSpi : α
  mUart : α
deriving DecidableEq, Repr

/-- The value of mailbox `m`. -/
def PerMbx.get {α : Type} (t : PerMbx α) : Mbx → α
  | .mI2c => t.mI2c | .mSpi => t.mSpi | .mUart => t.mUart

/-- The table with the value of mailbox `m` replaced. -/
def PerMbx.set {α : Type} (t : PerMbx α) (m : Mbx) (v : α) : PerMbx α :=
  match m with
  | .mI2c => { t with mI2c := v } | .mSpi => { t with mSpi := v } | .mUart => { t with mUart := v }

/-! ## The registers -/

/-- A registered edge handler: the mailbox it signals, and whether it unregisters itself (10_state.md R24). -/
structure Handler where
  mbx : Mbx
  once : Bool
deriving DecidableEq, Repr

/-- The five fields of a pin (10_state.md R24). -/
structure PinRegs where
  /-- `DIR[p]` -/
  dir : Dir
  /-- `PULL[p]` -/
  pull : Pull
  /-- `IRQ[p]` -/
  irq : Irq
  /-- `LAT[p]` -/
  lat : Bool
  /-- `HND[p]` -/
  hnd : Option Handler
deriving DecidableEq, Repr

/-- An accepted command: the command word and its payload words. -/
structure Command where
  word : Word
  payload : List Word
deriving DecidableEq, Repr

/-- The sequencer (10_state.md R21). `pos`, `tmp`, `out` and `ret` together are `SEQ_POS`. -/
structure Seq where
  /-- `SEQ_BUSY` -/
  busy : Bool
  /-- `SEQ_CMD` -/
  cmd : Command
  /-- the micro-operations still to run -/
  pos : List Micro
  /-- the last sample or flag read that no register holds -/
  tmp : Bool
  /-- the value bytes gathered so far, in order -/
  out : List Byte
  /-- which result the command returns -/
  ret : Ret
  /-- `WAITREM` -/
  waitRem : Nat
deriving DecidableEq, Repr

/-- The I2C registers (10_state.md R26, R27). -/
structure I2c where
  /-- `I2C_ROLE` -/
  role : Role
  /-- `I2C_M_STATE` -/
  mState : MState
  /-- `I2C_S_STATE` -/
  sState : SState
  /-- `I2C_SHIFT` -/
  shift : Byte
  /-- `I2C_BITCNT` -/
  bitcnt : BitVec 4
  /-- `I2C_ACK` -/
  ack : Bool
deriving DecidableEq, Repr

/-- The SPI registers (10_state.md R29). -/
structure Spi where
  /-- `SPI_ROLE` -/
  role : Role
  /-- `SPI_MODE` -/
  mode : BitVec 2
  /-- `SPI_SHO` -/
  sho : Byte
  /-- `SPI_SHI` -/
  shi : Byte
  /-- `SPI_BITCNT` -/
  bitcnt : BitVec 4
deriving DecidableEq, Repr

/-- The Receive Frame Buffer: (index, byte) pairs, indices strictly rising. An unlisted index holds no value (log 3). -/
abbrev Memory := List Host.Cell

/-- The UART registers (10_state.md R30). -/
structure Uart where
  /-- `UART_TX_RDY` -/
  txRdy : Bool
  /-- `UART_RX_RDY` -/
  rxRdy : Bool
  /-- `UART_TXSH` -/
  txsh : Byte
  /-- `UART_RXSH` -/
  rxsh : Byte
  /-- `UART_BITCNT` -/
  bitcnt : BitVec 4
  /-- `RX_BUF` -/
  rxBuf : Memory
  /-- `RX_IDX` -/
  rxIdx : Nat
deriving DecidableEq, Repr

/-! ## The model's environment (10_state.md R20: not state of the block) -/

/-- What the environment drives onto a line: `EXT[p]` (20_memory.md R63). -/
inductive Ext where
  | d0 | d1 | z
deriving DecidableEq, Repr

/-- One coming act of the agents around the sequencer (00_scope.md R12), in the order they happen. -/
inductive EnvAct where
  /-- the sequencer's turn: one step of it -/
  | turn
  /-- `EXT[p] <- e` (20_memory.md R63) -/
  | drive (p : Pin) (e : Ext)
  /-- `d` microseconds pass, where 20_memory.md R70 lets time pass -/
  | pass (d : Nat)
  /-- the reset input (70_reset_and_hazards.md R310) -/
  | reset
deriving DecidableEq, Repr

/-- What `TRACE` records (00_scope.md R13; log 12). -/
inductive Event where
  | pinWrite (p : Pin) (v : Bool)
  | pinConfig (p : Pin) (dir : Dir) (pull : Pull) (irq : Irq) (ok : Bool)
  | pinSample (p : Pin) (v : Bool)
  | handlerReg (p : Pin) (m : Mbx) (os : Bool) (ok : Bool)
  | handlerUnreg (p : Pin)
  | waitStart (n : Nat)
  | flagSet (m : Mbx)
  | flagClear (m : Mbx)
  | flagTest (m : Mbx) (v : Bool)
  /-- one byte of the flush report (`rpt_byte`, 30_encoding.md R96) -/
  | report (b : Byte)
  /-- a notification: `evt_code`, and the byte of `EVT_DISPATCH` (0 for `EVT_FRAME_DONE`) -/
  | notify (code : BitVec 4) (b : Byte)
  /-- the result words a command returns -/
  | result (ws : List Word)
  | reset
deriving DecidableEq, Repr

/-- A `TRACE` entry stamped with `NOW`. -/
structure Stamped where
  time : Nat
  event : Event
deriving DecidableEq, Repr

/-- The lines' environment, time, observation, the host's stream, and the coming free choices. -/
structure Env where
  /-- `EXT[p]` -/
  ext : PerPin Ext
  /-- `NOW` -/
  now : Nat
  /-- `TRACE`, newest entry first -/
  trace : List Stamped
  /-- the coming acts of the environment, next first (log 6) -/
  plan : List EnvAct
  /-- the host's command stream, indexed by `CP` (10_state.md R23) -/
  stream : List Word
  /-- `CP` -/
  cp : Nat
  /-- the result words last returned -/
  res : List Word
  /-- the platform's coming answers, next first; after them `Config.cfgAnswer` (log 7) -/
  cfgOutcomes : List Bool
  /-- the coming draws of X lines, next first; after them `Config.xDraw` (log 8) -/
  xDraws : List Bool
  /-- the counter the free values of Config are applied to -/
  freeCtr : Nat
deriving DecidableEq, Repr

/-- The machine. -/
structure State where
  /-- the open parameters of 00_scope.md R6; no step changes them -/
  cfg : Config.Params
  seq : Seq
  pins : PerPin PinRegs
  /-- `FLAG[m]` -/
  flag : PerMbx Bool
  i2c : I2c
  spi : Spi
  uart : Uart
  env : Env
deriving DecidableEq, Repr

/-- No fault: "The block raises no synchronous exception" (60_exceptions.md R270). Nothing stops the machine, so the type
has no constructor. -/
inductive Fault where
deriving DecidableEq, Repr

/-- Why an instruction would have no meaning here. -/
inductive Refusal where
  /-- An instruction this model gives no meaning to. No arm of `exec` raises it: all 41 commands have their meaning. Safe:
  the model would stop where the hardware goes on. -/
  | notModelled (mnemonic : String)
deriving DecidableEq, Repr

/-- A pin after reset (10_state.md R35). -/
def PinRegs.reset : PinRegs :=
  { dir := .input, pull := .none, irq := .none, lat := false, hnd := Option.none }

/-- The same value for every pin. -/
def PerPin.all {α : Type} (v : α) : PerPin α :=
  { sda := v, scl := v, sclk := v, sdo := v, sdi := v, cs := v, tx := v, rx := v }

/-- The sequencer after reset: idle (R35); `SEQ_CMD` and `SEQ_POS` are unspecified there (log 2). -/
def Seq.reset : Seq :=
  { busy := false, cmd := { word := 0, payload := [] }, pos := [], tmp := false, out := [], ret := .ok, waitRem := 0 }

/-- The I2C registers after reset (R35; `shift` and `bitcnt` unspecified there, log 1). -/
def I2c.reset : I2c :=
  { role := .none, mState := .idle, sState := .idleMonitor, shift := 0, bitcnt := 0, ack := false }

/-- The SPI registers after reset (R35; `sho`, `shi`, `bitcnt` unspecified there, log 1). -/
def Spi.reset : Spi := { role := .none, mode := 0, sho := 0, shi := 0, bitcnt := 0 }

/-- The UART registers after reset (R35; shift registers and counter unspecified, log 1; no buffer entry holds a value,
log 3). -/
def Uart.reset : Uart :=
  { txRdy := false, rxRdy := false, txsh := 0, rxsh := 0, bitcnt := 0, rxBuf := [], rxIdx := 0 }

/-- The mailbox flags after reset: "cleared" (R35). -/
def flagReset : PerMbx Bool := { mI2c := false, mSpi := false, mUart := false }

/-- The model's environment at the start: nobody drives a line, no time has passed, nothing observed, an empty stream with
`CP` = 0 (10_state.md R23), no planned act and no given draw (log 4). -/
def Env.start : Env :=
  { ext := PerPin.all .z, now := 0, trace := [], plan := [], stream := [], cp := 0, res := [], cfgOutcomes := [],
    xDraws := [], freeCtr := 0 }

/-- The machine right after reset (10_state.md R35, 70_reset_and_hazards.md R311), with the parameters of this
implementation. -/
def State.reset : State :=
  { cfg := Config.params, seq := Seq.reset, pins := PerPin.all PinRegs.reset, flag := flagReset, i2c := I2c.reset,
    spi := Spi.reset, uart := Uart.reset, env := Env.start }

end Sys2Proof.Machine
end

