-- ==== Sys2Proof/Machine/Operands.lean ====
section
/-! DEFINITION. What the commands compute from their operands (00_scope.md R10): frame assembly, the address byte, the
address compare, bit orders, the SPI idle level. -/

namespace Sys2Proof.Machine

/-- Bit 7 first, down to bit 0: the order of I2C and SPI frames (20_memory.md R66). -/
def msbFirst : List (Fin 8) := [7, 6, 5, 4, 3, 2, 1, 0]

/-- Bit 0 first, up to bit 7: the order of UART frames (20_memory.md R66). -/
def lsbFirst : List (Fin 8) := [0, 1, 2, 3, 4, 5, 6, 7]

/-- `v[i] <- b` (00_scope.md R10 items 1 and 2). -/
def setBit (v : Byte) (i : Fin 8) (b : Bool) : Byte :=
  if b then v ||| (1#8 <<< i.val) else v &&& ~~~(1#8 <<< i.val)

/-- `v[i]`. -/
def bitOf (v : Byte) (i : Fin 8) : Bool := v.getLsbD i.val

/-- The address byte `{addr[6:0], rw}` (00_scope.md R10 item 3). -/
def addressByte (addr : Addr) (rw : Bool) : Byte := addr ++ BitVec.ofBool rw

/-- The dispatch code of a received byte: 0 = `NONE`, 1 = `WRITE_REQ`, 2 = `READ_REQ` (43_i2c_slave.md R185; the compare
is 00_scope.md R10 item 4). -/
def dispatchCode (lsa : Addr) (v : Byte) : Byte :=
  if v.extractLsb' 1 7 = lsa then (if v.getLsbD 0 then 2 else 1) else 0

/-- `idle(m)` = `m[1]`: the clock idle level of an SPI mode (44_spi.md R211). -/
def idleLevel (m : BitVec 2) : Bool := m.getLsbD 1

/-- A bit as a byte: 1 or 0. -/
def bitByte (b : Bool) : Byte := if b then 1 else 0

/-- The value of an output bit. -/
def OutBit.value (s : State) : OutBit → Bool
  | .const v => v
  | .i2cShift i => bitOf s.i2c.shift i
  | .spiSho i => bitOf s.spi.sho i
  | .uartTxsh i => bitOf s.uart.txsh i

/-- A sample put where it belongs. -/
def Dest.store (b : Bool) (s : State) : Dest → State
  | .tmp => { s with seq := { s.seq with tmp := b } }
  | .i2cShift i => { s with i2c := { s.i2c with shift := setBit s.i2c.shift i b } }
  | .spiShi i => { s with spi := { s.spi with shi := setBit s.spi.shi i b } }
  | .uartRxsh i => { s with uart := { s.uart with rxsh := setBit s.uart.rxsh i b } }

end Sys2Proof.Machine
end

