-- ==== Sys2Proof/Machine/Flags.lean ====
section
/-! DEFINITION. The single-bit status values (10_state.md R33), the gates (30_encoding.md R99), and the status and result
words (30_encoding.md R95, R98). -/

namespace Sys2Proof.Machine

/-! ## Gates (30_encoding.md R99) -/

/-- A command that is never gated. -/
def gateNone (_ : State) : Bool := true

/-- `I2C_ROLE` = `MASTER`. -/
def gateI2cMaster (s : State) : Bool := s.i2c.role == .master

/-- `I2C_ROLE` = `SLAVE`. -/
def gateI2cSlave (s : State) : Bool := s.i2c.role == .slave

/-- `SPI_ROLE` = `MASTER` and `SPI_MODE` = `m`. -/
def gateSpiMaster (m : BitVec 2) (s : State) : Bool := s.spi.role == .master && s.spi.mode == m

/-- `SPI_ROLE` = `SLAVE` and `SPI_MODE` = `m`. -/
def gateSpiSlave (m : BitVec 2) (s : State) : Bool := s.spi.role == .slave && s.spi.mode == m

/-- `UART_TX_RDY` = 1. -/
def gateUartTx (s : State) : Bool := s.uart.txRdy

/-- `UART_RX_RDY` = 1. -/
def gateUartRx (s : State) : Bool := s.uart.rxRdy

/-- `MBX_SIGNAL` issued by the host: never accepted. -/
def gateNever (_ : State) : Bool := false

/-! ## Status codes and result words -/

/-- `OK` (30_encoding.md R98). -/
def statusOk : BitVec 4 := 0
/-- `CFG_FAIL`. -/
def statusCfgFail : BitVec 4 := 1
/-- `REFUSED`. -/
def statusRefused : BitVec 4 := 2

/-- A result word: `Q[31:28]` = status, `Q[27:8]` = 0, `Q[7:0]` = value (30_encoding.md R95). -/
def resultWord (status : BitVec 4) (value : Byte) : Word := status ++ (0 : BitVec 20) ++ value

/-- A value word. -/
def valueWord (v : Byte) : Word := v.setWidth 32

/-- The count of gathered values in the status word. 256 acknowledgment results (a full transfer of 255 bytes) do not fit
`Q[7:0]`: no rule states the value then, and it is a free value (log 13). -/
def gatheredCount (s : State) : Byte :=
  if s.seq.out.length < 256 then BitVec.ofNat 8 s.seq.out.length else Config.freeByte s.env.freeCtr

/-- The result words of the command that returns now (30_encoding.md R95). -/
def resultWords (s : State) : List Word :=
  match s.seq.ret with
  | .ok => [resultWord statusOk 0]
  | .bit => [resultWord statusOk (bitByte s.seq.tmp)]
  | .i2cAck => [resultWord statusOk (bitByte s.i2c.ack)]
  | .i2cShift => [resultWord statusOk s.i2c.shift]
  | .spiShi => [resultWord statusOk s.spi.shi]
  | .const v => [resultWord statusOk v]
  | .gathered => resultWord statusOk (gatheredCount s) :: s.seq.out.map valueWord
  | .serve lsa =>
    [resultWord statusOk s.i2c.shift, valueWord (dispatchCode lsa s.i2c.shift), valueWord (bitByte s.seq.tmp)]
  | .cfgFail => [resultWord statusCfgFail 0]

/-- The result of a refused command (30_encoding.md R97, R98). -/
def refusedWords : List Word := [resultWord statusRefused 0]

end Sys2Proof.Machine
end

