-- ==== Sys2Proof/Machine/Lines.lean ====
section
/-! DEFINITION. Lines and their levels, and which transitions are edges (20_memory.md R62 to R65; 41_mailbox.md R131). -/

namespace Sys2Proof.Machine

/-- A line's resolved level: 0, 1 or `X` (20_memory.md R64). -/
inductive Level where
  | l0 | l1 | x
deriving DecidableEq, Repr

/-- The level a driver puts on a line. -/
def Level.ofBit (b : Bool) : Level := if b then .l1 else .l0

/-- What a latch drives. -/
def Ext.ofBit (b : Bool) : Ext := if b then .d1 else .d0

/-- The level of a line from the block's drive, the environment's drive and the pull (20_memory.md R64). -/
def resolve (blk ext : Ext) (pull : Pull) : Level :=
  match blk, ext with
  | .z, .z =>
    match pull with
    | .up => .l1
    | .down => .l0
    | .none => .x
  | .z, .d0 => .l0
  | .z, .d1 => .l1
  | .d0, .z => .l0
  | .d1, .z => .l1
  | .d0, .d0 => .l0
  | .d1, .d1 => .l1
  | .d0, .d1 => .x
  | .d1, .d0 => .x

/-- Whether a transition is the armed edge. -/
inductive EdgeMatch where
  | no
  | yes
  /-- a transition into or out of `X` in a direction the known side allows: a free choice (20_memory.md R65) -/
  | free
deriving DecidableEq, Repr

/-- The transition `old` to `new` against the armed edge `IRQ[p]` (41_mailbox.md R131; 20_memory.md R65). -/
def edgeMatch (irq : Irq) (old new : Level) : EdgeMatch :=
  match irq, old, new with
  | .falling, .l1, .l0 => .yes
  | .falling, .x, .l0 => .free
  | .falling, .l1, .x => .free
  | .rising, .l0, .l1 => .yes
  | .rising, .x, .l1 => .free
  | .rising, .l0, .x => .free
  | _, _, _ => .no

/-- What the block drives onto the line of pin `p`: its latch when the pin is an output, else nothing (20_memory.md R64).
It is also what another block wired to the pin sees as its `EXT` (R63). -/
def State.blk (s : State) (p : Pin) : Ext :=
  match (s.pins.get p).dir with
  | .output => Ext.ofBit (s.pins.get p).lat
  | .input => .z

/-- `LINE[p]` (20_memory.md R64). -/
def State.line (s : State) (p : Pin) : Level :=
  resolve (s.blk p) (s.env.ext.get p) (s.pins.get p).pull

end Sys2Proof.Machine
end

