-- ==== Sys2Proof/Machine/Memory.lean ====
section
/-! DEFINITION. The Receive Frame Buffer, the only byte-wide store of the block (20_memory.md R60, R69): reading and
writing one entry, and its one canonical form. -/

namespace Sys2Proof.Machine

/-- The byte entry `a` holds; `none` where nothing was written there (R35: "a model treats an unspecified register as
holding no value"; log 3). -/
def Memory.read? : Memory → Nat → Option Byte
  | [], _ => none
  | (k, v) :: m, a => if k = a then some v else Memory.read? m a

/-- `RX_BUF[a] <- v`, keeping the indices strictly rising. -/
def Memory.write : Memory → Nat → Byte → Memory
  | [], a, v => [(a, v)]
  | (k, w) :: m, a, v =>
    if a < k then (a, v) :: (k, w) :: m
    else if a = k then (a, v) :: m
    else (k, w) :: Memory.write m a v

/-- The canonical form: indices strictly rising. An unlisted entry holds no value, so no entry can repeat what an unlisted
one reads as. -/
def Memory.wf (m : Memory) : Bool := decide ((m.map Prod.fst).Pairwise (· < ·))

end Sys2Proof.Machine
end

