-- ==== Sys2Proof/Machine/Programs.lean ====
section
/-! DEFINITION. The micro-operations of each command, in the order its rule lists them (20_memory.md R71). -/

namespace Sys2Proof.Machine

open Config (Params)

/-! ## I2C master (42_i2c_master.md). `D` = `I2C_T_EDGE` (R150). -/

/-- R151. -/
def i2cMSetupProg : List Micro :=
  [.reg (.i2cRole .none),
   .pinSet .sda (.const true), .pinCfg .sda .output .none .none .checked,
   .pinSet .scl (.const true), .pinCfg .scl .output .none .none .checked,
   .reg (.i2cRole .master), .reg (.mState .idle)]

/-- R152. -/
def i2cMStartProg (c : Params) : List Micro :=
  [.reg (.mState .start),
   .pinSet .sda (.const true),
   .pinSet .scl (.const true), .wait c.i2cTEdge,
   .pinSet .sda (.const false), .wait c.i2cTEdge,
   .pinSet .scl (.const false), .wait c.i2cTEdge,
   .reg (.mState .address)]

/-- One data bit of R153. -/
def i2cMWriteBit (c : Params) (i : Fin 8) : List Micro :=
  [.pinSet .sda (.i2cShift i),
   .pinSet .scl (.const true), .wait c.i2cTEdge,
   .pinSet .scl (.const false), .wait c.i2cTEdge,
   .reg .i2cDec]

/-- R153. -/
def i2cMWriteProg (c : Params) (x : Byte) : List Micro :=
  ([.reg .mStateWrite, .reg (.i2cLoad x)] : List Micro) ++ msbFirst.flatMap (i2cMWriteBit c) ++
  ([.pinCfg .sda .input .down .none .discarded, .reg (.mState .waitAck)] : List Micro)

/-- R154. -/
def i2cMAcksProg (c : Params) : List Micro :=
  [.reg (.mState .waitAck),
   .pinSet .scl (.const true), .wait c.i2cTEdge,
   .sample .sda .tmp,
   .pinSet .scl (.const false), .wait c.i2cTEdge,
   .pinCfg .sda .output .none .none .discarded,
   .reg .i2cAck, .reg (.mState .data)]

/-- One data bit of R155. -/
def i2cMReadBit (c : Params) (i : Fin 8) : List Micro :=
  [.pinSet .scl (.const true), .wait c.i2cTEdge,
   .sample .sda (.i2cShift i),
   .pinSet .scl (.const false), .wait c.i2cTEdge,
   .reg .i2cDec]

/-- R155. -/
def i2cMReadProg (c : Params) (ack : Bool) : List Micro :=
  ([.reg (.mState .data), .pinCfg .sda .input .down .none .discarded, .reg (.i2cLoad 0)] : List Micro) ++
  msbFirst.flatMap (i2cMReadBit c) ++
  ([.reg (.mState .waitAck),
    .pinCfg .sda .output .none .none .discarded,
    .pinSet .sda (.const (!ack)),
    .pinSet .scl (.const true), .wait c.i2cTEdge,
    .pinSet .scl (.const false), .wait c.i2cTEdge,
    .reg (.mState .data)] : List Micro)

/-- R156. -/
def i2cMStopProg (c : Params) : List Micro :=
  [.reg (.mState .stop),
   .pinSet .sda (.const false),
   .pinSet .scl (.const true), .wait c.i2cTEdge,
   .pinSet .sda (.const true), .wait c.i2cTEdge,
   .reg (.mState .idle)]

/-- "a NACK ends the transaction: the STOP follows at once" (R157, R158). -/
def onNackStop (c : Params) : List Micro := [.nackKeep (i2cMStopProg c).length]

/-- A wire byte of R157 and its acknowledgment result. -/
def i2cMXferByte (c : Params) (x : Byte) : List Micro :=
  i2cMWriteProg c x ++ i2cMAcksProg c ++ ([.reg .pushAck] : List Micro)

/-- R157. -/
def i2cMXferProg (c : Params) (addr : Addr) (ys : List Byte) : List Micro :=
  i2cMStartProg c ++ i2cMXferByte c (addressByte addr false) ++
  ys.flatMap (fun y => onNackStop c ++ i2cMXferByte c y) ++
  i2cMStopProg c

/-- A byte read of R158 and its place in the result. -/
def i2cMRdnByte (c : Params) (ack : Bool) : List Micro := i2cMReadProg c ack ++ ([.reg .pushByte] : List Micro)

/-- R158: every byte but the last is answered with ACK. -/
def i2cMRdnProg (c : Params) (addr : Addr) (count : Nat) : List Micro :=
  i2cMStartProg c ++ i2cMWriteProg c (addressByte addr true) ++ i2cMAcksProg c ++ onNackStop c ++
  (List.range count).flatMap (fun k => i2cMRdnByte c (decide (k + 1 < count))) ++
  i2cMStopProg c

/-! ## I2C slave (43_i2c_slave.md) -/

/-- R181. -/
def i2cSSetupProg : List Micro :=
  [.reg (.i2cRole .none),
   .pinCfg .scl .input .none .none .checked,
   .pinCfg .sda .input .none .falling .checked,
   .irqReg .sda .mI2c false .checked,
   .mbxClear .mI2c,
   .reg (.i2cRole .slave), .reg (.sState .idleMonitor)]

/-- R182. -/
def i2cSWstartProg : List Micro :=
  [.reg (.sState .idleMonitor),
   .spin .startSeen false,
   .irqUnreg .sda, .pinCfg .sda .input .none .none .discarded,
   .pinCfg .scl .input .none .rising .discarded, .irqReg .scl .mI2c false .discarded,
   .mbxClear .mI2c,
   .reg (.sState .startDetected)]

/-- One data bit of R183. -/
def i2cSRecvBit (i : Fin 8) : List Micro :=
  [.spin (.flag .mI2c) false, .sample .sda (.i2cShift i), .mbxClear .mI2c, .reg .i2cDec]

/-- R183. -/
def i2cSRecvProg : List Micro :=
  ([.reg (.sState .receiveByte), .reg (.i2cLoad 0)] : List Micro) ++ msbFirst.flatMap i2cSRecvBit

/-- R184. -/
def i2cSAckProg (c : Params) : List Micro :=
  [.reg (.sState .sendAck),
   .pinCfg .sda .output .none .none .discarded, .pinSet .sda (.const false),
   .spin (.flag .mI2c) false, .mbxClear .mI2c,
   .wait c.i2cTAckHold,
   .pinCfg .sda .input .none .none .discarded]

/-- R185. -/
def i2cSDispProg : List Micro := [.reg (.sState .dispatch)]

/-- What R186 does on a detected STOP. -/
def i2cSStopSeen : List Micro :=
  [.pinCfg .sda .input .none .falling .discarded, .irqReg .sda .mI2c false .discarded,
   .mbxClear .mI2c,
   .reg (.sState .idleMonitor)]

/-- R186. -/
def i2cSWstopProg : List Micro :=
  ([.reg (.sState .stopMonitor),
    .irqUnreg .scl, .pinCfg .scl .input .none .none .discarded,
    .pinCfg .sda .input .none .rising .discarded, .irqReg .sda .mI2c false .discarded,
    .mbxClear .mI2c,
    .stopPass i2cSStopSeen.length false] : List Micro) ++ i2cSStopSeen

/-- R187. -/
def i2cSServeProg (c : Params) (lsa : Addr) : List Micro :=
  i2cSWstartProg ++ i2cSRecvProg ++ i2cSAckProg c ++ i2cSDispProg ++ ([.reg (.emitDispatch lsa)] : List Micro) ++ i2cSWstopProg

/-! ## SPI (44_spi.md). `H` = `SPI_T_HALF` (R210). -/

/-- R212. -/
def spiMSetupProg (m : BitVec 2) : List Micro :=
  [.reg (.spiRole .none),
   .pinSet .cs (.const true), .pinCfg .cs .output .none .none .checked,
   .pinSet .sclk (.const (idleLevel m)), .pinCfg .sclk .output .none .none .checked,
   .pinSet .sdo (.const false), .pinCfg .sdo .output .none .none .checked,
   .pinCfg .sdi .input .none .none .checked,
   .reg (.spiMode m), .reg (.spiRole .master)]

/-- R213. -/
def spiSSetupProg (m : BitVec 2) : List Micro :=
  [.reg (.spiRole .none),
   .pinCfg .sclk .input .none .none .checked,
   .pinCfg .sdi .input .none .none .checked,
   .pinSet .sdo (.const false), .pinCfg .sdo .output .none .none .checked,
   .pinCfg .cs .input .none .falling .checked,
   .irqReg .cs .mSpi false .checked,
   .mbxClear .mSpi,
   .reg (.spiMode m), .reg (.spiRole .slave)]

/-- One bit of a master exchange that sets up before the sampling (leading) edge, `lead` being the level after that edge:
modes 0 and 2 (R214, R216). -/
def spiMBitBefore (c : Params) (lead : Bool) (i : Fin 8) : List Micro :=
  [.pinSet .sdo (.spiSho i), .wait c.spiTHalf,
   .pinSet .sclk (.const lead), .sample .sdi (.spiShi i), .wait c.spiTHalf,
   .pinSet .sclk (.const (!lead)),
   .reg .spiDec]

/-- One bit of a master exchange that sets up on the leading edge and samples on the trailing one: modes 1 and 3 (R215,
R217). -/
def spiMBitOn (c : Params) (lead : Bool) (i : Fin 8) : List Micro :=
  [.pinSet .sclk (.const lead), .pinSet .sdo (.spiSho i), .wait c.spiTHalf,
   .pinSet .sclk (.const (!lead)), .sample .sdi (.spiShi i), .wait c.spiTHalf,
   .reg .spiDec]

/-- The start the four exchanges share (R224, R214 to R217). -/
def spiMBegin (x : Byte) : List Micro := [.reg (.spiLoad x), .pinSet .cs (.const false)]

/-- "releases chip-select high after the 8th bit" (modes 1 to 3). -/
def spiMRelease : List Micro := [.pinSet .cs (.const true)]

/-- R214: select is NOT raised at the end. -/
def spiMXchg0Prog (c : Params) (x : Byte) : List Micro :=
  spiMBegin x ++ msbFirst.flatMap (spiMBitBefore c true)

/-- R215. -/
def spiMXchg1Prog (c : Params) (x : Byte) : List Micro :=
  spiMBegin x ++ msbFirst.flatMap (spiMBitOn c true) ++ spiMRelease

/-- R216. -/
def spiMXchg2Prog (c : Params) (x : Byte) : List Micro :=
  spiMBegin x ++ msbFirst.flatMap (spiMBitBefore c false) ++ spiMRelease

/-- R217. -/
def spiMXchg3Prog (c : Params) (x : Byte) : List Micro :=
  spiMBegin x ++ msbFirst.flatMap (spiMBitOn c false) ++ spiMRelease

/-- One bit of a slave response that sets up before the sampling edge: modes 0 and 2 (R218, R220). -/
def spiSBitBefore (lead : Bool) (i : Fin 8) : List Micro :=
  [.pinSet .sdo (.spiSho i),
   .spin (.level .sclk lead) false,
   .sample .sdi (.spiShi i),
   .spin (.level .sclk (!lead)) false,
   .reg .spiDec]

/-- One bit of a slave response that sets up on the leading edge: modes 1 and 3 (R219, R221). -/
def spiSBitOn (lead : Bool) (i : Fin 8) : List Micro :=
  [.spin (.level .sclk lead) false,
   .pinSet .sdo (.spiSho i),
   .spin (.level .sclk (!lead)) false,
   .sample .sdi (.spiShi i),
   .reg .spiDec]

/-- The start the four responses share: the wait for select keeps the flag (R225). -/
def spiSBegin (x : Byte) : List Micro := [.reg (.spiLoad x), .spin (.flag .mSpi) false]

/-- "marks itself deselected" (R225). -/
def spiSDeselect : List Micro := [.mbxClear .mSpi]

/-- R218. -/
def spiSResp0Prog (x : Byte) : List Micro := spiSBegin x ++ msbFirst.flatMap (spiSBitBefore true) ++ spiSDeselect

/-- R219. -/
def spiSResp1Prog (x : Byte) : List Micro := spiSBegin x ++ msbFirst.flatMap (spiSBitOn true) ++ spiSDeselect

/-- R220. -/
def spiSResp2Prog (x : Byte) : List Micro := spiSBegin x ++ msbFirst.flatMap (spiSBitBefore false) ++ spiSDeselect

/-- R221. -/
def spiSResp3Prog (x : Byte) : List Micro := spiSBegin x ++ msbFirst.flatMap (spiSBitOn false) ++ spiSDeselect

/-! ## UART (45_uart.md). `B` = `UART_T_BIT`, `Hb` = `UART_T_HALF` (R240). -/

/-- R241. -/
def uartTxSetupProg : List Micro :=
  [.reg (.uartTxRdy false),
   .pinSet .tx (.const true), .pinCfg .tx .output .none .none .checked,
   .reg (.uartTxRdy true)]

/-- One data bit of R242. -/
def uartTxBit (c : Params) (i : Fin 8) : List Micro :=
  [.pinSet .tx (.uartTxsh i), .wait c.uartTBit, .reg .uartDec]

/-- R242. -/
def uartTxByteProg (c : Params) (x : Byte) : List Micro :=
  ([.reg (.uartTxLoad x), .pinSet .tx (.const false), .wait c.uartTBit] : List Micro) ++
  lsbFirst.flatMap (uartTxBit c) ++
  ([.pinSet .tx (.const true), .wait c.uartTBit] : List Micro)

/-- R243. -/
def uartSendProg (c : Params) (ys : List Byte) : List Micro := ys.flatMap (uartTxByteProg c)

/-- R244. -/
def uartRxSetupProg : List Micro :=
  [.reg (.uartRxRdy false),
   .pinCfg .rx .input .up .falling .checked,
   .irqReg .rx .mUart true .checked,
   .mbxClear .mUart,
   .reg .rxIdxZero, .reg (.uartRxRdy true)]

/-- One data bit of R245. -/
def uartRxBit (c : Params) (i : Fin 8) : List Micro :=
  [.wait c.uartTBit, .sample .rx (.uartRxsh i), .reg .uartDec]

/-- R245. -/
def uartRxFrameProg (c : Params) : List Micro :=
  ([.spin (.flagClear .mUart) false, .wait c.uartTHalf, .reg .uartRxLoad] : List Micro) ++
  lsbFirst.flatMap (uartRxBit c) ++
  ([.wait c.uartTBit, .sample .rx .tmp, .reg .rxStop, .irqReg .rx .mUart true .discarded] : List Micro)

/-- R248: a frame as `UART_RX_LOOP` runs it, with its notification after the re-arm, then the next one. -/
def uartRxLoopProg (c : Params) : List Micro := uartRxFrameProg c ++ ([.reg .emitFrameDone, .rxAgain] : List Micro)

end Sys2Proof.Machine
end

