-- ==== Sys2Proof/Machine/Ops.lean ====
section
/-! DEFINITION. The named operations: observation and free choices, the edge synchronizer (the block's interrupt entry),
the pin and mailbox primitives, the sequencer's step, the environment's acts, reset, and running a command. -/

namespace Sys2Proof.Machine

/-! ## Observation, plan, free choices -/

/-- Append an entry to `TRACE`, stamped with `NOW` (00_scope.md R13). -/
def State.log (e : Event) (s : State) : State :=
  { s with env := { s.env with trace := { time := s.env.now, event := e } :: s.env.trace } }

/-- `NOW <- NOW + d` (00_scope.md R10 item 8). -/
def State.addTime (d : Nat) (s : State) : State := { s with env := { s.env with now := s.env.now + d } }

/-- The environment's coming acts replaced. -/
def State.setPlan (plan : List EnvAct) (s : State) : State := { s with env := { s.env with plan := plan } }

/-- The next value of `freeCtr`. -/
def State.bumpFree (s : State) : State := { s with env := { s.env with freeCtr := s.env.freeCtr + 1 } }

/-- The platform's answer to the `PIN_CFG` or `IRQ_REG` made now: true = success (40_pin_ops.md R117; log 7). -/
def State.cfgAnswer (s : State) : Bool :=
  match s.env.cfgOutcomes with
  | b :: _ => b
  | [] => Config.cfgAnswer s.env.freeCtr

/-- The platform's answer used up. -/
def State.dropCfg (s : State) : State :=
  match s.env.cfgOutcomes with
  | _ :: bs => { s with env := { s.env with cfgOutcomes := bs } }
  | [] => s.bumpFree

/-- The draw of an X line made now (20_memory.md R65; log 8). -/
def State.xDraw (s : State) : Bool :=
  match s.env.xDraws with
  | b :: _ => b
  | [] => Config.xDraw s.env.freeCtr

/-- The draw used up. -/
def State.dropX (s : State) : State :=
  match s.env.xDraws with
  | _ :: bs => { s with env := { s.env with xDraws := bs } }
  | [] => s.bumpFree

/-! ## Mailboxes (41_mailbox.md) -/

/-- `signal()`: `FLAG[m] <- 1`; when it is 1 already nothing changes and the event is lost (R133, R137). -/
def State.signal (m : Mbx) (s : State) : State :=
  if s.flag.get m then s else ({ s with flag := s.flag.set m true }).log (.flagSet m)

/-- `MBX_CLEAR(m)`: `FLAG[m] <- 0` (R136). -/
def State.clearFlag (m : Mbx) (s : State) : State :=
  ({ s with flag := s.flag.set m false }).log (.flagClear m)

/-! ## The edge synchronizer: the block's interrupt entry (41_mailbox.md R131; 60_exceptions.md R279, R280) -/

/-- `HND[p] <- h`. -/
def State.setHandler (p : Pin) (h : Option Handler) (s : State) : State :=
  { s with pins := s.pins.set p { s.pins.get p with hnd := h } }

/-- Entry into the handler of pin `p`, the whole of it: it sets its mailbox's flag and, if one-shot, unregisters itself.
It saves nothing, switches nothing and has no vector; its return restores nothing (R279, R280), so no second operation
stands beside it. -/
def State.enterHandler (p : Pin) (h : Handler) (s : State) : State :=
  if h.once then (s.signal h.mbx).setHandler p none else s.signal h.mbx

/-- The edge synchronizer's action in a step that took the line of pin `p` from `old` to its level in `s`. `IRQ[p]` and
`HND[p]` are those after the step, which only a `PIN_CFG` changes (R131). -/
def State.edgeSync (p : Pin) (old : Level) (s : State) : State :=
  match (s.pins.get p).hnd with
  | none => s
  | some h =>
    match edgeMatch (s.pins.get p).irq old (s.line p) with
    | .no => s
    | .yes => s.enterHandler p h
    | .free => if s.xDraw then s.dropX.enterHandler p h else s.dropX

/-- A pin's fields replaced, the line re-resolved and the edge synchronizer acting in the same step (40_pin_ops.md R110;
20_memory.md R71). -/
def State.movePin (p : Pin) (r : PinRegs) (s : State) : State :=
  ({ s with pins := s.pins.set p r }).edgeSync p (s.line p)

/-- The environment's step `EXT[p] <- e` (20_memory.md R63). -/
def State.driveExt (p : Pin) (e : Ext) (s : State) : State :=
  ({ s with env := { s.env with ext := s.env.ext.set p e } }).edgeSync p (s.line p)

/-! ## Pin primitives (40_pin_ops.md) -/

/-- The level `PIN_GET(p)` returns now: the line's, or a draw when it is `X` (R113). -/
def State.readLevel (p : Pin) (s : State) : Bool :=
  match s.line p with
  | .l0 => false
  | .l1 => true
  | .x => s.xDraw

/-- The state after that `PIN_GET(p)`: the draw used up if the line is `X`, the sample observed. -/
def State.afterRead (p : Pin) (s : State) : State :=
  match s.line p with
  | .x => s.dropX.log (.pinSample p s.xDraw)
  | _ => s.log (.pinSample p (s.readLevel p))

/-- `PIN_SET(p, v)` (R112). -/
def State.pinSet (p : Pin) (v : Bool) (s : State) : State :=
  (s.log (.pinWrite p v)).movePin p { s.pins.get p with lat := v }

/-- A command stops here with `CFG_FAIL`: none of its micro-operations after this one runs (60_exceptions.md R274). -/
def State.failConfig (s : State) : State := { s with seq := { s.seq with pos := [], ret := .cfgFail } }

/-- What a failed configuration does to its command (40_pin_ops.md R117). -/
def State.onConfigFailure (use : CfgUse) (s : State) : State :=
  match use with
  | .checked => s.failConfig
  | .discarded => s

/-- `PIN_CFG(p, dir, pull, irq)`: all three fields in one step, `LAT` and `HND` kept, or no change on failure (R111,
R117). -/
def State.pinCfg (p : Pin) (dir : Dir) (pull : Pull) (irq : Irq) (use : CfgUse) (s : State) : State :=
  let t := s.dropCfg.log (.pinConfig p dir pull irq s.cfgAnswer)
  if s.cfgAnswer then t.movePin p { s.pins.get p with dir := dir, pull := pull, irq := irq }
  else t.onConfigFailure use

/-- `IRQ_REG(p, m, os)` (R114, R117). -/
def State.irqReg (p : Pin) (m : Mbx) (os : Bool) (use : CfgUse) (s : State) : State :=
  let t := s.dropCfg.log (.handlerReg p m os s.cfgAnswer)
  if s.cfgAnswer then t.setHandler p (some { mbx := m, once := os }) else t.onConfigFailure use

/-- `IRQ_UNREG(p)` (R115). -/
def State.irqUnreg (p : Pin) (s : State) : State := (s.log (.handlerUnreg p)).setHandler p none

/-! ## The Receive Frame Buffer (45_uart.md R245, R247) -/

/-- `RX_IDX <- n`. -/
def State.setRxIdx (n : Nat) (s : State) : State := { s with uart := { s.uart with rxIdx := n } }

/-- `RX_BUF[RX_IDX] <- UART_RXSH ; RX_IDX <- RX_IDX + 1`. An index at or above the capacity names no entry (20_memory.md
R60) and nothing is stored; no run reaches it (log 14). -/
def State.rxAppend (s : State) : State :=
  let buf := if s.uart.rxIdx < s.cfg.rxCap then Memory.write s.uart.rxBuf s.uart.rxIdx s.uart.rxsh else s.uart.rxBuf
  { s with uart := { s.uart with rxBuf := buf, rxIdx := s.uart.rxIdx + 1 } }

/-- One byte of the flush report; an entry nothing has written reads as a free byte (log 3). -/
def State.reportByte (s : State) (j : Nat) : State :=
  match Memory.read? s.uart.rxBuf j with
  | some b => s.log (.report b)
  | none => (s.log (.report (Config.freeByte s.env.freeCtr))).bumpFree

/-- `buffer_full()` (R247). -/
def State.bufferFull (s : State) : State :=
  match s.cfg.rxPolicy with
  | .flush => ((List.range s.cfg.rxCap).foldl State.reportByte s).setRxIdx 0
  | .reset => s.setRxIdx 0

/-- The arms of the stop bit, `tmp` being its sample (R245). DESIGN CHOICE: the spec does not say whether the store, the step of
`RX_IDX`, the full test, the report bytes and `RX_IDX <- 0` are one step or several; here they are one (log 28). -/
def State.rxStop (s : State) : State :=
  if s.seq.tmp then
    if s.rxAppend.uart.rxIdx = s.cfg.rxCap then s.rxAppend.bufferFull else s.rxAppend
  else s.setRxIdx 0

/-! ## Register assignments -/

/-- The notification of a dispatch: `evt_code` 1 for `WRITE_REQ`, 2 for `READ_REQ`; `NONE` emits nothing (30_encoding.md
R96). -/
def State.emitDispatch (lsa : Addr) (s : State) : State :=
  if dispatchCode lsa s.i2c.shift = 0 then s
  else s.log (.notify ((dispatchCode lsa s.i2c.shift).setWidth 4) s.i2c.shift)

/-- Append a byte to the gathered result. -/
def State.gather (b : Byte) (s : State) : State := { s with seq := { s.seq with out := s.seq.out ++ [b] } }

/-- The effect of a register assignment, append or notification. -/
def RegOp.apply (s : State) : RegOp → State
  | .i2cRole r => { s with i2c := { s.i2c with role := r } }
  | .mState x => { s with i2c := { s.i2c with mState := x } }
  | .mStateWrite => if s.i2c.mState = .address then s else { s with i2c := { s.i2c with mState := .data } }
  | .sState x => { s with i2c := { s.i2c with sState := x } }
  | .i2cLoad v => { s with i2c := { s.i2c with shift := v, bitcnt := 8 } }
  | .i2cDec => { s with i2c := { s.i2c with bitcnt := s.i2c.bitcnt - 1 } }
  | .i2cAck => { s with i2c := { s.i2c with ack := !s.seq.tmp } }
  | .pushAck => s.gather (bitByte s.i2c.ack)
  | .pushByte => s.gather s.i2c.shift
  | .emitDispatch lsa => s.emitDispatch lsa
  | .spiRole r => { s with spi := { s.spi with role := r } }
  | .spiMode m => { s with spi := { s.spi with mode := m } }
  | .spiLoad x => { s with spi := { s.spi with sho := x, shi := 0, bitcnt := 8 } }
  | .spiDec => { s with spi := { s.spi with bitcnt := s.spi.bitcnt - 1 } }
  | .uartTxRdy v => { s with uart := { s.uart with txRdy := v } }
  | .uartRxRdy v => { s with uart := { s.uart with rxRdy := v } }
  | .uartTxLoad x => { s with uart := { s.uart with txsh := x, bitcnt := 8 } }
  | .uartRxLoad => { s with uart := { s.uart with rxsh := 0, bitcnt := 8 } }
  | .uartDec => { s with uart := { s.uart with bitcnt := s.uart.bitcnt - 1 } }
  | .rxIdxZero => s.setRxIdx 0
  | .rxStop => s.rxStop
  | .emitFrameDone => s.log (.notify 3 0)

/-! ## Spin-waits (20_memory.md R72) -/

/-- One evaluation of a spin condition: whether it holds, and the state after its reads. The flag read and its clear in
`flagClear` are one step (41_mailbox.md R134). -/
def SpinCond.eval (s : State) : SpinCond → Bool × State
  | .flag m => (s.flag.get m, s)
  | .flagClear m => if s.flag.get m then (true, s.clearFlag m) else (false, s)
  | .level p v => (s.readLevel p == v, s.afterRead p)
  | .startSeen => (s.readLevel .scl && s.flag.get .mI2c, s.afterRead .scl)

/-! ## The sequencer (10_state.md R21; 30_encoding.md R102) -/

/-- The micro-operations still to run replaced. -/
def State.setPos (pos : List Micro) (s : State) : State := { s with seq := { s.seq with pos := pos } }

/-- A micro-operation put back in front. -/
def State.pushOp (op : Micro) (s : State) : State := s.setPos (op :: s.seq.pos)

/-- The effect of one micro-operation, `pos` already holding those after it. -/
def Micro.run (s : State) : Micro → State
  | .reg r => r.apply s
  | .pinCfg p d pl ir use => s.pinCfg p d pl ir use
  | .pinSet p v => s.pinSet p (v.value s)
  | .sample p d => d.store (s.readLevel p) (s.afterRead p)
  | .irqReg p m os use => s.irqReg p m os use
  | .irqUnreg p => s.irqUnreg p
  | .wait n =>
    if n = 0 then s.log (.waitStart n)
    else ({ s with seq := { s.seq with waitRem := n } }).log (.waitStart n) |>.pushOp (.wait n)
  | .mbxTest m => ({ s with seq := { s.seq with tmp := s.flag.get m } }).log (.flagTest m (s.flag.get m))
  | .mbxClear m => s.clearFlag m
  | .spin c _ => if (c.eval s).1 then (c.eval s).2 else (c.eval s).2.pushOp (.spin c true)
  | .stopPass k _ =>
    let t := s.afterRead .scl
    if s.readLevel .scl then
      if s.flag.get .mI2c then { t with seq := { t.seq with tmp := true } }
      else t.pushOp (.stopPass k true)
    else ({ t with seq := { t.seq with tmp := false } }).setPos (t.seq.pos.drop k)
  | .nackKeep k => if s.i2c.ack then s else s.setPos (s.seq.pos.drop (s.seq.pos.length - k))
  | .rxAgain => s.setPos (uartRxLoopProg s.cfg ++ s.seq.pos)

/-- The command returns: its result words leave the block, `SEQ_BUSY` goes to 0, and the host's pointer moves on by the
command's length (30_encoding.md R95, R102; 10_state.md R23). -/
def State.returnResult (s : State) : State :=
  let t := s.log (.result (resultWords s))
  { t with
    seq := { t.seq with busy := false, pos := [] }
    env := { t.env with res := resultWords s, cp := t.env.cp + 1 + t.seq.cmd.payload.length, freeCtr := t.env.freeCtr + 1 } }

/-- A command with no micro-operation left returns in the same step. -/
def State.settle (s : State) : State :=
  if s.seq.busy && s.seq.pos.isEmpty then s.returnResult else s

/-- One step of the sequencer: the next micro-operation. -/
def State.seqStep (s : State) : State :=
  match s.seq.pos with
  | [] => s.settle
  | op :: rest => (op.run (s.setPos rest)).settle

/-- A time step of at most `d` microseconds of the `WAIT_US` in progress; the wait ends when none is left (40_pin_ops.md
R116). -/
def State.elapse (d : Nat) (s : State) : State :=
  let t := ({ s with seq := { s.seq with waitRem := s.seq.waitRem - d } }).addTime (min d s.seq.waitRem)
  if t.seq.waitRem = 0 then (t.setPos t.seq.pos.tail).settle else t

/-- The sequencer is inside a spin-wait, between two evaluations. -/
def State.spinning (s : State) : Bool :=
  match s.seq.pos with
  | .spin _ true :: _ => true
  | .stopPass _ true :: _ => true
  | _ => false

/-! ## The environment's acts -/

/-- The reset input: every piece of state takes the value of 10_state.md R35, a running command is abandoned with no
result, and `TRACE` gets one entry; the environment, `NOW` and the host's stream stay (70_reset_and_hazards.md R310;
log 15, 19). -/
def State.resetInput (s : State) : State :=
  ({ State.reset with cfg := s.cfg, env := s.env }).log .reset

/-- Time passing where 20_memory.md R70 lets it pass: while idle, inside a `WAIT_US` (at most what is left of it), and
inside a spin-wait between two evaluations; nowhere else. -/
def State.passTime (d : Nat) (s : State) : State :=
  if s.seq.busy then
    if s.seq.waitRem = 0 then (if s.spinning then s.addTime d else s) else s.elapse d
  else s.addTime d

/-- One act of the plan. A turn during a `WAIT_US` does nothing: the sequencer waits. -/
def EnvAct.apply (s : State) : EnvAct → State
  | .turn => if s.seq.busy && s.seq.waitRem = 0 then s.seqStep else s
  | .drive p e => s.driveExt p e
  | .pass d => s.passTime d
  | .reset => s.resetInput

/-! ## Running a command -/

/-- What a busy sequencer does when nothing around it moves: the next micro-operation, or the rest of the wait in
progress. -/
def State.advance (s : State) : State :=
  if s.seq.waitRem = 0 then s.seqStep else s.elapse s.seq.waitRem

/-- At most `n` advances, stopping when the command returns or a spin-wait finds its condition false: with nothing else
moving it would find it false again, or draw anew, which is the next step's (log 5). -/
def drain : Nat → State → State
  | 0, s => s
  | n + 1, s =>
    if s.seq.busy then
      if s.advance.spinning then s.advance else drain n s.advance
    else s

/-- Enough advances for the micro-operations still to run: at most two each. -/
def State.drainFuel (s : State) : Nat := 2 * s.seq.pos.length + 2

/-- The plan's acts in order while the command runs, then the sequencer alone; what the command does not use of the plan
stays. -/
def runPlan : List EnvAct → State → State
  | [], s => drain s.drainFuel s
  | a :: as, s => if s.seq.busy then runPlan as (a.apply s) else s.setPlan (a :: as)

/-- Run the accepted command on (log 5, log 6). -/
def State.runOn (s : State) : State := runPlan s.env.plan (s.setPlan [])

/-- The block accepts a command: `SEQ_BUSY` goes to 1, `SEQ_CMD` takes the words, `SEQ_POS` is the command's beginning
(10_state.md R21; 30_encoding.md R102). A command with no micro-operation returns at once. -/
def State.accept (i : Instr) (prog : List Micro) (ret : Ret) (s : State) : State :=
  State.settle { s with
    seq := { busy := true, cmd := { word := encodeWord i, payload := (encode i).tail }, pos := prog, tmp := false,
             out := [], ret := ret, waitRem := 0 } }

/-- A refused command: no state of the block changes, the refusal is observed and returned, and its words are consumed
(30_encoding.md R97; 60_exceptions.md R276). -/
def State.refuse (len : Nat) (s : State) : State :=
  let t := s.log (.result refusedWords)
  { t with env := { t.env with res := refusedWords, cp := t.env.cp + len } }

/-- A command presented to the block: not accepted while another runs (10_state.md R22); refused where its gate is closed
(30_encoding.md R99) or no encoding of it exists; else accepted and run. -/
def command (i : Instr) (gate : State → Bool) (prog : List Micro) (ret : Ret) (s : State) :
    Host.Outcome State Fault Refusal :=
  .next (if s.seq.busy then s
    else if gate s && i.wf then (s.accept i prog ret).runOn
    else s.refuse i.lengthWords)

/-! ## The idle block: whose move it is, and the command presented next -/

/-- The next act of the plan is not the sequencer's. -/
def State.envMoves (s : State) : Bool :=
  match s.env.plan with
  | [] => false
  | .turn :: _ => false
  | _ :: _ => true

/-- The environment makes the next act of its plan. -/
def State.envStep (s : State) : State :=
  match s.env.plan with
  | [] => s
  | a :: as => a.apply (s.setPlan as)

/-- The words of the stream from `CP` on (10_state.md R23). -/
def State.pendingWords (s : State) : List Word := s.env.stream.drop s.env.cp

/-- The stream with `ws` at `CP` (filled with zeros up to there). -/
def presentAt (stream : List Word) (cp : Nat) (ws : List Word) : List Word :=
  stream.take cp ++ List.replicate (cp - stream.length) 0 ++ ws ++ stream.drop (cp + ws.length)

/-- The host presents `ws` to an idle block whose turn it is. -/
def State.present (ws : List Word) (s : State) : State :=
  { s with
    seq := if s.seq.busy then { s.seq with busy := false, pos := [], waitRem := 0 } else s.seq
    env := { s.env with
      stream := presentAt s.env.stream s.env.cp ws
      plan := if s.envMoves then .turn :: s.env.plan else s.env.plan } }

end Sys2Proof.Machine
end

