-- ==== Sys2Proof/Machine/I2cMaster.lean ====
section
/-! DEFINITION. The I2C master commands (42_i2c_master.md). -/

namespace Sys2Proof.Machine

/-- `I2C_M_SETUP` (R151). -/
def execI2cMSetup (s : State) : Host.Outcome State Fault Refusal :=
  command .i2cMSetup gateNone i2cMSetupProg .ok s

/-- `I2C_M_START` (R152). -/
def execI2cMStart (s : State) : Host.Outcome State Fault Refusal :=
  command .i2cMStart gateI2cMaster (i2cMStartProg s.cfg) .ok s

/-- `I2C_M_WRITE x` (R153). -/
def execI2cMWrite (x : Byte) (s : State) : Host.Outcome State Fault Refusal :=
  command (.i2cMWrite x) gateI2cMaster (i2cMWriteProg s.cfg x) .ok s

/-- `I2C_M_ACKS`: `ack` is the value of the status word (R154). -/
def execI2cMAcks (s : State) : Host.Outcome State Fault Refusal :=
  command .i2cMAcks gateI2cMaster (i2cMAcksProg s.cfg) .i2cAck s

/-- `I2C_M_READ ack`: the byte is the value of the status word (R155). -/
def execI2cMRead (ack : Bool) (s : State) : Host.Outcome State Fault Refusal :=
  command (.i2cMRead ack) gateI2cMaster (i2cMReadProg s.cfg ack) .i2cShift s

/-- `I2C_M_STOP` (R156). -/
def execI2cMStop (s : State) : Host.Outcome State Fault Refusal :=
  command .i2cMStop gateI2cMaster (i2cMStopProg s.cfg) .ok s

/-- `I2C_M_XFER addr, n, [y0 .. y(n-1)]` (R157). -/
def execI2cMXfer (addr : Addr) (ys : List Byte) (s : State) : Host.Outcome State Fault Refusal :=
  command (.i2cMXfer addr ys) gateI2cMaster (i2cMXferProg s.cfg addr ys) .gathered s

/-- `I2C_M_RDN addr, count` (R158). -/
def execI2cMRdn (addr : Addr) (count : Byte) (s : State) : Host.Outcome State Fault Refusal :=
  command (.i2cMRdn addr count) gateI2cMaster (i2cMRdnProg s.cfg addr count.toNat) .gathered s


end Sys2Proof.Machine
end

