-- ==== Sys2Proof/Machine/I2cSlave.lean ====
section
/-! DEFINITION. The I2C slave commands (43_i2c_slave.md). -/

namespace Sys2Proof.Machine

/-- `I2C_S_SETUP` (R181). -/
def execI2cSSetup (s : State) : Host.Outcome State Fault Refusal :=
  command .i2cSSetup gateNone i2cSSetupProg .ok s

/-- `I2C_S_WSTART` (R182). -/
def execI2cSWstart (s : State) : Host.Outcome State Fault Refusal :=
  command .i2cSWstart gateI2cSlave i2cSWstartProg .ok s

/-- `I2C_S_RECV`: the byte is the value of the status word (R183). -/
def execI2cSRecv (s : State) : Host.Outcome State Fault Refusal :=
  command .i2cSRecv gateI2cSlave i2cSRecvProg .i2cShift s

/-- `I2C_S_ACK` (R184). -/
def execI2cSAck (s : State) : Host.Outcome State Fault Refusal :=
  command .i2cSAck gateI2cSlave (i2cSAckProg s.cfg) .ok s

/-- `I2C_S_DISP lsa, v`: never gated; the dispatch code is the value of the status word (R185). -/
def execI2cSDisp (lsa : Addr) (v : Byte) (s : State) : Host.Outcome State Fault Refusal :=
  command (.i2cSDisp lsa v) gateNone i2cSDispProg (.const (dispatchCode lsa v)) s

/-- `I2C_S_WSTOP`: 1 = `STOP`, 0 = `NO_STOP` (R186). -/
def execI2cSWstop (s : State) : Host.Outcome State Fault Refusal :=
  command .i2cSWstop gateI2cSlave i2cSWstopProg .bit s

/-- `I2C_S_SERVE lsa` (R187). -/
def execI2cSServe (lsa : Addr) (s : State) : Host.Outcome State Fault Refusal :=
  command (.i2cSServe lsa) gateI2cSlave (i2cSServeProg s.cfg lsa) (.serve lsa) s


end Sys2Proof.Machine
end

