-- ==== Sys2Proof/Machine/Mailbox.lean ====
section
/-! DEFINITION. The mailbox commands (41_mailbox.md). -/

namespace Sys2Proof.Machine

/-- `MBX_SIGNAL m`: its effect, `FLAG[m] <- 1`, is `State.signal`, which only the edge synchronizer runs; issued by the host
the command is always refused (R133; 30_encoding.md R99). -/
def execMbxSignal (m : Mbx) (s : State) : Host.Outcome State Fault Refusal :=
  command (.mbxSignal m) gateNever [] .ok s

/-- `MBX_WAITCLR m` (R134). -/
def execMbxWaitclr (m : Mbx) (s : State) : Host.Outcome State Fault Refusal :=
  command (.mbxWaitclr m) gateNone [.spin (.flagClear m) false] .ok s

/-- `MBX_TEST m`: the flag is the value of the status word (R135). -/
def execMbxTest (m : Mbx) (s : State) : Host.Outcome State Fault Refusal :=
  command (.mbxTest m) gateNone [.mbxTest m] .bit s

/-- `MBX_CLEAR m` (R136). -/
def execMbxClear (m : Mbx) (s : State) : Host.Outcome State Fault Refusal :=
  command (.mbxClear m) gateNone [.mbxClear m] .ok s


end Sys2Proof.Machine
end

