-- ==== Sys2Proof/Machine/Pin.lean ====
section
/-! DEFINITION. The Pin Abstraction commands (40_pin_ops.md). -/

namespace Sys2Proof.Machine

/-- `PIN_CFG p, dir, pull, irq` (R111, R117). -/
def execPinCfg (p : Pin) (dir : Dir) (pull : Pull) (irq : Irq) (s : State) : Host.Outcome State Fault Refusal :=
  command (.pinCfg p dir pull irq) gateNone [.pinCfg p dir pull irq .checked] .ok s

/-- `PIN_SET p, v` (R112). -/
def execPinSet (p : Pin) (v : Bool) (s : State) : Host.Outcome State Fault Refusal :=
  command (.pinSet p v) gateNone [.pinSet p (.const v)] .ok s

/-- `PIN_GET p`: the level is the value of the status word (R113). -/
def execPinGet (p : Pin) (s : State) : Host.Outcome State Fault Refusal :=
  command (.pinGet p) gateNone [.sample p .tmp] .bit s

/-- `IRQ_REG p, m, os` (R114, R117). -/
def execIrqReg (p : Pin) (m : Mbx) (os : Bool) (s : State) : Host.Outcome State Fault Refusal :=
  command (.irqReg p m os) gateNone [.irqReg p m os .checked] .ok s

/-- `IRQ_UNREG p` (R115). -/
def execIrqUnreg (p : Pin) (s : State) : Host.Outcome State Fault Refusal :=
  command (.irqUnreg p) gateNone [.irqUnreg p] .ok s

/-- `WAIT_US n` (R116). -/
def execWaitUs (n : BitVec 24) (s : State) : Host.Outcome State Fault Refusal :=
  command (.waitUs n) gateNone [.wait n.toNat] .ok s


end Sys2Proof.Machine
end

