-- ==== Sys2Proof/Machine/Spi.lean ====
section
/-! DEFINITION. The SPI commands (44_spi.md). -/

namespace Sys2Proof.Machine

/-- `SPI_M_SETUP m` (R212). -/
def execSpiMSetup (m : BitVec 2) (s : State) : Host.Outcome State Fault Refusal :=
  command (.spiMSetup m) gateNone (spiMSetupProg m) .ok s

/-- `SPI_S_SETUP m` (R213). -/
def execSpiSSetup (m : BitVec 2) (s : State) : Host.Outcome State Fault Refusal :=
  command (.spiSSetup m) gateNone (spiSSetupProg m) .ok s

/-- `SPI_M_XCHG0 x` (R214, R224). -/
def execSpiMXchg0 (x : Byte) (s : State) : Host.Outcome State Fault Refusal :=
  command (.spiMXchg0 x) (gateSpiMaster 0) (spiMXchg0Prog s.cfg x) .spiShi s

/-- `SPI_M_XCHG1 x` (R215, R224). -/
def execSpiMXchg1 (x : Byte) (s : State) : Host.Outcome State Fault Refusal :=
  command (.spiMXchg1 x) (gateSpiMaster 1) (spiMXchg1Prog s.cfg x) .spiShi s

/-- `SPI_M_XCHG2 x` (R216, R224). -/
def execSpiMXchg2 (x : Byte) (s : State) : Host.Outcome State Fault Refusal :=
  command (.spiMXchg2 x) (gateSpiMaster 2) (spiMXchg2Prog s.cfg x) .spiShi s

/-- `SPI_M_XCHG3 x` (R217, R224). -/
def execSpiMXchg3 (x : Byte) (s : State) : Host.Outcome State Fault Refusal :=
  command (.spiMXchg3 x) (gateSpiMaster 3) (spiMXchg3Prog s.cfg x) .spiShi s

/-- `SPI_S_RESP0 x` (R218, R225). -/
def execSpiSResp0 (x : Byte) (s : State) : Host.Outcome State Fault Refusal :=
  command (.spiSResp0 x) (gateSpiSlave 0) (spiSResp0Prog x) .spiShi s

/-- `SPI_S_RESP1 x` (R219, R225). -/
def execSpiSResp1 (x : Byte) (s : State) : Host.Outcome State Fault Refusal :=
  command (.spiSResp1 x) (gateSpiSlave 1) (spiSResp1Prog x) .spiShi s

/-- `SPI_S_RESP2 x` (R220, R225). -/
def execSpiSResp2 (x : Byte) (s : State) : Host.Outcome State Fault Refusal :=
  command (.spiSResp2 x) (gateSpiSlave 2) (spiSResp2Prog x) .spiShi s

/-- `SPI_S_RESP3 x` (R221, R225). -/
def execSpiSResp3 (x : Byte) (s : State) : Host.Outcome State Fault Refusal :=
  command (.spiSResp3 x) (gateSpiSlave 3) (spiSResp3Prog x) .spiShi s


end Sys2Proof.Machine
end

