-- ==== Sys2Proof/Machine/Uart.lean ====
section
/-! DEFINITION. The UART commands (45_uart.md). -/

namespace Sys2Proof.Machine

/-- `UART_TX_SETUP` (R241). -/
def execUartTxSetup (s : State) : Host.Outcome State Fault Refusal :=
  command .uartTxSetup gateNone uartTxSetupProg .ok s

/-- `UART_TX_BYTE x` (R242). -/
def execUartTxByte (x : Byte) (s : State) : Host.Outcome State Fault Refusal :=
  command (.uartTxByte x) gateUartTx (uartTxByteProg s.cfg x) .ok s

/-- `UART_SEND n, [y0 .. y(n-1)]` (R243). -/
def execUartSend (ys : List Byte) (s : State) : Host.Outcome State Fault Refusal :=
  command (.uartSend ys) gateUartTx (uartSendProg s.cfg ys) .ok s

/-- `UART_RX_SETUP` (R244). -/
def execUartRxSetup (s : State) : Host.Outcome State Fault Refusal :=
  command .uartRxSetup gateNone uartRxSetupProg .ok s

/-- `UART_RX_FRAME` (R245). -/
def execUartRxFrame (s : State) : Host.Outcome State Fault Refusal :=
  command .uartRxFrame gateUartRx (uartRxFrameProg s.cfg) .ok s

/-- `UART_RX_LOOP`: it never returns; one call runs at least to the next wait for a start bit (R248; log 5). -/
def execUartRxLoop (s : State) : Host.Outcome State Fault Refusal :=
  command .uartRxLoop gateUartRx (uartRxLoopProg s.cfg) .ok s


end Sys2Proof.Machine
end

