-- ==== Sys2Proof/Machine/Dispatch.lean ====
section
/-! DEFINITION. The meaning of every command: one arm for each constructor of `Instr`. -/

namespace Sys2Proof.Machine

def exec (i : Instr) (s : State) : Host.Outcome State Fault Refusal :=
  match i with
  | .pinCfg p dir pull irq => Sys2Proof.Machine.execPinCfg p dir pull irq s
  | .pinSet p v => Sys2Proof.Machine.execPinSet p v s
  | .pinGet p => Sys2Proof.Machine.execPinGet p s
  | .irqReg p m os => Sys2Proof.Machine.execIrqReg p m os s
  | .irqUnreg p => Sys2Proof.Machine.execIrqUnreg p s
  | .waitUs n => Sys2Proof.Machine.execWaitUs n s
  | .mbxSignal m => Sys2Proof.Machine.execMbxSignal m s
  | .mbxWaitclr m => Sys2Proof.Machine.execMbxWaitclr m s
  | .mbxTest m => Sys2Proof.Machine.execMbxTest m s
  | .mbxClear m => Sys2Proof.Machine.execMbxClear m s
  | .i2cMSetup => Sys2Proof.Machine.execI2cMSetup s
  | .i2cMStart => Sys2Proof.Machine.execI2cMStart s
  | .i2cMWrite x => Sys2Proof.Machine.execI2cMWrite x s
  | .i2cMAcks => Sys2Proof.Machine.execI2cMAcks s
  | .i2cMRead ack => Sys2Proof.Machine.execI2cMRead ack s
  | .i2cMStop => Sys2Proof.Machine.execI2cMStop s
  | .i2cMXfer addr ys => Sys2Proof.Machine.execI2cMXfer addr ys s
  | .i2cMRdn addr count => Sys2Proof.Machine.execI2cMRdn addr count s
  | .i2cSSetup => Sys2Proof.Machine.execI2cSSetup s
  | .i2cSWstart => Sys2Proof.Machine.execI2cSWstart s
  | .i2cSRecv => Sys2Proof.Machine.execI2cSRecv s
  | .i2cSAck => Sys2Proof.Machine.execI2cSAck s
  | .i2cSDisp lsa v => Sys2Proof.Machine.execI2cSDisp lsa v s
  | .i2cSWstop => Sys2Proof.Machine.execI2cSWstop s
  | .i2cSServe lsa => Sys2Proof.Machine.execI2cSServe lsa s
  | .spiMSetup m => Sys2Proof.Machine.execSpiMSetup m s
  | .spiSSetup m => Sys2Proof.Machine.execSpiSSetup m s
  | .spiMXchg0 x => Sys2Proof.Machine.execSpiMXchg0 x s
  | .spiMXchg1 x => Sys2Proof.Machine.execSpiMXchg1 x s
  | .spiMXchg2 x => Sys2Proof.Machine.execSpiMXchg2 x s
  | .spiMXchg3 x => Sys2Proof.Machine.execSpiMXchg3 x s
  | .spiSResp0 x => Sys2Proof.Machine.execSpiSResp0 x s
  | .spiSResp1 x => Sys2Proof.Machine.execSpiSResp1 x s
  | .spiSResp2 x => Sys2Proof.Machine.execSpiSResp2 x s
  | .spiSResp3 x => Sys2Proof.Machine.execSpiSResp3 x s
  | .uartTxSetup => Sys2Proof.Machine.execUartTxSetup s
  | .uartTxByte x => Sys2Proof.Machine.execUartTxByte x s
  | .uartSend ys => Sys2Proof.Machine.execUartSend ys s
  | .uartRxSetup => Sys2Proof.Machine.execUartRxSetup s
  | .uartRxFrame => Sys2Proof.Machine.execUartRxFrame s
  | .uartRxLoop => Sys2Proof.Machine.execUartRxLoop s

end Sys2Proof.Machine
end

