-- ==== Sys2Proof/Machine/Step.lean ====
section
/-! DEFINITION. One step of the machine: the running command goes on, or the environment makes its next act, or the idle
block takes the command at `CP`; and how a command word is placed where the next step takes it. -/

namespace Sys2Proof.Machine

/-- One step. Busy: the running command goes on. Idle, and the plan's next act is not the sequencer's: the environment
acts. Else the block takes the command the host presents at `CP` (30_encoding.md R102): a well-formed one runs, a reserved
one is refused (R97); with no whole command there the block waits. -/
def step (s : State) : Host.Outcome State Fault Refusal :=
  if s.seq.busy then .next s.runOn
  else if s.envMoves then .next s.envStep
  else
    match decode s.pendingWords with
    | .instr i => exec i s
    | .reserved _ len => .next (s.refuse len)
    | .incomplete => .next s.envStep

/-- `s` with the instruction whose bits are `w` (0 above `nbits`) where the next step takes it: at `CP` of the host's
stream, the block idle and the turn its own (log 17). -/
def State.withFetchWord (s : State) (nbits w : Nat) : State := s.present (tableWords nbits w)

end Sys2Proof.Machine
end

