-- ==== Sys2Proof/Machine/Observe.lean ====
section
/-! DEFINITION. What the host sees: the register codes and ids (10_state.md R24, R27, R28, R34) and the boundary signals
that follow from the state (R36). -/

namespace Sys2Proof.Machine

/-! ## Codes -/

/-- Roles: 0, 1, 2 (10_state.md R27, R29). -/
def Role.code : Role → Nat
  | .none => 0 | .master => 1 | .slave => 2

/-- `I2C_M_STATE`: 0 to 5 (10_state.md R28). -/
def MState.code : MState → Nat
  | .idle => 0 | .start => 1 | .address => 2 | .waitAck => 3 | .data => 4 | .stop => 5

/-- `I2C_S_STATE`: 0 to 5 (10_state.md R28). -/
def SState.code : SState → Nat
  | .idleMonitor => 0 | .startDetected => 1 | .receiveByte => 2 | .sendAck => 3 | .dispatch => 4 | .stopMonitor => 5

/-- A bit as a number. -/
def bitNat (b : Bool) : Nat := if b then 1 else 0

/-- `HND[p]`: bit 3 = registered, bit 2 = `os`, bits 1:0 = `m` (10_state.md R34). DESIGN CHOICE: with no handler registered R34
gives bits 2:0 no value, and the model reads them as 0 (log 26). -/
def handlerCode : Option Handler → Nat
  | none => 0
  | some h => 8 + 4 * bitNat h.once + h.mbx.code.toNat

/-- The pin of an id 0 to 7 (10_state.md R24). -/
def pinOfId (n : Nat) : Option Pin := [Pin.sda, .scl, .sclk, .sdo, .sdi, .cs, .tx, .rx][n]?

/-! ## Register ids (10_state.md R34) -/

/-- The value of the register of an id, for traces and tests; none where the id names nothing or the entry holds no
value. -/
def State.register (s : State) (id : Nat) : Option Nat :=
  if id < 0x08 then (pinOfId id).map fun p => (s.pins.get p).dir.code.toNat
  else if id < 0x10 then (pinOfId (id - 0x08)).map fun p => (s.pins.get p).pull.code.toNat
  else if id < 0x18 then (pinOfId (id - 0x10)).map fun p => (s.pins.get p).irq.code.toNat
  else if id < 0x20 then (pinOfId (id - 0x18)).map fun p => bitNat (s.pins.get p).lat
  else if id < 0x28 then (pinOfId (id - 0x20)).map fun p => handlerCode (s.pins.get p).hnd
  else match id with
  | 0x28 => some (bitNat s.flag.mI2c)
  | 0x29 => some (bitNat s.flag.mSpi)
  | 0x2A => some (bitNat s.flag.mUart)
  | 0x30 => some s.i2c.role.code
  | 0x31 => some s.i2c.mState.code
  | 0x32 => some s.i2c.sState.code
  | 0x33 => some s.i2c.shift.toNat
  | 0x34 => some s.i2c.bitcnt.toNat
  | 0x35 => some (bitNat s.i2c.ack)
  | 0x38 => some s.spi.role.code
  | 0x39 => some s.spi.mode.toNat
  | 0x3A => some s.spi.sho.toNat
  | 0x3B => some s.spi.shi.toNat
  | 0x3C => some s.spi.bitcnt.toNat
  | 0x40 => some (bitNat s.uart.txRdy)
  | 0x41 => some (bitNat s.uart.rxRdy)
  | 0x42 => some s.uart.txsh.toNat
  | 0x43 => some s.uart.rxsh.toNat
  | 0x44 => some s.uart.bitcnt.toNat
  | 0x45 => some s.uart.rxIdx
  | 0x50 => some (bitNat s.seq.busy)
  | _ => if 0x100 ≤ id ∧ id < 0x100 + s.cfg.rxCap then (Memory.read? s.uart.rxBuf (id - 0x100)).map BitVec.toNat else none

/-- `UART_RX_LOOP` is in the spin-wait of its `MBX_WAITCLR`: between two frames `RX_BUF` and `RX_IDX` hold still and "the host may
read them only then" (45_uart.md R248). DESIGN CHOICE: the wait before the loop's first frame counts too (log 29). -/
def State.betweenFrames (s : State) : Bool :=
  s.seq.busy && s.seq.cmd.word == encodeWord .uartRxLoop &&
    match s.seq.pos with
    | .spin (.flagClear .mUart) _ :: _ => true
    | _ => false

/-- The id is `RX_IDX`'s or an entry's of `RX_BUF` (10_state.md R34). -/
def isRxId (id : Nat) : Bool := id == 0x45 || 0x100 ≤ id

/-- What the host reads: `SEQ_BUSY` always, a flag only through `MBX_TEST`, every other register while the block is idle
(10_state.md R34), and `RX_IDX` and `RX_BUF` also between two frames of `UART_RX_LOOP` (45_uart.md R248). -/
def State.hostRead (s : State) (id : Nat) : Option Nat :=
  if id = 0x50 then s.register id
  else if 0x28 ≤ id && id < 0x2B then none
  else if !s.seq.busy || (s.betweenFrames && isRxId id) then s.register id
  else none

/-! ## Boundary signals (10_state.md R36) -/

/-- `pad_oe[p]`. -/
def State.padOe (s : State) (p : Pin) : Bool := (s.pins.get p).dir == .output
/-- `pad_out[p]`. -/
def State.padOut (s : State) (p : Pin) : Bool := (s.pins.get p).lat
/-- `pad_pu[p]`. -/
def State.padPu (s : State) (p : Pin) : Bool := (s.pins.get p).pull == .up
/-- `pad_pd[p]`. -/
def State.padPd (s : State) (p : Pin) : Bool := (s.pins.get p).pull == .down
/-- `pad_in[p]`. -/
def State.padIn (s : State) (p : Pin) : Level := s.line p
/-- A command word is accepted. -/
def State.cmdReady (s : State) : Bool := !s.seq.busy
/-- `TRACE`, oldest entry first (00_scope.md R13). -/
def State.traceInOrder (s : State) : List Stamped := s.env.trace.reverse
/-- The physical pin a logical pin is bound to: `PINMAP` (20_memory.md R78). -/
def State.physicalPin (s : State) (p : Pin) : Option Nat := s.cfg.pinMap[p.code.toNat]?
/-- The stream is used up: "a `CP` equal to the stream's length means the program is over" (10_state.md R23). -/
def State.programOver (s : State) : Bool := s.env.stream.length ≤ s.env.cp

end Sys2Proof.Machine
end

