-- ==== Sys2Proof/Safety.lean ====
section
/-! DEFINITION. The terms the statements use: the invariant of the machine, the premises on the environment, what a returned
command leaves, what a command keeps, the edge rule and the reserved words written out from the spec, the waveforms the rules
give, and the plans of some peers. -/

namespace Sys2Proof.Machine

/-! ## The invariant -/

/-- Every entry below `RX_IDX` holds a value ("only entries below `RX_IDX` are meaningful", 10_state.md R35). -/
def State.rxFilled (s : State) : Prop := ∀ j, j < s.uart.rxIdx → (Memory.read? s.uart.rxBuf j).isSome = true

/-- The Receive Frame Buffer: canonical, inside its capacity, filled below `RX_IDX`, and `RX_IDX` below the capacity
("`RX_IDX` is never seen equal to `UART_RX_CAP` between commands", 45_uart.md R247). -/
def State.rxOk (s : State) : Prop :=
  Memory.wf s.uart.rxBuf = true ∧ (∀ j, s.cfg.rxCap ≤ j → Memory.read? s.uart.rxBuf j = none) ∧
  s.rxFilled ∧ s.uart.rxIdx < s.cfg.rxCap

/-- The sequencer: nothing left to run and no wait while idle, something left while busy, and a wait in progress only of a
`WAIT_US` at the head, with no more left than its length (10_state.md R21). -/
def State.seqOk (s : State) : Prop :=
  (s.seq.busy = false → s.seq.pos = [] ∧ s.seq.waitRem = 0) ∧
  (s.seq.busy = true → s.seq.pos ≠ []) ∧
  (s.seq.waitRem ≠ 0 → ∃ n rest, s.seq.pos = .wait n :: rest ∧ s.seq.waitRem ≤ n)

/-- The invariant of the machine. -/
def State.Inv (s : State) : Prop := s.cfg.wf = true ∧ s.rxOk ∧ s.seqOk

/-! ## Premises -/

/-- No reset input comes during the plan. -/
abbrev noReset (plan : List EnvAct) : Prop := EnvAct.reset ∉ plan

/-- The block is idle and no reset input comes; the environment is otherwise any. -/
abbrev State.ready (s : State) : Prop := s.seq.busy = false ∧ noReset s.env.plan

/-- The block is idle and the environment holds still. -/
abbrev State.quiet (s : State) : Prop := s.seq.busy = false ∧ s.env.plan = []

/-- The block is idle and nothing moves before the command's first micro-operation. -/
abbrev State.undisturbed (s : State) : Prop :=
  s.seq.busy = false ∧ (s.env.plan = [] ∨ s.env.plan.head? = some .turn)

/-- The platform's next `n` answers are all success: the premise "every configuration succeeds" of 40_pin_ops.md R117, for
as many configurations as a command makes. -/
abbrev State.cfgSucceeds (s : State) (n : Nat) : Prop := s.env.cfgOutcomes.take n = List.replicate n true

/-- The platform's answers can be `as`: they agree with its given answers as far as those go. -/
abbrev State.platformSays (s : State) (as : List Bool) : Prop :=
  as.take s.env.cfgOutcomes.length = s.env.cfgOutcomes.take as.length

/-! ## What a command leaves and keeps -/

/-- The command returned: the block is idle, the host has its result words, `CP` has moved on by the command's length
(30_encoding.md R95, R102; 10_state.md R23). -/
def Returned (i : Instr) (s t : State) (ws : List Word) : Prop :=
  t.seq.busy = false ∧ t.env.res = ws ∧ t.env.cp = s.env.cp + i.lengthWords ∧ t.env.stream = s.env.stream ∧ t.cfg = s.cfg

/-- The command still runs: the block is busy, the host has no new result and `CP` has not moved. -/
def StillRuns (s t : State) : Prop :=
  t.seq.busy = true ∧ t.env.res = s.env.res ∧ t.env.cp = s.env.cp ∧ t.env.stream = s.env.stream ∧ t.cfg = s.cfg

/-- `OK` with a value, and no value words: `Q[31:28]` = 0, `Q[27:8]` = 0 (30_encoding.md R95, R98). -/
abbrev okWords (v : Byte) : List Word := [v.setWidth 32]

/-- `CFG_FAIL`. -/
abbrev cfgFailWords : List Word := [0x10000000]

/-- A handler is the one before, or a one-shot one that fired and is gone (41_mailbox.md R131). -/
def handlerKept (a b : PinRegs) : Prop :=
  b.hnd = a.hnd ∨ (b.hnd = none ∧ ∃ h, a.hnd = some h ∧ h.once = true)

/-- A pin has the fields `a`, but for a one-shot handler that fired. -/
def pinKept (a b : PinRegs) : Prop :=
  b.dir = a.dir ∧ b.pull = a.pull ∧ b.irq = a.irq ∧ b.lat = a.lat ∧ handlerKept a b

/-- Every pin but those listed is kept. -/
def pinsKeptBut (ps : List Pin) (s t : State) : Prop := ∀ q, q ∉ ps → pinKept (s.pins.get q) (t.pins.get q)

/-- No flag but those listed is cleared; edges may set any (41_mailbox.md R131). -/
def flagsKeptBut (ms : List Mbx) (s t : State) : Prop := ∀ m, m ∉ ms → s.flag.get m = true → t.flag.get m = true

/-- The engines' registers and the Receive Frame Buffer are as they were. -/
def enginesSame (s t : State) : Prop := t.i2c = s.i2c ∧ t.spi = s.spi ∧ t.uart = s.uart

/-- The block as it was: no register, pin field or flag differs. -/
def blockSame (s t : State) : Prop :=
  t.cfg = s.cfg ∧ t.seq = s.seq ∧ t.pins = s.pins ∧ t.flag = s.flag ∧ enginesSame s t

/-- A refused command of `len` words: "the block changes no state, performs no micro-operation, writes nothing to `TRACE` but
the refusal", consumes its words and returns `REFUSED` = 2 (30_encoding.md R97, R98). -/
def Refused (len : Nat) (s t : State) : Prop :=
  blockSame s t ∧
  t.env = { s.env with
    res := [0x20000000#32], cp := s.env.cp + len,
    trace := { time := s.env.now, event := .result [0x20000000#32] } :: s.env.trace }

/-- The latch written. -/
def PinRegs.withLat (r : PinRegs) (v : Bool) : PinRegs := { r with lat := v }

/-- The fields after a `PIN_CFG` the platform answered with `ok` (40_pin_ops.md R111). -/
def PinRegs.withCfg (r : PinRegs) (ok : Bool) (d : Dir) (pl : Pull) (ir : Irq) : PinRegs :=
  if ok then { r with dir := d, pull := pl, irq := ir } else r

/-- The handler replaced. -/
def PinRegs.withHnd (r : PinRegs) (h : Option Handler) : PinRegs := { r with hnd := h }

/-! ## Edges (41_mailbox.md R131, 20_memory.md R64, R65), written out -/

/-- The level of a line (R64). -/
def lineOf (r : PinRegs) (e : Ext) : Level :=
  match r.dir, e with
  | .input, .z => match r.pull with | .up => .l1 | .down => .l0 | .none => .x
  | .input, .d0 => .l0
  | .input, .d1 => .l1
  | .output, .z => if r.lat then .l1 else .l0
  | .output, .d0 => if r.lat then .x else .l0
  | .output, .d1 => if r.lat then .l1 else .x

/-- "match" of R131. -/
def edgeIs (irq : Irq) (old new : Level) : Prop :=
  (irq = .falling ∧ old = .l1 ∧ new = .l0) ∨ (irq = .rising ∧ old = .l0 ∧ new = .l1)

/-- A transition into or out of `X` that may count as the armed edge (R65). -/
def edgeMaybe (irq : Irq) (old new : Level) : Prop :=
  (irq = .rising ∧ ((old = .x ∧ new = .l1) ∨ (old = .l0 ∧ new = .x))) ∨
  (irq = .falling ∧ ((old = .x ∧ new = .l0) ∨ (old = .l1 ∧ new = .x)))

/-- No handler ran: the pins and the flags are these. -/
def handlerSilent (pins : PerPin PinRegs) (flag : PerMbx Bool) (t : State) : Prop := t.pins = pins ∧ t.flag = flag

/-- The handler `h` of pin `p` ran: its flag is 1, and a one-shot handler is gone. -/
def handlerRan (p : Pin) (h : Handler) (pins : PerPin PinRegs) (flag : PerMbx Bool) (t : State) : Prop :=
  t.flag = flag.set h.mbx true ∧
  t.pins = if h.once then pins.set p ((pins.get p).withHnd none) else pins

/-- From `s`, pin `p` took the fields `r` and its environment's drive became `e`, in one step, and the edge synchronizer acted
in that step; no other pin and no other flag changed. -/
def Moved (p : Pin) (r : PinRegs) (e : Ext) (s t : State) : Prop :=
  let old := lineOf (s.pins.get p) (s.env.ext.get p)
  let new := lineOf r e
  match r.hnd with
  | none => handlerSilent (s.pins.set p r) s.flag t
  | some h =>
    (edgeIs r.irq old new → handlerRan p h (s.pins.set p r) s.flag t) ∧
    (edgeMaybe r.irq old new →
      handlerRan p h (s.pins.set p r) s.flag t ∨ handlerSilent (s.pins.set p r) s.flag t) ∧
    (¬ edgeIs r.irq old new → ¬ edgeMaybe r.irq old new → handlerSilent (s.pins.set p r) s.flag t)

/-! ## Reserved words (30_encoding.md R91 to R94, R97), written out -/

/-- The formats of R91. -/
inductive Format where
  | z | p | pc | m | n | c | a | ac | ab | abl | bl
deriving DecidableEq, Repr

/-- The format column of R94, by `unit` and `op`; none where there is no row. -/
def formatOf (unit op : Nat) : Option Format :=
  match unit with
  | 0 => [.pc, .pc, .p, .pc, .p, .n][op]?
  | 1 => [.m, .m, .m, .m][op]?
  | 2 => [.z, .z, .c, .z, .c, .z, .abl, .ab, .z, .z, .z, .z, .ac, .z, .a][op]?
  | 3 => [some .c, some .c, none, none, some .c, some .c, some .c, some .c, some .c, some .c, some .c, some .c][op]?.join
  | 4 => [.z, .c, .bl, .z, .z, .z][op]?
  | _ => none

/-- A field the format does not use is non-zero, or its pin id, mailbox id or 7-bit address names nothing (R91, R97). -/
def Format.broken (w : Word) : Format → Prop
  | .z => nOf w ≠ 0
  | .p => bOf w ≠ 0 ∨ cOf w ≠ 0 ∨ 7 < (aOf w).toNat
  | .pc => bOf w ≠ 0 ∨ 7 < (aOf w).toNat
  | .m => bOf w ≠ 0 ∨ cOf w ≠ 0 ∨ 2 < (aOf w).toNat
  | .n => False
  | .c => aOf w ≠ 0 ∨ bOf w ≠ 0
  | .a => bOf w ≠ 0 ∨ cOf w ≠ 0 ∨ 127 < (aOf w).toNat
  | .ac => bOf w ≠ 0 ∨ 127 < (aOf w).toNat
  | .ab => cOf w ≠ 0 ∨ 127 < (aOf w).toNat
  | .abl => cOf w ≠ 0 ∨ 127 < (aOf w).toNat
  | .bl => aOf w ≠ 0 ∨ cOf w ≠ 0

/-- A sub-field of `c` (R92) that must be 0 is not, or holds a value that names nothing (R97). -/
def subFieldBroken (unit op : Nat) (c : Byte) : Prop :=
  match unit, op with
  | 0, 0 => 31 < c.toNat ∨ c.toNat / 2 % 4 = 3 ∨ c.toNat / 8 % 4 = 3
  | 0, 1 => 1 < c.toNat
  | 0, 3 => 31 < c.toNat ∨ c.toNat / 4 % 4 ≠ 0 ∨ c.toNat % 4 = 3
  | 2, 4 => 1 < c.toNat
  | 3, 0 => 3 < c.toNat
  | 3, 1 => 3 < c.toNat
  | _, _ => False

/-- How many payload words follow the command word: as many as `b` says for `I2C_M_XFER` and `UART_SEND`, none for any other
(R93). -/
def payloadCount (w : Word) : Nat :=
  if ((unitOf w).toNat = 2 ∧ (opOf w).toNat = 6) ∨ ((unitOf w).toNat = 4 ∧ (opOf w).toNat = 2) then (bOf w).toNat else 0

/-- The command of the command word `w` with the payload words `ys` is reserved (R97). -/
def isReserved (w : Word) (ys : List Word) : Prop :=
  (match formatOf (unitOf w).toNat (opOf w).toNat with
    | none => True
    | some f => f.broken w) ∨
  subFieldBroken (unitOf w).toNat (opOf w).toNat (cOf w) ∨
  ∃ y ∈ ys, 255 < y.toNat

/-! ## Gates (30_encoding.md R99), written out -/

/-- The command is not refused by R99. -/
def gateOpen (s : State) : Instr → Prop
  | .i2cMStart | .i2cMWrite _ | .i2cMAcks | .i2cMRead _ | .i2cMStop | .i2cMXfer _ _ | .i2cMRdn _ _ => s.i2c.role = .master
  | .i2cSWstart | .i2cSRecv | .i2cSAck | .i2cSWstop | .i2cSServe _ => s.i2c.role = .slave
  | .spiMXchg0 _ => s.spi.role = .master ∧ s.spi.mode = 0
  | .spiMXchg1 _ => s.spi.role = .master ∧ s.spi.mode = 1
  | .spiMXchg2 _ => s.spi.role = .master ∧ s.spi.mode = 2
  | .spiMXchg3 _ => s.spi.role = .master ∧ s.spi.mode = 3
  | .spiSResp0 _ => s.spi.role = .slave ∧ s.spi.mode = 0
  | .spiSResp1 _ => s.spi.role = .slave ∧ s.spi.mode = 1
  | .spiSResp2 _ => s.spi.role = .slave ∧ s.spi.mode = 2
  | .spiSResp3 _ => s.spi.role = .slave ∧ s.spi.mode = 3
  | .uartTxByte _ | .uartSend _ => s.uart.txRdy = true
  | .uartRxFrame | .uartRxLoop => s.uart.rxRdy = true
  | .mbxSignal _ => False
  | .i2cSDisp _ _ => True
  | .pinCfg _ _ _ _ | .pinSet _ _ | .pinGet _ | .irqReg _ _ _ | .irqUnreg _ | .waitUs _ => True
  | .mbxWaitclr _ | .mbxTest _ | .mbxClear _ => True
  | .i2cMSetup | .i2cSSetup | .spiMSetup _ | .spiSSetup _ | .uartTxSetup | .uartRxSetup => True

/-! ## What each command may write ("written by", 10_state.md R24, R26, R27, R29, R30, R33) -/

/-- The pins whose `LAT` it writes. -/
def latPins : Instr → List Pin
  | .pinSet p _ => [p]
  | .i2cMSetup | .i2cMStart | .i2cMWrite _ | .i2cMRead _ | .i2cMStop | .i2cMXfer _ _ | .i2cMRdn _ _ => [.sda, .scl]
  | .i2cMAcks => [.scl]
  | .i2cSAck | .i2cSServe _ => [.sda]
  | .spiMSetup _ | .spiMXchg0 _ | .spiMXchg1 _ | .spiMXchg2 _ | .spiMXchg3 _ => [.cs, .sclk, .sdo]
  | .spiSSetup _ | .spiSResp0 _ | .spiSResp1 _ | .spiSResp2 _ | .spiSResp3 _ => [.sdo]
  | .uartTxSetup | .uartTxByte _ | .uartSend _ => [.tx]
  | _ => []

/-- The pins whose `DIR`, `PULL` and `IRQ` it writes. -/
def cfgPins : Instr → List Pin
  | .pinCfg p _ _ _ => [p]
  | .i2cMSetup | .i2cSSetup | .i2cSWstart | .i2cSWstop | .i2cSServe _ => [.sda, .scl]
  | .i2cMWrite _ | .i2cMAcks | .i2cMRead _ | .i2cMXfer _ _ | .i2cMRdn _ _ | .i2cSAck => [.sda]
  | .spiMSetup _ | .spiSSetup _ => [.cs, .sclk, .sdo, .sdi]
  | .uartTxSetup => [.tx]
  | .uartRxSetup => [.rx]
  | _ => []

/-- The pins whose `HND` it writes. -/
def hndPins : Instr → List Pin
  | .irqReg p _ _ | .irqUnreg p => [p]
  | .i2cSSetup => [.sda]
  | .i2cSWstart | .i2cSWstop | .i2cSServe _ => [.sda, .scl]
  | .spiSSetup _ => [.cs]
  | .uartRxSetup | .uartRxFrame | .uartRxLoop => [.rx]
  | _ => []

/-- The flags it may clear. -/
def clears : Instr → List Mbx
  | .mbxWaitclr m | .mbxClear m => [m]
  | .i2cSSetup | .i2cSWstart | .i2cSRecv | .i2cSAck | .i2cSWstop | .i2cSServe _ => [.mI2c]
  | .spiSSetup _ | .spiSResp0 _ | .spiSResp1 _ | .spiSResp2 _ | .spiSResp3 _ => [.mSpi]
  | .uartRxSetup | .uartRxFrame | .uartRxLoop => [.mUart]
  | _ => []

/-- An engine. -/
inductive Engine where
  | i2c | spi | uart
deriving DecidableEq, Repr

/-- The engine whose registers it writes: its `unit` in R94; a PIN or MBX command writes none. -/
def engineOf (i : Instr) : Option Engine :=
  match (unitOf (encodeWord i)).toNat with
  | 2 => some .i2c
  | 3 => some .spi
  | 4 => some .uart
  | _ => none

/-- The setup commands, which alone write the roles, the SPI mode and the ready bits (R27, R29, R30). -/
def isSetup : Instr → Bool
  | .i2cMSetup | .i2cSSetup | .spiMSetup _ | .spiSSetup _ | .uartTxSetup | .uartRxSetup => true
  | _ => false

/-- The commands that store to the Receive Frame Buffer (20_memory.md R60). -/
def storesFrames : Instr → Bool
  | .uartRxFrame | .uartRxLoop => true
  | _ => false

/-! ## Reading `TRACE` -/

/-- The pin writes of a trace with their times, in the trace's order (newest first). -/
def pinWrites (tr : List Stamped) : List (Nat × Pin × Bool) :=
  tr.filterMap fun e =>
    match e.event with
    | .pinWrite p v => some (e.time, p, v)
    | _ => none

/-- The writes, configurations, registrations and removals the sequencer made on the pins, with their times, newest first. -/
def pinActs (tr : List Stamped) : List (Nat × Event) :=
  tr.filterMap fun e =>
    match e.event with
    | .pinWrite _ _ | .pinConfig _ _ _ _ _ | .handlerReg _ _ _ _ | .handlerUnreg _ => some (e.time, e.event)
    | _ => none

/-- The samples of pin `p` with their times, newest first. -/
def pinSamples (p : Pin) (tr : List Stamped) : List (Nat × Bool) :=
  tr.filterMap fun e =>
    match e.event with
    | .pinSample q v => if q = p then some (e.time, v) else none
    | _ => none

/-- The bytes of the flush report, newest first. -/
def reportBytes (tr : List Stamped) : List Byte :=
  tr.filterMap fun e =>
    match e.event with
    | .report b => some b
    | _ => none

/-- The notifications, newest first. -/
def notifications (tr : List Stamped) : List (BitVec 4 × Byte) :=
  tr.filterMap fun e =>
    match e.event with
    | .notify c b => some (c, b)
    | _ => none

/-- The pin writes made between `s` and `t` are `ws`, in order. -/
def Wrote (s t : State) (ws : List (Nat × Pin × Bool)) : Prop :=
  pinWrites t.env.trace = ws.reverse ++ pinWrites s.env.trace

/-- What the sequencer did to the pins between `s` and `t` is `es`, in order. -/
def Did (s t : State) (es : List (Nat × Event)) : Prop :=
  pinActs t.env.trace = es.reverse ++ pinActs s.env.trace

/-- The samples of pin `p` taken between `s` and `t` are `bs`, in order. -/
def Sampled (p : Pin) (s t : State) (bs : List (Nat × Bool)) : Prop :=
  pinSamples p t.env.trace = bs.reverse ++ pinSamples p s.env.trace

/-- The flush report made between `s` and `t` is `bs`, in order. -/
def Reported (s t : State) (bs : List Byte) : Prop :=
  reportBytes t.env.trace = bs.reverse ++ reportBytes s.env.trace

/-- The notifications made between `s` and `t` are `es`, in order. -/
def Notified (s t : State) (es : List (BitVec 4 × Byte)) : Prop :=
  notifications t.env.trace = es.reverse ++ notifications s.env.trace

/-! ## Waveforms: what the rules make the pins do, with the times -/

/-- `PIN_SET(p, v)` at time `t`. -/
def wr (t : Nat) (p : Pin) (v : Bool) : Nat × Event := (t, .pinWrite p v)

/-- `PIN_CFG(p, d, pl, ir)` at time `t`, answered with `ok`. -/
def cf (t : Nat) (p : Pin) (d : Dir) (pl : Pull) (ir : Irq) (ok : Bool) : Nat × Event := (t, .pinConfig p d pl ir ok)

/-- `IRQ_REG(p, m, os)` at time `t`, answered with `ok`. -/
def rg (t : Nat) (p : Pin) (m : Mbx) (os : Bool) (ok : Bool) : Nat × Event := (t, .handlerReg p m os ok)

/-- What a setup command that succeeds does to the pins at time `t`, in its rule's order (42_i2c_master.md R151,
43_i2c_slave.md R181, 44_spi.md R212, R213, 45_uart.md R241, R244). -/
def setupActs (t : Nat) : Instr → List (Nat × Event)
  | .i2cMSetup =>
    [wr t .sda true, cf t .sda .output .none .none true, wr t .scl true, cf t .scl .output .none .none true]
  | .i2cSSetup =>
    [cf t .scl .input .none .none true, cf t .sda .input .none .falling true, rg t .sda .mI2c false true]
  | .spiMSetup m =>
    [wr t .cs true, cf t .cs .output .none .none true, wr t .sclk (m.getLsbD 1), cf t .sclk .output .none .none true,
     wr t .sdo false, cf t .sdo .output .none .none true, cf t .sdi .input .none .none true]
  | .spiSSetup _ =>
    [cf t .sclk .input .none .none true, cf t .sdi .input .none .none true, wr t .sdo false,
     cf t .sdo .output .none .none true, cf t .cs .input .none .falling true, rg t .cs .mSpi false true]
  | .uartTxSetup => [wr t .tx true, cf t .tx .output .none .none true]
  | .uartRxSetup => [cf t .rx .input .up .falling true, rg t .rx .mUart true true]
  | _ => []

/-- How many configurations and registrations a setup command makes. -/
def setupCalls : Instr → Nat
  | .i2cMSetup => 2
  | .i2cSSetup => 3
  | .spiMSetup _ => 4
  | .spiSSetup _ => 5
  | .uartTxSetup => 1
  | .uartRxSetup => 2
  | _ => 0

/-- The same acts when the configuration or registration number `k` (from 0) fails: nothing after it (60_exceptions.md
R274). -/
def failAt : Nat → List (Nat × Event) → List (Nat × Event)
  | _, [] => []
  | 0, (t, .pinConfig p d pl ir _) :: _ => [(t, .pinConfig p d pl ir false)]
  | 0, (t, .handlerReg p m os _) :: _ => [(t, .handlerReg p m os false)]
  | k + 1, (t, .pinConfig p d pl ir ok) :: es => (t, .pinConfig p d pl ir ok) :: failAt k es
  | k + 1, (t, .handlerReg p m os ok) :: es => (t, .handlerReg p m os ok) :: failAt k es
  | k, e :: es => e :: failAt k es

/-- The fields of pin `q` after one act on the pins: a failed configuration or registration changes nothing (40_pin_ops.md R111,
R112, R114, R115). -/
def fieldsAct (q : Pin) (r : PinRegs) : Event → PinRegs
  | .pinWrite p v => if p = q then r.withLat v else r
  | .pinConfig p d pl ir ok => if p = q then r.withCfg ok d pl ir else r
  | .handlerReg p m os ok => if p = q ∧ ok = true then r.withHnd (some { mbx := m, once := os }) else r
  | .handlerUnreg p => if p = q then r.withHnd none else r
  | _ => r

/-- The fields of pin `q` after the acts `es`, in order. -/
def fieldsAfter (q : Pin) (es : List (Nat × Event)) (r : PinRegs) : PinRegs := es.foldl (fun r e => fieldsAct q r e.2) r

/-- `I2C_M_START` from time `t` (42_i2c_master.md R152). -/
def startWave (D t : Nat) : List (Nat × Pin × Bool) :=
  [(t, .sda, true), (t, .scl, true), (t + D, .sda, false), (t + 2 * D, .scl, false)]

/-- `I2C_M_WRITE x` (R153). -/
def writeWave (D t : Nat) (x : Byte) : List (Nat × Pin × Bool) :=
  (List.range 8).flatMap fun k =>
    [(t + 2 * k * D, .sda, x.getLsbD (7 - k)), (t + 2 * k * D, .scl, true), (t + 2 * k * D + D, .scl, false)]

/-- One clock pulse. -/
def pulseWave (D t : Nat) : List (Nat × Pin × Bool) := [(t, .scl, true), (t + D, .scl, false)]

/-- `I2C_M_READ ack` (R155). -/
def readWave (D t : Nat) (ack : Bool) : List (Nat × Pin × Bool) :=
  ((List.range 8).flatMap fun k => pulseWave D (t + 2 * k * D)) ++ (t + 16 * D, .sda, !ack) :: pulseWave D (t + 16 * D)

/-- `I2C_M_STOP` (R156). -/
def stopWave (D t : Nat) : List (Nat × Pin × Bool) := [(t, .sda, false), (t, .scl, true), (t + D, .sda, true)]

/-- A wire byte and its acknowledgment clock, back to back (R157). -/
def xferWave (D : Nat) : Nat → List Byte → List (Nat × Pin × Bool)
  | _, [] => []
  | t, x :: xs => writeWave D t x ++ pulseWave D (t + 16 * D) ++ xferWave D (t + 18 * D) xs

/-- Bytes read back to back, all but the last answered with ACK (R158). -/
def rdnWave (D : Nat) : Nat → Nat → List (Nat × Pin × Bool)
  | _, 0 => []
  | t, n + 1 => readWave D t (decide (n ≠ 0)) ++ rdnWave D (t + 18 * D) n

/-- The eight samples of a byte, bit 7 first, one each `step` microseconds from `t`. -/
def msbSamples (step t : Nat) (v : Byte) : List (Nat × Bool) :=
  (List.range 8).map fun k => (t + k * step, v.getLsbD (7 - k))

/-- The eight samples of a byte, bit 0 first, one each `step` microseconds from `t`. -/
def lsbSamples (step t : Nat) (v : Byte) : List (Nat × Bool) :=
  (List.range 8).map fun k => (t + k * step, v.getLsbD k)

/-- The samples of the bytes of `I2C_M_RDN` (R158): each at the end of a high phase. -/
def rdnSamples (D : Nat) : Nat → List Byte → List (Nat × Bool)
  | _, [] => []
  | t, v :: vs => msbSamples (2 * D) (t + D) v ++ rdnSamples D (t + 18 * D) vs

/-- An SPI master exchange in mode `m` (44_spi.md R211, R214 to R217): `idle(m)` = `m[1]`; modes 0 and 2 set the bit up before
the leading clock edge, modes 1 and 3 on it; only mode 0 leaves select low. -/
def spiWave (m : BitVec 2) (H t : Nat) (x : Byte) : List (Nat × Pin × Bool) :=
  let idle := m.getLsbD 1
  let bit (k : Nat) : List (Nat × Pin × Bool) :=
    if m.getLsbD 0 then
      [(t + 2 * k * H, .sclk, !idle), (t + 2 * k * H, .sdo, x.getLsbD (7 - k)), (t + 2 * k * H + H, .sclk, idle)]
    else
      [(t + 2 * k * H, .sdo, x.getLsbD (7 - k)), (t + 2 * k * H + H, .sclk, !idle), (t + 2 * k * H + 2 * H, .sclk, idle)]
  (t, .cs, false) :: (List.range 8).flatMap bit ++ (if m = 0 then [] else [(t + 16 * H, .cs, true)])

/-- One UART frame: start bit, eight data bits LSB first, stop bit (45_uart.md R242). -/
def uartWave (B t : Nat) (x : Byte) : List (Nat × Pin × Bool) :=
  (t, .tx, false) :: (List.range 8).map (fun k => (t + (k + 1) * B, .tx, x.getLsbD k)) ++ [(t + 9 * B, .tx, true)]

/-- Frames back to back (R243). -/
def uartSendWave (B : Nat) : Nat → List Byte → List (Nat × Pin × Bool)
  | _, [] => []
  | t, y :: ys => uartWave B t y ++ uartSendWave B (t + 10 * B) ys

/-! ## The SPI commands by mode -/

/-- `SPI_M_XCHGm x`. -/
def spiXchg (m : BitVec 2) (x : Byte) : Instr :=
  match m.toNat with
  | 0 => .spiMXchg0 x
  | 1 => .spiMXchg1 x
  | 2 => .spiMXchg2 x
  | _ => .spiMXchg3 x

/-- `SPI_S_RESPm x`. -/
def spiResp (m : BitVec 2) (x : Byte) : Instr :=
  match m.toNat with
  | 0 => .spiSResp0 x
  | 1 => .spiSResp1 x
  | 2 => .spiSResp2 x
  | _ => .spiSResp3 x

/-! ## Peers: plans that move a line when the block's step asks for it -/

/-- `n` turns of the sequencer. -/
def turns (n : Nat) : List EnvAct := List.replicate n .turn

/-- The environment drives pin `p` to a level. -/
def drives (p : Pin) (v : Bool) : List EnvAct := [.drive p (Ext.ofBit v)]

/-- `d` microseconds pass. -/
def passes (d : Nat) : List EnvAct := [.pass d]

/-- A slave that presents the bits of `b` on `SDI`, one before each bit of a master exchange in mode `m`. -/
def spiPeer (m : BitVec 2) (H : Nat) (b : Byte) : List EnvAct :=
  turns 2 ++ (List.range 8).flatMap fun k =>
    drives .sdi (b.getLsbD (7 - k)) ++ turns (if m.getLsbD 0 then 3 else 2) ++ passes H ++ turns 3 ++ passes H ++
      turns (if m.getLsbD 0 then 1 else 2)

/-- The turns and times of `I2C_M_START` (42_i2c_master.md R152). -/
def i2cStartTurns (D : Nat) : List EnvAct :=
  turns 4 ++ passes D ++ turns 2 ++ passes D ++ turns 2 ++ passes D ++ turns 1

/-- The turns and times of `I2C_M_WRITE` (R153). -/
def i2cWriteTurns (D : Nat) : List EnvAct :=
  turns 2 ++ (List.range 8).flatMap (fun _ => turns 3 ++ passes D ++ turns 2 ++ passes D ++ turns 1) ++ turns 2

/-- A receiver that answers `I2C_M_ACKS` (R154): it drives the line before the clock rises and releases it after the clock has
fallen. -/
def i2cAckPeer (D : Nat) (a : Bool) : List EnvAct :=
  drives .sda (!a) ++ turns 3 ++ passes D ++ turns 3 ++ passes D ++ [.drive .sda .z] ++ turns 3

/-- A sender that presents the bits of `v` to `I2C_M_READ` (R155), one before each clock pulse, and releases the line for the
master's answer. -/
def i2cReadPeer (D : Nat) (v : Byte) : List EnvAct :=
  turns 3 ++ ((List.range 8).flatMap fun k =>
    drives .sda (v.getLsbD (7 - k)) ++ turns 2 ++ passes D ++ turns 3 ++ passes D ++ turns 1) ++
  [.drive .sda .z] ++ turns 5 ++ passes D ++ turns 2 ++ passes D ++ turns 1

/-- A peer that acknowledges the address of `I2C_M_RDN` (R158) and sends the bytes `vs`. -/
def i2cRdnPeer (D : Nat) (vs : List Byte) : List EnvAct :=
  i2cStartTurns D ++ i2cWriteTurns D ++ i2cAckPeer D true ++ turns 1 ++ vs.flatMap (fun v => i2cReadPeer D v ++ turns 1)

/-- A peer that answers the bytes of `I2C_M_XFER` (R157) with `acks`. -/
def i2cXferPeer (D : Nat) (acks : List Bool) : List EnvAct :=
  i2cStartTurns D ++ acks.flatMap (fun a => i2cWriteTurns D ++ i2cAckPeer D a ++ turns 2)

/-- A master that selects the block and clocks `b` into a slave response in mode `m`. -/
def spiClocker (m : BitVec 2) (b : Byte) : List EnvAct :=
  let idle := m.getLsbD 1
  turns 1 ++ drives .cs true ++ drives .cs false ++ turns 1 ++
  ((List.range 8).flatMap fun k =>
    if m.getLsbD 0 then
      drives .sclk (!idle) ++ turns 2 ++ drives .sdi (b.getLsbD (7 - k)) ++ drives .sclk idle ++ turns 3
    else
      turns 1 ++ drives .sdi (b.getLsbD (7 - k)) ++ drives .sclk (!idle) ++ turns 2 ++ drives .sclk idle ++ turns 2) ++
  turns 1

/-- An I2C master that makes a START while `I2C_S_WSTART` waits. -/
def i2cStarter : List EnvAct := turns 1 ++ drives .sda true ++ drives .scl true ++ drives .sda false ++ turns 7

/-- An I2C master that clocks `v` into `I2C_S_RECV`. -/
def i2cClocker (v : Byte) : List EnvAct :=
  turns 2 ++ (List.range 8).flatMap fun k =>
    drives .scl false ++ drives .sda (v.getLsbD (7 - k)) ++ drives .scl true ++ turns 4

/-- An I2C master that releases the data line and gives the acknowledgment clock to `I2C_S_ACK`. -/
def i2cAckClocker (hold : Nat) : List EnvAct :=
  turns 3 ++ drives .scl false ++ [.drive .sda .z] ++ drives .scl true ++ turns 3 ++ passes hold ++ turns 1

/-- An I2C master that raises the data line while the clock is high and `I2C_S_WSTOP` watches: a STOP. -/
def i2cStopper : List EnvAct := drives .sda false ++ drives .scl true ++ turns 6 ++ drives .sda true ++ turns 5

/-- An I2C master that sends START, `v` and the ACK clock to `I2C_S_SERVE`, and lowers the clock before the slave looks for a
STOP. -/
def i2cFrame (hold : Nat) (v : Byte) : List EnvAct :=
  i2cStarter ++ i2cClocker v ++ i2cAckClocker hold ++ turns 2 ++ turns 6 ++ drives .scl false ++ turns 1

/-- One bit of a UART peer as `UART_RX_FRAME` waits `B` for it: from the centre of the bit before, `B - Hb` to this bit's
beginning, and `Hb` to its centre. -/
def uartPeerBit (B Hb : Nat) (v : Bool) : List EnvAct := turns 1 ++ passes (B - Hb) ++ drives .rx v ++ passes Hb

/-- A UART peer that sends `b` in the frame of 45_uart.md R240, R242: the start bit for `B` from the start edge, which is seen at
once, data bit `k` from `(k + 1) B` to `(k + 2) B` after it, LSB first, and the level `stop` from `9 B` on. -/
def uartPeer (B Hb : Nat) (b : Byte) (stop : Bool) : List EnvAct :=
  drives .rx true ++ drives .rx false ++ turns 2 ++ passes Hb ++ turns 1 ++
  ((List.range 8).flatMap fun k => uartPeerBit B Hb (b.getLsbD k) ++ turns 2) ++
  uartPeerBit B Hb stop ++ turns 3

/-- The plan moves no line of pin `p` from outside. -/
abbrev leaves (p : Pin) (plan : List EnvAct) : Prop := ∀ e, EnvAct.drive p e ∉ plan

end Sys2Proof.Machine
end

