-- ==== Sys2Proof/Certificates/Slice0/Obligations.lean ====
section
/-! DEFINITION. The statements for the provers. `D` = `I2C_T_EDGE`, `H` = `SPI_T_HALF`, `B` = `UART_T_BIT`, `Hb` =
`UART_T_HALF` are read from `s.cfg`. A statement with the premise `s.ready` holds for every finite plan of the environment
without a reset input; `s.undisturbed` only asks that nothing moves before the command's first micro-operation; `s.quiet` that
nothing moves at all. That the environment is a finite plan, and that one call of `exec` runs a command to its end or to a
spin-wait that finds its condition false, are the model's choices (log 5, log 6). -/

open Sys2Proof Sys2Proof.Machine

/-! ## Encoding -/

/-- Words written out in 30_encoding.md R94 and in the examples of the command rules decode to their commands. -/
def Obligations.SpecWordsDecode : Prop :=
  decode [0x00000004] = .instr (.pinCfg .sda .input .down .none) ∧
  decode [0x03070012] = .instr (.irqReg .rx .mUart true) ∧
  decode [0x05000068] = .instr (.waitUs 104) ∧
  decode [0x11000000] = .instr (.mbxWaitclr .mI2c) ∧
  decode [0x24000001] = .instr (.i2cMRead true) ∧
  decode [0x26420100, 0x000000A5] = .instr (.i2cMXfer 0x42 [0xA5]) ∧
  decode [0x2C420085] = .instr (.i2cSDisp 0x42 0x85) ∧
  decode [0x3B00003C] = .instr (.spiSResp3 0x3C) ∧
  decode [0x42000200, 0x00000048, 0x00000069] = .instr (.uartSend [0x48, 0x69])

/-- Decoding an encoded well-formed command gives it back, whatever follows it in the stream. -/
def Obligations.DecodeEncode : Prop :=
  ∀ (i : Instr) (rest : List Word), i.wf = true → decode (encode i ++ rest) = .instr i

/-- Whatever decodes to a command is that command's one encoding. -/
def Obligations.EncodeDecode : Prop :=
  ∀ (ws : List Word) (i : Instr), decode ws = .instr i → i.wf = true ∧ ∃ rest, ws = encode i ++ rest

/-- A command word with its payload words is rejected, and consumed whole, exactly when R97 calls it reserved; any other decodes
to a command. -/
def Obligations.ReservedExactly : Prop :=
  ∀ (w : Word) (ys rest : List Word), ys.length = payloadCount w →
    (isReserved w ys → ∃ r, decode (w :: (ys ++ rest)) = .reserved r (1 + ys.length)) ∧
    (¬ isReserved w ys → ∃ i, decode (w :: (ys ++ rest)) = .instr i)

/-- A reserved command presented to the idle block is refused: no state changes, the refusal is the one new entry of `TRACE`
and the result, and the command word and its payload words are consumed. -/
def Obligations.ReservedRefused : Prop :=
  ∀ (s : State) (w : Word) (ys rest : List Word), s.undisturbed → s.pendingWords = w :: (ys ++ rest) →
    ys.length = payloadCount w → isReserved w ys →
    ∃ t, step s = .next t ∧ Refused (1 + ys.length) s t

/-! ## The machine -/

/-- When the idle block is given its turn and the words at `CP` decode to a well-formed command, `step` is `exec` of that
command, with nothing added around it; while a command runs, `step` goes on with it. -/
def Obligations.StepRunsTheCommand : Prop :=
  (∀ (s : State) (i : Instr), s.undisturbed → decode s.pendingWords = .instr i → i.wf = true → step s = exec i s) ∧
  (∀ s : State, s.seq.busy = true → step s = .next s.runOn)

/-- While `SEQ_BUSY` = 1 no command is accepted: presenting one changes nothing. -/
def Obligations.BusyAcceptsNothing : Prop :=
  ∀ (i : Instr) (s : State), s.seq.busy = true → exec i s = .next s

/-- No command and no step ends in a fault or a refusal of the model: every error condition is a value. -/
def Obligations.NothingStops : Prop :=
  (∀ (i : Instr) (s : State), ∃ t, exec i s = .next t) ∧ (∀ s : State, ∃ t, step s = .next t)

/-- The invariant holds at reset: the buffer is canonical and inside its capacity, the sequencer idle with no wait. One conjunct
of it is the model's choice and no rule's: that `SEQ_POS`, which R35 leaves unspecified, is empty (log 2). -/
def Obligations.InvAtReset : Prop := State.reset.Inv

/-- Every step keeps the invariant: the buffer's canonical form and bounds, `RX_IDX` below the capacity, and the sequencer's
idle and waiting states in order. That an idle sequencer has an empty `SEQ_POS` is the model's choice (log 2). -/
def Obligations.StepKeepsInv : Prop :=
  ∀ s t : State, s.Inv → step s = .next t → t.Inv

/-- No step changes a parameter or the host's stream, moves `NOW` or `CP` back, or takes an entry out of `TRACE`. -/
def Obligations.StepMovesForward : Prop :=
  ∀ s t : State, step s = .next t →
    t.cfg = s.cfg ∧ t.env.stream = s.env.stream ∧ s.env.now ≤ t.env.now ∧ s.env.cp ≤ t.env.cp ∧
    s.env.trace <:+ t.env.trace

/-- The values R35 gives for reset. What R35 leaves unspecified is not stated. -/
def Obligations.ResetValues : Prop :=
  State.reset.seq.busy = false ∧ State.reset.seq.waitRem = 0 ∧
  (∀ p, (State.reset.pins.get p).dir = .input ∧ (State.reset.pins.get p).pull = .none ∧
    (State.reset.pins.get p).irq = .none ∧ (State.reset.pins.get p).lat = false ∧ (State.reset.pins.get p).hnd = none) ∧
  (∀ m, State.reset.flag.get m = false) ∧
  State.reset.i2c.role = .none ∧ State.reset.spi.role = .none ∧ State.reset.i2c.mState = .idle ∧
  State.reset.i2c.sState = .idleMonitor ∧ State.reset.i2c.ack = false ∧ State.reset.spi.mode = 0 ∧
  State.reset.uart.txRdy = false ∧ State.reset.uart.rxRdy = false ∧ State.reset.uart.rxIdx = 0

/-- The reset input, at any instant, also in the middle of a command: in one step every value of R35 is in place, the command is
abandoned with no result, `EXT`, `NOW` and the host's results stay, `TRACE` gets one reset entry. That `CP` and the stream stay
is the model's choice (log 15). -/
def Obligations.ResetInput : Prop :=
  ∀ (s : State) (as : List EnvAct), s.env.plan = .reset :: as →
    ∃ t, step s = .next t ∧
      t.seq.busy = false ∧ t.seq.waitRem = 0 ∧
      (∀ p, (t.pins.get p).dir = .input ∧ (t.pins.get p).pull = .none ∧ (t.pins.get p).irq = .none ∧
        (t.pins.get p).lat = false ∧ (t.pins.get p).hnd = none) ∧
      (∀ m, t.flag.get m = false) ∧
      t.i2c.role = .none ∧ t.spi.role = .none ∧ t.i2c.mState = .idle ∧ t.i2c.sState = .idleMonitor ∧
      t.i2c.ack = false ∧ t.spi.mode = 0 ∧ t.uart.txRdy = false ∧ t.uart.rxRdy = false ∧ t.uart.rxIdx = 0 ∧
      t.cfg = s.cfg ∧
      t.env = { s.env with plan := as, trace := { time := s.env.now, event := .reset } :: s.env.trace }

/-- The resolved level of every line, from `DIR`, `LAT`, `PULL` and `EXT`. -/
def Obligations.LineLevel : Prop :=
  ∀ (s : State) (p : Pin),
    let blk : Ext :=
      if (s.pins.get p).dir = .output then (if (s.pins.get p).lat then .d1 else .d0) else .z
    let ext := s.env.ext.get p
    (blk = .z → ext = .z → s.line p =
      match (s.pins.get p).pull with
      | .up => .l1
      | .down => .l0
      | .none => .x) ∧
    (blk = .z → ext = .d0 → s.line p = .l0) ∧
    (blk = .z → ext = .d1 → s.line p = .l1) ∧
    (blk = .d0 → ext = .z → s.line p = .l0) ∧
    (blk = .d1 → ext = .z → s.line p = .l1) ∧
    (blk = .d0 → ext = .d0 → s.line p = .l0) ∧
    (blk = .d1 → ext = .d1 → s.line p = .l1) ∧
    (blk ≠ .z → ext ≠ .z → blk ≠ ext → s.line p = .x)

/-- A well-formed command is refused exactly when R99 closes its gate; otherwise the block accepts it (`SEQ_CMD` takes its
words), whatever the protocol states hold. -/
def Obligations.GatesRefuse : Prop :=
  ∀ (i : Instr) (s : State), i.wf = true →
    (s.seq.busy = false → ¬ gateOpen s i → ∃ t, exec i s = .next t ∧ Refused i.lengthWords s t) ∧
    (s.ready → gateOpen s i → ∃ t, exec i s = .next t ∧ t.seq.cmd = { word := encodeWord i, payload := (encode i).tail })

/-- The frame of every command, under every plan without a reset and whether or not it returned: a pin field is kept but on the
pins whose field the command writes (a one-shot handler may fire anywhere), a flag is cleared only by the commands that clear
it, the registers of the other engines are as they were, and every byte of the Receive Frame Buffer reads as before but for the
two frame commands. -/
def Obligations.EveryCommandKeepsTheRest : Prop :=
  ∀ (i : Instr) (s : State), s.ready →
    ∃ t, exec i s = .next t ∧
      t.cfg = s.cfg ∧ t.env.stream = s.env.stream ∧
      (∀ q, q ∉ (latPins i) → (t.pins.get q).lat = (s.pins.get q).lat) ∧
      (∀ q, q ∉ (cfgPins i) →
        (t.pins.get q).dir = (s.pins.get q).dir ∧ (t.pins.get q).pull = (s.pins.get q).pull ∧
        (t.pins.get q).irq = (s.pins.get q).irq) ∧
      (∀ q, q ∉ (hndPins i) → handlerKept (s.pins.get q) (t.pins.get q)) ∧
      flagsKeptBut (clears i) s t ∧
      (engineOf i ≠ some .i2c → t.i2c = s.i2c) ∧
      (engineOf i ≠ some .spi → t.spi = s.spi) ∧
      (engineOf i ≠ some .uart → t.uart = s.uart) ∧
      (storesFrames i = false → ∀ a, Memory.read? t.uart.rxBuf a = Memory.read? s.uart.rxBuf a)

/-- The roles, the SPI mode and the UART ready bits change only by a setup command or reset. -/
def Obligations.RolesOnlyBySetup : Prop :=
  ∀ (i : Instr) (s : State), isSetup i = false → s.ready →
    ∃ t, exec i s = .next t ∧ t.i2c.role = s.i2c.role ∧ t.spi.role = s.spi.role ∧ t.spi.mode = s.spi.mode ∧
      t.uart.txRdy = s.uart.txRdy ∧ t.uart.rxRdy = s.uart.rxRdy

/-! ## The edge synchronizer -/

/-- The environment moves a line, of the idle block or at any point of a running command: the line takes its new level and, if that
is the armed edge and the pin has a handler, the flag is set and a one-shot handler removed in the same step; nothing else changes.
A running command goes on from the state so reached (that its acts are a list a step runs over is the model's choice, log 5 and
log 6). -/
def Obligations.EnvironmentEdge : Prop :=
  (∀ (s : State) (p : Pin) (e : Ext), let t := EnvAct.apply s (.drive p e)
    Moved p (s.pins.get p) e s t ∧ enginesSame s t ∧ t.seq = s.seq ∧ t.cfg = s.cfg ∧ t.env.ext = s.env.ext.set p e ∧
      t.env.now = s.env.now ∧ t.env.plan = s.env.plan ∧ t.env.cp = s.env.cp ∧ t.env.res = s.env.res) ∧
  (∀ (s : State) (p : Pin) (e : Ext) (as : List EnvAct), s.seq.busy = true → s.env.plan = .drive p e :: as →
    step s = step (EnvAct.apply (s.setPlan as) (.drive p e))) ∧
  ∀ (s : State) (p : Pin) (e : Ext) (as : List EnvAct), s.seq.busy = false → s.env.plan = .drive p e :: as →
    ∃ t, step s = .next t ∧ Moved p (s.pins.get p) e s t ∧ enginesSame s t ∧ t.seq = s.seq ∧ t.cfg = s.cfg ∧
      t.env.ext = s.env.ext.set p e ∧ t.env.now = s.env.now ∧ t.env.plan = as ∧ t.env.cp = s.env.cp ∧ t.env.res = s.env.res

/-- A matching edge while the handler's flag is 1 already is lost, idle or at any point of a running command: no flag changes and
nothing records it. -/
def Obligations.SecondEdgeIsLost : Prop :=
  (∀ (s : State) (p : Pin) (e : Ext) (h : Handler), (s.pins.get p).hnd = some h → s.flag.get h.mbx = true →
    edgeIs (s.pins.get p).irq (lineOf (s.pins.get p) (s.env.ext.get p)) (lineOf (s.pins.get p) e) →
    let t := EnvAct.apply s (.drive p e)
    t.flag = s.flag ∧ t.env.trace = s.env.trace ∧ t.seq = s.seq ∧ enginesSame s t ∧
      t.pins = if h.once then s.pins.set p ((s.pins.get p).withHnd none) else s.pins) ∧
  ∀ (s : State) (p : Pin) (e : Ext) (h : Handler) (as : List EnvAct), s.seq.busy = false →
    s.env.plan = .drive p e :: as → (s.pins.get p).hnd = some h → s.flag.get h.mbx = true →
    edgeIs (s.pins.get p).irq (lineOf (s.pins.get p) (s.env.ext.get p)) (lineOf (s.pins.get p) e) →
    ∃ t, step s = .next t ∧ t.flag = s.flag ∧ t.env.trace = s.env.trace ∧ t.seq = s.seq ∧ enginesSame s t ∧
      t.pins = if h.once then s.pins.set p ((s.pins.get p).withHnd none) else s.pins

/-! ## PIN and MBX commands -/

/-- `PIN_CFG`: on success all three fields together, the latch and the handler kept, the line re-resolved and the edge
synchronizer acting in that step; on failure no change and `CFG_FAIL`. -/
def Obligations.PinCfg : Prop :=
  ∀ (p : Pin) (d : Dir) (pl : Pull) (ir : Irq) (s : State), s.undisturbed →
    ∃ (t : State) (ok : Bool), exec (.pinCfg p d pl ir) s = .next t ∧ s.platformSays [ok] ∧
      Returned (.pinCfg p d pl ir) s t (if ok then okWords 0 else cfgFailWords) ∧
      Moved p ((s.pins.get p).withCfg ok d pl ir) (s.env.ext.get p) s t ∧
      enginesSame s t ∧ t.env.ext = s.env.ext ∧ t.env.now = s.env.now ∧ Did s t [cf s.env.now p d pl ir ok]

/-- `PIN_SET`: the latch is written, the line re-resolved and the edge synchronizer acts in that step; nothing else changes. -/
def Obligations.PinSet : Prop :=
  ∀ (p : Pin) (v : Bool) (s : State), s.undisturbed →
    ∃ t, exec (.pinSet p v) s = .next t ∧ Returned (.pinSet p v) s t (okWords 0) ∧
      Moved p ((s.pins.get p).withLat v) (s.env.ext.get p) s t ∧
      enginesSame s t ∧ t.env.ext = s.env.ext ∧ t.env.now = s.env.now ∧ Did s t [wr s.env.now p v]

/-- `PIN_GET`: the result is the line's level, or a draw where the line is `X`; no state changes. -/
def Obligations.PinGet : Prop :=
  ∀ (p : Pin) (s : State), s.undisturbed →
    ∃ (t : State) (v : Bool), exec (.pinGet p) s = .next t ∧ Returned (.pinGet p) s t (okWords (if v then 1 else 0)) ∧
      (lineOf (s.pins.get p) (s.env.ext.get p) = .l0 → v = false) ∧
      (lineOf (s.pins.get p) (s.env.ext.get p) = .l1 → v = true) ∧
      (∀ b, lineOf (s.pins.get p) (s.env.ext.get p) = .x → s.env.xDraws.head? = some b → v = b) ∧
      t.pins = s.pins ∧ t.flag = s.flag ∧ enginesSame s t ∧ t.env.ext = s.env.ext ∧ t.env.now = s.env.now

/-- `IRQ_REG`: the handler replaces the pin's, no flag changes; on failure no change and `CFG_FAIL`. -/
def Obligations.IrqReg : Prop :=
  ∀ (p : Pin) (m : Mbx) (os : Bool) (s : State), s.undisturbed →
    ∃ (t : State) (ok : Bool), exec (.irqReg p m os) s = .next t ∧ s.platformSays [ok] ∧
      Returned (.irqReg p m os) s t (if ok then okWords 0 else cfgFailWords) ∧
      t.pins = (if ok then s.pins.set p ((s.pins.get p).withHnd (some { mbx := m, once := os })) else s.pins) ∧
      t.flag = s.flag ∧ enginesSame s t ∧ t.env.ext = s.env.ext ∧ t.env.now = s.env.now

/-- `IRQ_UNREG`: the pin has no handler; `IRQ[p]` and the flags stay. -/
def Obligations.IrqUnreg : Prop :=
  ∀ (p : Pin) (s : State), s.undisturbed →
    ∃ t, exec (.irqUnreg p) s = .next t ∧ Returned (.irqUnreg p) s t (okWords 0) ∧
      t.pins = s.pins.set p ((s.pins.get p).withHnd none) ∧
      t.flag = s.flag ∧ enginesSame s t ∧ t.env.ext = s.env.ext ∧ t.env.now = s.env.now

/-- `WAIT_US n` returns after exactly `n` microseconds, whatever the environment does meanwhile. -/
def Obligations.WaitUs : Prop :=
  ∀ (n : BitVec 24) (s : State), s.ready →
    ∃ t, exec (.waitUs n) s = .next t ∧ Returned (.waitUs n) s t (okWords 0) ∧ t.env.now = s.env.now + n.toNat ∧
      t.seq.waitRem = 0 ∧ enginesSame s t ∧ pinsKeptBut [] s t ∧ flagsKeptBut [] s t ∧ Did s t []

/-- `MBX_SIGNAL` issued by the host is always refused. -/
def Obligations.MbxSignal : Prop :=
  ∀ (m : Mbx) (s : State), s.seq.busy = false → ∃ t, exec (.mbxSignal m) s = .next t ∧ Refused 1 s t

/-- `MBX_WAITCLR` with the event pending returns at its first step, in no time, and leaves the flag 0. -/
def Obligations.MbxWaitclr : Prop :=
  ∀ (m : Mbx) (s : State), s.ready → s.flag.get m = true →
    ∃ t, exec (.mbxWaitclr m) s = .next t ∧ Returned (.mbxWaitclr m) s t (okWords 0) ∧
      t.flag.get m = false ∧ flagsKeptBut [m] s t ∧ pinsKeptBut [] s t ∧ enginesSame s t ∧ t.env.now = s.env.now ∧ Did s t []

/-- A wait that never ends: with no event pending and no handler that could raise one, `MBX_WAITCLR` does not return under any
plan without a reset, and a block hung in it stays as it is at every later step with nothing around it moving. -/
def Obligations.WaitHangs : Prop :=
  ∀ (m : Mbx) (s : State), s.ready → s.flag.get m = false →
    (∀ p h, (s.pins.get p).hnd = some h → h.mbx ≠ m) →
    ∃ t, exec (.mbxWaitclr m) s = .next t ∧ StillRuns s t ∧ t.flag.get m = false ∧ enginesSame s t ∧ pinsKeptBut [] s t ∧
      t.env.plan = [] ∧ step t = .next t

/-- `MBX_TEST` returns the flag and changes nothing; `MBX_CLEAR` clears it and changes nothing else. -/
def Obligations.MbxTestAndClear : Prop :=
  ∀ (m : Mbx) (s : State), s.undisturbed →
    (∃ t, exec (.mbxTest m) s = .next t ∧ Returned (.mbxTest m) s t (okWords (if s.flag.get m then 1 else 0)) ∧
      t.flag = s.flag ∧ t.pins = s.pins ∧ enginesSame s t ∧ t.env.ext = s.env.ext ∧ t.env.now = s.env.now) ∧
    (∃ t, exec (.mbxClear m) s = .next t ∧ Returned (.mbxClear m) s t (okWords 0) ∧
      t.flag = s.flag.set m false ∧ t.pins = s.pins ∧ enginesSame s t ∧ t.env.ext = s.env.ext ∧ t.env.now = s.env.now)

/-! ## Setup commands -/

/-- `I2C_M_SETUP`, every configuration succeeding: latches preloaded before the pins drive, both lines driven high, role
`MASTER`, state `IDLE`, in no time. -/
def Obligations.I2cMSetup : Prop :=
  ∀ s : State, s.ready → s.cfgSucceeds 2 →
    ∃ t, exec .i2cMSetup s = .next t ∧ Returned .i2cMSetup s t (okWords 0) ∧
      Did s t (setupActs s.env.now .i2cMSetup) ∧
      t.i2c = { s.i2c with role := .master, mState := .idle } ∧ t.spi = s.spi ∧ t.uart = s.uart ∧
      pinKept (((s.pins.get .sda).withLat true).withCfg true .output .none .none) (t.pins.get .sda) ∧
      pinKept (((s.pins.get .scl).withLat true).withCfg true .output .none .none) (t.pins.get .scl) ∧
      pinsKeptBut [.sda, .scl] s t ∧ flagsKeptBut [] s t ∧ t.env.now = s.env.now

/-- `I2C_S_SETUP`, every configuration succeeding: both lines inputs, `SDA` armed for its falling edge, role `SLAVE`, state
`IDLE_MONITOR`, the flag cleared. -/
def Obligations.I2cSSetup : Prop :=
  ∀ s : State, s.ready → s.cfgSucceeds 3 →
    ∃ t, exec .i2cSSetup s = .next t ∧ Returned .i2cSSetup s t (okWords 0) ∧
      Did s t (setupActs s.env.now .i2cSSetup) ∧
      t.i2c = { s.i2c with role := .slave, sState := .idleMonitor } ∧ t.spi = s.spi ∧ t.uart = s.uart ∧
      t.pins.get .sda = { s.pins.get .sda with
        dir := .input, pull := .none, irq := .falling, hnd := some { mbx := .mI2c, once := false } } ∧
      pinKept ((s.pins.get .scl).withCfg true .input .none .none) (t.pins.get .scl) ∧
      pinsKeptBut [.sda, .scl] s t ∧ flagsKeptBut [.mI2c] s t ∧ (s.quiet → t.flag.get .mI2c = false) ∧
      t.env.now = s.env.now

/-- `SPI_M_SETUP m`, every configuration succeeding: select high, clock at the idle level of the mode, output low, input line an
input; role `MASTER` in mode `m`. -/
def Obligations.SpiMSetup : Prop :=
  ∀ (m : BitVec 2) (s : State), s.ready → s.cfgSucceeds 4 →
    ∃ t, exec (.spiMSetup m) s = .next t ∧ Returned (.spiMSetup m) s t (okWords 0) ∧
      Did s t (setupActs s.env.now (.spiMSetup m)) ∧
      t.spi = { s.spi with role := .master, mode := m } ∧ t.i2c = s.i2c ∧ t.uart = s.uart ∧
      pinKept (((s.pins.get .cs).withLat true).withCfg true .output .none .none) (t.pins.get .cs) ∧
      pinKept (((s.pins.get .sclk).withLat (m.getLsbD 1)).withCfg true .output .none .none) (t.pins.get .sclk) ∧
      pinKept (((s.pins.get .sdo).withLat false).withCfg true .output .none .none) (t.pins.get .sdo) ∧
      pinKept ((s.pins.get .sdi).withCfg true .input .none .none) (t.pins.get .sdi) ∧
      pinsKeptBut [.cs, .sclk, .sdo, .sdi] s t ∧ flagsKeptBut [] s t ∧ t.env.now = s.env.now

/-- `SPI_S_SETUP m`, every configuration succeeding: clock, input and select are inputs, the output drives low, select armed for
its falling edge, the flag cleared; role `SLAVE` in mode `m`. -/
def Obligations.SpiSSetup : Prop :=
  ∀ (m : BitVec 2) (s : State), s.ready → s.cfgSucceeds 5 →
    ∃ t, exec (.spiSSetup m) s = .next t ∧ Returned (.spiSSetup m) s t (okWords 0) ∧
      Did s t (setupActs s.env.now (.spiSSetup m)) ∧
      t.spi = { s.spi with role := .slave, mode := m } ∧ t.i2c = s.i2c ∧ t.uart = s.uart ∧
      pinKept ((s.pins.get .sclk).withCfg true .input .none .none) (t.pins.get .sclk) ∧
      pinKept ((s.pins.get .sdi).withCfg true .input .none .none) (t.pins.get .sdi) ∧
      pinKept (((s.pins.get .sdo).withLat false).withCfg true .output .none .none) (t.pins.get .sdo) ∧
      t.pins.get .cs = { s.pins.get .cs with
        dir := .input, pull := .none, irq := .falling, hnd := some { mbx := .mSpi, once := false } } ∧
      pinsKeptBut [.cs, .sclk, .sdo, .sdi] s t ∧ flagsKeptBut [.mSpi] s t ∧ (s.quiet → t.flag.get .mSpi = false) ∧
      t.env.now = s.env.now

/-- `UART_TX_SETUP`, the configuration succeeding: the line idles high and the transmitter is ready. -/
def Obligations.UartTxSetup : Prop :=
  ∀ s : State, s.ready → s.cfgSucceeds 1 →
    ∃ t, exec .uartTxSetup s = .next t ∧ Returned .uartTxSetup s t (okWords 0) ∧
      Did s t (setupActs s.env.now .uartTxSetup) ∧
      t.uart = { s.uart with txRdy := true } ∧ t.i2c = s.i2c ∧ t.spi = s.spi ∧
      pinKept (((s.pins.get .tx).withLat true).withCfg true .output .none .none) (t.pins.get .tx) ∧
      pinsKeptBut [.tx] s t ∧ flagsKeptBut [] s t ∧ t.env.now = s.env.now

/-- `UART_RX_SETUP`, every configuration succeeding: `RX` an input pulled up and armed with the one-shot handler (unless a start
edge fired it already), the flag cleared, the buffer position 0 and its bytes kept, the receiver ready. -/
def Obligations.UartRxSetup : Prop :=
  ∀ s : State, s.ready → s.cfgSucceeds 2 →
    ∃ t, exec .uartRxSetup s = .next t ∧ Returned .uartRxSetup s t (okWords 0) ∧
      Did s t (setupActs s.env.now .uartRxSetup) ∧
      t.uart = { s.uart with rxRdy := true, rxIdx := 0 } ∧ t.i2c = s.i2c ∧ t.spi = s.spi ∧
      pinKept (((s.pins.get .rx).withCfg true .input .up .falling).withHnd (some { mbx := .mUart, once := true }))
        (t.pins.get .rx) ∧
      pinsKeptBut [.rx] s t ∧ flagsKeptBut [.mUart] s t ∧
      (s.quiet → t.flag.get .mUart = false ∧ (t.pins.get .rx).hnd = some { mbx := .mUart, once := true }) ∧
      t.env.now = s.env.now

/-- A setup whose configuration number `k` fails stops there: what it did before stays (every pin has the fields its acts before the
failure give it, and no field of the failed one), nothing after it runs, the role or ready bit stays at the `NONE` (0) of its first
step, every other register and flag is as it was, and the status is `CFG_FAIL`. -/
def Obligations.SetupFailure : Prop :=
  ∀ (i : Instr) (k : Nat) (s : State), s.ready → isSetup i = true → k < (setupCalls i) →
    s.env.cfgOutcomes.take (k + 1) = List.replicate k true ++ [false] →
    ∃ t, exec i s = .next t ∧ Returned i s t cfgFailWords ∧ Did s t (failAt k (setupActs s.env.now i)) ∧
      t.i2c = (if engineOf i = some .i2c then { s.i2c with role := .none } else s.i2c) ∧
      t.spi = (if engineOf i = some .spi then { s.spi with role := .none } else s.spi) ∧
      t.uart = { s.uart with
        txRdy := if i = .uartTxSetup then false else s.uart.txRdy
        rxRdy := if i = .uartRxSetup then false else s.uart.rxRdy } ∧
      (∀ q, pinKept (fieldsAfter q (failAt k (setupActs s.env.now i)) (s.pins.get q)) (t.pins.get q)) ∧
      flagsKeptBut [] s t ∧ t.env.now = s.env.now

/-! ## I2C master -/

/-- `I2C_M_START`: the pin writes and their times, `3D` in all, ending in state `ADDRESS` with both latches low. -/
def Obligations.I2cMStart : Prop :=
  ∀ s : State, s.ready → s.i2c.role = .master →
    ∃ t, exec .i2cMStart s = .next t ∧ Returned .i2cMStart s t (okWords 0) ∧
      Wrote s t (startWave s.cfg.i2cTEdge s.env.now) ∧ t.env.now = s.env.now + 3 * s.cfg.i2cTEdge ∧
      t.i2c = { s.i2c with mState := .address } ∧ t.spi = s.spi ∧ t.uart = s.uart ∧
      pinKept ((s.pins.get .sda).withLat false) (t.pins.get .sda) ∧
      pinKept ((s.pins.get .scl).withLat false) (t.pins.get .scl) ∧
      pinsKeptBut [.sda, .scl] s t ∧ flagsKeptBut [] s t

/-- `I2C_M_WRITE x`: eight bits, bit 7 first, each with one clock pulse, then `SDA` released to an input with pull-down (its
status discarded); `16D` in all. -/
def Obligations.I2cMWrite : Prop :=
  ∀ (x : Byte) (s : State), s.ready → s.i2c.role = .master →
    ∃ (t : State) (ok : Bool), exec (.i2cMWrite x) s = .next t ∧ s.platformSays [ok] ∧ Returned (.i2cMWrite x) s t (okWords 0) ∧
      Wrote s t (writeWave s.cfg.i2cTEdge s.env.now x) ∧
      Did s t ((writeWave s.cfg.i2cTEdge s.env.now x).map (fun e => wr e.1 e.2.1 e.2.2) ++
        [cf (s.env.now + 16 * s.cfg.i2cTEdge) .sda .input .down .none ok]) ∧
      t.env.now = s.env.now + 16 * s.cfg.i2cTEdge ∧
      t.i2c = { s.i2c with shift := x, bitcnt := 0, mState := .waitAck } ∧ t.spi = s.spi ∧ t.uart = s.uart ∧
      pinKept (((s.pins.get .sda).withLat (x.getLsbD 0)).withCfg ok .input .down .none) (t.pins.get .sda) ∧
      pinKept ((s.pins.get .scl).withLat false) (t.pins.get .scl) ∧
      pinsKeptBut [.sda, .scl] s t ∧ flagsKeptBut [] s t

/-- `I2C_M_ACKS`: one clock pulse, `SDA` sampled at the end of its high phase, then `SDA` an output again; `ack` = 1 when the
sample was 0; `2D` in all. -/
def Obligations.I2cMAcks : Prop :=
  ∀ s : State, s.ready → s.i2c.role = .master →
    ∃ (t : State) (v ok : Bool), exec .i2cMAcks s = .next t ∧ s.platformSays [ok] ∧
      Returned .i2cMAcks s t (okWords (if v then 0 else 1)) ∧
      Sampled .sda s t [(s.env.now + s.cfg.i2cTEdge, v)] ∧
      Did s t [wr s.env.now .scl true, wr (s.env.now + s.cfg.i2cTEdge) .scl false,
        cf (s.env.now + 2 * s.cfg.i2cTEdge) .sda .output .none .none ok] ∧
      t.env.now = s.env.now + 2 * s.cfg.i2cTEdge ∧
      t.i2c = { s.i2c with ack := !v, mState := .data } ∧ t.spi = s.spi ∧ t.uart = s.uart ∧
      pinKept ((s.pins.get .sda).withCfg ok .output .none .none) (t.pins.get .sda) ∧
      pinKept ((s.pins.get .scl).withLat false) (t.pins.get .scl) ∧
      pinsKeptBut [.sda, .scl] s t ∧ flagsKeptBut [] s t

/-- `I2C_M_READ ack`: eight clock pulses, `SDA` sampled at the end of each high phase, bit 7 first, then the master's own ACK (low)
or NACK (high) with one pulse; `18D` in all. -/
def Obligations.I2cMRead : Prop :=
  ∀ (ack : Bool) (s : State), s.ready → s.i2c.role = .master →
    ∃ (t : State) (v : Byte) (ok1 ok2 : Bool), exec (.i2cMRead ack) s = .next t ∧ s.platformSays [ok1, ok2] ∧
      Returned (.i2cMRead ack) s t (okWords v) ∧
      Sampled .sda s t (msbSamples (2 * s.cfg.i2cTEdge) (s.env.now + s.cfg.i2cTEdge) v) ∧
      Wrote s t (readWave s.cfg.i2cTEdge s.env.now ack) ∧
      t.env.now = s.env.now + 18 * s.cfg.i2cTEdge ∧
      t.i2c = { s.i2c with shift := v, bitcnt := 0, mState := .data } ∧ t.spi = s.spi ∧ t.uart = s.uart ∧
      pinKept ((((s.pins.get .sda).withCfg ok1 .input .down .none).withCfg ok2 .output .none .none).withLat (!ack))
        (t.pins.get .sda) ∧
      pinKept ((s.pins.get .scl).withLat false) (t.pins.get .scl) ∧
      pinsKeptBut [.sda, .scl] s t ∧ flagsKeptBut [] s t

/-- `I2C_M_STOP`: the pin writes and their times, `2D` in all, ending in state `IDLE` with both latches high. -/
def Obligations.I2cMStop : Prop :=
  ∀ s : State, s.ready → s.i2c.role = .master →
    ∃ t, exec .i2cMStop s = .next t ∧ Returned .i2cMStop s t (okWords 0) ∧
      Wrote s t (stopWave s.cfg.i2cTEdge s.env.now) ∧ t.env.now = s.env.now + 2 * s.cfg.i2cTEdge ∧
      t.i2c = { s.i2c with mState := .idle } ∧ t.spi = s.spi ∧ t.uart = s.uart ∧
      pinKept ((s.pins.get .sda).withLat true) (t.pins.get .sda) ∧
      pinKept ((s.pins.get .scl).withLat true) (t.pins.get .scl) ∧
      pinsKeptBut [.sda, .scl] s t ∧ flagsKeptBut [] s t

/-- `I2C_M_XFER`: START, the address byte with R/W bit 0, then the payload bytes in order as long as each byte is acknowledged, then
STOP at once. The results are the samples of the ninth clocks, one for each byte on the wire, 1 to `n` + 1 of them, all but the
last 1, and the last 0 when the transfer was cut short. `(18k + 5)D` for `k` wire bytes. The count of 256 results has no stated
value (log 13). -/
def Obligations.I2cMXfer : Prop :=
  ∀ (addr : Addr) (ys : List Byte) (s : State), s.ready → s.i2c.role = .master → ys.length ≤ 255 →
    ∃ (t : State) (acks : List Bool) (v : Byte), exec (.i2cMXfer addr ys) s = .next t ∧
      Returned (.i2cMXfer addr ys) s t (v.setWidth 32 :: acks.map (fun a : Bool => if a then 1 else 0)) ∧
      (acks.length ≤ 255 → v = BitVec.ofNat 8 acks.length) ∧
      1 ≤ acks.length ∧ acks.length ≤ ys.length + 1 ∧ (∀ a ∈ acks.dropLast, a = true) ∧
      (acks.length ≤ ys.length → acks.getLast? = some false) ∧
      Wrote s t
        (startWave s.cfg.i2cTEdge s.env.now ++
         xferWave s.cfg.i2cTEdge (s.env.now + 3 * s.cfg.i2cTEdge)
          ((BitVec.ofNat 8 (2 * addr.toNat) :: ys).take acks.length) ++
         stopWave s.cfg.i2cTEdge (s.env.now + (18 * acks.length + 3) * s.cfg.i2cTEdge)) ∧
      Sampled .sda s t ((List.range acks.length).map fun k =>
        (s.env.now + (18 * k + 20) * s.cfg.i2cTEdge, !(acks.getD k true))) ∧
      t.env.now = s.env.now + (18 * acks.length + 5) * s.cfg.i2cTEdge ∧
      t.i2c.mState = .idle ∧ t.i2c.role = .master ∧ some t.i2c.ack = acks.getLast? ∧ t.spi = s.spi ∧ t.uart = s.uart ∧
      some t.i2c.shift = ((BitVec.ofNat 8 (2 * addr.toNat) :: ys).take acks.length).getLast? ∧ t.i2c.bitcnt = 0 ∧
      t.i2c.sState = s.i2c.sState ∧
      (t.pins.get .sda).lat = true ∧ pinKept ((s.pins.get .scl).withLat true) (t.pins.get .scl) ∧
      (s.cfgSucceeds (2 * ys.length + 2) →
        (t.pins.get .sda).dir = .output ∧ (t.pins.get .sda).pull = .none ∧ (t.pins.get .sda).irq = .none) ∧
      handlerKept (s.pins.get .sda) (t.pins.get .sda) ∧
      pinsKeptBut [.sda, .scl] s t ∧ flagsKeptBut [] s t

/-- `I2C_M_RDN`: START, the address byte with R/W bit 1; if it is acknowledged, `count` bytes, every one but the last answered with
ACK and the last with NACK, each the eight samples of its clocks; then STOP. `(18 count + 23)D`, or `23D` when the address was
refused. -/
def Obligations.I2cMRdn : Prop :=
  ∀ (addr : Addr) (count : Byte) (s : State), s.ready → s.i2c.role = .master →
    ∃ (t : State) (a : Bool) (vs : List Byte), exec (.i2cMRdn addr count) s = .next t ∧
      Returned (.i2cMRdn addr count) s t
        ((BitVec.ofNat 32 vs.length) :: vs.map (fun v : Byte => v.setWidth 32)) ∧
      vs.length = (if a then count.toNat else 0) ∧
      Wrote s t
        (startWave s.cfg.i2cTEdge s.env.now ++
         xferWave s.cfg.i2cTEdge (s.env.now + 3 * s.cfg.i2cTEdge) [BitVec.ofNat 8 (2 * addr.toNat + 1)] ++
         rdnWave s.cfg.i2cTEdge (s.env.now + 21 * s.cfg.i2cTEdge) vs.length ++
         stopWave s.cfg.i2cTEdge (s.env.now + (18 * vs.length + 21) * s.cfg.i2cTEdge)) ∧
      Sampled .sda s t ((s.env.now + 20 * s.cfg.i2cTEdge, !a) ::
        rdnSamples s.cfg.i2cTEdge (s.env.now + 21 * s.cfg.i2cTEdge) vs) ∧
      t.env.now = s.env.now + (18 * vs.length + 23) * s.cfg.i2cTEdge ∧
      t.i2c.mState = .idle ∧ t.i2c.role = .master ∧ t.i2c.ack = a ∧ t.spi = s.spi ∧ t.uart = s.uart ∧
      t.i2c.shift = vs.getLast?.getD (BitVec.ofNat 8 (2 * addr.toNat + 1)) ∧ t.i2c.bitcnt = 0 ∧
      t.i2c.sState = s.i2c.sState ∧
      (s.cfgSucceeds (2 * vs.length + 2) →
        (t.pins.get .sda).dir = .output ∧ (t.pins.get .sda).pull = .none ∧ (t.pins.get .sda).irq = .none) ∧
      (t.pins.get .sda).lat = true ∧ pinKept ((s.pins.get .scl).withLat true) (t.pins.get .scl) ∧
      handlerKept (s.pins.get .sda) (t.pins.get .sda) ∧
      pinsKeptBut [.sda, .scl] s t ∧ flagsKeptBut [] s t

/-- An absent receiver acknowledges: with `SDA` an input pulled down and nobody driving it, `I2C_M_ACKS` returns ACK, `I2C_M_READ`
returns 0, and, every configuration succeeding, `I2C_M_XFER` reports every byte acknowledged and `I2C_M_RDN` returns `count` zeros;
with the environment holding the line high, `I2C_M_ACKS` returns NACK, `I2C_M_XFER` one result, a NACK, and `I2C_M_RDN` no byte. The
count of 256 results has no stated value (log 13). -/
def Obligations.AbsentReceiver : Prop :=
  ∀ s : State, s.ready → s.i2c.role = .master → leaves .sda s.env.plan →
    ((s.pins.get .sda).dir = .input → (s.pins.get .sda).pull = .down → s.env.ext.get .sda = .z →
      ∃ t, exec .i2cMAcks s = .next t ∧ Returned .i2cMAcks s t (okWords 1) ∧ t.i2c.ack = true) ∧
    ((s.pins.get .sda).dir = .input → s.env.ext.get .sda = .d1 →
      ∃ t, exec .i2cMAcks s = .next t ∧ Returned .i2cMAcks s t (okWords 0) ∧ t.i2c.ack = false) ∧
    (s.env.ext.get .sda = .z → s.env.cfgOutcomes.head? = some true →
      ∀ ack, ∃ t, exec (.i2cMRead ack) s = .next t ∧ Returned (.i2cMRead ack) s t (okWords 0) ∧ t.i2c.shift = 0) ∧
    (s.env.ext.get .sda = .z → ∀ (addr : Addr) (ys : List Byte), ys.length ≤ 255 → s.cfgSucceeds (2 * ys.length + 2) →
      ∃ (t : State) (v : Byte), exec (.i2cMXfer addr ys) s = .next t ∧
        Returned (.i2cMXfer addr ys) s t (v.setWidth 32 :: List.replicate (ys.length + 1) 1) ∧
        (ys.length < 255 → v = BitVec.ofNat 8 (ys.length + 1))) ∧
    (s.env.ext.get .sda = .z → ∀ (addr : Addr) (count : Byte), s.cfgSucceeds (2 * count.toNat + 2) →
      ∃ t, exec (.i2cMRdn addr count) s = .next t ∧
        Returned (.i2cMRdn addr count) s t (count.setWidth 32 :: List.replicate count.toNat 0)) ∧
    (s.env.ext.get .sda = .d1 → s.env.cfgOutcomes.head? = some true → ∀ (addr : Addr) (ys : List Byte) (count : Byte),
      ys.length ≤ 255 →
      (∃ t, exec (.i2cMXfer addr ys) s = .next t ∧ Returned (.i2cMXfer addr ys) s t [1, 0]) ∧
      (∃ t, exec (.i2cMRdn addr count) s = .next t ∧ Returned (.i2cMRdn addr count) s t [0]))

/-- The master reads its peer: `I2C_M_READ` against a peer that presents the bits of `v`, bit 7 first, one before each clock pulse,
returns `v`; `I2C_M_RDN` against a peer that acknowledges the address and presents the bytes `vs` returns `vs`; `I2C_M_XFER` against
a receiver that answers the bytes of the wire with `acks`, each but the last an ACK, and the last a NACK where bytes are left, returns
`acks`. -/
def Obligations.I2cMasterReadsPeer : Prop :=
  ∀ s : State, s.seq.busy = false → s.i2c.role = .master →
    (∀ (ack : Bool) (v : Byte), s.env.plan = i2cReadPeer s.cfg.i2cTEdge v → s.env.cfgOutcomes.head? = some true →
      ∃ t, exec (.i2cMRead ack) s = .next t ∧ Returned (.i2cMRead ack) s t (okWords v) ∧ t.i2c.shift = v ∧
        t.env.now = s.env.now + 18 * s.cfg.i2cTEdge) ∧
    (∀ (addr : Addr) (vs : List Byte), vs.length ≤ 255 → s.env.plan = i2cRdnPeer s.cfg.i2cTEdge vs →
      s.cfgSucceeds (2 * vs.length + 2) →
      ∃ t, exec (.i2cMRdn addr (BitVec.ofNat 8 vs.length)) s = .next t ∧
        Returned (.i2cMRdn addr (BitVec.ofNat 8 vs.length)) s t
          (BitVec.ofNat 32 vs.length :: vs.map (fun v : Byte => v.setWidth 32))) ∧
    (∀ (addr : Addr) (ys : List Byte) (acks : List Bool), ys.length ≤ 255 → 1 ≤ acks.length → acks.length ≤ ys.length + 1 →
      (∀ a ∈ acks.dropLast, a = true) → (acks.length ≤ ys.length → acks.getLast? = some false) →
      s.env.plan = i2cXferPeer s.cfg.i2cTEdge acks → s.cfgSucceeds (2 * acks.length) →
      ∃ (t : State) (v : Byte), exec (.i2cMXfer addr ys) s = .next t ∧
        Returned (.i2cMXfer addr ys) s t (v.setWidth 32 :: acks.map (fun a : Bool => if a then 1 else 0)) ∧
        (acks.length ≤ 255 → v = BitVec.ofNat 8 acks.length))

/-! ## I2C slave -/

/-- `I2C_S_WSTART`: with the clock high and a data-falling event pending, it detects the START at its first evaluation, moves the
armed edge from `SDA` falling to `SCL` rising and clears the mailbox; with the clock low or no event, and nothing moving, it goes
on waiting and keeps the flag. -/
def Obligations.I2cSWstart : Prop :=
  ∀ s : State, s.ready → s.i2c.role = .slave →
    (s.flag.get .mI2c = true → lineOf (s.pins.get .scl) (s.env.ext.get .scl) = .l1 → leaves .scl s.env.plan →
      s.cfgSucceeds 3 →
      ∃ t, exec .i2cSWstart s = .next t ∧ Returned .i2cSWstart s t (okWords 0) ∧
        Did s t [(s.env.now, .handlerUnreg .sda), cf s.env.now .sda .input .none .none true,
          cf s.env.now .scl .input .none .rising true, rg s.env.now .scl .mI2c false true] ∧
        t.i2c = { s.i2c with sState := .startDetected } ∧ t.spi = s.spi ∧ t.uart = s.uart ∧
        t.pins.get .sda = { s.pins.get .sda with dir := .input, pull := .none, irq := .none, hnd := none } ∧
        t.pins.get .scl = { s.pins.get .scl with
          dir := .input, pull := .none, irq := .rising, hnd := some { mbx := .mI2c, once := false } } ∧
        pinsKeptBut [.sda, .scl] s t ∧ flagsKeptBut [.mI2c] s t ∧ (s.quiet → t.flag.get .mI2c = false) ∧
        t.env.now = s.env.now) ∧
    (s.quiet → s.flag.get .mI2c = false ∨ lineOf (s.pins.get .scl) (s.env.ext.get .scl) = .l0 →
      ∃ t, exec .i2cSWstart s = .next t ∧ StillRuns s t ∧ t.pins = s.pins ∧ t.flag = s.flag ∧
        t.i2c = { s.i2c with sState := .idleMonitor } ∧ t.spi = s.spi ∧ t.uart = s.uart ∧ t.env.now = s.env.now)

/-- `I2C_S_RECV` against a master that clocks the byte `v`: it samples `SDA` once for each rising clock edge, bit 7 first, clears the
event each time, and returns `v`. -/
def Obligations.I2cSRecv : Prop :=
  ∀ (v : Byte) (s : State), s.seq.busy = false → s.env.plan = i2cClocker v → s.i2c.role = .slave →
    (s.pins.get .scl).dir = .input → (s.pins.get .scl).irq = .rising →
    (s.pins.get .scl).hnd = some { mbx := .mI2c, once := false } →
    (s.pins.get .sda).dir = .input → (s.pins.get .sda).hnd = none → s.flag.get .mI2c = false →
    ∃ t, exec .i2cSRecv s = .next t ∧ Returned .i2cSRecv s t (okWords v) ∧
      Sampled .sda s t (msbSamples 0 s.env.now v) ∧
      t.i2c = { s.i2c with shift := v, bitcnt := 0, sState := .receiveByte } ∧ t.spi = s.spi ∧ t.uart = s.uart ∧
      t.pins = s.pins ∧ t.flag = s.flag ∧ t.env.now = s.env.now ∧ Did s t []

/-- `I2C_S_ACK` with the ACK clock's event pending: `SDA` is driven low at once, held `I2C_T_ACK_HOLD` after the event, then
released; the flag is cleared. -/
def Obligations.I2cSAck : Prop :=
  ∀ s : State, s.ready → s.i2c.role = .slave → s.flag.get .mI2c = true →
    ∃ (t : State) (ok1 ok2 : Bool), exec .i2cSAck s = .next t ∧ s.platformSays [ok1, ok2] ∧ Returned .i2cSAck s t (okWords 0) ∧
      Did s t [cf s.env.now .sda .output .none .none ok1, wr s.env.now .sda false,
        cf (s.env.now + s.cfg.i2cTAckHold) .sda .input .none .none ok2] ∧
      t.env.now = s.env.now + s.cfg.i2cTAckHold ∧
      t.i2c = { s.i2c with sState := .sendAck } ∧ t.spi = s.spi ∧ t.uart = s.uart ∧
      pinKept ((((s.pins.get .sda).withCfg ok1 .output .none .none).withLat false).withCfg ok2 .input .none .none)
        (t.pins.get .sda) ∧
      pinsKeptBut [.sda] s t ∧ flagsKeptBut [.mI2c] s t ∧ (s.quiet → t.flag.get .mI2c = false)

/-- `I2C_S_DISP lsa, v`: `READ_REQ` (2) or `WRITE_REQ` (1) by bit 0 when `v[7:1]` is the local address, else `NONE` (0); it is never
refused, touches no pin and takes no time. -/
def Obligations.I2cSDisp : Prop :=
  ∀ (lsa : Addr) (v : Byte) (s : State), s.ready →
    ∃ t, exec (.i2cSDisp lsa v) s = .next t ∧
      Returned (.i2cSDisp lsa v) s t
        (okWords (if v.toNat / 2 = lsa.toNat then (if v.toNat % 2 = 1 then 2 else 1) else 0)) ∧
      t.i2c = { s.i2c with sState := .dispatch } ∧ t.spi = s.spi ∧ t.uart = s.uart ∧
      pinsKeptBut [] s t ∧ flagsKeptBut [] s t ∧ t.env.now = s.env.now ∧ Did s t []

/-- `I2C_S_WSTOP` with the clock low: it arms the data-rising edge in place of the clock-rising one, clears the flag and returns
`NO_STOP` at its first pass. -/
def Obligations.I2cSWstopNoStop : Prop :=
  ∀ s : State, s.ready → s.i2c.role = .slave → (s.pins.get .scl).dir = .input → s.env.ext.get .scl = .d0 →
    leaves .scl s.env.plan → s.cfgSucceeds 3 →
    ∃ t, exec .i2cSWstop s = .next t ∧ Returned .i2cSWstop s t (okWords 0) ∧
      Did s t [(s.env.now, .handlerUnreg .scl), cf s.env.now .scl .input .none .none true,
        cf s.env.now .sda .input .none .rising true, rg s.env.now .sda .mI2c false true] ∧
      t.i2c = { s.i2c with sState := .stopMonitor } ∧ t.spi = s.spi ∧ t.uart = s.uart ∧
      t.pins.get .scl = { s.pins.get .scl with dir := .input, pull := .none, irq := .none, hnd := none } ∧
      t.pins.get .sda = { s.pins.get .sda with
        dir := .input, pull := .none, irq := .rising, hnd := some { mbx := .mI2c, once := false } } ∧
      pinsKeptBut [.sda, .scl] s t ∧ flagsKeptBut [.mI2c] s t ∧ (s.quiet → t.flag.get .mI2c = false) ∧
      t.env.now = s.env.now

/-- `I2C_S_WSTOP` against a master that raises the data line while the clock is high: it returns `STOP`, re-arms the data-falling
edge for the next START and clears the mailbox. -/
def Obligations.I2cSWstopStop : Prop :=
  ∀ s : State, s.seq.busy = false → s.env.plan = i2cStopper → s.i2c.role = .slave → (s.pins.get .scl).dir = .input →
    (s.pins.get .sda).dir = .input → s.cfgSucceeds 5 →
    ∃ t, exec .i2cSWstop s = .next t ∧ Returned .i2cSWstop s t (okWords 1) ∧
      t.i2c = { s.i2c with sState := .idleMonitor } ∧ t.spi = s.spi ∧ t.uart = s.uart ∧
      t.pins.get .scl = { s.pins.get .scl with dir := .input, pull := .none, irq := .none, hnd := none } ∧
      t.pins.get .sda = { s.pins.get .sda with
        dir := .input, pull := .none, irq := .falling, hnd := some { mbx := .mI2c, once := false } } ∧
      t.flag.get .mI2c = false ∧ pinsKeptBut [.sda, .scl] s t ∧ flagsKeptBut [.mI2c] s t ∧ t.env.now = s.env.now

/-- `I2C_S_SERVE lsa`, armed by `I2C_S_SETUP`, against a master that sends START, the byte `v` and the ACK clock and then lowers the
clock: it returns `v`, the dispatch code and `NO_STOP`, and notifies the dispatch unless it is `NONE`; a mismatched byte is
received and acknowledged all the same: `SDA` is made an output and driven low, and released after the hold. It ends with the
data-rising edge armed and no clock edge armed. -/
def Obligations.I2cSServe : Prop :=
  ∀ (lsa : Addr) (v : Byte) (s : State), s.seq.busy = false → s.env.plan = i2cFrame s.cfg.i2cTAckHold v →
    s.i2c.role = .slave → (s.pins.get .scl).dir = .input → (s.pins.get .scl).irq = .none →
    (s.pins.get .sda).dir = .input → (s.pins.get .sda).irq = .falling →
    (s.pins.get .sda).hnd = some { mbx := .mI2c, once := false } → s.flag.get .mI2c = false → s.cfgSucceeds 8 →
    ∃ (t : State) (code : Nat), exec (.i2cSServe lsa) s = .next t ∧
      code = (if v.toNat / 2 = lsa.toNat then (if v.toNat % 2 = 1 then 2 else 1) else 0) ∧
      Returned (.i2cSServe lsa) s t [v.setWidth 32, BitVec.ofNat 32 code, 0] ∧
      Notified s t (if code = 0 then [] else [(BitVec.ofNat 4 code, v)]) ∧
      Did s t [(s.env.now, .handlerUnreg .sda), cf s.env.now .sda .input .none .none true,
        cf s.env.now .scl .input .none .rising true, rg s.env.now .scl .mI2c false true,
        cf s.env.now .sda .output .none .none true, wr s.env.now .sda false,
        cf (s.env.now + s.cfg.i2cTAckHold) .sda .input .none .none true,
        (s.env.now + s.cfg.i2cTAckHold, .handlerUnreg .scl),
        cf (s.env.now + s.cfg.i2cTAckHold) .scl .input .none .none true,
        cf (s.env.now + s.cfg.i2cTAckHold) .sda .input .none .rising true,
        rg (s.env.now + s.cfg.i2cTAckHold) .sda .mI2c false true] ∧
      t.pins.get .sda = { dir := .input, pull := .none, irq := .rising, lat := false,
                          hnd := some { mbx := .mI2c, once := false } } ∧
      t.pins.get .scl = { s.pins.get .scl with dir := .input, pull := .none, irq := .none, hnd := none } ∧
      t.flag.get .mI2c = false ∧
      t.env.now = s.env.now + s.cfg.i2cTAckHold ∧
      t.i2c = { s.i2c with shift := v, bitcnt := 0, sState := .stopMonitor } ∧ t.spi = s.spi ∧ t.uart = s.uart ∧
      pinsKeptBut [.sda, .scl] s t ∧ flagsKeptBut [.mI2c] s t

/-! ## SPI -/

/-- The four master exchanges: the pin writes of the mode's schedule with their times, the input line sampled with each sampling
edge, bit 7 first, the byte assembled from the samples as the result; `16H` in all; select is raised at the end in modes 1 to 3
and stays low in mode 0. -/
def Obligations.SpiExchange : Prop :=
  ∀ (m : BitVec 2) (x : Byte) (s : State), s.ready → s.spi.role = .master → s.spi.mode = m →
    ∃ (t : State) (v : Byte), exec (spiXchg m x) s = .next t ∧ Returned (spiXchg m x) s t (okWords v) ∧
      Wrote s t (spiWave m s.cfg.spiTHalf s.env.now x) ∧
      Sampled .sdi s t (msbSamples (2 * s.cfg.spiTHalf) (s.env.now + s.cfg.spiTHalf) v) ∧
      t.env.now = s.env.now + 16 * s.cfg.spiTHalf ∧
      t.spi = { s.spi with sho := x, shi := v, bitcnt := 0 } ∧ t.i2c = s.i2c ∧ t.uart = s.uart ∧
      pinKept ((s.pins.get .cs).withLat (decide (m ≠ 0))) (t.pins.get .cs) ∧
      pinKept ((s.pins.get .sclk).withLat (m.getLsbD 1)) (t.pins.get .sclk) ∧
      pinKept ((s.pins.get .sdo).withLat (x.getLsbD 0)) (t.pins.get .sdo) ∧
      pinsKeptBut [.cs, .sclk, .sdo] s t ∧ flagsKeptBut [] s t

/-- The four master exchanges against a peer that presents the bits of `b`, bit 7 first, one before each sampling edge: the result
is `b`. -/
def Obligations.SpiExchangeReadsPeer : Prop :=
  ∀ (m : BitVec 2) (x b : Byte) (s : State), s.seq.busy = false → s.env.plan = spiPeer m s.cfg.spiTHalf b →
    s.spi.role = .master → s.spi.mode = m → (s.pins.get .sdi).dir = .input →
    ∃ t, exec (spiXchg m x) s = .next t ∧ Returned (spiXchg m x) s t (okWords b) ∧ t.spi.shi = b ∧
      t.env.now = s.env.now + 16 * s.cfg.spiTHalf

/-- The four slave responses, armed by `SPI_S_SETUP`, against a master that selects the block and clocks `b` in the mode's
schedule: the result is `b`, the bits of `x` go out bit 7 first, and the block is deselected at the end. -/
def Obligations.SpiResponse : Prop :=
  ∀ (m : BitVec 2) (x b : Byte) (s : State), s.seq.busy = false → s.env.plan = spiClocker m b →
    s.spi.role = .slave → s.spi.mode = m → (s.pins.get .sclk).dir = .input → (s.pins.get .sdi).dir = .input →
    (s.pins.get .cs).dir = .input → (s.pins.get .cs).irq = .falling →
    (s.pins.get .cs).hnd = some { mbx := .mSpi, once := false } →
    ∃ t, exec (spiResp m x) s = .next t ∧ Returned (spiResp m x) s t (okWords b) ∧
      Wrote s t ((List.range 8).map fun k => (s.env.now, .sdo, x.getLsbD (7 - k))) ∧
      Sampled .sdi s t (msbSamples 0 s.env.now b) ∧
      t.flag.get .mSpi = false ∧ t.spi = { s.spi with sho := x, shi := b, bitcnt := 0 } ∧ t.i2c = s.i2c ∧ t.uart = s.uart ∧
      pinKept ((s.pins.get .sdo).withLat (x.getLsbD 0)) (t.pins.get .sdo) ∧
      pinsKeptBut [.sdo] s t ∧ flagsKeptBut [.mSpi] s t ∧ t.env.now = s.env.now

/-! ## UART -/

/-- `UART_TX_BYTE x`: start bit, eight data bits LSB first, stop bit, each one bit period; `10B` in all. -/
def Obligations.UartTxByte : Prop :=
  ∀ (x : Byte) (s : State), s.ready → s.uart.txRdy = true →
    ∃ t, exec (.uartTxByte x) s = .next t ∧ Returned (.uartTxByte x) s t (okWords 0) ∧
      Wrote s t (uartWave s.cfg.uartTBit s.env.now x) ∧ t.env.now = s.env.now + 10 * s.cfg.uartTBit ∧
      t.uart = { s.uart with txsh := x, bitcnt := 0 } ∧ t.i2c = s.i2c ∧ t.spi = s.spi ∧
      pinKept ((s.pins.get .tx).withLat true) (t.pins.get .tx) ∧ pinsKeptBut [.tx] s t ∧ flagsKeptBut [] s t

/-- `UART_SEND n, ys`: the frames of the bytes in index order, back to back; `10nB` in all, and nothing for `n` = 0. -/
def Obligations.UartSend : Prop :=
  ∀ (ys : List Byte) (s : State), s.ready → s.uart.txRdy = true → ys.length ≤ 255 →
    ∃ t, exec (.uartSend ys) s = .next t ∧ Returned (.uartSend ys) s t (okWords 0) ∧
      Wrote s t (uartSendWave s.cfg.uartTBit s.env.now ys) ∧
      t.env.now = s.env.now + 10 * ys.length * s.cfg.uartTBit ∧
      t.uart = (match ys.getLast? with
        | none => s.uart
        | some y => { s.uart with txsh := y, bitcnt := 0 }) ∧
      t.i2c = s.i2c ∧ t.spi = s.spi ∧
      pinKept (if ys = [] then s.pins.get .tx else (s.pins.get .tx).withLat true) (t.pins.get .tx) ∧
      pinsKeptBut [.tx] s t ∧ flagsKeptBut [] s t

/-- `UART_RX_FRAME` with the start edge's event pending: eight samples a bit period apart from the middle of the first data bit, LSB
first, then the stop sample; `Hb + 9B` in all. A high stop bit stores the byte at `RX_IDX` and moves it on, to 0 with the flush
report of the configured policy when that fills the buffer; a low one sets `RX_IDX` to 0 and stores nothing; both return `OK` with
value 0 and re-arm the one-shot handler. -/
def Obligations.UartRxFrame : Prop :=
  ∀ s : State, s.ready → s.Inv → s.uart.rxRdy = true → s.flag.get .mUart = true →
    ∃ (t : State) (v : Byte) (stop ok : Bool), exec .uartRxFrame s = .next t ∧ s.platformSays [ok] ∧ Returned .uartRxFrame s t (okWords 0) ∧
      Sampled .rx s t (lsbSamples s.cfg.uartTBit (s.env.now + s.cfg.uartTHalf + s.cfg.uartTBit) v ++
        [(s.env.now + s.cfg.uartTHalf + 9 * s.cfg.uartTBit, stop)]) ∧
      t.env.now = s.env.now + s.cfg.uartTHalf + 9 * s.cfg.uartTBit ∧
      t.uart.rxsh = v ∧ t.uart.bitcnt = 0 ∧ t.uart.txsh = s.uart.txsh ∧ t.uart.txRdy = s.uart.txRdy ∧
      t.uart.rxRdy = s.uart.rxRdy ∧
      (∀ a, a ≠ s.uart.rxIdx → Memory.read? t.uart.rxBuf a = Memory.read? s.uart.rxBuf a) ∧
      Memory.read? t.uart.rxBuf s.uart.rxIdx = (if stop then some v else Memory.read? s.uart.rxBuf s.uart.rxIdx) ∧
      t.uart.rxIdx = (if stop = true ∧ s.uart.rxIdx + 1 < s.cfg.rxCap then s.uart.rxIdx + 1 else 0) ∧
      (∃ bs, Reported s t bs ∧
        if stop = true ∧ s.uart.rxIdx + 1 = s.cfg.rxCap ∧ s.cfg.rxPolicy = .flush then
          bs.length = s.cfg.rxCap ∧ ∀ j, j < s.cfg.rxCap → Memory.read? t.uart.rxBuf j = bs[j]?
        else bs = []) ∧
      pinKept ((s.pins.get .rx).withHnd (if ok then some { mbx := .mUart, once := true } else (s.pins.get .rx).hnd))
        (t.pins.get .rx) ∧
      (ok = true → (t.pins.get .rx).hnd = some { mbx := .mUart, once := true }) ∧
      t.i2c = s.i2c ∧ t.spi = s.spi ∧ pinsKeptBut [.rx] s t ∧ flagsKeptBut [.mUart] s t ∧ Wrote s t [] ∧ Notified s t []

/-- `UART_RX_FRAME`, armed by `UART_RX_SETUP`, against a peer that sends the byte `b`, each bit exactly one bit period long, with the
level `stop` for its stop bit: every bit is sampled half a period after its beginning, `b` is the byte assembled, stored when the
stop bit is good; a bad stop bit gives up the buffer's position silently; no other entry changes. -/
def Obligations.UartRxFrameReadsPeer : Prop :=
  ∀ (b : Byte) (stop : Bool) (s : State), s.seq.busy = false → s.Inv → s.uart.rxRdy = true →
    s.env.plan = uartPeer s.cfg.uartTBit s.cfg.uartTHalf b stop →
    (s.pins.get .rx).dir = .input → (s.pins.get .rx).irq = .falling →
    (s.pins.get .rx).hnd = some { mbx := .mUart, once := true } → s.flag.get .mUart = false → s.cfgSucceeds 1 →
    ∃ t, exec .uartRxFrame s = .next t ∧ Returned .uartRxFrame s t (okWords 0) ∧ t.uart.rxsh = b ∧
      Sampled .rx s t (lsbSamples s.cfg.uartTBit (s.env.now + s.cfg.uartTHalf + s.cfg.uartTBit) b ++
        [(s.env.now + s.cfg.uartTHalf + 9 * s.cfg.uartTBit, stop)]) ∧
      (∀ a, a ≠ s.uart.rxIdx → Memory.read? t.uart.rxBuf a = Memory.read? s.uart.rxBuf a) ∧
      Memory.read? t.uart.rxBuf s.uart.rxIdx = (if stop then some b else Memory.read? s.uart.rxBuf s.uart.rxIdx) ∧
      t.uart.rxIdx = (if stop = true ∧ s.uart.rxIdx + 1 < s.cfg.rxCap then s.uart.rxIdx + 1 else 0) ∧
      t.env.now = s.env.now + s.cfg.uartTHalf + 9 * s.cfg.uartTBit ∧
      t.flag.get .mUart = false ∧ t.pins.get .rx = s.pins.get .rx

/-- `UART_RX_LOOP` never returns, under any plan without a reset; against a peer that sends one frame, each bit
exactly one bit period long, it handles it as `UART_RX_FRAME` does, changes no entry of the buffer but the one at `RX_IDX`, notifies
`EVT_FRAME_DONE` (3) once, valid or not, and waits for the next; the host can then read `RX_IDX` and the buffer. -/
def Obligations.UartRxLoop : Prop :=
  (∀ s : State, s.ready → s.uart.rxRdy = true → ∃ t, exec .uartRxLoop s = .next t ∧ StillRuns s t) ∧
  (∀ (b : Byte) (stop : Bool) (s : State), s.seq.busy = false → s.Inv → s.uart.rxRdy = true →
    s.env.plan = uartPeer s.cfg.uartTBit s.cfg.uartTHalf b stop →
    (s.pins.get .rx).dir = .input → (s.pins.get .rx).irq = .falling →
    (s.pins.get .rx).hnd = some { mbx := .mUart, once := true } → s.flag.get .mUart = false → s.cfgSucceeds 1 →
    ∃ t, exec .uartRxLoop s = .next t ∧ StillRuns s t ∧ t.uart.rxsh = b ∧ Notified s t [(3, 0)] ∧
      t.env.now = s.env.now + s.cfg.uartTHalf + 9 * s.cfg.uartTBit ∧
      (∀ a, a ≠ s.uart.rxIdx → Memory.read? t.uart.rxBuf a = Memory.read? s.uart.rxBuf a) ∧
      Memory.read? t.uart.rxBuf s.uart.rxIdx = (if stop then some b else Memory.read? s.uart.rxBuf s.uart.rxIdx) ∧
      t.uart.rxIdx = (if stop = true ∧ s.uart.rxIdx + 1 < s.cfg.rxCap then s.uart.rxIdx + 1 else 0) ∧
      t.pins.get .rx = s.pins.get .rx ∧ t.hostRead 0x45 = some t.uart.rxIdx ∧
      ∀ j, j < s.cfg.rxCap → t.hostRead (0x100 + j) = (Memory.read? t.uart.rxBuf j).map BitVec.toNat)
end

