-- ==== Sys2Proof/Laws/Observe.lean ====
section
/-! SUPPORT. What the host reads of the Receive Frame Buffer and its index, while the block is idle or between two frames. -/

namespace Sys2Proof.Machine

/-- `RX_IDX` by its id. -/
theorem State.hostRead_rxIdx (s : State) (h : s.seq.busy = false ∨ s.betweenFrames = true) :
    s.hostRead 0x45 = some s.uart.rxIdx := by
  rcases h with h | h <;> simp [State.hostRead, State.register, isRxId, h]

/-- An entry of `RX_BUF` by its id. -/
theorem State.hostRead_rxBuf (s : State) (j : Nat) (hj : j < s.cfg.rxCap)
    (h : s.seq.busy = false ∨ s.betweenFrames = true) :
    s.hostRead (0x100 + j) = (Memory.read? s.uart.rxBuf j).map BitVec.toNat := by
  have hr : s.register (0x100 + j) = (Memory.read? s.uart.rxBuf j).map BitVec.toNat := by
    unfold State.register
    rw [if_neg (by omega), if_neg (by omega), if_neg (by omega), if_neg (by omega), if_neg (by omega)]
    split <;> first | omega | simp [hj]
  have h0 : 0x100 + j ≠ 0x50 := by omega
  have h1 : ¬ (0x100 + j < 0x2B) := by omega
  rcases h with h | h <;> simp [State.hostRead, isRxId, h, hr, h0, h1]

/-- While a command other than `UART_RX_LOOP` runs, the host reads nothing but `SEQ_BUSY` (10_state.md R34). -/
theorem State.hostRead_busy (s : State) (id : Nat) (hb : s.seq.busy = true) (h : s.seq.cmd.word ≠ encodeWord .uartRxLoop)
    (hid : id ≠ 0x50) : s.hostRead id = none := by
  simp [State.hostRead, State.betweenFrames, hb, h, hid]

end Sys2Proof.Machine
end

