-- ==== Sys2Proof/Laws/State.lean ====
section
/-! SUPPORT. One lemma for each field and each update of State, true by rfl, and the laws of the tables indexed by pin and by
mailbox. -/

namespace Sys2Proof.Machine

/-! ## Tables -/

@[simp] theorem PerPin.get_set_same {α : Type} (t : PerPin α) (p : Pin) (v : α) : (t.set p v).get p = v := by
  cases p <;> rfl

theorem PerPin.get_set_ne {α : Type} (t : PerPin α) {p q : Pin} (v : α) (h : q ≠ p) : (t.set p v).get q = t.get q := by
  cases p <;> cases q <;> first | rfl | exact absurd rfl h

theorem PerPin.get_set {α : Type} (t : PerPin α) (p q : Pin) (v : α) :
    (t.set p v).get q = if q = p then v else t.get q := by
  split
  · next h => rw [h, PerPin.get_set_same]
  · next h => exact PerPin.get_set_ne t v h

@[simp] theorem PerPin.set_get {α : Type} (t : PerPin α) (p : Pin) : t.set p (t.get p) = t := by
  cases p <;> rfl

@[simp] theorem PerPin.set_set {α : Type} (t : PerPin α) (p : Pin) (u v : α) : (t.set p u).set p v = t.set p v := by
  cases p <;> rfl

@[simp] theorem PerPin.get_all {α : Type} (v : α) (p : Pin) : (PerPin.all v).get p = v := by
  cases p <;> rfl

/-- Two tables that agree on every pin are one. -/
theorem PerPin.ext_get {α : Type} {t u : PerPin α} (h : ∀ p, t.get p = u.get p) : t = u := by
  cases t; cases u
  have h0 := h .sda; have h1 := h .scl; have h2 := h .sclk; have h3 := h .sdo
  have h4 := h .sdi; have h5 := h .cs; have h6 := h .tx; have h7 := h .rx
  simp only [PerPin.get] at h0 h1 h2 h3 h4 h5 h6 h7
  subst h0 h1 h2 h3 h4 h5 h6 h7
  rfl

@[simp] theorem PerMbx.get_set_same {α : Type} (t : PerMbx α) (m : Mbx) (v : α) : (t.set m v).get m = v := by
  cases m <;> rfl

theorem PerMbx.get_set_ne {α : Type} (t : PerMbx α) {m k : Mbx} (v : α) (h : k ≠ m) : (t.set m v).get k = t.get k := by
  cases m <;> cases k <;> first | rfl | exact absurd rfl h

theorem PerMbx.get_set {α : Type} (t : PerMbx α) (m k : Mbx) (v : α) :
    (t.set m v).get k = if k = m then v else t.get k := by
  split
  · next h => rw [h, PerMbx.get_set_same]
  · next h => exact PerMbx.get_set_ne t v h

@[simp] theorem PerMbx.set_get {α : Type} (t : PerMbx α) (m : Mbx) : t.set m (t.get m) = t := by
  cases m <;> rfl

/-- Two tables that agree on every mailbox are one. -/
theorem PerMbx.ext_get {α : Type} {t u : PerMbx α} (h : ∀ m, t.get m = u.get m) : t = u := by
  cases t; cases u
  have h0 := h .mI2c; have h1 := h .mSpi; have h2 := h .mUart
  simp only [PerMbx.get] at h0 h1 h2
  subst h0 h1 h2
  rfl

/-! ## Updates -/

@[simp] theorem State.log_cfg (e : Event) (s : State) : (s.log e).cfg = s.cfg := rfl
@[simp] theorem State.log_seq (e : Event) (s : State) : (s.log e).seq = s.seq := rfl
@[simp] theorem State.log_pins (e : Event) (s : State) : (s.log e).pins = s.pins := rfl
@[simp] theorem State.log_flag (e : Event) (s : State) : (s.log e).flag = s.flag := rfl
@[simp] theorem State.log_i2c (e : Event) (s : State) : (s.log e).i2c = s.i2c := rfl
@[simp] theorem State.log_spi (e : Event) (s : State) : (s.log e).spi = s.spi := rfl
@[simp] theorem State.log_uart (e : Event) (s : State) : (s.log e).uart = s.uart := rfl
@[simp] theorem State.log_env_ext (e : Event) (s : State) : (s.log e).env.ext = s.env.ext := rfl
@[simp] theorem State.log_env_now (e : Event) (s : State) : (s.log e).env.now = s.env.now := rfl
@[simp] theorem State.log_env_trace (e : Event) (s : State) :
    (s.log e).env.trace = { time := s.env.now, event := e } :: s.env.trace := rfl
@[simp] theorem State.log_env_plan (e : Event) (s : State) : (s.log e).env.plan = s.env.plan := rfl
@[simp] theorem State.log_env_stream (e : Event) (s : State) : (s.log e).env.stream = s.env.stream := rfl
@[simp] theorem State.log_env_cp (e : Event) (s : State) : (s.log e).env.cp = s.env.cp := rfl
@[simp] theorem State.log_env_res (e : Event) (s : State) : (s.log e).env.res = s.env.res := rfl
@[simp] theorem State.log_env_cfgOutcomes (e : Event) (s : State) : (s.log e).env.cfgOutcomes = s.env.cfgOutcomes := rfl
@[simp] theorem State.log_env_xDraws (e : Event) (s : State) : (s.log e).env.xDraws = s.env.xDraws := rfl
@[simp] theorem State.log_env_freeCtr (e : Event) (s : State) : (s.log e).env.freeCtr = s.env.freeCtr := rfl

@[simp] theorem State.addTime_cfg (d : Nat) (s : State) : (s.addTime d).cfg = s.cfg := rfl
@[simp] theorem State.addTime_seq (d : Nat) (s : State) : (s.addTime d).seq = s.seq := rfl
@[simp] theorem State.addTime_pins (d : Nat) (s : State) : (s.addTime d).pins = s.pins := rfl
@[simp] theorem State.addTime_flag (d : Nat) (s : State) : (s.addTime d).flag = s.flag := rfl
@[simp] theorem State.addTime_i2c (d : Nat) (s : State) : (s.addTime d).i2c = s.i2c := rfl
@[simp] theorem State.addTime_spi (d : Nat) (s : State) : (s.addTime d).spi = s.spi := rfl
@[simp] theorem State.addTime_uart (d : Nat) (s : State) : (s.addTime d).uart = s.uart := rfl
@[simp] theorem State.addTime_env_ext (d : Nat) (s : State) : (s.addTime d).env.ext = s.env.ext := rfl
@[simp] theorem State.addTime_env_now (d : Nat) (s : State) : (s.addTime d).env.now = s.env.now + d := rfl
@[simp] theorem State.addTime_env_trace (d : Nat) (s : State) : (s.addTime d).env.trace = s.env.trace := rfl
@[simp] theorem State.addTime_env_plan (d : Nat) (s : State) : (s.addTime d).env.plan = s.env.plan := rfl
@[simp] theorem State.addTime_env_stream (d : Nat) (s : State) : (s.addTime d).env.stream = s.env.stream := rfl
@[simp] theorem State.addTime_env_cp (d : Nat) (s : State) : (s.addTime d).env.cp = s.env.cp := rfl
@[simp] theorem State.addTime_env_res (d : Nat) (s : State) : (s.addTime d).env.res = s.env.res := rfl
@[simp] theorem State.addTime_env_cfgOutcomes (d : Nat) (s : State) :
    (s.addTime d).env.cfgOutcomes = s.env.cfgOutcomes := rfl
@[simp] theorem State.addTime_env_xDraws (d : Nat) (s : State) : (s.addTime d).env.xDraws = s.env.xDraws := rfl
@[simp] theorem State.addTime_env_freeCtr (d : Nat) (s : State) : (s.addTime d).env.freeCtr = s.env.freeCtr := rfl

@[simp] theorem State.setPlan_cfg (as : List EnvAct) (s : State) : (s.setPlan as).cfg = s.cfg := rfl
@[simp] theorem State.setPlan_seq (as : List EnvAct) (s : State) : (s.setPlan as).seq = s.seq := rfl
@[simp] theorem State.setPlan_pins (as : List EnvAct) (s : State) : (s.setPlan as).pins = s.pins := rfl
@[simp] theorem State.setPlan_flag (as : List EnvAct) (s : State) : (s.setPlan as).flag = s.flag := rfl
@[simp] theorem State.setPlan_i2c (as : List EnvAct) (s : State) : (s.setPlan as).i2c = s.i2c := rfl
@[simp] theorem State.setPlan_spi (as : List EnvAct) (s : State) : (s.setPlan as).spi = s.spi := rfl
@[simp] theorem State.setPlan_uart (as : List EnvAct) (s : State) : (s.setPlan as).uart = s.uart := rfl
@[simp] theorem State.setPlan_env_ext (as : List EnvAct) (s : State) : (s.setPlan as).env.ext = s.env.ext := rfl
@[simp] theorem State.setPlan_env_now (as : List EnvAct) (s : State) : (s.setPlan as).env.now = s.env.now := rfl
@[simp] theorem State.setPlan_env_trace (as : List EnvAct) (s : State) : (s.setPlan as).env.trace = s.env.trace := rfl
@[simp] theorem State.setPlan_env_plan (as : List EnvAct) (s : State) : (s.setPlan as).env.plan = as := rfl
@[simp] theorem State.setPlan_env_stream (as : List EnvAct) (s : State) : (s.setPlan as).env.stream = s.env.stream := rfl
@[simp] theorem State.setPlan_env_cp (as : List EnvAct) (s : State) : (s.setPlan as).env.cp = s.env.cp := rfl
@[simp] theorem State.setPlan_env_res (as : List EnvAct) (s : State) : (s.setPlan as).env.res = s.env.res := rfl
@[simp] theorem State.setPlan_env_cfgOutcomes (as : List EnvAct) (s : State) :
    (s.setPlan as).env.cfgOutcomes = s.env.cfgOutcomes := rfl
@[simp] theorem State.setPlan_env_xDraws (as : List EnvAct) (s : State) : (s.setPlan as).env.xDraws = s.env.xDraws := rfl
@[simp] theorem State.setPlan_env_freeCtr (as : List EnvAct) (s : State) : (s.setPlan as).env.freeCtr = s.env.freeCtr := rfl

@[simp] theorem State.bumpFree_cfg (s : State) : (s.bumpFree).cfg = s.cfg := rfl
@[simp] theorem State.bumpFree_seq (s : State) : (s.bumpFree).seq = s.seq := rfl
@[simp] theorem State.bumpFree_pins (s : State) : (s.bumpFree).pins = s.pins := rfl
@[simp] theorem State.bumpFree_flag (s : State) : (s.bumpFree).flag = s.flag := rfl
@[simp] theorem State.bumpFree_i2c (s : State) : (s.bumpFree).i2c = s.i2c := rfl
@[simp] theorem State.bumpFree_spi (s : State) : (s.bumpFree).spi = s.spi := rfl
@[simp] theorem State.bumpFree_uart (s : State) : (s.bumpFree).uart = s.uart := rfl
@[simp] theorem State.bumpFree_env_ext (s : State) : (s.bumpFree).env.ext = s.env.ext := rfl
@[simp] theorem State.bumpFree_env_now (s : State) : (s.bumpFree).env.now = s.env.now := rfl
@[simp] theorem State.bumpFree_env_trace (s : State) : (s.bumpFree).env.trace = s.env.trace := rfl
@[simp] theorem State.bumpFree_env_plan (s : State) : (s.bumpFree).env.plan = s.env.plan := rfl
@[simp] theorem State.bumpFree_env_stream (s : State) : (s.bumpFree).env.stream = s.env.stream := rfl
@[simp] theorem State.bumpFree_env_cp (s : State) : (s.bumpFree).env.cp = s.env.cp := rfl
@[simp] theorem State.bumpFree_env_res (s : State) : (s.bumpFree).env.res = s.env.res := rfl
@[simp] theorem State.bumpFree_env_cfgOutcomes (s : State) : (s.bumpFree).env.cfgOutcomes = s.env.cfgOutcomes := rfl
@[simp] theorem State.bumpFree_env_xDraws (s : State) : (s.bumpFree).env.xDraws = s.env.xDraws := rfl
@[simp] theorem State.bumpFree_env_freeCtr (s : State) : (s.bumpFree).env.freeCtr = s.env.freeCtr + 1 := rfl

@[simp] theorem State.setPos_cfg (pos : List Micro) (s : State) : (s.setPos pos).cfg = s.cfg := rfl
@[simp] theorem State.setPos_pins (pos : List Micro) (s : State) : (s.setPos pos).pins = s.pins := rfl
@[simp] theorem State.setPos_flag (pos : List Micro) (s : State) : (s.setPos pos).flag = s.flag := rfl
@[simp] theorem State.setPos_i2c (pos : List Micro) (s : State) : (s.setPos pos).i2c = s.i2c := rfl
@[simp] theorem State.setPos_spi (pos : List Micro) (s : State) : (s.setPos pos).spi = s.spi := rfl
@[simp] theorem State.setPos_uart (pos : List Micro) (s : State) : (s.setPos pos).uart = s.uart := rfl
@[simp] theorem State.setPos_env (pos : List Micro) (s : State) : (s.setPos pos).env = s.env := rfl
@[simp] theorem State.setPos_seq_busy (pos : List Micro) (s : State) : (s.setPos pos).seq.busy = s.seq.busy := rfl
@[simp] theorem State.setPos_seq_cmd (pos : List Micro) (s : State) : (s.setPos pos).seq.cmd = s.seq.cmd := rfl
@[simp] theorem State.setPos_seq_pos (pos : List Micro) (s : State) : (s.setPos pos).seq.pos = pos := rfl
@[simp] theorem State.setPos_seq_tmp (pos : List Micro) (s : State) : (s.setPos pos).seq.tmp = s.seq.tmp := rfl
@[simp] theorem State.setPos_seq_out (pos : List Micro) (s : State) : (s.setPos pos).seq.out = s.seq.out := rfl
@[simp] theorem State.setPos_seq_ret (pos : List Micro) (s : State) : (s.setPos pos).seq.ret = s.seq.ret := rfl
@[simp] theorem State.setPos_seq_waitRem (pos : List Micro) (s : State) : (s.setPos pos).seq.waitRem = s.seq.waitRem := rfl

@[simp] theorem State.pushOp_cfg (op : Micro) (s : State) : (s.pushOp op).cfg = s.cfg := rfl
@[simp] theorem State.pushOp_pins (op : Micro) (s : State) : (s.pushOp op).pins = s.pins := rfl
@[simp] theorem State.pushOp_flag (op : Micro) (s : State) : (s.pushOp op).flag = s.flag := rfl
@[simp] theorem State.pushOp_i2c (op : Micro) (s : State) : (s.pushOp op).i2c = s.i2c := rfl
@[simp] theorem State.pushOp_spi (op : Micro) (s : State) : (s.pushOp op).spi = s.spi := rfl
@[simp] theorem State.pushOp_uart (op : Micro) (s : State) : (s.pushOp op).uart = s.uart := rfl
@[simp] theorem State.pushOp_env (op : Micro) (s : State) : (s.pushOp op).env = s.env := rfl
@[simp] theorem State.pushOp_seq_busy (op : Micro) (s : State) : (s.pushOp op).seq.busy = s.seq.busy := rfl
@[simp] theorem State.pushOp_seq_cmd (op : Micro) (s : State) : (s.pushOp op).seq.cmd = s.seq.cmd := rfl
@[simp] theorem State.pushOp_seq_pos (op : Micro) (s : State) : (s.pushOp op).seq.pos = op :: s.seq.pos := rfl
@[simp] theorem State.pushOp_seq_tmp (op : Micro) (s : State) : (s.pushOp op).seq.tmp = s.seq.tmp := rfl
@[simp] theorem State.pushOp_seq_out (op : Micro) (s : State) : (s.pushOp op).seq.out = s.seq.out := rfl
@[simp] theorem State.pushOp_seq_ret (op : Micro) (s : State) : (s.pushOp op).seq.ret = s.seq.ret := rfl
@[simp] theorem State.pushOp_seq_waitRem (op : Micro) (s : State) : (s.pushOp op).seq.waitRem = s.seq.waitRem := rfl

@[simp] theorem State.failConfig_cfg (s : State) : (s.failConfig).cfg = s.cfg := rfl
@[simp] theorem State.failConfig_pins (s : State) : (s.failConfig).pins = s.pins := rfl
@[simp] theorem State.failConfig_flag (s : State) : (s.failConfig).flag = s.flag := rfl
@[simp] theorem State.failConfig_i2c (s : State) : (s.failConfig).i2c = s.i2c := rfl
@[simp] theorem State.failConfig_spi (s : State) : (s.failConfig).spi = s.spi := rfl
@[simp] theorem State.failConfig_uart (s : State) : (s.failConfig).uart = s.uart := rfl
@[simp] theorem State.failConfig_env (s : State) : (s.failConfig).env = s.env := rfl
@[simp] theorem State.failConfig_seq_busy (s : State) : (s.failConfig).seq.busy = s.seq.busy := rfl
@[simp] theorem State.failConfig_seq_cmd (s : State) : (s.failConfig).seq.cmd = s.seq.cmd := rfl
@[simp] theorem State.failConfig_seq_pos (s : State) : (s.failConfig).seq.pos = [] := rfl
@[simp] theorem State.failConfig_seq_tmp (s : State) : (s.failConfig).seq.tmp = s.seq.tmp := rfl
@[simp] theorem State.failConfig_seq_out (s : State) : (s.failConfig).seq.out = s.seq.out := rfl
@[simp] theorem State.failConfig_seq_ret (s : State) : (s.failConfig).seq.ret = .cfgFail := rfl
@[simp] theorem State.failConfig_seq_waitRem (s : State) : (s.failConfig).seq.waitRem = s.seq.waitRem := rfl

@[simp] theorem State.gather_cfg (b : Byte) (s : State) : (s.gather b).cfg = s.cfg := rfl
@[simp] theorem State.gather_pins (b : Byte) (s : State) : (s.gather b).pins = s.pins := rfl
@[simp] theorem State.gather_flag (b : Byte) (s : State) : (s.gather b).flag = s.flag := rfl
@[simp] theorem State.gather_i2c (b : Byte) (s : State) : (s.gather b).i2c = s.i2c := rfl
@[simp] theorem State.gather_spi (b : Byte) (s : State) : (s.gather b).spi = s.spi := rfl
@[simp] theorem State.gather_uart (b : Byte) (s : State) : (s.gather b).uart = s.uart := rfl
@[simp] theorem State.gather_env (b : Byte) (s : State) : (s.gather b).env = s.env := rfl
@[simp] theorem State.gather_seq_busy (b : Byte) (s : State) : (s.gather b).seq.busy = s.seq.busy := rfl
@[simp] theorem State.gather_seq_cmd (b : Byte) (s : State) : (s.gather b).seq.cmd = s.seq.cmd := rfl
@[simp] theorem State.gather_seq_pos (b : Byte) (s : State) : (s.gather b).seq.pos = s.seq.pos := rfl
@[simp] theorem State.gather_seq_tmp (b : Byte) (s : State) : (s.gather b).seq.tmp = s.seq.tmp := rfl
@[simp] theorem State.gather_seq_out (b : Byte) (s : State) : (s.gather b).seq.out = s.seq.out ++ [b] := rfl
@[simp] theorem State.gather_seq_ret (b : Byte) (s : State) : (s.gather b).seq.ret = s.seq.ret := rfl
@[simp] theorem State.gather_seq_waitRem (b : Byte) (s : State) : (s.gather b).seq.waitRem = s.seq.waitRem := rfl

@[simp] theorem State.setHandler_cfg (p : Pin) (h : Option Handler) (s : State) : (s.setHandler p h).cfg = s.cfg := rfl
@[simp] theorem State.setHandler_seq (p : Pin) (h : Option Handler) (s : State) : (s.setHandler p h).seq = s.seq := rfl
@[simp] theorem State.setHandler_flag (p : Pin) (h : Option Handler) (s : State) : (s.setHandler p h).flag = s.flag := rfl
@[simp] theorem State.setHandler_i2c (p : Pin) (h : Option Handler) (s : State) : (s.setHandler p h).i2c = s.i2c := rfl
@[simp] theorem State.setHandler_spi (p : Pin) (h : Option Handler) (s : State) : (s.setHandler p h).spi = s.spi := rfl
@[simp] theorem State.setHandler_uart (p : Pin) (h : Option Handler) (s : State) : (s.setHandler p h).uart = s.uart := rfl
@[simp] theorem State.setHandler_env (p : Pin) (h : Option Handler) (s : State) : (s.setHandler p h).env = s.env := rfl
@[simp] theorem State.setHandler_pins (p : Pin) (h : Option Handler) (s : State) :
    (s.setHandler p h).pins = s.pins.set p { s.pins.get p with hnd := h } := rfl

@[simp] theorem State.setRxIdx_cfg (n : Nat) (s : State) : (s.setRxIdx n).cfg = s.cfg := rfl
@[simp] theorem State.setRxIdx_seq (n : Nat) (s : State) : (s.setRxIdx n).seq = s.seq := rfl
@[simp] theorem State.setRxIdx_pins (n : Nat) (s : State) : (s.setRxIdx n).pins = s.pins := rfl
@[simp] theorem State.setRxIdx_flag (n : Nat) (s : State) : (s.setRxIdx n).flag = s.flag := rfl
@[simp] theorem State.setRxIdx_i2c (n : Nat) (s : State) : (s.setRxIdx n).i2c = s.i2c := rfl
@[simp] theorem State.setRxIdx_spi (n : Nat) (s : State) : (s.setRxIdx n).spi = s.spi := rfl
@[simp] theorem State.setRxIdx_env (n : Nat) (s : State) : (s.setRxIdx n).env = s.env := rfl
@[simp] theorem State.setRxIdx_uart (n : Nat) (s : State) : (s.setRxIdx n).uart = { s.uart with rxIdx := n } := rfl

@[simp] theorem State.clearFlag_cfg (m : Mbx) (s : State) : (s.clearFlag m).cfg = s.cfg := rfl
@[simp] theorem State.clearFlag_seq (m : Mbx) (s : State) : (s.clearFlag m).seq = s.seq := rfl
@[simp] theorem State.clearFlag_pins (m : Mbx) (s : State) : (s.clearFlag m).pins = s.pins := rfl
@[simp] theorem State.clearFlag_i2c (m : Mbx) (s : State) : (s.clearFlag m).i2c = s.i2c := rfl
@[simp] theorem State.clearFlag_spi (m : Mbx) (s : State) : (s.clearFlag m).spi = s.spi := rfl
@[simp] theorem State.clearFlag_uart (m : Mbx) (s : State) : (s.clearFlag m).uart = s.uart := rfl
@[simp] theorem State.clearFlag_env_ext (m : Mbx) (s : State) : (s.clearFlag m).env.ext = s.env.ext := rfl
@[simp] theorem State.clearFlag_env_now (m : Mbx) (s : State) : (s.clearFlag m).env.now = s.env.now := rfl
@[simp] theorem State.clearFlag_env_trace (m : Mbx) (s : State) :
    (s.clearFlag m).env.trace = { time := s.env.now, event := .flagClear m } :: s.env.trace := rfl
@[simp] theorem State.clearFlag_env_plan (m : Mbx) (s : State) : (s.clearFlag m).env.plan = s.env.plan := rfl
@[simp] theorem State.clearFlag_env_stream (m : Mbx) (s : State) : (s.clearFlag m).env.stream = s.env.stream := rfl
@[simp] theorem State.clearFlag_env_cp (m : Mbx) (s : State) : (s.clearFlag m).env.cp = s.env.cp := rfl
@[simp] theorem State.clearFlag_env_res (m : Mbx) (s : State) : (s.clearFlag m).env.res = s.env.res := rfl
@[simp] theorem State.clearFlag_env_cfgOutcomes (m : Mbx) (s : State) :
    (s.clearFlag m).env.cfgOutcomes = s.env.cfgOutcomes := rfl
@[simp] theorem State.clearFlag_env_xDraws (m : Mbx) (s : State) : (s.clearFlag m).env.xDraws = s.env.xDraws := rfl
@[simp] theorem State.clearFlag_env_freeCtr (m : Mbx) (s : State) : (s.clearFlag m).env.freeCtr = s.env.freeCtr := rfl
@[simp] theorem State.clearFlag_flag (m : Mbx) (s : State) : (s.clearFlag m).flag = s.flag.set m false := rfl

@[simp] theorem State.returnResult_cfg (s : State) : (s.returnResult).cfg = s.cfg := rfl
@[simp] theorem State.returnResult_pins (s : State) : (s.returnResult).pins = s.pins := rfl
@[simp] theorem State.returnResult_flag (s : State) : (s.returnResult).flag = s.flag := rfl
@[simp] theorem State.returnResult_i2c (s : State) : (s.returnResult).i2c = s.i2c := rfl
@[simp] theorem State.returnResult_spi (s : State) : (s.returnResult).spi = s.spi := rfl
@[simp] theorem State.returnResult_uart (s : State) : (s.returnResult).uart = s.uart := rfl
@[simp] theorem State.returnResult_env_ext (s : State) : (s.returnResult).env.ext = s.env.ext := rfl
@[simp] theorem State.returnResult_env_now (s : State) : (s.returnResult).env.now = s.env.now := rfl
@[simp] theorem State.returnResult_env_trace (s : State) :
    (s.returnResult).env.trace = { time := s.env.now, event := .result (resultWords s) } :: s.env.trace := rfl
@[simp] theorem State.returnResult_env_plan (s : State) : (s.returnResult).env.plan = s.env.plan := rfl
@[simp] theorem State.returnResult_env_stream (s : State) : (s.returnResult).env.stream = s.env.stream := rfl
@[simp] theorem State.returnResult_env_cp (s : State) :
    (s.returnResult).env.cp = s.env.cp + 1 + s.seq.cmd.payload.length := rfl
@[simp] theorem State.returnResult_env_res (s : State) : (s.returnResult).env.res = resultWords s := rfl
@[simp] theorem State.returnResult_env_cfgOutcomes (s : State) : (s.returnResult).env.cfgOutcomes = s.env.cfgOutcomes := rfl
@[simp] theorem State.returnResult_env_xDraws (s : State) : (s.returnResult).env.xDraws = s.env.xDraws := rfl
@[simp] theorem State.returnResult_env_freeCtr (s : State) : (s.returnResult).env.freeCtr = s.env.freeCtr + 1 := rfl
@[simp] theorem State.returnResult_seq_busy (s : State) : (s.returnResult).seq.busy = false := rfl
@[simp] theorem State.returnResult_seq_cmd (s : State) : (s.returnResult).seq.cmd = s.seq.cmd := rfl
@[simp] theorem State.returnResult_seq_pos (s : State) : (s.returnResult).seq.pos = [] := rfl
@[simp] theorem State.returnResult_seq_tmp (s : State) : (s.returnResult).seq.tmp = s.seq.tmp := rfl
@[simp] theorem State.returnResult_seq_out (s : State) : (s.returnResult).seq.out = s.seq.out := rfl
@[simp] theorem State.returnResult_seq_ret (s : State) : (s.returnResult).seq.ret = s.seq.ret := rfl
@[simp] theorem State.returnResult_seq_waitRem (s : State) : (s.returnResult).seq.waitRem = s.seq.waitRem := rfl

@[simp] theorem State.refuse_cfg (len : Nat) (s : State) : (s.refuse len).cfg = s.cfg := rfl
@[simp] theorem State.refuse_seq (len : Nat) (s : State) : (s.refuse len).seq = s.seq := rfl
@[simp] theorem State.refuse_pins (len : Nat) (s : State) : (s.refuse len).pins = s.pins := rfl
@[simp] theorem State.refuse_flag (len : Nat) (s : State) : (s.refuse len).flag = s.flag := rfl
@[simp] theorem State.refuse_i2c (len : Nat) (s : State) : (s.refuse len).i2c = s.i2c := rfl
@[simp] theorem State.refuse_spi (len : Nat) (s : State) : (s.refuse len).spi = s.spi := rfl
@[simp] theorem State.refuse_uart (len : Nat) (s : State) : (s.refuse len).uart = s.uart := rfl
@[simp] theorem State.refuse_env_ext (len : Nat) (s : State) : (s.refuse len).env.ext = s.env.ext := rfl
@[simp] theorem State.refuse_env_now (len : Nat) (s : State) : (s.refuse len).env.now = s.env.now := rfl
@[simp] theorem State.refuse_env_trace (len : Nat) (s : State) :
    (s.refuse len).env.trace = { time := s.env.now, event := .result refusedWords } :: s.env.trace := rfl
@[simp] theorem State.refuse_env_plan (len : Nat) (s : State) : (s.refuse len).env.plan = s.env.plan := rfl
@[simp] theorem State.refuse_env_stream (len : Nat) (s : State) : (s.refuse len).env.stream = s.env.stream := rfl
@[simp] theorem State.refuse_env_cp (len : Nat) (s : State) : (s.refuse len).env.cp = s.env.cp + len := rfl
@[simp] theorem State.refuse_env_res (len : Nat) (s : State) : (s.refuse len).env.res = refusedWords := rfl
@[simp] theorem State.refuse_env_cfgOutcomes (len : Nat) (s : State) :
    (s.refuse len).env.cfgOutcomes = s.env.cfgOutcomes := rfl
@[simp] theorem State.refuse_env_xDraws (len : Nat) (s : State) : (s.refuse len).env.xDraws = s.env.xDraws := rfl
@[simp] theorem State.refuse_env_freeCtr (len : Nat) (s : State) : (s.refuse len).env.freeCtr = s.env.freeCtr := rfl

@[simp] theorem State.resetInput_cfg (s : State) : (s.resetInput).cfg = s.cfg := rfl
@[simp] theorem State.resetInput_env_ext (s : State) : (s.resetInput).env.ext = s.env.ext := rfl
@[simp] theorem State.resetInput_env_now (s : State) : (s.resetInput).env.now = s.env.now := rfl
@[simp] theorem State.resetInput_env_trace (s : State) :
    (s.resetInput).env.trace = { time := s.env.now, event := .reset } :: s.env.trace := rfl
@[simp] theorem State.resetInput_env_plan (s : State) : (s.resetInput).env.plan = s.env.plan := rfl
@[simp] theorem State.resetInput_env_stream (s : State) : (s.resetInput).env.stream = s.env.stream := rfl
@[simp] theorem State.resetInput_env_cp (s : State) : (s.resetInput).env.cp = s.env.cp := rfl
@[simp] theorem State.resetInput_env_res (s : State) : (s.resetInput).env.res = s.env.res := rfl
@[simp] theorem State.resetInput_env_cfgOutcomes (s : State) : (s.resetInput).env.cfgOutcomes = s.env.cfgOutcomes := rfl
@[simp] theorem State.resetInput_env_xDraws (s : State) : (s.resetInput).env.xDraws = s.env.xDraws := rfl
@[simp] theorem State.resetInput_env_freeCtr (s : State) : (s.resetInput).env.freeCtr = s.env.freeCtr := rfl
@[simp] theorem State.resetInput_seq (s : State) : s.resetInput.seq = State.reset.seq := rfl
@[simp] theorem State.resetInput_pins (s : State) : s.resetInput.pins = State.reset.pins := rfl
@[simp] theorem State.resetInput_flag (s : State) : s.resetInput.flag = State.reset.flag := rfl
@[simp] theorem State.resetInput_i2c (s : State) : s.resetInput.i2c = State.reset.i2c := rfl
@[simp] theorem State.resetInput_spi (s : State) : s.resetInput.spi = State.reset.spi := rfl
@[simp] theorem State.resetInput_uart (s : State) : s.resetInput.uart = State.reset.uart := rfl

end Sys2Proof.Machine
end

