-- ==== Sys2Proof/Laws/Ops.lean ====
section
/-! SUPPORT. What each shared operation can do, said once; the two principles every run goes by: what every act keeps a run
keeps, and a command with no spin-wait returns. -/

namespace Sys2Proof.Machine

/-! ## What an edge can do -/

/-- From `s` to `t` nothing but pins, flags, draws and `TRACE` differs, and every entry `TRACE` gained is a flag set. -/
structure EdgeOnly (s t : State) : Prop where
  cfg : t.cfg = s.cfg
  seq : t.seq = s.seq
  i2c : t.i2c = s.i2c
  spi : t.spi = s.spi
  uart : t.uart = s.uart
  ext : t.env.ext = s.env.ext
  now : t.env.now = s.env.now
  plan : t.env.plan = s.env.plan
  stream : t.env.stream = s.env.stream
  cp : t.env.cp = s.env.cp
  res : t.env.res = s.env.res
  cfgOutcomes : t.env.cfgOutcomes = s.env.cfgOutcomes
  trace : ∃ es : List Stamped, t.env.trace = es ++ s.env.trace ∧ ∀ e ∈ es, ∃ m, e.event = .flagSet m

theorem EdgeOnly.refl (s : State) : EdgeOnly s s :=
  ⟨rfl, rfl, rfl, rfl, rfl, rfl, rfl, rfl, rfl, rfl, rfl, rfl, [], rfl, by simp⟩

theorem EdgeOnly.trans {s t u : State} (h : EdgeOnly s t) (k : EdgeOnly t u) : EdgeOnly s u := by
  obtain ⟨es, he, he'⟩ := h.trace
  obtain ⟨fs, hf, hf'⟩ := k.trace
  refine ⟨k.cfg.trans h.cfg, k.seq.trans h.seq, k.i2c.trans h.i2c, k.spi.trans h.spi, k.uart.trans h.uart, k.ext.trans h.ext,
    k.now.trans h.now, k.plan.trans h.plan, k.stream.trans h.stream, k.cp.trans h.cp, k.res.trans h.res,
    k.cfgOutcomes.trans h.cfgOutcomes, fs ++ es, by rw [hf, he, List.append_assoc], ?_⟩
  intro e hm
  rcases List.mem_append.mp hm with hm | hm
  · exact hf' e hm
  · exact he' e hm

/-- `signal()` sets its flag and nothing else; a set flag stays set (41_mailbox.md R133, R137). -/
theorem State.signal_flag (m : Mbx) (s : State) : (s.signal m).flag = s.flag.set m true := by
  unfold State.signal
  split
  · next h => rw [← h, PerMbx.set_get]
  · rfl

@[simp] theorem State.signal_pins (m : Mbx) (s : State) : (s.signal m).pins = s.pins := by
  unfold State.signal; split <;> rfl

theorem State.signal_edgeOnly (m : Mbx) (s : State) : EdgeOnly s (s.signal m) := by
  unfold State.signal
  split
  · exact EdgeOnly.refl s
  · exact ⟨rfl, rfl, rfl, rfl, rfl, rfl, rfl, rfl, rfl, rfl, rfl, rfl, [_], rfl, by simp⟩

/-- A lost event changes nothing at all. -/
theorem State.signal_lost (m : Mbx) (s : State) (h : s.flag.get m = true) : s.signal m = s := by
  simp [State.signal, h]

/-- The handler sets its flag; a one-shot one removes itself (R131). -/
theorem State.enterHandler_ran (p : Pin) (h : Handler) (s : State) :
    (s.enterHandler p h).flag = s.flag.set h.mbx true ∧
    (s.enterHandler p h).pins = if h.once then s.pins.set p ((s.pins.get p).withHnd none) else s.pins := by
  unfold State.enterHandler
  split <;> simp [State.signal_flag, PinRegs.withHnd]

theorem State.enterHandler_edgeOnly (p : Pin) (h : Handler) (s : State) : EdgeOnly s (s.enterHandler p h) := by
  unfold State.enterHandler
  split
  · obtain ⟨a, b, c, d, e, f, g, i, j, k, l, m, n⟩ := State.signal_edgeOnly h.mbx s
    exact ⟨a, b, c, d, e, f, g, i, j, k, l, m, n⟩
  · exact State.signal_edgeOnly h.mbx s

theorem State.dropX_edgeOnly (s : State) : EdgeOnly s s.dropX := by
  unfold State.dropX
  split <;> exact ⟨rfl, rfl, rfl, rfl, rfl, rfl, rfl, rfl, rfl, rfl, rfl, rfl, [], rfl, by simp⟩

@[simp] theorem State.dropX_pins (s : State) : s.dropX.pins = s.pins := by unfold State.dropX; split <;> rfl
@[simp] theorem State.dropX_flag (s : State) : s.dropX.flag = s.flag := by unfold State.dropX; split <;> rfl

/-- The edge synchronizer does nothing, or runs the pin's handler. -/
theorem State.edgeSync_cases (p : Pin) (old : Level) (s : State) :
    (((s.edgeSync p old).pins = s.pins ∧ (s.edgeSync p old).flag = s.flag) ∨
      ∃ h, (s.pins.get p).hnd = some h ∧ edgeMatch (s.pins.get p).irq old (s.line p) ≠ .no ∧
        (s.edgeSync p old).flag = s.flag.set h.mbx true ∧
        (s.edgeSync p old).pins = if h.once then s.pins.set p ((s.pins.get p).withHnd none) else s.pins) := by
  unfold State.edgeSync
  split
  · exact .inl ⟨rfl, rfl⟩
  · next h hh =>
    split
    · exact .inl ⟨rfl, rfl⟩
    · next he =>
      exact .inr ⟨h, hh, by simp [he], State.enterHandler_ran p h s⟩
    · next he =>
      split
      · refine .inr ⟨h, hh, by simp [he], ?_⟩
        simpa using State.enterHandler_ran p h s.dropX
      · exact .inl ⟨by simp, by simp⟩

theorem State.edgeSync_edgeOnly (p : Pin) (old : Level) (s : State) : EdgeOnly s (s.edgeSync p old) := by
  unfold State.edgeSync
  split
  · exact EdgeOnly.refl s
  · split
    · exact EdgeOnly.refl s
    · exact State.enterHandler_edgeOnly _ _ _
    · split
      · exact (State.dropX_edgeOnly s).trans (State.enterHandler_edgeOnly _ _ _)
      · exact State.dropX_edgeOnly s

/-! ## Pins -/

theorem pinKept.refl (r : PinRegs) : pinKept r r := ⟨rfl, rfl, rfl, rfl, .inl rfl⟩

theorem pinKept.trans {a b c : PinRegs} (h : pinKept a b) (k : pinKept b c) : pinKept a c := by
  obtain ⟨h1, h2, h3, h4, h5⟩ := h
  obtain ⟨k1, k2, k3, k4, k5⟩ := k
  refine ⟨k1.trans h1, k2.trans h2, k3.trans h3, k4.trans h4, ?_⟩
  rcases k5 with k5 | ⟨k5, g, kg, ko⟩
  · rcases h5 with h5 | ⟨h5, g, hg, ho⟩
    · exact .inl (k5.trans h5)
    · exact .inr ⟨k5.trans h5, g, hg, ho⟩
  · rcases h5 with h5 | ⟨h5, _, _, _⟩
    · exact .inr ⟨k5, g, h5 ▸ kg, ko⟩
    · rw [h5] at kg; cases kg

/-- Whatever an edge does, every pin keeps its fields but for a one-shot handler. -/
theorem State.edgeSync_pins (p q : Pin) (old : Level) (s : State) :
    pinKept (s.pins.get q) ((s.edgeSync p old).pins.get q) := by
  rcases State.edgeSync_cases p old s with ⟨h, -⟩ | ⟨h, hh, -, -, hp⟩
  · rw [h]; exact pinKept.refl _
  · rw [hp]
    split
    · next ho =>
      rw [PerPin.get_set]
      split
      · next e => subst e; exact ⟨rfl, rfl, rfl, rfl, .inr ⟨rfl, h, hh, ho⟩⟩
      · exact pinKept.refl _
    · exact pinKept.refl _

/-- An edge clears no flag. -/
theorem State.edgeSync_flag (p : Pin) (old : Level) (s : State) (m : Mbx) (h : s.flag.get m = true) :
    (s.edgeSync p old).flag.get m = true := by
  rcases State.edgeSync_cases p old s with ⟨-, hf⟩ | ⟨k, -, -, hf, -⟩
  · rw [hf]; exact h
  · rw [hf, PerMbx.get_set]; split <;> simp [h]

/-- `movePin` touches pins, flags, draws and `TRACE` only. -/
theorem State.movePin_edgeOnly (p : Pin) (r : PinRegs) (s : State) : EdgeOnly s (s.movePin p r) := by
  obtain ⟨a, b, c, d, e, f, g, i, j, k, l, m, n⟩ := State.edgeSync_edgeOnly p (s.line p) { s with pins := s.pins.set p r }
  exact ⟨a, b, c, d, e, f, g, i, j, k, l, m, n⟩

/-- The moved pin takes its fields (a one-shot handler may have fired), the others keep theirs. -/
theorem State.movePin_pins (p q : Pin) (r : PinRegs) (s : State) :
    pinKept (if q = p then r else s.pins.get q) ((s.movePin p r).pins.get q) := by
  rw [← PerPin.get_set]
  exact State.edgeSync_pins p q (s.line p) { s with pins := s.pins.set p r }

theorem State.movePin_flag (p : Pin) (r : PinRegs) (s : State) (m : Mbx) (h : s.flag.get m = true) :
    (s.movePin p r).flag.get m = true :=
  State.edgeSync_flag p (s.line p) { s with pins := s.pins.set p r } m h

/-- The environment's drive: `EXT[p]` changes, and what an edge does. -/
theorem State.driveExt_edgeOnly (p : Pin) (e : Ext) (s : State) :
    EdgeOnly { s with env := { s.env with ext := s.env.ext.set p e } } (s.driveExt p e) :=
  State.edgeSync_edgeOnly p (s.line p) _

theorem State.driveExt_pins (p q : Pin) (e : Ext) (s : State) : pinKept (s.pins.get q) ((s.driveExt p e).pins.get q) :=
  State.edgeSync_pins p q (s.line p) { s with env := { s.env with ext := s.env.ext.set p e } }

theorem State.driveExt_flag (p : Pin) (e : Ext) (s : State) (m : Mbx) (h : s.flag.get m = true) :
    (s.driveExt p e).flag.get m = true :=
  State.edgeSync_flag p (s.line p) { s with env := { s.env with ext := s.env.ext.set p e } } m h

/-- The edge synchronizer neither reads nor changes the plan. -/
theorem State.edgeSync_setPlan (p : Pin) (old : Level) (as : List EnvAct) (s : State) :
    (s.setPlan as).edgeSync p old = (s.edgeSync p old).setPlan as := by
  have h1 : ∀ t : State, (t.setPlan as).line p = t.line p := fun _ => rfl
  have h2 : ∀ t : State, (t.setPlan as).pins = t.pins := fun _ => rfl
  unfold State.edgeSync
  rw [h1, h2]
  cases (s.pins.get p).hnd with
  | none => rfl
  | some h =>
    have he : ∀ t : State, (t.setPlan as).enterHandler p h = (t.enterHandler p h).setPlan as := by
      intro t
      unfold State.enterHandler State.signal
      have : (t.setPlan as).flag = t.flag := rfl
      rw [this]
      cases h.once <;> cases t.flag.get h.mbx <;> rfl
    have hd : (s.setPlan as).dropX = s.dropX.setPlan as := by
      have : (s.setPlan as).env.xDraws = s.env.xDraws := rfl
      unfold State.dropX; rw [this]; cases s.env.xDraws <;> rfl
    have hx : (s.setPlan as).xDraw = s.xDraw := rfl
    dsimp only
    cases edgeMatch (s.pins.get p).irq old (s.line p) with
    | no => rfl
    | yes => exact he s
    | free => dsimp only; rw [hx, hd]; cases s.xDraw <;> [rfl; exact he s.dropX]

/-- The environment's drive neither reads nor changes the rest of the plan. -/
theorem State.driveExt_setPlan (p : Pin) (e : Ext) (as : List EnvAct) (s : State) :
    (s.setPlan as).driveExt p e = (s.driveExt p e).setPlan as :=
  State.edgeSync_setPlan p (s.line p) as { s with env := { s.env with ext := s.env.ext.set p e } }

/-- The model's edge rule is the one written out in `edgeIs` and `edgeMaybe`. -/
theorem edgeMatch_yes (irq : Irq) (old new : Level) : edgeMatch irq old new = .yes ↔ edgeIs irq old new := by
  cases irq <;> cases old <;> cases new <;> simp [edgeMatch, edgeIs]

theorem edgeMatch_free (irq : Irq) (old new : Level) : edgeMatch irq old new = .free ↔ edgeMaybe irq old new := by
  cases irq <;> cases old <;> cases new <;> simp [edgeMatch, edgeMaybe]

/-- The resolved level is the one written out in `lineOf` (20_memory.md R64). -/
theorem State.line_eq (s : State) (p : Pin) : s.line p = lineOf (s.pins.get p) (s.env.ext.get p) := by
  unfold State.line State.blk lineOf
  cases (s.pins.get p).dir <;> cases (s.pins.get p).lat <;> cases s.env.ext.get p <;> cases (s.pins.get p).pull <;> rfl

/-! ## Settling and returning -/

theorem State.settle_busy (s : State) (h : s.seq.pos ≠ []) : s.settle = s := by
  unfold State.settle
  cases hp : s.seq.pos with
  | nil => exact absurd hp h
  | cons a l => simp

theorem State.settle_nil (s : State) (hb : s.seq.busy = true) (h : s.seq.pos = []) : s.settle = s.returnResult := by
  simp [State.settle, hb, h]

/-- A settled state is idle with nothing left, or busy with something left. -/
theorem State.settle_busy_iff (s : State) (hb : s.seq.busy = true) : s.settle.seq.busy = true ↔ s.seq.pos ≠ [] := by
  by_cases h : s.seq.pos = []
  · simp [State.settle_nil s hb h, h]
  · simp [State.settle_busy s h, h, hb]

/-! ## Runs -/

/-- What the sequencer's own advance keeps, `drain` keeps. -/
theorem drain_keeps {P : State → Prop} (hadv : ∀ s, s.seq.busy = true → P s → P s.advance) :
    ∀ (n : Nat) (s : State), P s → P (drain n s) := by
  intro n
  induction n with
  | zero => exact fun s h => h
  | succ n ih =>
    intro s h
    unfold drain
    split
    · next hb =>
      split
      · exact hadv s hb h
      · exact ih _ (hadv s hb h)
    · exact h

/-- What every act of the plan and every advance keep, a run keeps. -/
theorem runPlan_keeps {P : State → Prop} (hplan : ∀ s as, P s → P (s.setPlan as))
    (hadv : ∀ s, s.seq.busy = true → P s → P s.advance) :
    ∀ (plan : List EnvAct) (s : State), (∀ a ∈ plan, ∀ s, s.seq.busy = true → P s → P (a.apply s)) → P s →
      P (runPlan plan s) := by
  intro plan
  induction plan with
  | nil => exact fun s _ h => drain_keeps hadv _ s h
  | cons a as ih =>
    intro s hact h
    unfold runPlan
    split
    · next hb => exact ih _ (fun b hb' => hact b (List.mem_cons_of_mem _ hb')) (hact a List.mem_cons_self s hb h)
    · exact hplan _ _ h

/-- A run stopped by its command's return keeps the returned state: nothing happens to it but the plan put back. -/
theorem runPlan_idle (plan : List EnvAct) (s : State) (hb : s.seq.busy = false) (hp : s.env.plan = []) :
    runPlan plan s = s.setPlan plan := by
  cases plan with
  | nil =>
    have : s.setPlan [] = s := by
      unfold State.setPlan; rw [← hp]
    unfold runPlan State.drainFuel
    rw [this]
    unfold drain
    simp [hb]
  | cons a as => unfold runPlan; simp [hb]

/-! ## Presenting a command -/

theorem command_busy (i : Instr) (gate : State → Bool) (prog : List Micro) (ret : Ret) (s : State)
    (hb : s.seq.busy = true) : command i gate prog ret s = .next s := by
  simp [command, hb]

theorem command_refused (i : Instr) (gate : State → Bool) (prog : List Micro) (ret : Ret) (s : State)
    (hb : s.seq.busy = false) (hg : gate s = false) : command i gate prog ret s = .next (s.refuse i.lengthWords) := by
  simp [command, hb, hg]

theorem command_accepted (i : Instr) (gate : State → Bool) (prog : List Micro) (ret : Ret) (s : State)
    (hb : s.seq.busy = false) (hg : gate s = true) (hw : i.wf = true) :
    command i gate prog ret s = .next (s.accept i prog ret).runOn := by
  simp [command, hb, hg, hw]

/-! ## A command with no spin-wait returns -/

/-- Not a spin-wait, a pass of `I2C_S_WSTOP` or the loop of `UART_RX_LOOP`. -/
def Micro.straight : Micro → Bool
  | .spin _ _ => false
  | .stopPass _ _ => false
  | .rxAgain => false
  | _ => true

/-- Idle, or with only straight micro-operations left and any wait in progress at their head. -/
def State.straightRun (s : State) : Prop :=
  s.seq.busy = true →
    s.seq.pos ≠ [] ∧ (∀ op ∈ s.seq.pos, op.straight = true) ∧
    (s.seq.waitRem ≠ 0 → ∃ n rest, s.seq.pos = .wait n :: rest)

@[simp] theorem State.dropCfg_seq (s : State) : s.dropCfg.seq = s.seq := by unfold State.dropCfg; split <;> rfl
@[simp] theorem State.dropX_seq (s : State) : s.dropX.seq = s.seq := by unfold State.dropX; split <;> rfl
@[simp] theorem State.movePin_seq (p : Pin) (r : PinRegs) (s : State) : (s.movePin p r).seq = s.seq :=
  (State.movePin_edgeOnly p r s).seq
@[simp] theorem State.driveExt_seq (p : Pin) (e : Ext) (s : State) : (s.driveExt p e).seq = s.seq :=
  (State.driveExt_edgeOnly p e s).seq
@[simp] theorem State.afterRead_seq (p : Pin) (s : State) : (s.afterRead p).seq = s.seq := by
  unfold State.afterRead; split <;> simp

@[simp] theorem State.reportByte_seq (s : State) (j : Nat) : (s.reportByte j).seq = s.seq := by
  unfold State.reportByte; split <;> simp

theorem foldl_reportByte_seq (l : List Nat) (s : State) : (l.foldl State.reportByte s).seq = s.seq := by
  induction l generalizing s with
  | nil => rfl
  | cons a l ih => simp [ih]

@[simp] theorem State.bufferFull_seq (s : State) : s.bufferFull.seq = s.seq := by
  unfold State.bufferFull; split <;> simp [foldl_reportByte_seq]

@[simp] theorem State.rxAppend_seq (s : State) : s.rxAppend.seq = s.seq := rfl

@[simp] theorem State.rxStop_seq (s : State) : s.rxStop.seq = s.seq := by
  unfold State.rxStop; split
  · split <;> simp
  · simp

@[simp] theorem State.emitDispatch_seq (lsa : Addr) (s : State) : (s.emitDispatch lsa).seq = s.seq := by
  unfold State.emitDispatch; split <;> simp

/-- What a register assignment can do to the sequencer: only the gathered bytes change. -/
theorem RegOp.apply_seq (r : RegOp) (s : State) :
    (r.apply s).seq.busy = s.seq.busy ∧ (r.apply s).seq.pos = s.seq.pos ∧ (r.apply s).seq.waitRem = s.seq.waitRem ∧
    (r.apply s).seq.cmd = s.seq.cmd ∧ (r.apply s).seq.ret = s.seq.ret ∧ (r.apply s).seq.tmp = s.seq.tmp := by
  cases r <;> simp [RegOp.apply]
  split <;> simp

/-- What a straight micro-operation can do to the sequencer's position: nothing, leave some of the rest out, or start a wait. -/
theorem Micro.run_seq (op : Micro) (s : State) (h : op.straight = true) :
    (op.run s).seq.busy = s.seq.busy ∧
    (((op.run s).seq.pos <:+ s.seq.pos ∧ (op.run s).seq.waitRem = s.seq.waitRem) ∨
      ∃ n, n ≠ 0 ∧ op = .wait n ∧ (op.run s).seq.pos = .wait n :: s.seq.pos ∧ (op.run s).seq.waitRem = n) := by
  cases op with
  | reg r =>
    obtain ⟨h1, h2, h3, -⟩ := RegOp.apply_seq r s
    exact ⟨h1, .inl ⟨by rw [Micro.run, h2], h3⟩⟩
  | pinCfg p d pl ir use =>
    simp only [Micro.run, State.pinCfg]
    split
    · simp
    · cases use <;> simp [State.onConfigFailure]
  | pinSet p v => simp [Micro.run, State.pinSet]
  | sample p d => cases d <;> simp [Micro.run, Dest.store]
  | irqReg p m os use =>
    simp only [Micro.run, State.irqReg]
    split
    · simp
    · cases use <;> simp [State.onConfigFailure]
  | irqUnreg p => simp [Micro.run, State.irqUnreg]
  | wait n =>
    by_cases hn : n = 0
    · subst hn; simp [Micro.run]
    · refine ⟨by simp [Micro.run, hn], .inr ⟨n, hn, rfl, by simp [Micro.run, hn], by simp [Micro.run, hn]⟩⟩
  | mbxTest m => simp [Micro.run]
  | mbxClear m => simp [Micro.run]
  | spin c a => cases h
  | stopPass k a => cases h
  | nackKeep k =>
    simp only [Micro.run]
    split
    · simp
    · simp [List.drop_suffix]
  | rxAgain => cases h

/-- What is left to do, in advances: two for each micro-operation, one less for a wait in progress. -/
def State.work (s : State) : Nat := 2 * s.seq.pos.length - (if s.seq.waitRem = 0 then 0 else 1)

theorem State.settle_waitRem (s : State) : s.settle.seq.waitRem = s.seq.waitRem := by
  unfold State.settle; split <;> simp

theorem State.settle_pos (s : State) : s.settle.seq.pos = s.seq.pos := by
  unfold State.settle
  split
  · next h => simp only [Bool.and_eq_true, List.isEmpty_iff] at h; simp [h.2]
  · rfl

/-- One advance of a straight run leaves a straight run with less to do. -/
theorem State.advance_straight (s : State) (hb : s.seq.busy = true) (h : s.straightRun) :
    s.advance.straightRun ∧ s.advance.work < s.work := by
  obtain ⟨hne, hst, hw⟩ := h hb
  unfold State.advance
  split
  · next h0 =>
    obtain ⟨op, rest, hpos⟩ : ∃ op rest, s.seq.pos = op :: rest := by
      cases hp : s.seq.pos with
      | nil => exact absurd hp hne
      | cons a l => exact ⟨a, l, rfl⟩
    have hop : op.straight = true := hst op (by simp [hpos])
    have hrest : ∀ o ∈ rest, o.straight = true := fun o ho => hst o (by simp [hpos, ho])
    have hstep : s.seqStep = (op.run (s.setPos rest)).settle := by unfold State.seqStep; rw [hpos]
    rw [hstep]
    obtain ⟨rb, rc⟩ := Micro.run_seq op (s.setPos rest) hop
    simp only [State.setPos_seq_pos, State.setPos_seq_waitRem, State.setPos_seq_busy] at rb rc
    have hb2 : (op.run (s.setPos rest)).seq.busy = true := by rw [rb, hb]
    refine ⟨fun hbusy => ⟨(State.settle_busy_iff _ hb2).mp hbusy |> fun h => by rwa [State.settle_pos], ?_, ?_⟩, ?_⟩
    · intro o ho
      rw [State.settle_pos] at ho
      rcases rc with ⟨hsuf, -⟩ | ⟨n, -, -, hp, -⟩
      · exact hrest o (hsuf.subset ho)
      · rw [hp] at ho
        rcases List.mem_cons.mp ho with rfl | ho
        · rfl
        · exact hrest o ho
    · intro hw0
      rw [State.settle_waitRem] at hw0
      rw [State.settle_pos]
      rcases rc with ⟨-, hwr⟩ | ⟨n, -, -, hp, -⟩
      · exact absurd (hwr.trans h0) hw0
      · exact ⟨n, rest, hp⟩
    · unfold State.work
      rw [State.settle_pos, State.settle_waitRem]
      rcases rc with ⟨hsuf, hwr⟩ | ⟨n, hn, -, hp, hwr⟩
      · have := hsuf.length_le
        rw [hwr, h0, hpos]; simp only [if_true, List.length_cons]; omega
      · rw [hp, hwr, h0, hpos]; simp only [hn, if_true, if_false, List.length_cons]; omega
  · next h0 =>
    obtain ⟨n, rest, hpos⟩ := hw h0
    have he : s.elapse s.seq.waitRem =
        (State.setPos rest (({ s with seq := { s.seq with waitRem := 0 } }).addTime s.seq.waitRem)).settle := by
      unfold State.elapse
      simp [hpos, State.addTime]
    rw [he]
    refine ⟨fun hbusy => ⟨?_, ?_, ?_⟩, ?_⟩
    · rw [State.settle_pos]
      exact (State.settle_busy_iff _ (by simpa using hb)).mp hbusy
    · intro o ho
      rw [State.settle_pos] at ho
      exact hst o (by simp only [State.setPos_seq_pos] at ho; simp [hpos, ho])
    · intro hw0
      rw [State.settle_waitRem] at hw0
      exact absurd rfl hw0
    · unfold State.work
      rw [State.settle_pos, State.settle_waitRem]
      simp only [State.setPos_seq_pos, State.setPos_seq_waitRem, State.addTime_seq, if_true, h0, if_false, hpos,
        List.length_cons]
      omega

/-- A straight run is never between two evaluations of a spin-wait. -/
theorem State.straight_not_spinning (s : State) (hb : s.seq.busy = true) (h : s.straightRun) : s.spinning = false := by
  obtain ⟨-, hst, -⟩ := h hb
  unfold State.spinning
  split
  · next heq => exact absurd (hst _ (by rw [heq]; exact List.mem_cons_self)) (by simp [Micro.straight])
  · next heq => exact absurd (hst _ (by rw [heq]; exact List.mem_cons_self)) (by simp [Micro.straight])
  · rfl

/-- With nothing around it moving, a straight run returns. -/
theorem drain_straight (n : Nat) (s : State) (h : s.straightRun) (hn : s.work < n) : (drain n s).seq.busy = false := by
  induction n generalizing s with
  | zero => omega
  | succ n ih =>
    unfold drain
    by_cases hb : s.seq.busy = true
    · obtain ⟨h1, h2⟩ := State.advance_straight s hb h
      rw [if_pos hb]
      by_cases hb' : s.advance.seq.busy = true
      · rw [if_neg (by simp [State.straight_not_spinning _ hb' h1])]
        exact ih _ h1 (by omega)
      · split
        · simpa using hb'
        · exact ih _ h1 (by omega)
    · rw [if_neg hb]; simpa using hb

/-- No act of the environment but a reset makes a straight run anything else. -/
theorem EnvAct.apply_straight (a : EnvAct) (s : State) (hb : s.seq.busy = true) (ha : a ≠ .reset) (h : s.straightRun) :
    (a.apply s).straightRun := by
  cases a with
  | turn =>
    simp only [EnvAct.apply]
    split
    · next hc =>
      simp only [Bool.and_eq_true, decide_eq_true_eq] at hc
      have := (State.advance_straight s hb h).1
      unfold State.advance at this
      rwa [if_pos hc.2] at this
    · exact h
  | drive p e =>
    simp only [EnvAct.apply]
    intro hb'
    rw [State.driveExt_seq]
    exact h hb
  | pass d =>
    simp only [EnvAct.apply, State.passTime, hb, if_true]
    split
    · split
      · exact fun _ => by simpa using h hb
      · exact h
    · next h0 =>
      obtain ⟨hne, hst, hw⟩ := h hb
      obtain ⟨n, rest, hpos⟩ := hw h0
      unfold State.elapse
      simp only
      split
      · next hz =>
        intro hbusy
        refine ⟨?_, ?_, ?_⟩
        · rw [State.settle_pos]
          exact (State.settle_busy_iff _ (by simpa using hb)).mp hbusy
        · intro o ho
          rw [State.settle_pos] at ho
          exact hst o (List.mem_of_mem_tail (by simpa using ho))
        · intro hw0
          rw [State.settle_waitRem] at hw0
          exact absurd (by simpa using hz) hw0
      · exact fun _ => ⟨by simpa using hne, by simpa using hst, fun _ => ⟨n, rest, by simpa using hpos⟩⟩
  | reset => exact absurd rfl ha

/-- Every plan without a reset lets a straight run return: "Every master command therefore terminates" (42_i2c_master.md
R159). -/
theorem runPlan_straight (plan : List EnvAct) (s : State) (hp : noReset plan) (h : s.straightRun) :
    (runPlan plan s).seq.busy = false := by
  induction plan generalizing s with
  | nil =>
    unfold runPlan
    refine drain_straight _ s h ?_
    unfold State.drainFuel State.work
    omega
  | cons a as ih =>
    unfold runPlan
    split
    · next hb =>
      exact ih _ (fun hm => hp (List.mem_cons_of_mem _ hm))
        (EnvAct.apply_straight a s hb (fun e => hp (e ▸ List.mem_cons_self)) h)
    · next hb => simpa using hb

/-- An accepted command of straight micro-operations returns under every plan without a reset. -/
theorem accept_straight (i : Instr) (prog : List Micro) (ret : Ret) (s : State) (hp : noReset s.env.plan)
    (hst : ∀ op ∈ prog, op.straight = true) : ((s.accept i prog ret).runOn).seq.busy = false := by
  have hplan : (s.accept i prog ret).env.plan = s.env.plan := by
    unfold State.accept State.settle; split <;> simp
  unfold State.runOn
  rw [hplan]
  refine runPlan_straight _ _ hp ?_
  intro hb
  have hb' : (s.accept i prog ret).seq.busy = true := by simpa using hb
  have hpos : (s.accept i prog ret).seq.pos = prog := by unfold State.accept; rw [State.settle_pos]
  have hwr : (s.accept i prog ret).seq.waitRem = 0 := by unfold State.accept; rw [State.settle_waitRem]
  refine ⟨?_, ?_, ?_⟩
  · intro h0
    have h1 : prog = [] := by simpa [hpos] using h0
    subst h1
    simp [State.accept, State.settle] at hb'
  · simpa [hpos] using hst
  · intro h; exact absurd (by simpa using hwr) h

end Sys2Proof.Machine
end

