-- ==== Sys2Proof/Laws/PerInstr.lean ====
section
/-! SUPPORT. The family `EncodedWord` of statements about every command as syntax, one lemma for each constructor: the command
word names its row of the opcode map, and the decoder takes from it the number of payload words the command has
(30_encoding.md R93, R94). -/

namespace Sys2Proof.Laws

/-- The fields of a word assembled from fields. -/
theorem unitOf_mkWord (u o : BitVec 4) (a b c : Byte) : unitOf (mkWord u o a b c) = u := by
  unfold unitOf mkWord
  apply BitVec.eq_of_getLsbD_eq
  intro i hi
  simp only [BitVec.getLsbD_extractLsb', BitVec.getLsbD_append]
  have h1 : ¬ 28 + i < 8 := by omega
  have h2 : ¬ 28 + i - 8 < 8 := by omega
  have h3 : ¬ 28 + i - 8 - 8 < 8 := by omega
  have h4 : ¬ 28 + i - 8 - 8 - 8 < 4 := by omega
  have h5 : 28 + i - 8 - 8 - 8 - 4 = i := by omega
  simp [hi, h1, h2, h3, h4, h5]

theorem opOf_mkWord (u o : BitVec 4) (a b c : Byte) : opOf (mkWord u o a b c) = o := by
  unfold opOf mkWord
  apply BitVec.eq_of_getLsbD_eq
  intro i hi
  simp only [BitVec.getLsbD_extractLsb', BitVec.getLsbD_append]
  have h1 : ¬ 24 + i < 8 := by omega
  have h2 : ¬ 24 + i - 8 < 8 := by omega
  have h3 : ¬ 24 + i - 8 - 8 < 8 := by omega
  have h5 : 24 + i - 8 - 8 - 8 = i := by omega
  simp [hi, h1, h2, h3, h5]

theorem aOf_mkWord (u o : BitVec 4) (a b c : Byte) : aOf (mkWord u o a b c) = a := by
  unfold aOf mkWord
  apply BitVec.eq_of_getLsbD_eq
  intro i hi
  simp only [BitVec.getLsbD_extractLsb', BitVec.getLsbD_append]
  have h1 : ¬ 16 + i < 8 := by omega
  have h2 : ¬ 16 + i - 8 < 8 := by omega
  have h4 : 16 + i - 8 - 8 = i := by omega
  simp [hi, h1, h2, h4]

theorem bOf_mkWord (u o : BitVec 4) (a b c : Byte) : bOf (mkWord u o a b c) = b := by
  unfold bOf mkWord
  apply BitVec.eq_of_getLsbD_eq
  intro i hi
  simp only [BitVec.getLsbD_extractLsb', BitVec.getLsbD_append]
  have h1 : ¬ 8 + i < 8 := by omega
  have h3 : 8 + i - 8 = i := by omega
  simp [hi, h1, h3]

theorem cOf_mkWord (u o : BitVec 4) (a b c : Byte) : cOf (mkWord u o a b c) = c := by
  unfold cOf mkWord
  apply BitVec.eq_of_getLsbD_eq
  intro i hi
  simp only [BitVec.getLsbD_extractLsb', BitVec.getLsbD_append]
  simp [hi]

theorem payloadWords_mkWord (u o : BitVec 4) (a b c : Byte) :
    payloadWords (mkWord u o a b c) = if (u = 2 ∧ o = 6) ∨ (u = 4 ∧ o = 2) then b.toNat else 0 := by
  unfold payloadWords
  rw [unitOf_mkWord, opOf_mkWord, bOf_mkWord]
  by_cases h1 : u = 2 ∧ o = 6
  · obtain ⟨rfl, rfl⟩ := h1; rfl
  · by_cases h2 : u = 4 ∧ o = 2
    · obtain ⟨rfl, rfl⟩ := h2; rfl
    · rw [if_neg (by tauto)]
      split
      · next e1 e2 => exact absurd ⟨BitVec.eq_of_toNat_eq e1, BitVec.eq_of_toNat_eq e2⟩ h1
      · next e1 e2 => exact absurd ⟨BitVec.eq_of_toNat_eq e1, BitVec.eq_of_toNat_eq e2⟩ h2
      · rfl

namespace EncodedWord

/-- The command word of a well-formed command names a unit of R94, and says how many payload words follow. -/
def Statement (i : Instr) : Prop :=
  i.wf = true → (unitOf (encodeWord i)).toNat ≤ 4 ∧ payloadWords (encodeWord i) = i.payload.length


theorem pinCfg (p : Pin) (dir : Dir) (pull : Pull) (irq : Irq) : Statement (.pinCfg p dir pull irq) := fun _ =>
  ⟨by rw [encodeWord, unitOf_mkWord]; decide, by rw [encodeWord, payloadWords_mkWord]; rfl⟩

theorem pinSet (p : Pin) (v : Bool) : Statement (.pinSet p v) := fun _ =>
  ⟨by rw [encodeWord, unitOf_mkWord]; decide, by rw [encodeWord, payloadWords_mkWord]; rfl⟩

theorem pinGet (p : Pin) : Statement (.pinGet p) := fun _ =>
  ⟨by rw [encodeWord, unitOf_mkWord]; decide, by rw [encodeWord, payloadWords_mkWord]; rfl⟩

theorem irqReg (p : Pin) (m : Mbx) (os : Bool) : Statement (.irqReg p m os) := fun _ =>
  ⟨by rw [encodeWord, unitOf_mkWord]; decide, by rw [encodeWord, payloadWords_mkWord]; rfl⟩

theorem irqUnreg (p : Pin) : Statement (.irqUnreg p) := fun _ =>
  ⟨by rw [encodeWord, unitOf_mkWord]; decide, by rw [encodeWord, payloadWords_mkWord]; rfl⟩

theorem waitUs (n : BitVec 24) : Statement (.waitUs n) := fun _ =>
  ⟨by rw [encodeWord, unitOf_mkWord]; decide, by rw [encodeWord, payloadWords_mkWord]; rfl⟩

theorem mbxSignal (m : Mbx) : Statement (.mbxSignal m) := fun _ =>
  ⟨by rw [encodeWord, unitOf_mkWord]; decide, by rw [encodeWord, payloadWords_mkWord]; rfl⟩

theorem mbxWaitclr (m : Mbx) : Statement (.mbxWaitclr m) := fun _ =>
  ⟨by rw [encodeWord, unitOf_mkWord]; decide, by rw [encodeWord, payloadWords_mkWord]; rfl⟩

theorem mbxTest (m : Mbx) : Statement (.mbxTest m) := fun _ =>
  ⟨by rw [encodeWord, unitOf_mkWord]; decide, by rw [encodeWord, payloadWords_mkWord]; rfl⟩

theorem mbxClear (m : Mbx) : Statement (.mbxClear m) := fun _ =>
  ⟨by rw [encodeWord, unitOf_mkWord]; decide, by rw [encodeWord, payloadWords_mkWord]; rfl⟩

theorem i2cMSetup : Statement .i2cMSetup := fun _ =>
  ⟨by rw [encodeWord, unitOf_mkWord]; decide, by rw [encodeWord, payloadWords_mkWord]; rfl⟩

theorem i2cMStart : Statement .i2cMStart := fun _ =>
  ⟨by rw [encodeWord, unitOf_mkWord]; decide, by rw [encodeWord, payloadWords_mkWord]; rfl⟩

theorem i2cMWrite (x : Byte) : Statement (.i2cMWrite x) := fun _ =>
  ⟨by rw [encodeWord, unitOf_mkWord]; decide, by rw [encodeWord, payloadWords_mkWord]; rfl⟩

theorem i2cMAcks : Statement .i2cMAcks := fun _ =>
  ⟨by rw [encodeWord, unitOf_mkWord]; decide, by rw [encodeWord, payloadWords_mkWord]; rfl⟩

theorem i2cMRead (ack : Bool) : Statement (.i2cMRead ack) := fun _ =>
  ⟨by rw [encodeWord, unitOf_mkWord]; decide, by rw [encodeWord, payloadWords_mkWord]; rfl⟩

theorem i2cMStop : Statement .i2cMStop := fun _ =>
  ⟨by rw [encodeWord, unitOf_mkWord]; decide, by rw [encodeWord, payloadWords_mkWord]; rfl⟩

theorem i2cMXfer (addr : Addr) (ys : List Byte) : Statement (.i2cMXfer addr ys) := by
  intro h
  have h' : ys.length ≤ 255 := of_decide_eq_true (by simp only [Instr.wf, Instr.payload] at h; exact h)
  refine ⟨by rw [encodeWord, unitOf_mkWord]; decide, ?_⟩
  rw [encodeWord, payloadWords_mkWord]
  simp only [countByte, Instr.payload, BitVec.toNat_ofNat]
  rw [if_pos (by decide), Nat.mod_eq_of_lt (by omega)]

theorem i2cMRdn (addr : Addr) (count : Byte) : Statement (.i2cMRdn addr count) := fun _ =>
  ⟨by rw [encodeWord, unitOf_mkWord]; decide, by rw [encodeWord, payloadWords_mkWord]; rfl⟩

theorem i2cSSetup : Statement .i2cSSetup := fun _ =>
  ⟨by rw [encodeWord, unitOf_mkWord]; decide, by rw [encodeWord, payloadWords_mkWord]; rfl⟩

theorem i2cSWstart : Statement .i2cSWstart := fun _ =>
  ⟨by rw [encodeWord, unitOf_mkWord]; decide, by rw [encodeWord, payloadWords_mkWord]; rfl⟩

theorem i2cSRecv : Statement .i2cSRecv := fun _ =>
  ⟨by rw [encodeWord, unitOf_mkWord]; decide, by rw [encodeWord, payloadWords_mkWord]; rfl⟩

theorem i2cSAck : Statement .i2cSAck := fun _ =>
  ⟨by rw [encodeWord, unitOf_mkWord]; decide, by rw [encodeWord, payloadWords_mkWord]; rfl⟩

theorem i2cSDisp (lsa : Addr) (v : Byte) : Statement (.i2cSDisp lsa v) := fun _ =>
  ⟨by rw [encodeWord, unitOf_mkWord]; decide, by rw [encodeWord, payloadWords_mkWord]; rfl⟩

theorem i2cSWstop : Statement .i2cSWstop := fun _ =>
  ⟨by rw [encodeWord, unitOf_mkWord]; decide, by rw [encodeWord, payloadWords_mkWord]; rfl⟩

theorem i2cSServe (lsa : Addr) : Statement (.i2cSServe lsa) := fun _ =>
  ⟨by rw [encodeWord, unitOf_mkWord]; decide, by rw [encodeWord, payloadWords_mkWord]; rfl⟩

theorem spiMSetup (m : BitVec 2) : Statement (.spiMSetup m) := fun _ =>
  ⟨by rw [encodeWord, unitOf_mkWord]; decide, by rw [encodeWord, payloadWords_mkWord]; rfl⟩

theorem spiSSetup (m : BitVec 2) : Statement (.spiSSetup m) := fun _ =>
  ⟨by rw [encodeWord, unitOf_mkWord]; decide, by rw [encodeWord, payloadWords_mkWord]; rfl⟩

theorem spiMXchg0 (x : Byte) : Statement (.spiMXchg0 x) := fun _ =>
  ⟨by rw [encodeWord, unitOf_mkWord]; decide, by rw [encodeWord, payloadWords_mkWord]; rfl⟩

theorem spiMXchg1 (x : Byte) : Statement (.spiMXchg1 x) := fun _ =>
  ⟨by rw [encodeWord, unitOf_mkWord]; decide, by rw [encodeWord, payloadWords_mkWord]; rfl⟩

theorem spiMXchg2 (x : Byte) : Statement (.spiMXchg2 x) := fun _ =>
  ⟨by rw [encodeWord, unitOf_mkWord]; decide, by rw [encodeWord, payloadWords_mkWord]; rfl⟩

theorem spiMXchg3 (x : Byte) : Statement (.spiMXchg3 x) := fun _ =>
  ⟨by rw [encodeWord, unitOf_mkWord]; decide, by rw [encodeWord, payloadWords_mkWord]; rfl⟩

theorem spiSResp0 (x : Byte) : Statement (.spiSResp0 x) := fun _ =>
  ⟨by rw [encodeWord, unitOf_mkWord]; decide, by rw [encodeWord, payloadWords_mkWord]; rfl⟩

theorem spiSResp1 (x : Byte) : Statement (.spiSResp1 x) := fun _ =>
  ⟨by rw [encodeWord, unitOf_mkWord]; decide, by rw [encodeWord, payloadWords_mkWord]; rfl⟩

theorem spiSResp2 (x : Byte) : Statement (.spiSResp2 x) := fun _ =>
  ⟨by rw [encodeWord, unitOf_mkWord]; decide, by rw [encodeWord, payloadWords_mkWord]; rfl⟩

theorem spiSResp3 (x : Byte) : Statement (.spiSResp3 x) := fun _ =>
  ⟨by rw [encodeWord, unitOf_mkWord]; decide, by rw [encodeWord, payloadWords_mkWord]; rfl⟩

theorem uartTxSetup : Statement .uartTxSetup := fun _ =>
  ⟨by rw [encodeWord, unitOf_mkWord]; decide, by rw [encodeWord, payloadWords_mkWord]; rfl⟩

theorem uartTxByte (x : Byte) : Statement (.uartTxByte x) := fun _ =>
  ⟨by rw [encodeWord, unitOf_mkWord]; decide, by rw [encodeWord, payloadWords_mkWord]; rfl⟩

theorem uartSend (ys : List Byte) : Statement (.uartSend ys) := by
  intro h
  have h' : ys.length ≤ 255 := of_decide_eq_true (by simp only [Instr.wf, Instr.payload] at h; exact h)
  refine ⟨by rw [encodeWord, unitOf_mkWord]; decide, ?_⟩
  rw [encodeWord, payloadWords_mkWord]
  simp only [countByte, Instr.payload, BitVec.toNat_ofNat]
  rw [if_pos (by decide), Nat.mod_eq_of_lt (by omega)]

theorem uartRxSetup : Statement .uartRxSetup := fun _ =>
  ⟨by rw [encodeWord, unitOf_mkWord]; decide, by rw [encodeWord, payloadWords_mkWord]; rfl⟩

theorem uartRxFrame : Statement .uartRxFrame := fun _ =>
  ⟨by rw [encodeWord, unitOf_mkWord]; decide, by rw [encodeWord, payloadWords_mkWord]; rfl⟩

theorem uartRxLoop : Statement .uartRxLoop := fun _ =>
  ⟨by rw [encodeWord, unitOf_mkWord]; decide, by rw [encodeWord, payloadWords_mkWord]; rfl⟩

end EncodedWord

end Sys2Proof.Laws
end

