-- ==== Sys2Proof/Laws/Solo.lean ====
section
/-! SUPPORT. A command without waits on the lines runs under every plan as it runs alone, but for what it samples: the solo run.
`solo_run` says it once; a statement about such a command under every plan then follows by computing the solo run. -/

namespace Sys2Proof.Machine

/-- What a plan decides of one step of such a command: the level a sample reads, and the free-value counter before and after. -/
structure Choice where
  bit : Bool
  pre : Nat
  post : Nat

/-- The free-value counter replaced. -/
def State.setFree (n : Nat) (s : State) : State := { s with env := { s.env with freeCtr := n } }

/-- A pin's fields replaced with no edge synchronizer acting. -/
def State.setPin (p : Pin) (r : PinRegs) (s : State) : State := { s with pins := s.pins.set p r }

/-- A micro-operation alone: samples read the given bit, a wait lasts its whole length at once, a flag's wait passes. -/
def Micro.solo (b : Bool) (g : State) : Micro → State
  | .pinCfg p d pl ir use =>
    let t := g.dropCfg.log (.pinConfig p d pl ir g.cfgAnswer)
    if g.cfgAnswer then t.setPin p { g.pins.get p with dir := d, pull := pl, irq := ir } else t.onConfigFailure use
  | .pinSet p v => (g.log (.pinWrite p (v.value g))).setPin p { g.pins.get p with lat := v.value g }
  | .sample p d => d.store b (g.log (.pinSample p b))
  | .wait n => (g.log (.waitStart n)).addTime n
  | .spin (.flagClear m) _ => g.clearFlag m
  | .spin _ _ => g
  | op => op.run g

/-- One step of the solo run. -/
def State.soloStep (c : Choice) (g : State) : State :=
  match g.seq.pos with
  | [] => g
  | op :: rest => ((op.solo c.bit ((g.setPos rest).setFree c.pre)).setFree c.post).settle

/-- The solo run's first `k` steps. -/
def soloRun (c : Nat → Choice) : Nat → State → State
  | 0, g => g
  | k + 1, g => (soloRun c k g).soloStep (c k)

/-- A micro-operation whose effect does not depend on the lines but for its sample: the straight ones except `MBX_TEST`, and
the wait for a flag that is set already. -/
def State.soloReady (g : State) : Prop :=
  match g.seq.pos with
  | [] => True
  | .spin (.flag m) false :: _ => g.flag.get m = true
  | .spin (.flagClear m) false :: _ => g.flag.get m = true
  | .mbxTest _ :: _ => False
  | op :: _ => op.straight = true

/-- The entries of `TRACE` that are not flag sets. -/
def ownTrace (tr : List Stamped) : List Stamped :=
  tr.filter fun e =>
    match e.event with
    | .flagSet _ => false
    | _ => true

/-- `s` is the solo state `g` but for what the environment and the edges did. -/
structure Alike (g s : State) : Prop where
  cfg : s.cfg = g.cfg
  i2c : s.i2c = g.i2c
  spi : s.spi = g.spi
  uart : s.uart = g.uart
  busy : s.seq.busy = g.seq.busy
  cmd : s.seq.cmd = g.seq.cmd
  pos : s.seq.pos = g.seq.pos
  tmp : s.seq.tmp = g.seq.tmp
  out : s.seq.out = g.seq.out
  ret : s.seq.ret = g.seq.ret
  now : s.env.now = g.env.now
  stream : s.env.stream = g.env.stream
  cp : s.env.cp = g.env.cp
  res : s.env.res = g.env.res
  cfgOutcomes : s.env.cfgOutcomes = g.env.cfgOutcomes
  own : ownTrace s.env.trace = ownTrace g.env.trace
  pins : ∀ q, pinKept (g.pins.get q) (s.pins.get q)
  flags : ∀ m, g.flag.get m = true → s.flag.get m = true

theorem Alike.refl (s : State) : Alike s s := by
  constructor <;> first | rfl | exact fun _ => pinKept.refl _ | exact fun _ h => h

/-- An edge keeps likeness. -/
theorem Alike.edge {g s t : State} (h : Alike g s) (e : EdgeOnly s t) (hp : ∀ q, pinKept (s.pins.get q) (t.pins.get q))
    (hf : ∀ m, s.flag.get m = true → t.flag.get m = true) : Alike g t := by
  obtain ⟨es, he, hes⟩ := e.trace
  refine ⟨e.cfg.trans h.cfg, e.i2c.trans h.i2c, e.spi.trans h.spi, e.uart.trans h.uart, by rw [e.seq, h.busy],
    by rw [e.seq, h.cmd], by rw [e.seq, h.pos], by rw [e.seq, h.tmp], by rw [e.seq, h.out], by rw [e.seq, h.ret],
    e.now.trans h.now, e.stream.trans h.stream, e.cp.trans h.cp, e.res.trans h.res, e.cfgOutcomes.trans h.cfgOutcomes, ?_,
    fun q => (h.pins q).trans (hp q), fun m hm => hf m (h.flags m hm)⟩
  rw [← h.own, he]
  unfold ownTrace
  rw [List.filter_append]
  have : es.filter (fun e => match e.event with | .flagSet _ => false | _ => true) = [] := by
    rw [List.filter_eq_nil_iff]
    intro x hx
    obtain ⟨m, hm⟩ := hes x hx
    simp [hm]
  rw [this]; rfl

theorem ownTrace_cons (e : Stamped) (tr : List Stamped) (h : ∀ m, e.event ≠ .flagSet m) :
    ownTrace (e :: tr) = e :: ownTrace tr := by
  unfold ownTrace
  rw [List.filter_cons_of_pos]
  cases he : e.event <;> simp
  exact h _ he

/-- The same observation on both sides keeps likeness. -/
theorem Alike.log {g s : State} (h : Alike g s) (e : Event) (he : ∀ m, e ≠ .flagSet m) : Alike (g.log e) (s.log e) := by
  obtain ⟨h1, h2, h3, h4, h5, h6, h7, h8, h9, h10, h11, h12, h13, h14, h15, h16, h17, h18⟩ := h
  refine ⟨h1, h2, h3, h4, h5, h6, h7, h8, h9, h10, h11, h12, h13, h14, h15, ?_, h17, h18⟩
  rw [State.log_env_trace, State.log_env_trace, ownTrace_cons _ _ he, ownTrace_cons _ _ he, h16, h11]

theorem Alike.setPos {g s : State} (h : Alike g s) (pos : List Micro) : Alike (g.setPos pos) (s.setPos pos) := by
  obtain ⟨h1, h2, h3, h4, h5, h6, h7, h8, h9, h10, h11, h12, h13, h14, h15, h16, h17, h18⟩ := h
  exact ⟨h1, h2, h3, h4, h5, h6, rfl, h8, h9, h10, h11, h12, h13, h14, h15, h16, h17, h18⟩

theorem Alike.setFree {g s : State} (h : Alike g s) (n : Nat) : Alike (g.setFree n) s := by
  obtain ⟨h1, h2, h3, h4, h5, h6, h7, h8, h9, h10, h11, h12, h13, h14, h15, h16, h17, h18⟩ := h
  exact ⟨h1, h2, h3, h4, h5, h6, h7, h8, h9, h10, h11, h12, h13, h14, h15, h16, h17, h18⟩

/-- The same change of a pin's fields on both sides. -/
theorem Alike.setPin {g s : State} (h : Alike g s) (p : Pin) (r' r : PinRegs) (hr : pinKept r' r) :
    Alike (g.setPin p r') (s.movePin p r) := by
  have h0 : Alike (g.setPin p r') (s.setPin p r) := by
    obtain ⟨h1, h2, h3, h4, h5, h6, h7, h8, h9, h10, h11, h12, h13, h14, h15, h16, h17, h18⟩ := h
    refine ⟨h1, h2, h3, h4, h5, h6, h7, h8, h9, h10, h11, h12, h13, h14, h15, h16, fun q => ?_, h18⟩
    simp only [State.setPin, PerPin.get_set]
    split
    · exact hr
    · exact h17 q
  exact h0.edge (State.edgeSync_edgeOnly p (s.line p) _) (fun q => State.edgeSync_pins p q (s.line p) _)
    (fun m hm => State.edgeSync_flag p (s.line p) _ m hm)

theorem Alike.setHandler {g s : State} (h : Alike g s) (p : Pin) (k : Option Handler) :
    Alike (g.setHandler p k) (s.setHandler p k) := by
  obtain ⟨h1, h2, h3, h4, h5, h6, h7, h8, h9, h10, h11, h12, h13, h14, h15, h16, h17, h18⟩ := h
  refine ⟨h1, h2, h3, h4, h5, h6, h7, h8, h9, h10, h11, h12, h13, h14, h15, h16, fun q => ?_, h18⟩
  simp only [State.setHandler_pins, PerPin.get_set]
  split
  · next e =>
    obtain ⟨k1, k2, k3, k4, -⟩ := h17 p
    exact ⟨k1, k2, k3, k4, .inl rfl⟩
  · exact h17 q

theorem Alike.clearFlag {g s : State} (h : Alike g s) (m : Mbx) : Alike (g.clearFlag m) (s.clearFlag m) := by
  have h0 : Alike { g with flag := g.flag.set m false } { s with flag := s.flag.set m false } := by
    obtain ⟨h1, h2, h3, h4, h5, h6, h7, h8, h9, h10, h11, h12, h13, h14, h15, h16, h17, h18⟩ := h
    refine ⟨h1, h2, h3, h4, h5, h6, h7, h8, h9, h10, h11, h12, h13, h14, h15, h16, h17, fun k hk => ?_⟩
    simp only [PerMbx.get_set] at hk ⊢
    split at hk
    · cases hk
    · next hne => rw [if_neg hne]; exact h18 k hk
  exact h0.log (.flagClear m) (by simp)

theorem Alike.dropCfg {g s : State} (h : Alike g s) : Alike g.dropCfg s.dropCfg := by
  obtain ⟨h1, h2, h3, h4, h5, h6, h7, h8, h9, h10, h11, h12, h13, h14, h15, h16, h17, h18⟩ := h
  unfold State.dropCfg
  rw [h15]
  cases hc : g.env.cfgOutcomes with
  | nil => exact ⟨h1, h2, h3, h4, h5, h6, h7, h8, h9, h10, h11, h12, h13, h14, h15, h16, h17, h18⟩
  | cons b bs => exact ⟨h1, h2, h3, h4, h5, h6, h7, h8, h9, h10, h11, h12, h13, h14, rfl, h16, h17, h18⟩

theorem Alike.dropX {g s : State} (h : Alike g s) : Alike g s.dropX := by
  obtain ⟨h1, h2, h3, h4, h5, h6, h7, h8, h9, h10, h11, h12, h13, h14, h15, h16, h17, h18⟩ := h
  unfold State.dropX
  split <;> exact ⟨h1, h2, h3, h4, h5, h6, h7, h8, h9, h10, h11, h12, h13, h14, h15, h16, h17, h18⟩

theorem Alike.failConfig {g s : State} (h : Alike g s) : Alike g.failConfig s.failConfig := by
  obtain ⟨h1, h2, h3, h4, h5, h6, h7, h8, h9, h10, h11, h12, h13, h14, h15, h16, h17, h18⟩ := h
  exact ⟨h1, h2, h3, h4, h5, h6, rfl, h8, h9, rfl, h11, h12, h13, h14, h15, h16, h17, h18⟩

theorem Alike.onConfigFailure {g s : State} (h : Alike g s) (use : CfgUse) :
    Alike (g.onConfigFailure use) (s.onConfigFailure use) := by
  cases use
  · exact h.failConfig
  · exact h

theorem Alike.cfgAnswer {g s : State} (h : Alike g s) (hf : s.env.freeCtr = g.env.freeCtr) : s.cfgAnswer = g.cfgAnswer := by
  unfold State.cfgAnswer; rw [h.cfgOutcomes, hf]

theorem Alike.outBit {g s : State} (h : Alike g s) (v : OutBit) : v.value s = v.value g := by
  cases v <;> simp [OutBit.value, h.i2c, h.spi, h.uart]

/-- A sample: the solo run reads what the plan decided. -/
theorem Alike.sample {g s : State} (h : Alike g s) (p : Pin) (d : Dest) :
    Alike (d.store (s.readLevel p) (g.log (.pinSample p (s.readLevel p)))) (d.store (s.readLevel p) (s.afterRead p)) := by
  have h0 : Alike (g.log (.pinSample p (s.readLevel p))) (s.afterRead p) := by
    unfold State.afterRead
    split
    · next hx =>
      have : s.readLevel p = s.xDraw := by unfold State.readLevel; rw [hx]
      rw [this]
      exact h.dropX.log _ (by simp)
    · exact h.log _ (by simp)
  obtain ⟨h1, h2, h3, h4, h5, h6, h7, h8, h9, h10, h11, h12, h13, h14, h15, h16, h17, h18⟩ := h0
  cases d
  · exact ⟨h1, h2, h3, h4, h5, h6, h7, rfl, h9, h10, h11, h12, h13, h14, h15, h16, h17, h18⟩
  · exact ⟨h1, by simp only [Dest.store]; rw [h2], h3, h4, h5, h6, h7, h8, h9, h10, h11, h12, h13, h14, h15, h16, h17, h18⟩
  · exact ⟨h1, h2, by simp only [Dest.store]; rw [h3], h4, h5, h6, h7, h8, h9, h10, h11, h12, h13, h14, h15, h16, h17, h18⟩
  · exact ⟨h1, h2, h3, by simp only [Dest.store]; rw [h4], h5, h6, h7, h8, h9, h10, h11, h12, h13, h14, h15, h16, h17, h18⟩

theorem Alike.setUart {g s : State} (h : Alike g s) (u : Uart) : Alike { g with uart := u } { s with uart := u } := by
  obtain ⟨h1, h2, h3, h4, h5, h6, h7, h8, h9, h10, h11, h12, h13, h14, h15, h16, h17, h18⟩ := h
  exact ⟨h1, h2, h3, rfl, h5, h6, h7, h8, h9, h10, h11, h12, h13, h14, h15, h16, h17, h18⟩

theorem Alike.setI2c {g s : State} (h : Alike g s) (u : I2c) : Alike { g with i2c := u } { s with i2c := u } := by
  obtain ⟨h1, h2, h3, h4, h5, h6, h7, h8, h9, h10, h11, h12, h13, h14, h15, h16, h17, h18⟩ := h
  exact ⟨h1, rfl, h3, h4, h5, h6, h7, h8, h9, h10, h11, h12, h13, h14, h15, h16, h17, h18⟩

theorem Alike.setSpi {g s : State} (h : Alike g s) (u : Spi) : Alike { g with spi := u } { s with spi := u } := by
  obtain ⟨h1, h2, h3, h4, h5, h6, h7, h8, h9, h10, h11, h12, h13, h14, h15, h16, h17, h18⟩ := h
  exact ⟨h1, h2, rfl, h4, h5, h6, h7, h8, h9, h10, h11, h12, h13, h14, h15, h16, h17, h18⟩

theorem Alike.gather {g s : State} (h : Alike g s) (b : Byte) : Alike (g.gather b) (s.gather b) := by
  obtain ⟨h1, h2, h3, h4, h5, h6, h7, h8, h9, h10, h11, h12, h13, h14, h15, h16, h17, h18⟩ := h
  exact ⟨h1, h2, h3, h4, h5, h6, h7, h8, by simp [h9], h10, h11, h12, h13, h14, h15, h16, h17, h18⟩

theorem Alike.reportByte {g s : State} (h : Alike g s) (hf : s.env.freeCtr = g.env.freeCtr) (j : Nat) :
    Alike (g.reportByte j) (s.reportByte j) ∧ (s.reportByte j).env.freeCtr = (g.reportByte j).env.freeCtr := by
  unfold State.reportByte
  rw [h.uart]
  split
  · exact ⟨h.log _ (by simp), by simpa using hf⟩
  · rw [hf]
    refine ⟨?_, by simp [hf]⟩
    obtain ⟨h1, h2, h3, h4, h5, h6, h7, h8, h9, h10, h11, h12, h13, h14, h15, h16, h17, h18⟩ :=
      h.log (.report (Config.freeByte g.env.freeCtr)) (by simp)
    exact ⟨h1, h2, h3, h4, h5, h6, h7, h8, h9, h10, h11, h12, h13, h14, h15, h16, h17, h18⟩

theorem Alike.report {g s : State} (l : List Nat) (h : Alike g s) (hf : s.env.freeCtr = g.env.freeCtr) :
    Alike (l.foldl State.reportByte g) (l.foldl State.reportByte s) := by
  induction l generalizing g s with
  | nil => exact h
  | cons a l ih => exact ih (h.reportByte hf a).1 (h.reportByte hf a).2

theorem Alike.setRxIdx {g s : State} (h : Alike g s) (n : Nat) : Alike (g.setRxIdx n) (s.setRxIdx n) := by
  unfold State.setRxIdx
  rw [h.uart]
  exact h.setUart _

theorem Alike.rxAppend {g s : State} (h : Alike g s) : Alike g.rxAppend s.rxAppend := by
  have e : g.rxAppend = { g with uart := s.rxAppend.uart } := by
    unfold State.rxAppend
    simp only [h.uart, h.cfg]
  rw [e]
  exact h.setUart s.rxAppend.uart

theorem Alike.rxStop {g s : State} (h : Alike g s) (hf : s.env.freeCtr = g.env.freeCtr) : Alike g.rxStop s.rxStop := by
  unfold State.rxStop
  rw [h.tmp]
  split
  · have ha := h.rxAppend
    rw [show s.rxAppend.uart = g.rxAppend.uart from ha.uart, h.cfg]
    split
    · unfold State.bufferFull
      rw [ha.cfg]
      split
      · exact (Alike.report _ ha hf).setRxIdx 0
      · exact ha.setRxIdx 0
    · exact ha
  · exact h.setRxIdx 0

theorem Alike.reg {g s : State} (h : Alike g s) (hf : s.env.freeCtr = g.env.freeCtr) (r : RegOp) :
    Alike (r.apply g) (r.apply s) := by
  cases r <;> simp only [RegOp.apply]
  case i2cRole => rw [h.i2c]; exact h.setI2c _
  case mState => rw [h.i2c]; exact h.setI2c _
  case mStateWrite =>
    rw [h.i2c]; split
    · exact h
    · exact h.setI2c _
  case sState => rw [h.i2c]; exact h.setI2c _
  case i2cLoad => rw [h.i2c]; exact h.setI2c _
  case i2cDec => rw [h.i2c]; exact h.setI2c _
  case i2cAck => rw [h.i2c, h.tmp]; exact h.setI2c _
  case pushAck => rw [h.i2c]; exact h.gather _
  case pushByte => rw [h.i2c]; exact h.gather _
  case emitDispatch lsa =>
    unfold State.emitDispatch
    rw [h.i2c]; split
    · exact h
    · exact h.log _ (by simp)
  case spiRole => rw [h.spi]; exact h.setSpi _
  case spiMode => rw [h.spi]; exact h.setSpi _
  case spiLoad => rw [h.spi]; exact h.setSpi _
  case spiDec => rw [h.spi]; exact h.setSpi _
  case uartTxRdy => rw [h.uart]; exact h.setUart _
  case uartRxRdy => rw [h.uart]; exact h.setUart _
  case uartTxLoad => rw [h.uart]; exact h.setUart _
  case uartRxLoad => rw [h.uart]; exact h.setUart _
  case uartDec => rw [h.uart]; exact h.setUart _
  case rxIdxZero => exact h.setRxIdx 0
  case rxStop => exact h.rxStop hf
  case emitFrameDone => exact h.log _ (by simp)

theorem Alike.resultWords {g s : State} (h : Alike g s) (hf : s.env.freeCtr = g.env.freeCtr) :
    resultWords s = resultWords g := by
  unfold Machine.resultWords gatheredCount
  rw [h.ret, h.tmp, h.i2c, h.spi, h.out, hf]

theorem Alike.settle {g s : State} (h : Alike g s) (hf : s.env.freeCtr = g.env.freeCtr) : Alike g.settle s.settle := by
  unfold State.settle
  rw [h.busy, h.pos]
  split
  · obtain ⟨h1, h2, h3, h4, h5, h6, h7, h8, h9, h10, h11, h12, h13, h14, h15, h16, h17, h18⟩ :=
      h.log (.result (Machine.resultWords g)) (by simp)
    unfold State.returnResult
    rw [h.resultWords hf]
    refine ⟨h1, h2, h3, h4, rfl, h6, rfl, h8, h9, h10, h11, h12, ?_, rfl, h15, h16, h17, h18⟩
    simp only [State.log_env_cp, State.log_seq] at h13 h6 ⊢
    rw [h13, h6]
  · exact h

/-! ## One step -/

theorem State.soloReady_flag {g : State} {c : SpinCond} {a : Bool} {rest : List Micro}
    (hp : g.seq.pos = .spin c a :: rest) (h : g.soloReady) :
    a = false ∧ ∃ m, (c = .flag m ∨ c = .flagClear m) ∧ g.flag.get m = true := by
  unfold State.soloReady at h
  rw [hp] at h
  cases a
  · cases c with
    | flag m => exact ⟨rfl, m, .inl rfl, h⟩
    | flagClear m => exact ⟨rfl, m, .inr rfl, h⟩
    | level p v => cases h
    | startSeen => cases h
  · cases c <;> cases h

/-- A micro-operation that is not a wait runs as it does alone. -/
theorem Micro.run_alike {g s : State} {op : Micro} {rest : List Micro} (hp : g.seq.pos = op :: rest) (hr : g.soloReady)
    (hw : ∀ n, op ≠ .wait n) (h : Alike g s) :
    ∃ b, Alike (op.solo b ((g.setPos rest).setFree s.env.freeCtr)) (op.run (s.setPos rest)) := by
  have h0 : Alike ((g.setPos rest).setFree s.env.freeCtr) (s.setPos rest) := (h.setPos rest).setFree _
  have hf : (s.setPos rest).env.freeCtr = ((g.setPos rest).setFree s.env.freeCtr).env.freeCtr := rfl
  generalize hg' : (g.setPos rest).setFree s.env.freeCtr = g' at h0 hf
  have hg'f : g'.flag = g.flag := by rw [← hg']; rfl
  generalize hs' : s.setPos rest = s' at h0 hf
  cases op with
  | reg r => exact ⟨true, h0.reg hf r⟩
  | pinCfg p d pl ir use =>
    refine ⟨true, ?_⟩
    simp only [Micro.solo, Micro.run, State.pinCfg]
    rw [h0.cfgAnswer hf]
    have h1 := h0.dropCfg.log (.pinConfig p d pl ir g'.cfgAnswer) (by simp)
    split
    · refine h1.setPin p _ _ ?_
      obtain ⟨-, -, -, k4, k5⟩ := h0.pins p
      exact ⟨rfl, rfl, rfl, k4, k5⟩
    · exact h1.onConfigFailure use
  | pinSet p v =>
    refine ⟨true, ?_⟩
    simp only [Micro.solo, Micro.run, State.pinSet]
    rw [h0.outBit v]
    refine (h0.log _ (by simp)).setPin p _ _ ?_
    obtain ⟨k1, k2, k3, -, k5⟩ := h0.pins p
    exact ⟨k1, k2, k3, rfl, k5⟩
  | sample p d => exact ⟨s'.readLevel p, h0.sample p d⟩
  | irqReg p m os use =>
    refine ⟨true, ?_⟩
    simp only [Micro.solo, Micro.run, State.irqReg]
    rw [h0.cfgAnswer hf]
    have h1 := h0.dropCfg.log (.handlerReg p m os g'.cfgAnswer) (by simp)
    split
    · exact h1.setHandler p _
    · exact h1.onConfigFailure use
  | irqUnreg p => exact ⟨true, (h0.log _ (by simp)).setHandler p none⟩
  | wait n => exact absurd rfl (hw n)
  | mbxTest m => unfold State.soloReady at hr; rw [hp] at hr; cases hr
  | mbxClear m => exact ⟨true, h0.clearFlag m⟩
  | spin c a =>
    obtain ⟨-, m, hc, hm⟩ := State.soloReady_flag hp hr
    have hs : s'.flag.get m = true := h0.flags m (by rw [hg'f]; exact hm)
    refine ⟨true, ?_⟩
    rcases hc with rfl | rfl
    · simp only [Micro.solo, Micro.run, SpinCond.eval, hs, if_true]; exact h0
    · simp only [Micro.solo, Micro.run, SpinCond.eval, hs, if_true]; exact h0.clearFlag m
  | stopPass k a => unfold State.soloReady at hr; rw [hp] at hr; cases hr
  | nackKeep k =>
    refine ⟨true, ?_⟩
    simp only [Micro.solo, Micro.run]
    rw [h0.i2c, h0.pos]
    split
    · exact h0
    · exact h0.setPos _
  | rxAgain => unfold State.soloReady at hr; rw [hp] at hr; cases hr

/-- A sample of an input that the environment holds at a level reads that level. -/
theorem Alike.readLevel_held {g s : State} (h : Alike g s) {p : Pin} {v : Bool} (hd : (g.pins.get p).dir = .input)
    (he : s.env.ext.get p = Ext.ofBit v) : s.readLevel p = v := by
  have hb : s.blk p = .z := by unfold State.blk; rw [(h.pins p).1, hd]
  unfold State.readLevel State.line
  rw [hb, he]
  cases v <;> rfl

/-- A sample of an input pulled down that nobody drives reads 0. -/
theorem Alike.readLevel_pulled {g s : State} (h : Alike g s) {p : Pin} (hd : (g.pins.get p).dir = .input)
    (hu : (g.pins.get p).pull = .down) (he : s.env.ext.get p = .z) : s.readLevel p = false := by
  have hb : s.blk p = .z := by unfold State.blk; rw [(h.pins p).1, hd]
  unfold State.readLevel State.line
  rw [hb, he, (h.pins p).2.1, hu]
  rfl

/-- `s` has come as far as the solo state `g`, or is inside the wait that is next there. -/
def Tracks (g s : State) : Prop :=
  g.seq.waitRem = 0 ∧
  ((s.seq.waitRem = 0 ∧ Alike g s) ∨
   (∃ n rest, g.seq.busy = true ∧ g.seq.pos = .wait n :: rest ∧ 0 < s.seq.waitRem ∧ s.seq.waitRem ≤ n ∧
      Alike ((g.log (.waitStart n)).addTime (n - s.seq.waitRem)) s))

theorem Tracks.busy {g s : State} (h : Tracks g s) : s.seq.busy = g.seq.busy := by
  rcases h with ⟨-, ⟨-, h⟩ | ⟨n, rest, -, -, -, -, h⟩⟩
  · exact h.busy
  · exact h.busy

theorem Micro.solo_waitRem (op : Micro) (b : Bool) (g : State) (h : ∀ n, op ≠ .wait n)
    (h2 : op.straight = true ∨ ∃ c a, op = .spin c a) : (op.solo b g).seq.waitRem = g.seq.waitRem := by
  cases op with
  | reg r => exact (RegOp.apply_seq r g).2.2.1
  | pinCfg p d pl ir use =>
    simp only [Micro.solo]
    split
    · simp [State.setPin]
    · cases use <;> simp [State.onConfigFailure]
  | pinSet p v => rfl
  | sample p d => cases d <;> rfl
  | irqReg p m os use =>
    simp only [Micro.solo, Micro.run, State.irqReg]
    split
    · simp
    · cases use <;> simp [State.onConfigFailure]
  | irqUnreg p => rfl
  | wait n => exact absurd rfl (h n)
  | mbxTest m => rfl
  | mbxClear m => rfl
  | spin c a => cases c <;> rfl
  | stopPass k a => rcases h2 with h2 | ⟨_, _, h2⟩ <;> cases h2
  | nackKeep k => simp only [Micro.solo, Micro.run]; split <;> rfl
  | rxAgain => rcases h2 with h2 | ⟨_, _, h2⟩ <;> cases h2

theorem State.soloReady_op {g : State} {op : Micro} {rest : List Micro} (hp : g.seq.pos = op :: rest) (h : g.soloReady) :
    op.straight = true ∨ ∃ c a, op = .spin c a := by
  cases op <;> first | exact .inl rfl | exact .inr ⟨_, _, rfl⟩ | (unfold State.soloReady at h; rw [hp] at h; cases h)

/-- The end of a wait is the solo run's step. -/
theorem Tracks.waitEnd {g s : State} {n : Nat} {rest : List Micro} (hp : g.seq.pos = .wait n :: rest)
    (h0 : g.seq.waitRem = 0) (h : Alike ((g.log (.waitStart n)).addTime n) s) (hs : s.seq.waitRem = 0) :
    ∃ c, Tracks (g.soloStep c) ((s.setPos s.seq.pos.tail).settle) := by
  refine ⟨⟨true, 0, s.env.freeCtr⟩, ?_⟩
  have hpos : s.seq.pos.tail = rest := by rw [h.pos]; simp [hp]
  have hstep : g.soloStep ⟨true, 0, s.env.freeCtr⟩ =
      (((((g.setPos rest).setFree 0).log (.waitStart n)).addTime n).setFree s.env.freeCtr).settle := by
    unfold State.soloStep; rw [hp]; rfl
  have hal : Alike (((((g.setPos rest).setFree 0).log (.waitStart n)).addTime n).setFree s.env.freeCtr)
      (s.setPos rest) := (h.setPos rest).setFree _
  rw [hstep, hpos]
  refine ⟨by rw [State.settle_waitRem]; exact h0, .inl ⟨by rw [State.settle_waitRem]; exact hs, hal.settle rfl⟩⟩

/-- One advance of the run is at most one step of the solo run. -/
theorem Tracks.advance {g s : State} (h : Tracks g s) (hb : s.seq.busy = true) (hr : g.soloReady) (hne : g.seq.pos ≠ []) :
    Tracks g s.advance ∨ ∃ c, Tracks (g.soloStep c) s.advance := by
  obtain ⟨hg0, ⟨h0, ha⟩ | ⟨n, rest, hgb, hp, hw0, hwn, ha⟩⟩ := h
  · unfold State.advance
    rw [if_pos h0]
    cases hp : g.seq.pos with
    | nil => exact absurd hp hne
    | cons op rest =>
      have hstep : s.seqStep = (op.run (s.setPos rest)).settle := by
        unfold State.seqStep; rw [ha.pos, hp]
      rw [hstep]
      by_cases hw : ∃ n, op = .wait n
      · obtain ⟨n, rfl⟩ := hw
        by_cases hn : n = 0
        · subst hn
          have e : (Micro.wait 0).run (s.setPos rest) = ((s.log (.waitStart 0)).setPos
              (s.log (.waitStart 0)).seq.pos.tail) := by
            simp [Micro.run, ha.pos, hp, State.log, State.setPos]
          rw [e]
          refine .inr (Tracks.waitEnd hp hg0 ?_ ?_)
          · have := ha.log (.waitStart 0) (by simp)
            exact this
          · exact h0
        · left
          have e : (Micro.wait n).run (s.setPos rest) =
              { s.log (.waitStart n) with seq := { s.seq with pos := .wait n :: rest, waitRem := n } } := by
            simp [Micro.run, hn, State.log, State.setPos, State.pushOp]
          rw [e, State.settle_busy _ (by simp)]
          refine ⟨hg0, .inr ⟨n, rest, by rw [← ha.busy]; exact hb, hp, Nat.pos_of_ne_zero hn, le_refl _, ?_⟩⟩
          obtain ⟨h1, h2, h3, h4, h5, h6, h7, h8, h9, h10, h11, h12, h13, h14, h15, h16, h17, h18⟩ :=
            ha.log (.waitStart n) (by simp)
          exact ⟨h1, h2, h3, h4, h5, h6, hp.symm, h8, h9, h10, by simpa using h11, h12, h13, h14, h15, h16, h17, h18⟩
      · have hw' : ∀ n, op ≠ .wait n := fun n e => hw ⟨n, e⟩
        obtain ⟨b, hb2⟩ := Micro.run_alike hp hr hw' ha
        right
        refine ⟨⟨b, s.env.freeCtr, (op.run (s.setPos rest)).env.freeCtr⟩, ?_⟩
        have e : g.soloStep ⟨b, s.env.freeCtr, (op.run (s.setPos rest)).env.freeCtr⟩ =
            ((op.solo b ((g.setPos rest).setFree s.env.freeCtr)).setFree
              (op.run (s.setPos rest)).env.freeCtr).settle := by
          unfold State.soloStep; rw [hp]
        rw [e]
        have hwr : (op.run (s.setPos rest)).seq.waitRem = 0 := by
          rcases State.soloReady_op hp hr with hst | ⟨c, a, rfl⟩
          · rcases (Micro.run_seq op (s.setPos rest) hst).2 with ⟨-, hh⟩ | ⟨n, -, rfl, -, -⟩
            · rw [hh]; exact h0
            · exact absurd rfl (hw' n)
          · obtain ⟨-, m, hc, hm⟩ := State.soloReady_flag hp hr
            have hs : s.flag.get m = true := ha.flags m hm
            rcases hc with rfl | rfl <;> simp [Micro.run, SpinCond.eval, hs, h0]
        refine ⟨?_, .inl ⟨by rw [State.settle_waitRem]; exact hwr, (hb2.setFree _).settle rfl⟩⟩
        rw [State.settle_waitRem]
        show (op.solo b _).seq.waitRem = 0
        rw [Micro.solo_waitRem op b _ hw' (State.soloReady_op hp hr)]
        exact hg0
  · unfold State.advance
    rw [if_neg (by omega)]
    right
    have e : s.elapse s.seq.waitRem =
        (State.setPos (({ s with seq := { s.seq with waitRem := 0 } } : State).addTime s.seq.waitRem).seq.pos.tail
          (({ s with seq := { s.seq with waitRem := 0 } } : State).addTime s.seq.waitRem)).settle := by
      unfold State.elapse
      simp [State.addTime]
    rw [e]
    refine Tracks.waitEnd hp hg0 ?_ rfl
    obtain ⟨h1, h2, h3, h4, h5, h6, h7, h8, h9, h10, h11, h12, h13, h14, h15, h16, h17, h18⟩ := ha
    refine ⟨h1, h2, h3, h4, h5, h6, h7, h8, h9, h10, ?_, h12, h13, h14, h15, h16, h17, h18⟩
    simp only [State.addTime_env_now, State.log_env_now] at h11 ⊢
    omega

/-- One act of the environment is at most one step of the solo run. -/
theorem Tracks.act {g s : State} (h : Tracks g s) (a : EnvAct) (hb : s.seq.busy = true) (har : a ≠ .reset)
    (hr : g.soloReady) (hne : g.seq.pos ≠ []) : Tracks g (a.apply s) ∨ ∃ c, Tracks (g.soloStep c) (a.apply s) := by
  cases a with
  | turn =>
    simp only [EnvAct.apply]
    split
    · next hc =>
      simp only [Bool.and_eq_true, decide_eq_true_eq] at hc
      have := Tracks.advance h hb hr hne
      unfold State.advance at this
      rwa [if_pos hc.2] at this
    · exact .inl h
  | drive p e =>
    left
    simp only [EnvAct.apply]
    have key : ∀ g', Alike g' s → Alike g' (s.driveExt p e) := by
      intro g' ha
      have h1 : Alike g' { s with env := { s.env with ext := s.env.ext.set p e } } := by
        obtain ⟨h1, h2, h3, h4, h5, h6, h7, h8, h9, h10, h11, h12, h13, h14, h15, h16, h17, h18⟩ := ha
        exact ⟨h1, h2, h3, h4, h5, h6, h7, h8, h9, h10, h11, h12, h13, h14, h15, h16, h17, h18⟩
      exact h1.edge (State.driveExt_edgeOnly p e s) (fun q => State.driveExt_pins p q e s)
        (fun m hm => State.driveExt_flag p e s m hm)
    obtain ⟨hg0, ⟨h0, ha⟩ | ⟨n, rest, hgb, hp, hw0, hwn, ha⟩⟩ := h
    · exact ⟨hg0, .inl ⟨by rw [State.driveExt_seq]; exact h0, key _ ha⟩⟩
    · exact ⟨hg0, .inr ⟨n, rest, hgb, hp, by rw [State.driveExt_seq]; exact hw0, by rw [State.driveExt_seq]; exact hwn,
        by rw [State.driveExt_seq]; exact key _ ha⟩⟩
  | pass d =>
    simp only [EnvAct.apply, State.passTime, hb, if_true]
    obtain ⟨hg0, ⟨h0, ha⟩ | ⟨n, rest, hgb, hp, hw0, hwn, ha⟩⟩ := h
    · rw [if_pos h0]
      split
      · next hs =>
        exfalso
        unfold State.spinning at hs
        rw [ha.pos] at hs
        split at hs
        · next hp => exact absurd (State.soloReady_flag hp hr).1 (by simp)
        · next hp => unfold State.soloReady at hr; rw [hp] at hr; cases hr
        · cases hs
      · exact .inl ⟨hg0, .inl ⟨h0, ha⟩⟩
    · rw [if_neg (by omega)]
      by_cases hd : s.seq.waitRem - d = 0
      · right
        have e : s.elapse d =
            (State.setPos (({ s with seq := { s.seq with waitRem := 0 } } : State).addTime s.seq.waitRem).seq.pos.tail
              (({ s with seq := { s.seq with waitRem := 0 } } : State).addTime s.seq.waitRem)).settle := by
          unfold State.elapse
          have : min d s.seq.waitRem = s.seq.waitRem := by omega
          simp [State.addTime, hd, this]
        rw [e]
        refine Tracks.waitEnd hp hg0 ?_ rfl
        obtain ⟨h1, h2, h3, h4, h5, h6, h7, h8, h9, h10, h11, h12, h13, h14, h15, h16, h17, h18⟩ := ha
        refine ⟨h1, h2, h3, h4, h5, h6, h7, h8, h9, h10, ?_, h12, h13, h14, h15, h16, h17, h18⟩
        simp only [State.addTime_env_now, State.log_env_now] at h11 ⊢
        omega
      · left
        have e : s.elapse d = ({ s with seq := { s.seq with waitRem := s.seq.waitRem - d } } : State).addTime d := by
          unfold State.elapse
          have : min d s.seq.waitRem = d := by omega
          simp [State.addTime, hd, this]
        rw [e]
        refine ⟨hg0, .inr ⟨n, rest, hgb, hp, by simp; omega, by simp; omega, ?_⟩⟩
        obtain ⟨h1, h2, h3, h4, h5, h6, h7, h8, h9, h10, h11, h12, h13, h14, h15, h16, h17, h18⟩ := ha
        refine ⟨h1, h2, h3, h4, h5, h6, h7, h8, h9, h10, ?_, h12, h13, h14, h15, h16, h17, h18⟩
        simp only [State.addTime_env_now, State.log_env_now, State.addTime_seq] at h11 ⊢
        omega
  | reset => exact absurd rfl har

/-! ## The whole run -/

theorem State.soloStep_idle (c : Choice) (g : State) (h : g.seq.pos = []) : g.soloStep c = g := by
  unfold State.soloStep; rw [h]

/-- Two choices that agree on the steps taken give one run. -/
theorem soloRun_congr {c d : Nat → Choice} (g : State) (k : Nat) (h : ∀ j, j < k → c j = d j) :
    soloRun c k g = soloRun d k g := by
  induction k with
  | zero => rfl
  | succ k ih =>
    simp only [soloRun]
    rw [ih fun j hj => h j (by omega), h k (by omega)]

/-- Once the solo run has nothing left it stays as it is. -/
theorem soloRun_idle (c : Nat → Choice) (g : State) (k j : Nat) (h : (soloRun c k g).seq.pos = []) (hj : k ≤ j) :
    soloRun c j g = soloRun c k g := by
  induction j with
  | zero => rw [Nat.le_zero.mp hj]
  | succ j ih =>
    by_cases e : k = j + 1
    · rw [e]
    · have := ih (by omega)
      simp only [soloRun]
      rw [this, State.soloStep_idle _ _ h]

/-- The solo run from `g` is ready at every step, whatever is sampled: the premise of `solo_run`, which a computation of the
solo run gives. -/
def State.soloAll (g : State) : Prop :=
  ∀ (c : Nat → Choice) (k : Nat), (soloRun c k g).soloReady ∧
    ((soloRun c k g).seq.busy = true ↔ (soloRun c k g).seq.pos ≠ [])

/-- The run so far is the solo run so far. -/
def Follows (g s : State) : Prop := ∃ c k, Tracks (soloRun c k g) s

theorem Follows.extend {g t : State} {c : Nat → Choice} {k : Nat}
    (h : Tracks (soloRun c k g) t ∨ ∃ x, Tracks ((soloRun c k g).soloStep x) t) : Follows g t := by
  rcases h with h | ⟨x, h⟩
  · exact ⟨c, k, h⟩
  · refine ⟨fun j => if j = k then x else c j, k + 1, ?_⟩
    simp only [soloRun, if_true]
    rw [soloRun_congr (d := c) g k fun j hj => by simp [Nat.ne_of_lt hj]]
    exact h

theorem Follows.advance {g s : State} (hg : g.soloAll) (h : Follows g s) (hb : s.seq.busy = true) : Follows g s.advance := by
  obtain ⟨c, k, h⟩ := h
  obtain ⟨h1, h2⟩ := hg c k
  exact Follows.extend (Tracks.advance h hb h1 (h2.mp (by rw [← h.busy]; exact hb)))

theorem Follows.act {g s : State} (hg : g.soloAll) (h : Follows g s) (hb : s.seq.busy = true) (a : EnvAct)
    (ha : a ≠ .reset) : Follows g (a.apply s) := by
  obtain ⟨c, k, h⟩ := h
  obtain ⟨h1, h2⟩ := hg c k
  exact Follows.extend (Tracks.act h a hb ha h1 (h2.mp (by rw [← h.busy]; exact hb)))

theorem Tracks.setPlan {g s : State} (h : Tracks g s) (as : List EnvAct) : Tracks g (s.setPlan as) := by
  have key : ∀ g', Alike g' s → Alike g' (s.setPlan as) := by
    intro g' ha
    obtain ⟨h1, h2, h3, h4, h5, h6, h7, h8, h9, h10, h11, h12, h13, h14, h15, h16, h17, h18⟩ := ha
    exact ⟨h1, h2, h3, h4, h5, h6, h7, h8, h9, h10, h11, h12, h13, h14, h15, h16, h17, h18⟩
  obtain ⟨hg0, ⟨h0, ha⟩ | ⟨n, rest, hgb, hp, hw0, hwn, ha⟩⟩ := h
  · exact ⟨hg0, .inl ⟨h0, key _ ha⟩⟩
  · exact ⟨hg0, .inr ⟨n, rest, hgb, hp, hw0, hwn, key _ ha⟩⟩

/-- Under every plan without a reset a run follows its solo run. -/
theorem runPlan_follows {g : State} (hg : g.soloAll) (plan : List EnvAct) (s : State) (hp : noReset plan)
    (h : Follows g s) : Follows g (runPlan plan s) :=
  runPlan_keeps (P := Follows g) (fun _ as ⟨c, k, h⟩ => ⟨c, k, h.setPlan as⟩) (fun _ hb h => Follows.advance hg h hb) plan s
    (fun a ha _ hb h => Follows.act hg h hb a fun e => hp (e ▸ ha)) h

/-! ## It returns -/

/-- What is left after a solo micro-operation is some of what was left. -/
theorem Micro.solo_pos (op : Micro) (b : Bool) (g : State) (h : op.straight = true ∨ ∃ c a, op = .spin c a) :
    (op.solo b g).seq.pos <:+ g.seq.pos ∧ (op.solo b g).seq.busy = g.seq.busy := by
  cases op with
  | reg r =>
    obtain ⟨h1, h2, -⟩ := RegOp.apply_seq r g
    exact ⟨by show (r.apply g).seq.pos <:+ _; rw [h2], h1⟩
  | pinCfg p d pl ir use =>
    simp only [Micro.solo]
    split
    · simp [State.setPin]
    · cases use <;> simp [State.onConfigFailure]
  | pinSet p v => simp [Micro.solo, State.setPin]
  | sample p d => cases d <;> simp [Micro.solo, Dest.store]
  | irqReg p m os use =>
    simp only [Micro.solo, Micro.run, State.irqReg]
    split
    · simp
    · cases use <;> simp [State.onConfigFailure]
  | irqUnreg p => simp [Micro.solo, Micro.run, State.irqUnreg]
  | wait n => simp [Micro.solo]
  | mbxTest m => simp [Micro.solo, Micro.run]
  | mbxClear m => simp [Micro.solo, Micro.run]
  | spin c a => cases c <;> simp [Micro.solo]
  | stopPass k a => rcases h with h | ⟨_, _, h⟩ <;> cases h
  | nackKeep k =>
    simp only [Micro.solo, Micro.run]
    split
    · simp
    · simp [List.drop_suffix]
  | rxAgain => rcases h with h | ⟨_, _, h⟩ <;> cases h

/-- A solo step leaves less to run. -/
theorem State.soloStep_length (c : Choice) (g : State) (h : g.soloReady) (hne : g.seq.pos ≠ []) :
    (g.soloStep c).seq.pos.length < g.seq.pos.length := by
  cases hp : g.seq.pos with
  | nil => exact absurd hp hne
  | cons op rest =>
    have e : g.soloStep c = ((op.solo c.bit ((g.setPos rest).setFree c.pre)).setFree c.post).settle := by
      unfold State.soloStep; rw [hp]
    rw [e, State.settle_pos]
    have := (Micro.solo_pos op c.bit ((g.setPos rest).setFree c.pre) (State.soloReady_op hp h)).1.length_le
    show (op.solo c.bit ((g.setPos rest).setFree c.pre)).seq.pos.length < (op :: rest).length
    have h2 : ((g.setPos rest).setFree c.pre).seq.pos.length = rest.length := rfl
    simp only [List.length_cons]
    omega

/-- After as many steps as it has micro-operations the solo run has nothing left. -/
theorem soloRun_done {g : State} (hg : g.soloAll) (c : Nat → Choice) : (soloRun c g.seq.pos.length g).seq.pos = [] := by
  have key : ∀ k, (soloRun c k g).seq.pos.length + k ≤ g.seq.pos.length ∨ (soloRun c k g).seq.pos = [] := by
    intro k
    induction k with
    | zero => exact .inl (by simp [soloRun])
    | succ k ih =>
      by_cases h : (soloRun c k g).seq.pos = []
      · exact .inr (by simp only [soloRun]; rw [State.soloStep_idle _ _ h]; exact h)
      · rcases ih with ih | ih
        · have := State.soloStep_length (c k) _ (hg c k).1 h
          exact .inl (by simp only [soloRun]; omega)
        · exact absurd ih h
  rcases key g.seq.pos.length with h | h
  · exact List.length_eq_zero_iff.mp (by omega)
  · exact h

theorem Tracks.not_spinning {g s : State} (h : Tracks g s) (hr : g.soloReady) : s.spinning = false := by
  have hpos : s.seq.pos = g.seq.pos := by
    obtain ⟨-, ⟨-, h⟩ | ⟨n, rest, -, -, -, -, h⟩⟩ := h
    · exact h.pos
    · exact h.pos
  unfold State.spinning
  rw [hpos]
  split
  · next hp => exact absurd (State.soloReady_flag hp hr).1 (by simp)
  · next hp => unfold State.soloReady at hr; rw [hp] at hr; cases hr
  · rfl

/-- Each advance leaves less work. -/
theorem Tracks.work {g s : State} (h : Tracks g s) (hr : g.soloReady) (hne : g.seq.pos ≠ []) :
    s.advance.work < s.work := by
  obtain ⟨hg0, ⟨h0, ha⟩ | ⟨n, rest, hgb, hp, hw0, hwn, ha⟩⟩ := h
  · unfold State.advance
    rw [if_pos h0]
    cases hp : g.seq.pos with
    | nil => exact absurd hp hne
    | cons op rest =>
      have hsp : s.seq.pos = op :: rest := ha.pos.trans hp
      have hstep : s.seqStep = (op.run (s.setPos rest)).settle := by unfold State.seqStep; rw [hsp]
      rw [hstep]
      unfold State.work
      rw [State.settle_pos, State.settle_waitRem, hsp, h0]
      rcases State.soloReady_op hp hr with hst | ⟨c, a, rfl⟩
      · rcases (Micro.run_seq op (s.setPos rest) hst).2 with ⟨hsuf, hwr⟩ | ⟨n, hn, -, hq, hwr⟩
        · have := hsuf.length_le
          rw [hwr]
          simp only [State.setPos_seq_pos, State.setPos_seq_waitRem, h0, if_true, List.length_cons] at this ⊢
          omega
        · rw [hq, hwr]
          simp only [State.setPos_seq_pos, hn, if_true, if_false, List.length_cons]
          omega
      · obtain ⟨-, m, hc, hm⟩ := State.soloReady_flag hp hr
        have hs : s.flag.get m = true := ha.flags m hm
        rcases hc with rfl | rfl <;> simp [Micro.run, SpinCond.eval, hs, h0]
  · have hsp : s.seq.pos = .wait n :: rest := by rw [ha.pos]; exact hp
    unfold State.advance
    rw [if_neg (by omega)]
    unfold State.work State.elapse
    simp only [State.addTime_seq, Nat.sub_self, if_true]
    rw [State.settle_pos, State.settle_waitRem]
    have : s.seq.waitRem ≠ 0 := by omega
    simp only [State.setPos_seq_pos, State.setPos_seq_waitRem, State.addTime_seq, if_true, if_false, this, hsp,
      List.tail_cons, List.length_cons]
    omega

theorem drain_follows {g : State} (hg : g.soloAll) (n : Nat) (s : State) (h : Follows g s) (hn : s.work < n) :
    (drain n s).seq.busy = false := by
  induction n generalizing s with
  | zero => omega
  | succ n ih =>
    unfold drain
    by_cases hb : s.seq.busy = true
    · rw [if_pos hb]
      have h' := Follows.advance hg h hb
      have hlt : s.advance.work < s.work := by
        obtain ⟨c, k, h⟩ := h
        exact h.work (hg c k).1 ((hg c k).2.mp (by rw [← h.busy]; exact hb))
      have hsp : s.advance.spinning = false := by
        obtain ⟨c, k, h'⟩ := h'
        exact h'.not_spinning (hg c k).1
      rw [hsp]
      exact ih _ h' (by omega)
    · rw [if_neg hb]; simpa using hb

theorem runPlan_follows_returns {g : State} (hg : g.soloAll) (plan : List EnvAct) (s : State) (hp : noReset plan)
    (h : Follows g s) : (runPlan plan s).seq.busy = false := by
  induction plan generalizing s with
  | nil =>
    unfold runPlan
    refine drain_follows hg _ s h ?_
    unfold State.drainFuel State.work
    omega
  | cons a as ih =>
    unfold runPlan
    split
    · next hb =>
      exact ih _ (fun hm => hp (List.mem_cons_of_mem _ hm))
        (Follows.act hg h hb a fun e => hp (e ▸ List.mem_cons_self))
    · next hb => simpa using hb

/-- The solo law: an accepted command whose solo run is ready at every step returns under every plan without a reset, in a
state like the end of its solo run for what the plan let it sample. -/
theorem accept_solo (i : Instr) (prog : List Micro) (ret : Ret) (s : State) (hp : noReset s.env.plan)
    (hg : (s.accept i prog ret).soloAll) :
    ((s.accept i prog ret).runOn).seq.busy = false ∧
    ∃ c, Alike (soloRun c prog.length (s.accept i prog ret)) (s.accept i prog ret).runOn := by
  have hplan : (s.accept i prog ret).env.plan = s.env.plan := by
    unfold State.accept State.settle; split <;> simp
  have hwr : (s.accept i prog ret).seq.waitRem = 0 := by unfold State.accept; rw [State.settle_waitRem]
  have hpos : (s.accept i prog ret).seq.pos = prog := by unfold State.accept; rw [State.settle_pos]
  have h0 : Follows (s.accept i prog ret) ((s.accept i prog ret).setPlan []) :=
    ⟨fun _ => ⟨true, 0, 0⟩, 0, Tracks.setPlan ⟨hwr, .inl ⟨hwr, Alike.refl _⟩⟩ []⟩
  unfold State.runOn
  rw [hplan]
  have hidle := runPlan_follows_returns hg s.env.plan _ hp h0
  refine ⟨hidle, ?_⟩
  obtain ⟨c, k, ht⟩ := runPlan_follows hg s.env.plan _ hp h0
  have hk : (soloRun c k (s.accept i prog ret)).seq.pos = [] := by
    by_contra hne
    have := ((hg c k).2).mpr hne
    rw [← ht.busy, hidle] at this
    cases this
  refine ⟨c, ?_⟩
  have hdone := soloRun_done hg c
  rw [hpos] at hdone
  have e : soloRun c prog.length (s.accept i prog ret) = soloRun c k (s.accept i prog ret) := by
    rcases Nat.le_total prog.length k with hle | hle
    · exact (soloRun_idle c _ _ _ hdone hle).symm
    · exact soloRun_idle c _ _ _ hk hle
  rw [e]
  obtain ⟨-, ⟨-, ha⟩ | ⟨n, rest, hgb, hq, -⟩⟩ := ht
  · exact ha
  · rw [hk] at hq; cases hq

/-! ## When a solo run is ready at every step -/

theorem soloRun_succ (c : Nat → Choice) (g : State) (k : Nat) :
    soloRun c (k + 1) g = soloRun (fun j => c (j + 1)) k (g.soloStep (c 0)) := by
  induction k with
  | zero => rfl
  | succ k ih => rw [soloRun, ih]; rfl

/-- Ready now, and ready at every step after it. -/
theorem State.soloAll_cons {g : State} (h : g.soloReady) (hb : g.seq.busy = true ↔ g.seq.pos ≠ [])
    (hn : ∀ c, (g.soloStep c).soloAll) : g.soloAll := by
  intro c k
  cases k with
  | zero => exact ⟨h, hb⟩
  | succ k => rw [soloRun_succ]; exact hn _ _ _

/-- Straight and not `MBX_TEST`. -/
def Micro.plain (op : Micro) : Bool :=
  match op with
  | .mbxTest _ => false
  | op => op.straight

/-- A command of plain micro-operations is ready at every step. -/
theorem State.soloAll_of_plain {g : State} (h : ∀ op ∈ g.seq.pos, op.plain = true)
    (hb : g.seq.busy = true ↔ g.seq.pos ≠ []) : g.soloAll := by
  have hready : ∀ g : State, (∀ op ∈ g.seq.pos, op.plain = true) → g.soloReady := by
    intro g h
    unfold State.soloReady
    split
    · trivial
    · next hp => exact absurd (h _ (by rw [hp]; exact List.mem_cons_self)) (by simp [Micro.plain, Micro.straight])
    · next hp => exact absurd (h _ (by rw [hp]; exact List.mem_cons_self)) (by simp [Micro.plain, Micro.straight])
    · next hp => exact absurd (h _ (by rw [hp]; exact List.mem_cons_self)) (by simp [Micro.plain])
    · next op _ _ _ _ hp =>
      have := h op (by rw [hp]; exact List.mem_cons_self)
      cases op <;> first | exact this | rfl
  have key : ∀ c k, (∀ op ∈ (soloRun c k g).seq.pos, op.plain = true) ∧
      ((soloRun c k g).seq.busy = true ↔ (soloRun c k g).seq.pos ≠ []) := by
    intro c k
    induction k with
    | zero => exact ⟨h, hb⟩
    | succ k ih =>
      obtain ⟨i1, i2⟩ := ih
      simp only [soloRun]
      generalize soloRun c k g = u at i1 i2
      cases hp : u.seq.pos with
      | nil => rw [State.soloStep_idle _ _ hp]; exact ⟨i1, i2⟩
      | cons op rest =>
        have hr := hready u i1
        have e : u.soloStep (c k) =
            ((op.solo (c k).bit ((u.setPos rest).setFree (c k).pre)).setFree (c k).post).settle := by
          unfold State.soloStep; rw [hp]
        obtain ⟨hs, hbu⟩ := Micro.solo_pos op (c k).bit ((u.setPos rest).setFree (c k).pre) (State.soloReady_op hp hr)
        have hub : u.seq.busy = true := i2.mpr (by rw [hp]; simp)
        rw [e]
        refine ⟨fun o ho => ?_, ?_⟩
        · rw [State.settle_pos] at ho
          exact i1 o (by rw [hp]; exact List.mem_cons_of_mem _ (hs.subset ho))
        · rw [State.settle_pos]
          exact State.settle_busy_iff _ (hbu.trans hub)
  exact fun c k => ⟨hready _ (key c k).1, (key c k).2⟩

theorem State.accept_busy_iff (i : Instr) (prog : List Micro) (ret : Ret) (s : State) :
    (s.accept i prog ret).seq.busy = true ↔ (s.accept i prog ret).seq.pos ≠ [] := by
  unfold State.accept
  rw [State.settle_pos]
  exact State.settle_busy_iff _ rfl

/-- The solo law for a command of plain micro-operations. -/
theorem accept_plain (i : Instr) (prog : List Micro) (ret : Ret) (s : State) (hp : noReset s.env.plan)
    (hg : ∀ op ∈ prog, op.plain = true) :
    ((s.accept i prog ret).runOn).seq.busy = false ∧
    ∃ c, Alike (soloRun c prog.length (s.accept i prog ret)) (s.accept i prog ret).runOn :=
  accept_solo i prog ret s hp (State.soloAll_of_plain
    (by intro op ho; refine hg op ?_; unfold State.accept at ho; rw [State.settle_pos] at ho; exact ho)
    (State.accept_busy_iff i prog ret s))

/-! ## What the statements read of `TRACE` no flag set changes -/

theorem pinWrites_own (tr : List Stamped) : pinWrites (ownTrace tr) = pinWrites tr := by
  induction tr with
  | nil => rfl
  | cons e tr ih =>
    obtain ⟨t, e⟩ := e
    cases e <;> simp_all [ownTrace, pinWrites]

theorem pinActs_own (tr : List Stamped) : pinActs (ownTrace tr) = pinActs tr := by
  induction tr with
  | nil => rfl
  | cons e tr ih =>
    obtain ⟨t, e⟩ := e
    cases e <;> simp_all [ownTrace, pinActs]

theorem pinSamples_own (p : Pin) (tr : List Stamped) : pinSamples p (ownTrace tr) = pinSamples p tr := by
  induction tr with
  | nil => rfl
  | cons e tr ih =>
    obtain ⟨t, e⟩ := e
    cases e <;> simp_all [ownTrace, pinSamples, List.filterMap_cons]

theorem reportBytes_own (tr : List Stamped) : reportBytes (ownTrace tr) = reportBytes tr := by
  induction tr with
  | nil => rfl
  | cons e tr ih =>
    obtain ⟨t, e⟩ := e
    cases e <;> simp_all [ownTrace, reportBytes]

theorem notifications_own (tr : List Stamped) : notifications (ownTrace tr) = notifications tr := by
  induction tr with
  | nil => rfl
  | cons e tr ih =>
    obtain ⟨t, e⟩ := e
    cases e <;> simp_all [ownTrace, notifications]

end Sys2Proof.Machine
end

