-- ==== Sys2Proof/Machine/Assembler.lean ====
section
/-! DEFINITION. The assembler's side of a command: its line of text (30_encoding.md R100) and the pseudo-instructions
(R101). -/

namespace Sys2Proof.Machine

def pinName : Pin → String
  | .sda => "SDA" | .scl => "SCL" | .sclk => "SCLK" | .sdo => "SDO"
  | .sdi => "SDI" | .cs => "CS" | .tx => "TX" | .rx => "RX"

def mbxName : Mbx → String
  | .mI2c => "M_I2C" | .mSpi => "M_SPI" | .mUart => "M_UART"

def dirName : Dir → String
  | .input => "in" | .output => "out"

def pullName : Pull → String
  | .none => "none" | .up => "up" | .down => "down"

def irqName : Irq → String
  | .none => "none" | .falling => "falling" | .rising => "rising"

/-- A decimal number. -/
def num {w : Nat} (v : BitVec w) : String := toString v.toNat

/-- A bit operand. -/
def bitName (b : Bool) : String := if b then "1" else "0"

/-- Operands separated by commas. -/
def commas (xs : List String) : String := String.intercalate ", " xs

/-- A bracketed payload list. -/
def bracketed (ys : List Byte) : String := "[" ++ commas (ys.map num) ++ "]"

/-- A mnemonic and its operands in the order `a`, `b`, `c`. -/
def asmLine (mnemonic : String) (operands : List String) : String :=
  if operands.isEmpty then mnemonic else mnemonic ++ " " ++ commas operands

/-- The assembler line of a command (30_encoding.md R100). -/
def asm : Instr → String
  | .pinCfg p d pl ir => asmLine "PIN_CFG" [pinName p, dirName d, pullName pl, irqName ir]
  | .pinSet p v => asmLine "PIN_SET" [pinName p, bitName v]
  | .pinGet p => asmLine "PIN_GET" [pinName p]
  | .irqReg p m os => asmLine "IRQ_REG" [pinName p, mbxName m, if os then "once" else "keep"]
  | .irqUnreg p => asmLine "IRQ_UNREG" [pinName p]
  | .waitUs n => asmLine "WAIT_US" [num n]
  | .mbxSignal m => asmLine "MBX_SIGNAL" [mbxName m]
  | .mbxWaitclr m => asmLine "MBX_WAITCLR" [mbxName m]
  | .mbxTest m => asmLine "MBX_TEST" [mbxName m]
  | .mbxClear m => asmLine "MBX_CLEAR" [mbxName m]
  | .i2cMSetup => asmLine "I2C_M_SETUP" []
  | .i2cMStart => asmLine "I2C_M_START" []
  | .i2cMWrite x => asmLine "I2C_M_WRITE" [num x]
  | .i2cMAcks => asmLine "I2C_M_ACKS" []
  | .i2cMRead ack => asmLine "I2C_M_READ" [bitName ack]
  | .i2cMStop => asmLine "I2C_M_STOP" []
  | .i2cMXfer addr ys => asmLine "I2C_M_XFER" [num addr, toString ys.length, bracketed ys]
  | .i2cMRdn addr count => asmLine "I2C_M_RDN" [num addr, num count]
  | .i2cSSetup => asmLine "I2C_S_SETUP" []
  | .i2cSWstart => asmLine "I2C_S_WSTART" []
  | .i2cSRecv => asmLine "I2C_S_RECV" []
  | .i2cSAck => asmLine "I2C_S_ACK" []
  | .i2cSDisp lsa v => asmLine "I2C_S_DISP" [num lsa, num v]
  | .i2cSWstop => asmLine "I2C_S_WSTOP" []
  | .i2cSServe lsa => asmLine "I2C_S_SERVE" [num lsa]
  | .spiMSetup m => asmLine "SPI_M_SETUP" [num m]
  | .spiSSetup m => asmLine "SPI_S_SETUP" [num m]
  | .spiMXchg0 x => asmLine "SPI_M_XCHG0" [num x]
  | .spiMXchg1 x => asmLine "SPI_M_XCHG1" [num x]
  | .spiMXchg2 x => asmLine "SPI_M_XCHG2" [num x]
  | .spiMXchg3 x => asmLine "SPI_M_XCHG3" [num x]
  | .spiSResp0 x => asmLine "SPI_S_RESP0" [num x]
  | .spiSResp1 x => asmLine "SPI_S_RESP1" [num x]
  | .spiSResp2 x => asmLine "SPI_S_RESP2" [num x]
  | .spiSResp3 x => asmLine "SPI_S_RESP3" [num x]
  | .uartTxSetup => asmLine "UART_TX_SETUP" []
  | .uartTxByte x => asmLine "UART_TX_BYTE" [num x]
  | .uartSend ys => asmLine "UART_SEND" [toString ys.length, bracketed ys]
  | .uartRxSetup => asmLine "UART_RX_SETUP" []
  | .uartRxFrame => asmLine "UART_RX_FRAME" []
  | .uartRxLoop => asmLine "UART_RX_LOOP" []

/-! ## Pseudo-instructions (30_encoding.md R101) -/

/-- `i2c_master_transfer(address, write_bytes)`. -/
def pseudoI2cMasterTransfer (address : Addr) (bytes : List Byte) : List Instr := [.i2cMXfer address bytes]

/-- `i2c_master_read(address, count)`. -/
def pseudoI2cMasterRead (address : Addr) (count : Byte) : List Instr := [.i2cMRdn address count]

/-- `i2c_slave_serve(local_address, on_write, on_read)`; the handlers are the host's. -/
def pseudoI2cSlaveServe (lsa : Addr) : List Instr := [.i2cSServe lsa]

/-- `spi_master_exchange(mode, byte_out)`. -/
def pseudoSpiMasterExchange (mode : BitVec 2) (x : Byte) : List Instr :=
  match mode.toNat with
  | 0 => [.spiMXchg0 x] | 1 => [.spiMXchg1 x] | 2 => [.spiMXchg2 x] | _ => [.spiMXchg3 x]

/-- `spi_slave_respond(mode, byte_out)`. -/
def pseudoSpiSlaveRespond (mode : BitVec 2) (x : Byte) : List Instr :=
  match mode.toNat with
  | 0 => [.spiSResp0 x] | 1 => [.spiSResp1 x] | 2 => [.spiSResp2 x] | _ => [.spiSResp3 x]

/-- `uart_send(bytes)`: a sequence longer than 255 is split into several `UART_SEND` commands. -/
def pseudoUartSend (bytes : List Byte) : List Instr :=
  if bytes.length ≤ 255 then [.uartSend bytes]
  else (List.range ((bytes.length + 254) / 255)).map fun k => .uartSend ((bytes.drop (255 * k)).take 255)

/-- `uart_receive_loop(callback_per_frame)`; the callback is the host's. -/
def pseudoUartReceiveLoop : List Instr := [.uartRxLoop]

/-- `I2C_M_WRITE_ACK x`. -/
def pseudoI2cMWriteAck (x : Byte) : List Instr := [.i2cMWrite x, .i2cMAcks]

/-- `SDA_RELEASE`. -/
def pseudoSdaRelease : List Instr := [.pinCfg .sda .input .down .none]

/-- `SDA_DRIVE`. -/
def pseudoSdaDrive : List Instr := [.pinCfg .sda .output .none .none]

/-- `as_input(p)`, with the pull and edge of its expansion. -/
def pseudoAsInput (p : Pin) (pull : Pull) (irq : Irq) : List Instr := [.pinCfg p .input pull irq]

/-- `as_output(p)`. -/
def pseudoAsOutput (p : Pin) : List Instr := [.pinCfg p .output .none .none]

end Sys2Proof.Machine
end

