-- ==== Sys2Proof/Tests/Slice0.lean ====
section
/-! SUPPORT. Tests: words and results written in 95_test_vectors.md and in the examples of the rules, each cited by its vector;
and for every statement with premises a state and operands that meet them. -/

namespace Sys2Proof.Tests

set_option Elab.async false

open Sys2Proof Sys2Proof.Machine

/-! ## Helpers -/

/-- The parameter values of the vectors: `D` = 5, hold 5, `H` = 2, 9600 baud; a buffer of 2 bytes with policy `FLUSH`. -/
def demo : Config.Params where
  i2cTEdge := 5
  i2cTAckHold := 5
  spiTHalf := 2
  uartBaud := 9600
  rxCap := 2
  rxPolicy := .flush
  pinMap := [0, 1, 2, 3, 4, 5, 6, 7]

/-- The block after reset, every configuration succeeding. -/
def fresh : State :=
  { State.reset with cfg := demo, env := { Env.start with cfgOutcomes := List.replicate 600 true } }

/-- The state after a command, where there is one. -/
def after (i : Instr) (s : State) : State :=
  match exec i s with
  | .next t => t
  | _ => s

/-- The state after a step, where there is one. -/
def stepped (s : State) : State :=
  match step s with
  | .next t => t
  | _ => s

/-- The commands one after another. -/
def afterAll (is : List Instr) (s : State) : State := is.foldl (fun t i => after i t) s

/-- `EXT[p] <- e` in the block's surroundings, before the vector starts. -/
def held (s : State) (p : Pin) (e : Ext) : State := { s with env := { s.env with ext := s.env.ext.set p e } }

/-- The host presents these words. -/
def given (ws : List Word) (s : State) : State := { s with env := { s.env with stream := ws } }

/-- A plan for the environment. -/
def planned (plan : List EnvAct) (s : State) : State := s.setPlan plan

/-- The answers of the platform. -/
def answering (as : List Bool) (s : State) : State := { s with env := { s.env with cfgOutcomes := as } }

/-- A master, a slave, in the I2C engine. -/
def i2cMaster : State := { fresh with i2c := { fresh.i2c with role := .master } }
def i2cSlave : State := after .i2cSSetup (held (held fresh .sda .d1) .scl .d1)

/-- An SPI master or slave in mode `m`. -/
def spiIn (role : Role) (m : BitVec 2) (s : State) : State := { s with spi := { s.spi with role := role, mode := m } }

/-- The transmitter and the receiver, ready. -/
def uartTx : State := after .uartTxSetup fresh
def uartRx : State := after .uartRxSetup (held fresh .rx .d1)

/-- A flag set. -/
def raised (m : Mbx) (s : State) : State := { s with flag := s.flag.set m true }

/-! ## WellFormed: the one check, and a term it refuses -/

theorem test_wf_xfer_255 : (Instr.i2cMXfer 0x42 (List.replicate 255 0xA5)).wf = true := by decide +kernel
theorem test_wf_refuses_xfer_256 : (Instr.i2cMXfer 0x42 (List.replicate 256 0xA5)).wf = false := by decide +kernel
theorem test_wf_refuses_send_256 : (Instr.uartSend (List.replicate 256 0xA5)).wf = false := by decide +kernel

/-! ## Decoding: EV1 of 95_test_vectors.md, every command -/

theorem test_decode_pin :
    decode [0x00000004] = .instr (.pinCfg .sda .input .down .none) ∧
    decode [0x00000001] = .instr (.pinCfg .sda .output .none .none) ∧
    decode [0x0007000A] = .instr (.pinCfg .rx .input .up .falling) ∧
    decode [0x00010010] = .instr (.pinCfg .scl .input .none .rising) ∧
    decode [0x01010001] = .instr (.pinSet .scl true) ∧
    decode [0x02050000] = .instr (.pinGet .cs) ∧
    decode [0x03070012] = .instr (.irqReg .rx .mUart true) ∧
    decode [0x03050001] = .instr (.irqReg .cs .mSpi false) ∧
    decode [0x04000000] = .instr (.irqUnreg .sda) ∧
    decode [0x05FFFFFF] = .instr (.waitUs 16777215) := by decide +kernel

theorem test_decode_mbx :
    decode [0x10020000] = .instr (.mbxSignal .mUart) ∧ decode [0x11000000] = .instr (.mbxWaitclr .mI2c) ∧
    decode [0x12010000] = .instr (.mbxTest .mSpi) ∧ decode [0x13000000] = .instr (.mbxClear .mI2c) := by decide +kernel

theorem test_decode_i2c_master :
    decode [0x20000000] = .instr .i2cMSetup ∧ decode [0x21000000] = .instr .i2cMStart ∧
    decode [0x22000084] = .instr (.i2cMWrite 0x84) ∧ decode [0x23000000] = .instr .i2cMAcks ∧
    decode [0x24000001] = .instr (.i2cMRead true) ∧ decode [0x24000000] = .instr (.i2cMRead false) ∧
    decode [0x25000000] = .instr .i2cMStop ∧
    decode [0x26420100, 0x000000A5] = .instr (.i2cMXfer 0x42 [0xA5]) ∧
    decode [0x26420000] = .instr (.i2cMXfer 0x42 []) ∧
    decode [0x27420600] = .instr (.i2cMRdn 0x42 6) := by decide +kernel

theorem test_decode_i2c_slave :
    decode [0x28000000] = .instr .i2cSSetup ∧ decode [0x29000000] = .instr .i2cSWstart ∧
    decode [0x2A000000] = .instr .i2cSRecv ∧ decode [0x2B000000] = .instr .i2cSAck ∧
    decode [0x2C420085] = .instr (.i2cSDisp 0x42 0x85) ∧ decode [0x2D000000] = .instr .i2cSWstop ∧
    decode [0x2E420000] = .instr (.i2cSServe 0x42) := by decide +kernel

theorem test_decode_spi :
    decode [0x30000003] = .instr (.spiMSetup 3) ∧ decode [0x31000000] = .instr (.spiSSetup 0) ∧
    decode [0x34000000] = .instr (.spiMXchg0 0) ∧ decode [0x3500003C] = .instr (.spiMXchg1 0x3C) ∧
    decode [0x360000FF] = .instr (.spiMXchg2 0xFF) ∧ decode [0x370000A5] = .instr (.spiMXchg3 0xA5) ∧
    decode [0x3800003C] = .instr (.spiSResp0 0x3C) ∧ decode [0x3900003C] = .instr (.spiSResp1 0x3C) ∧
    decode [0x3A00003C] = .instr (.spiSResp2 0x3C) ∧ decode [0x3B00003C] = .instr (.spiSResp3 0x3C) := by decide +kernel

theorem test_decode_uart :
    decode [0x40000000] = .instr .uartTxSetup ∧ decode [0x41000055] = .instr (.uartTxByte 0x55) ∧
    decode [0x42000200, 0x00000048, 0x00000069] = .instr (.uartSend [0x48, 0x69]) ∧
    decode [0x43000000] = .instr .uartRxSetup ∧ decode [0x44000000] = .instr .uartRxFrame ∧
    decode [0x45000000] = .instr .uartRxLoop := by decide +kernel

/-! EV2: every word of its table is refused, with its reason, and the words it consumes. -/

theorem test_reserved_unit_and_op :
    decode [0x50000000] = .reserved .unit 1 ∧ decode [0xFFFFFFFF] = .reserved .unit 1 ∧
    decode [0x06000000] = .reserved .op 1 ∧ decode [0x14000000] = .reserved .op 1 ∧
    decode [0x2F000000] = .reserved .op 1 ∧ decode [0x32000000] = .reserved .op 1 ∧
    decode [0x33000000] = .reserved .op 1 ∧ decode [0x3C000000] = .reserved .op 1 ∧
    decode [0x46000000] = .reserved .op 1 := by decide +kernel

theorem test_reserved_fields :
    decode [0x02080000] = .reserved .pinId 1 ∧ decode [0x02000001] = .reserved .unusedField 1 ∧
    decode [0x02000100] = .reserved .unusedField 1 ∧ decode [0x00000006] = .reserved .pull 1 ∧
    decode [0x00000018] = .reserved .irq 1 ∧ decode [0x00000020] = .reserved .subField 1 ∧
    decode [0x01010002] = .reserved .subField 1 ∧ decode [0x03070013] = .reserved .mailboxId 1 ∧
    decode [0x03070004] = .reserved .subField 1 ∧ decode [0x12030000] = .reserved .mailboxId 1 ∧
    decode [0x20000001] = .reserved .unusedField 1 ∧ decode [0x24000002] = .reserved .subField 1 ∧
    decode [0x2E800000] = .reserved .addressBit7 1 ∧ decode [0x2CC20085] = .reserved .addressBit7 1 ∧
    decode [0x30000004] = .reserved .subField 1 ∧ decode [0x2E420001] = .reserved .unusedField 1 ∧
    decode [0x27420001] = .reserved .unusedField 1 := by decide +kernel

theorem test_reserved_with_payload :
    decode [0x26C20100, 0x000000A5] = .reserved .addressBit7 2 ∧
    decode [0x26420100, 0x000001A5] = .reserved .payload 2 ∧
    decode [0x42000100, 0x00000148] = .reserved .payload 2 := by decide +kernel

/-- R100: the assembler lines of EV1. -/
theorem test_asm :
    asm (.pinCfg .sda .input .down .none) = "PIN_CFG SDA, in, down, none" ∧
    asm (.irqReg .rx .mUart true) = "IRQ_REG RX, M_UART, once" ∧ asm (.waitUs 104) = "WAIT_US 104" ∧
    asm .i2cMSetup = "I2C_M_SETUP" ∧ asm (.uartSend [72, 105]) = "UART_SEND 2, [72, 105]" := by decide +kernel

/-! ## One step -/

/-- EV3 rows: gates after reset and after a setup. -/
theorem test_gates_refuse :
    (after .i2cMStart fresh).env.res = [0x20000000] ∧ (after .i2cSRecv fresh).env.res = [0x20000000] ∧
    (after (.spiMXchg0 0) fresh).env.res = [0x20000000] ∧ (after (.uartTxByte 0x55) fresh).env.res = [0x20000000] ∧
    (after .uartRxFrame fresh).env.res = [0x20000000] ∧ (after (.i2cSServe 0x42) i2cMaster).env.res = [0x20000000] ∧
    (after (.i2cMXfer 0x42 []) i2cSlave).env.res = [0x20000000] ∧
    (after (.spiMXchg0 0) (spiIn .master 3 fresh)).env.res = [0x20000000] ∧
    (after (.spiSResp3 0x3C) (spiIn .master 3 fresh)).env.res = [0x20000000] ∧
    (after .uartRxLoop uartTx).env.res = [0x20000000] := by decide +kernel

/-- MV8. -/
theorem test_mbx_signal_refused :
    (after (.mbxSignal .mUart) fresh).env.res = [0x20000000] ∧ (after (.mbxSignal .mUart) fresh).flag.mUart = false := by
  decide +kernel

/-- PV5, PV6: a pull-down reads 0; a driver beats it. -/
theorem test_pin_get :
    (afterAll [.pinCfg .sda .input .down .none, .pinGet .sda] fresh).env.res = [0] ∧
    (afterAll [.pinCfg .sda .input .down .none, .pinGet .sda] (held fresh .sda .d1)).env.res = [1] := by decide +kernel

/-- PV7: the latch of an input. -/
theorem test_pin_set_latch :
    (after (.pinSet .sda true) fresh).pins.sda.lat = true ∧ (after (.pinSet .sda true) fresh).line .sda = .x := by
  decide +kernel

/-- PV16: the block's own write is an edge. -/
theorem test_pin_set_own_edge :
    (afterAll [.pinSet .sda true, .pinCfg .sda .output .none .falling, .irqReg .sda .mI2c false, .pinSet .sda false]
      fresh).flag.mI2c = true := by decide +kernel

/-- PV17: an edge in the step that arms it. -/
theorem test_pin_cfg_edge_in_step :
    (afterAll [.pinCfg .sda .output .none .none, .irqReg .sda .mI2c false, .pinCfg .sda .input .up .rising] fresh).flag.mI2c
      = true := by decide +kernel

/-- PV21, PV22: the platform refuses. -/
theorem test_pin_cfg_fails :
    (after (.pinCfg .sda .output .none .none) (answering [false] fresh)).env.res = [0x10000000] ∧
    (after (.pinCfg .sda .output .none .none) (answering [false] fresh)).pins.sda.dir = .input := by decide +kernel
theorem test_irq_reg_fails :
    (after (.irqReg .rx .mUart true) (answering [false] fresh)).env.res = [0x10000000] ∧
    (after (.irqReg .rx .mUart true) (answering [false] fresh)).pins.rx.hnd = none := by decide +kernel

/-- PV24: the second registration replaces the first. -/
theorem test_irq_reg_replaces :
    (stepped (planned [.drive .rx .d0] (afterAll
      [.pinCfg .rx .input .up .falling, .irqReg .rx .mUart false, .irqReg .rx .mI2c false]
      (held fresh .rx .d1)))).flag = { mI2c := true, mSpi := false, mUart := false } := by decide +kernel

/-- PV15: a one-shot handler removes itself. -/
theorem test_one_shot :
    (stepped (planned [.drive .rx .d0] uartRx)).flag.mUart = true ∧
    (stepped (planned [.drive .rx .d0] uartRx)).pins.rx.hnd = none := by decide +kernel

/-- PV12 by removal: an armed edge with no handler sets nothing. -/
theorem test_irq_unreg :
    (stepped (planned [.drive .rx .d0] (after (.irqUnreg .rx) uartRx))).flag.mUart = false := by decide +kernel

/-- PV19. -/
theorem test_wait_us : (after (.waitUs 104) { fresh with env := { fresh.env with now := 1000 } }).env.now = 1104 := by
  decide +kernel

/-- MV3, MV4: one event for two edges; then the wait does not return. -/
theorem test_mbx_waitclr :
    (after (.mbxWaitclr .mUart) (raised .mUart fresh)).env.res = [0] ∧
    (afterAll [.mbxWaitclr .mUart, .mbxTest .mUart] (raised .mUart fresh)).env.res = [0] ∧
    (after (.mbxWaitclr .mUart) fresh).seq.busy = true := by decide +kernel

/-- MV5: a wait in progress, then the edge. -/
theorem test_mbx_waitclr_later :
    (after (.mbxWaitclr .mUart) (planned [.turn, .pass 40, .drive .rx .d0, .turn] uartRx)).seq.busy = false ∧
    (after (.mbxWaitclr .mUart) (planned [.turn, .pass 40, .drive .rx .d0, .turn] uartRx)).env.now = 40 := by decide +kernel

/-- MV2, MV6. -/
theorem test_mbx_test : (after (.mbxTest .mUart) (raised .mUart fresh)).env.res = [1] := by decide +kernel
theorem test_mbx_clear : (after (.mbxClear .mI2c) (raised .mI2c fresh)).flag.mI2c = false := by decide +kernel

/-- SP2 and IM: setups. P7 after `CP` = 3: the second configuration of `I2C_M_SETUP` fails. -/
theorem test_i2c_m_setup :
    (after .i2cMSetup fresh).i2c.role = .master ∧ (after .i2cMSetup fresh).line .sda = .l1 ∧
    (after .i2cMSetup fresh).line .scl = .l1 := by decide +kernel
theorem test_i2c_m_setup_fails :
    (after .i2cMSetup (answering [true, false] fresh)).env.res = [0x10000000] ∧
    (after .i2cMSetup (answering [true, false] fresh)).pins.sda.dir = .output ∧
    (after .i2cMSetup (answering [true, false] fresh)).pins.scl.dir = .input ∧
    (after .i2cMSetup (answering [true, false] fresh)).pins.scl.lat = true := by decide +kernel

/-- IM1, IM2. -/
theorem test_i2c_m_start :
    pinWrites (after .i2cMStart i2cMaster).env.trace
      = [(10, .scl, false), (5, .sda, false), (0, .scl, true), (0, .sda, true)] ∧
    (after .i2cMStart i2cMaster).env.now = 15 ∧ (after .i2cMStart i2cMaster).i2c.mState = .address := by decide +kernel
theorem test_i2c_m_stop :
    pinWrites (after .i2cMStop i2cMaster).env.trace = [(5, .sda, true), (0, .scl, true), (0, .sda, false)] ∧
    (after .i2cMStop i2cMaster).env.now = 10 := by decide +kernel

/-- IM3. -/
theorem test_i2c_m_write :
    (((pinWrites (after (.i2cMWrite 0x84) i2cMaster).env.trace).reverse.filter fun e => e.2.1 = .sda).map fun e => e.2.2)
      = [true, false, false, false, false, true, false, false] ∧
    (after (.i2cMWrite 0x84) i2cMaster).env.now = 80 ∧ (after (.i2cMWrite 0x84) i2cMaster).pins.sda.pull = .down := by
  decide +kernel

/-- IM4, third and second row. -/
theorem test_i2c_m_acks_nobody :
    (afterAll [.i2cMWrite 0x84, .i2cMAcks] i2cMaster).env.res = [1] ∧
    (afterAll [.i2cMWrite 0x84, .i2cMAcks] i2cMaster).pins.sda.dir = .output := by decide +kernel
theorem test_i2c_m_acks_high :
    (afterAll [.i2cMWrite 0x85, .i2cMAcks] (held i2cMaster .sda .d1)).env.res = [0] := by decide +kernel

/-- IM5: bit `i` presented in the high phases. -/
theorem test_i2c_m_read :
    (after (.i2cMRead true) (planned
      (turns 3 ++ ([true, false, true, false, false, true, false, true].flatMap fun b =>
        drives .sda b ++ turns 2 ++ passes 5 ++ turns 3 ++ passes 5 ++ turns 1)) i2cMaster)).env.res = [0xA5] ∧
    (after (.i2cMRead true) i2cMaster).env.now = 90 := by decide +kernel

/-- IM6. -/
theorem test_i2c_m_xfer :
    (after (.i2cMXfer 0x42 [0xA5]) i2cMaster).env.res = [2, 1, 1] ∧
    (after (.i2cMXfer 0x42 [0xA5]) i2cMaster).env.now = 205 ∧
    (after (.i2cMXfer 0x42 [0xA5]) i2cMaster).i2c.shift = 0xA5 := by decide +kernel

/-- IM7: NACK ends the transaction (the line held high: the latch and the peer disagree only while nothing samples). -/
theorem test_i2c_m_xfer_nack :
    (after (.i2cMXfer 0x42 [0xA5, 0x5A]) (held i2cMaster .sda .d1)).env.res = [1, 0] ∧
    (after (.i2cMXfer 0x42 [0xA5, 0x5A]) (held i2cMaster .sda .d1)).env.now = 115 := by decide +kernel
theorem test_i2c_m_rdn :
    (after (.i2cMRdn 0x42 2) (held i2cMaster .sda .d1)).env.res = [0] ∧
    (after (.i2cMRdn 0x42 6) i2cMaster).env.res = [6, 0, 0, 0, 0, 0, 0] ∧
    (after (.i2cMRdn 0x42 6) i2cMaster).env.now = 655 := by decide +kernel

/-- P2: six bytes from a peer. -/
theorem test_i2c_m_rdn_peer :
    (after (.i2cMRdn 0x42 6) (planned (i2cRdnPeer 5 [0x10, 0x11, 0x12, 0x13, 0x14, 0x15]) i2cMaster)).env.res
      = [6, 0x10, 0x11, 0x12, 0x13, 0x14, 0x15] := by decide +kernel

/-- IS2. -/
theorem test_i2c_s_setup :
    i2cSlave.pins.sda.irq = .falling ∧ i2cSlave.pins.sda.hnd = some { mbx := .mI2c, once := false } ∧
    i2cSlave.i2c.role = .slave ∧ i2cSlave.pins.scl.irq = .none := by decide +kernel

/-- IS4: a stale event is taken for a START. -/
theorem test_i2c_s_wstart_stale :
    (after .i2cSWstart (raised .mI2c i2cSlave)).i2c.sState = .startDetected ∧
    (after .i2cSWstart (raised .mI2c i2cSlave)).pins.scl.irq = .rising ∧
    (after .i2cSWstart (raised .mI2c i2cSlave)).pins.sda.hnd = none ∧
    (after .i2cSWstart (raised .mI2c i2cSlave)).flag.mI2c = false := by decide +kernel

/-- IS1 rows. -/
theorem test_i2c_s_disp :
    (after (.i2cSDisp 0x42 0x85) fresh).env.res = [2] ∧ (after (.i2cSDisp 0x42 0x84) fresh).env.res = [1] ∧
    (after (.i2cSDisp 0x42 0x86) fresh).env.res = [0] ∧ (after (.i2cSDisp 0x42 0xC4) fresh).env.res = [0] ∧
    (after (.i2cSDisp 0x7F 0xFF) fresh).env.res = [2] := by decide +kernel

/-- A slave that has seen its START (IS4's end state). -/
def i2cStarted : State := after .i2cSWstart (raised .mI2c i2cSlave)

/-- W3's bits, received. -/
theorem test_i2c_s_recv : (after .i2cSRecv (planned (i2cClocker 0x84) i2cStarted)).env.res = [0x84] := by decide +kernel

/-- IS5: the slave drives low, holds 5 microseconds after the ACK clock, releases. -/
theorem test_i2c_s_ack :
    (after .i2cSAck (planned (i2cAckClocker 5) i2cStarted)).env.now = 5 ∧
    (after .i2cSAck (planned (i2cAckClocker 5) i2cStarted)).pins.sda.dir = .input ∧
    pinWrites (after .i2cSAck (planned (i2cAckClocker 5) i2cStarted)).env.trace = [(0, .sda, false)] := by decide +kernel

/-- IS3: rows 4 and 1. -/
theorem test_i2c_s_wstop_low : (after .i2cSWstop (held i2cSlave .scl .d0)).env.res = [0] := by decide +kernel
theorem test_i2c_s_wstop_stop :
    (after .i2cSWstop (planned i2cStopper i2cSlave)).env.res = [1] ∧
    (after .i2cSWstop (planned i2cStopper i2cSlave)).pins.sda.irq = .falling ∧
    (after .i2cSWstop (planned i2cStopper i2cSlave)).i2c.sState = .idleMonitor := by decide +kernel

/-- IS5, rows 1 and 3. -/
theorem test_i2c_s_serve :
    (after (.i2cSServe 0x42) (planned (i2cFrame 5 0x84) i2cSlave)).env.res = [0x84, 1, 0] ∧
    notifications (after (.i2cSServe 0x42) (planned (i2cFrame 5 0x84) i2cSlave)).env.trace = [(1, 0x84)] := by decide +kernel
theorem test_i2c_s_serve_other :
    (after (.i2cSServe 0x42) (planned (i2cFrame 5 0x87) i2cSlave)).env.res = [0x87, 0, 0] ∧
    notifications (after (.i2cSServe 0x42) (planned (i2cFrame 5 0x87) i2cSlave)).env.trace = [] := by decide +kernel

/-- SP2. -/
theorem test_spi_setups :
    (after (.spiMSetup 3) fresh).pins.sclk.lat = true ∧ (after (.spiMSetup 3) fresh).spi.mode = 3 ∧
    (after (.spiMSetup 0) fresh).pins.sclk.lat = false ∧ (after (.spiMSetup 0) fresh).pins.cs.lat = true ∧
    (after (.spiSSetup 2) (held fresh .cs .d1)).pins.cs.irq = .falling ∧
    (after (.spiSSetup 2) (held fresh .cs .d1)).spi.role = .slave := by decide +kernel
theorem test_spi_m_setup_fails :
    (after (.spiMSetup 1) (answering [true, true, false] fresh)).env.res = [0x10000000] ∧
    (after (.spiMSetup 1) (answering [true, true, false] fresh)).pins.sclk.dir = .output ∧
    (after (.spiMSetup 1) (answering [true, true, false] fresh)).pins.sdo.dir = .input ∧
    (after (.spiMSetup 1) (answering [true, true, false] fresh)).spi.mode = 0 := by decide +kernel

/-- SP1, the worked case of each mode: result 0xA5, `LAT[CS]` and `LAT[SCLK]` after, 32 microseconds. -/
def exchanged (m : BitVec 2) : State :=
  after (spiXchg m 0x3C) (planned (spiPeer m 2 0xA5) (after (.spiMSetup m) fresh))

theorem test_spi_xchg0 :
    (exchanged 0).env.res = [0xA5] ∧ (exchanged 0).pins.cs.lat = false ∧ (exchanged 0).pins.sclk.lat = false ∧
    (exchanged 0).env.now = 32 := by decide +kernel
theorem test_spi_xchg1 :
    (exchanged 1).env.res = [0xA5] ∧ (exchanged 1).pins.cs.lat = true ∧ (exchanged 1).pins.sclk.lat = false ∧
    (exchanged 1).env.now = 32 := by decide +kernel
theorem test_spi_xchg2 :
    (exchanged 2).env.res = [0xA5] ∧ (exchanged 2).pins.cs.lat = true ∧ (exchanged 2).pins.sclk.lat = true ∧
    (exchanged 2).env.now = 32 := by decide +kernel
theorem test_spi_xchg3 :
    (exchanged 3).env.res = [0xA5] ∧ (exchanged 3).pins.cs.lat = true ∧ (exchanged 3).pins.sclk.lat = true ∧
    (exchanged 3).env.now = 32 := by decide +kernel

/-- SP3: the slave's byte in each mode, and the flag after. -/
def responded (m : BitVec 2) : State :=
  after (spiResp m 0x3C) (planned (spiClocker m 0xA5) (after (.spiSSetup m) (held fresh .cs .d1)))

theorem test_spi_resp0 : (responded 0).env.res = [0xA5] ∧ (responded 0).flag.mSpi = false := by decide +kernel
theorem test_spi_resp1 : (responded 1).env.res = [0xA5] ∧ (responded 1).flag.mSpi = false := by decide +kernel
theorem test_spi_resp2 : (responded 2).env.res = [0xA5] ∧ (responded 2).flag.mSpi = false := by decide +kernel
theorem test_spi_resp3 : (responded 3).env.res = [0xA5] ∧ (responded 3).flag.mSpi = false := by decide +kernel

/-- UA2: the levels from the start bit to the stop bit, and the end. -/
theorem test_uart_tx_byte :
    (pinWrites (after (.uartTxByte 0x55) uartTx).env.trace).reverse.drop 1
      = [(0, .tx, false), (104, .tx, true), (208, .tx, false), (312, .tx, true), (416, .tx, false), (520, .tx, true),
         (624, .tx, false), (728, .tx, true), (832, .tx, false), (936, .tx, true)] ∧
    (after (.uartTxByte 0x55) uartTx).env.now = 1040 := by decide +kernel

/-- UA3. -/
theorem test_uart_send :
    (after (.uartSend [0x48, 0x69]) uartTx).env.now = 2080 ∧ (after (.uartSend [0x48, 0x69]) uartTx).uart.txsh = 0x69 ∧
    (after (.uartSend []) uartTx).env.now = 0 ∧ (after (.uartSend []) uartTx).env.res = [0] := by decide +kernel

/-- UA4: one good frame. -/
theorem test_uart_rx_frame :
    Memory.read? (after .uartRxFrame (planned (uartPeer 104 52 0x55 true) uartRx)).uart.rxBuf 0 = some 0x55 ∧
    (after .uartRxFrame (planned (uartPeer 104 52 0x55 true) uartRx)).uart.rxIdx = 1 ∧
    (after .uartRxFrame (planned (uartPeer 104 52 0x55 true) uartRx)).env.now = 988 := by decide +kernel

/-- UA4: the samples, each in the middle of a bit that begins half a period before it. -/
theorem test_uart_rx_frame_samples :
    (pinSamples .rx (after .uartRxFrame (planned (uartPeer 104 52 0x55 true) uartRx)).env.trace).reverse
      = [(156, true), (260, false), (364, true), (468, false), (572, true), (676, false), (780, true), (884, false),
         (988, true)] := by decide +kernel

/-- UA5, the column of `UART_RX_CAP` = 2 and `FLUSH`, frames 3 and 4: the report. -/
theorem test_uart_rx_frame_full :
    let s := { uartRx with uart := { uartRx.uart with rxBuf := [(0, 0x31)], rxIdx := 1 } }
    let t := after .uartRxFrame (planned (uartPeer 104 52 0xC2 true) s)
    reportBytes t.env.trace = [0xC2, 0x31] ∧ t.uart.rxIdx = 0 ∧ t.uart.rxBuf = [(0, 0x31), (1, 0xC2)] := by decide +kernel

/-- W5: a bad stop bit sets the index to 0 and stores nothing; the loop goes on waiting. -/
theorem test_uart_rx_loop :
    let s := { uartRx with uart := { uartRx.uart with rxBuf := [(0, 0x55)], rxIdx := 1 } }
    let t := after .uartRxLoop (planned (uartPeer 104 52 0xA7 false) s)
    t.seq.busy = true ∧ t.uart.rxBuf = [(0, 0x55)] ∧ t.uart.rxIdx = 0 ∧ notifications t.env.trace = [(3, 0)] := by
  decide +kernel

/-- R248: between two frames of the loop the host reads the index and the buffer; inside `UART_RX_FRAME` it does not (R34). -/
theorem test_uart_rx_loop_read :
    let t := after .uartRxLoop (planned (uartPeer 104 52 0x55 true) uartRx)
    let u := after .uartRxFrame uartRx
    t.hostRead 0x45 = some 1 ∧ t.hostRead 0x100 = some 0x55 ∧ t.hostRead 0x43 = none ∧ u.seq.busy = true ∧
    u.hostRead 0x45 = none := by decide +kernel

/-- P7, `CP` = 8: the step consumes a reserved command with its payload. -/
theorem test_step_reserved :
    (stepped (given [0x26C20100, 0x000000A5] i2cMaster)).env.cp = 2 ∧
    (stepped (given [0x26C20100, 0x000000A5] i2cMaster)).env.res = [0x20000000] := by decide +kernel

/-- A table word after reset: `I2C_S_DISP 0x42, 0x85` (EV3: not refused, result 2). -/
theorem test_fetch_after_reset : (stepped (State.reset.withFetchWord 32 0x2C420085)).env.res = [2] := by decide +kernel

/-! ## Witnesses: for each statement with premises, a state and operands that meet them all, clause by clause -/

/-- A plan that moves the line of `RX` and lets time pass. -/
def busyPlan : List EnvAct := [.turn, .drive .rx .d1, .pass 3, .turn, .drive .rx .d0, .turn]

theorem witness_DecodeEncode :
    (Instr.i2cMXfer 0x7F (List.replicate 255 0xFF)).wf = true ∧ (Instr.uartSend []).wf = true := by decide +kernel

theorem witness_EncodeDecode : decode [0x42000000, 0x12345678] = .instr (.uartSend []) := by decide +kernel

theorem witness_ReservedExactly_reserved :
    isReserved 0x50000000 [] ∧ isReserved 0x02080000 [] ∧ isReserved 0x00000018 [] ∧ isReserved 0x42000100 [0x100] :=
  ⟨Or.inl trivial, Or.inl (Or.inr (Or.inr (by decide +kernel))), Or.inr (Or.inl (Or.inr (Or.inr (by decide +kernel)))),
    Or.inr (Or.inr ⟨0x100, by simp, by decide⟩)⟩

theorem witness_ReservedExactly_length :
    [0x100#32].length = payloadCount 0x42000100 ∧ [0xFF#32].length = payloadCount 0x26420100 ∧
    ([] : List Word).length = payloadCount 0x02070000 ∧ ([] : List Word).length = payloadCount 0x50000000 := by decide +kernel

theorem witness_ReservedExactly_legal : ¬ isReserved 0x02070000 [] := by
  rintro (h | h | ⟨y, h, _⟩)
  · exact absurd (show bOf 0x02070000 ≠ 0 ∨ cOf 0x02070000 ≠ 0 ∨ 7 < (aOf 0x02070000).toNat from h) (by decide +kernel)
  · exact h
  · cases h

theorem witness_ReservedExactly_legal_payload : ¬ isReserved 0x26420100 [0xFF] := by
  rintro (h | h | ⟨y, h, h'⟩)
  · exact absurd (show cOf 0x26420100 ≠ 0 ∨ 127 < (aOf 0x26420100).toNat from h) (by decide +kernel)
  · exact h
  · rw [List.mem_singleton] at h; subst h; exact absurd h' (by decide)

theorem witness_ReservedRefused :
    ((given [0x26C20100, 0x000000A5] i2cMaster).undisturbed ∧
      (given [0x26C20100, 0x000000A5] i2cMaster).pendingWords = 0x26C20100 :: ([0x000000A5] ++ []) ∧
      [0x000000A5#32].length = payloadCount 0x26C20100) ∧ isReserved 0x26C20100 [0x000000A5] :=
  ⟨by decide +kernel, Or.inl (Or.inr (by decide +kernel))⟩

theorem witness_StepRunsTheCommand :
    (given [0x21000000] i2cMaster).undisturbed ∧ decode (given [0x21000000] i2cMaster).pendingWords = .instr .i2cMStart ∧
    Instr.i2cMStart.wf = true ∧ (planned (.turn :: busyPlan) (given [0x21000000] i2cMaster)).undisturbed := by decide +kernel

/-- A block hung in a wait. -/
def hung : State := after (.mbxWaitclr .mI2c) fresh

theorem witness_busy : hung.seq.busy = true := by decide +kernel

theorem witness_StepMovesForward : step hung = .next hung.runOn := by simp [step, witness_busy]

/-- A state whose buffer is empty meets the invariant when its sequencer does. -/
theorem inv_of_empty (s : State) (hc : s.cfg.wf = true) (hb : s.uart.rxBuf = []) (hi : s.uart.rxIdx = 0)
    (h1 : s.seq.busy = false → s.seq.pos = [] ∧ s.seq.waitRem = 0) (h2 : s.seq.busy = true → s.seq.pos ≠ [])
    (h3 : s.seq.waitRem = 0) : s.Inv := by
  refine ⟨hc, ⟨by rw [hb]; rfl, fun j _ => by rw [hb]; rfl, fun j hj => by omega, ?_⟩, h1, h2, fun h => absurd h3 h⟩
  simp only [Config.Params.wf, Bool.and_eq_true, decide_eq_true_eq] at hc
  omega

theorem inv_uartRx : uartRx.Inv :=
  inv_of_empty _ (by decide +kernel) (by decide +kernel) (by decide +kernel) (by decide +kernel) (by decide +kernel)
    (by decide +kernel)

theorem witness_StepKeepsInv_idle :
    (planned busyPlan.tail uartRx).Inv ∧
    step (planned busyPlan.tail uartRx) = .next (planned busyPlan.tail uartRx).envStep := by
  have h1 : (planned busyPlan.tail uartRx).seq.busy = false := by decide +kernel
  have h2 : (planned busyPlan.tail uartRx).envMoves = true := by decide +kernel
  exact ⟨inv_uartRx, by simp [step, h1, h2]⟩

theorem witness_StepKeepsInv_busy : hung.Inv ∧ step hung = .next hung.runOn :=
  ⟨inv_of_empty _ (by decide +kernel) (by decide +kernel) (by decide +kernel) (by decide +kernel) (by decide +kernel)
    (by decide +kernel), witness_StepMovesForward⟩

theorem witness_ResetInput : (planned (.reset :: busyPlan) hung).env.plan = .reset :: busyPlan := by decide +kernel

/-- Each clause of `LineLevel`: an input, or an output driving 0 or 1, and each drive from outside. -/
theorem witness_LineLevel :
    (fresh.pins.get .sda).dir = .input ∧ fresh.env.ext.get .sda = .z ∧ (held fresh .sda .d0).env.ext.get .sda = .d0 ∧
    (held fresh .sda .d1).env.ext.get .sda = .d1 ∧
    ((after .i2cMSetup fresh).pins.get .sda).dir = .output ∧ ((after .i2cMSetup fresh).pins.get .sda).lat = true ∧
    ((after (.spiMSetup 0) fresh).pins.get .sdo).dir = .output ∧
    ((after (.spiMSetup 0) fresh).pins.get .sdo).lat = false := by decide +kernel

theorem witness_GatesRefuse_closed :
    ¬ gateOpen fresh .i2cMStart ∧ ¬ gateOpen (spiIn .master 3 fresh) (.spiMXchg0 0) ∧ ¬ gateOpen fresh (.mbxSignal .mI2c) ∧
    fresh.seq.busy = false := by
  refine ⟨?_, ?_, ?_, by decide +kernel⟩
  · show ¬ fresh.i2c.role = .master; decide +kernel
  · show ¬ (_ ∧ (3 : BitVec 2) = 0); decide +kernel
  · exact id

theorem witness_GatesRefuse_open :
    gateOpen (planned busyPlan i2cMaster) .i2cMStart ∧ (planned busyPlan i2cMaster).ready ∧
    gateOpen (spiIn .master 3 fresh) (.spiMXchg3 0) ∧ (spiIn .master 3 fresh).ready := by
  refine ⟨?_, by decide +kernel, ?_, by decide +kernel⟩
  · show (planned busyPlan i2cMaster).i2c.role = .master; decide +kernel
  · show (spiIn .master 3 fresh).spi.role = .master ∧ (3 : BitVec 2) = 3; decide +kernel

/-- `EveryCommandKeepsTheRest`, `WaitUs`, `I2cSDisp`. -/
theorem witness_ready : (planned busyPlan fresh).ready := by decide +kernel

theorem witness_RolesOnlyBySetup : isSetup .i2cMStart = false ∧ (planned busyPlan i2cMaster).ready := by decide +kernel

/-- An edge that is the armed one; one that may be; one that is not. -/
theorem witness_EnvironmentEdge :
    let a := planned [.drive .rx .d0] uartRx
    let b := planned [.drive .sda .d1] (afterAll [.pinCfg .sda .input .none .rising, .irqReg .sda .mI2c false] fresh)
    let c := planned [.drive .rx .d1] uartRx
    (a.seq.busy = false ∧ a.env.plan = .drive .rx .d0 :: [] ∧
      a.pins.rx.irq = .falling ∧ lineOf a.pins.rx .d1 = .l1 ∧ lineOf a.pins.rx .d0 = .l0 ∧ a.env.ext.rx = .d1) ∧
    (b.seq.busy = false ∧ b.env.plan = .drive .sda .d1 :: [] ∧
      b.pins.sda.irq = .rising ∧ lineOf b.pins.sda b.env.ext.sda = .x ∧ lineOf b.pins.sda .d1 = .l1) ∧
    (c.seq.busy = false ∧ c.env.plan = .drive .rx .d1 :: [] ∧ lineOf c.pins.rx c.env.ext.rx = .l1) := by decide +kernel

/-- The clauses of `EnvironmentEdge` and `SecondEdgeIsLost` about a running command: a wait for another engine's event, with
`RX` armed, and its flag 0 or 1 already. -/
theorem witness_EnvironmentEdge_busy :
    let d := planned [.drive .rx .d0] (after (.mbxWaitclr .mI2c) uartRx)
    let e := raised .mUart d
    (d.seq.busy = true ∧ d.env.plan = .drive .rx .d0 :: [] ∧ d.flag.mUart = false ∧
      d.pins.rx.hnd = some { mbx := .mUart, once := true } ∧
      edgeIs d.pins.rx.irq (lineOf d.pins.rx d.env.ext.rx) (lineOf d.pins.rx .d0)) ∧
    (e.seq.busy = true ∧ e.flag.mUart = true ∧ e.pins.rx.hnd = some { mbx := .mUart, once := true } ∧
      edgeIs e.pins.rx.irq (lineOf e.pins.rx e.env.ext.rx) (lineOf e.pins.rx .d0)) := by
  unfold edgeIs; decide +kernel

theorem witness_SecondEdgeIsLost :
    let s := planned [.drive .rx .d0] (raised .mUart uartRx)
    (s.seq.busy = false ∧ s.env.plan = .drive .rx .d0 :: [] ∧ (s.pins.get .rx).hnd = some { mbx := .mUart, once := true } ∧
      s.flag.get .mUart = true) ∧
    edgeIs (s.pins.get .rx).irq (lineOf (s.pins.get .rx) (s.env.ext.get .rx)) (lineOf (s.pins.get .rx) .d0) :=
  ⟨by decide +kernel, Or.inl (by decide +kernel)⟩

/-- `PinCfg`, `PinSet`, `PinGet` (each level of the line), `IrqReg`, `IrqUnreg`, `MbxTestAndClear`. -/
theorem witness_undisturbed :
    fresh.undisturbed ∧ (planned (.turn :: busyPlan) fresh).undisturbed ∧
    lineOf (fresh.pins.get .sda) (fresh.env.ext.get .sda) = .x ∧
    lineOf (uartRx.pins.get .rx) (uartRx.env.ext.get .rx) = .l1 ∧ uartRx.undisturbed ∧
    lineOf (fresh.pins.get .sda) ((held fresh .sda .d0).env.ext.get .sda) = .l0 ∧
    (held fresh .sda .d0).undisturbed := by decide +kernel

theorem witness_PinGet_draw :
    ({ fresh with env := { fresh.env with xDraws := [true] } } : State).env.xDraws.head? = some true ∧
    ({ fresh with env := { fresh.env with xDraws := [true] } } : State).undisturbed := by decide +kernel

theorem witness_MbxSignal : fresh.seq.busy = false := by decide +kernel

theorem witness_MbxWaitclr :
    (planned busyPlan (raised .mUart fresh)).ready ∧ (planned busyPlan (raised .mUart fresh)).flag.get .mUart = true := by
  decide +kernel

/-- The receiver's handler points at another mailbox. -/
theorem witness_WaitHangs :
    (planned busyPlan uartRx).ready ∧ (planned busyPlan uartRx).flag.get .mI2c = false ∧
    ∀ p h, ((planned busyPlan uartRx).pins.get p).hnd = some h → h.mbx ≠ .mI2c := by
  refine ⟨by decide +kernel, by decide +kernel, fun p h hh => ?_⟩
  have hp : ((planned busyPlan uartRx).pins.get p).hnd = none ∨
      ((planned busyPlan uartRx).pins.get p).hnd = some { mbx := .mUart, once := true } := by
    cases p <;> decide +kernel
  rcases hp with hp | hp <;> rw [hp] at hh <;> cases hh
  decide

/-- The six setup commands. -/
theorem witness_setups :
    (planned busyPlan fresh).ready ∧ (planned busyPlan fresh).cfgSucceeds 5 ∧ fresh.quiet ∧ fresh.cfgSucceeds 5 ∧
    (answering [true] fresh).cfgSucceeds 1 := by decide +kernel

/-- The first and the last configuration of each setup. -/
theorem witness_SetupFailure :
    fresh.ready ∧
    ∀ x ∈ [(Instr.i2cMSetup, 0), (.i2cMSetup, 1), (.i2cSSetup, 0), (.i2cSSetup, 2), (.spiMSetup 0, 0), (.spiMSetup 3, 3),
           (.spiSSetup 0, 0), (.spiSSetup 3, 4), (.uartTxSetup, 0), (.uartRxSetup, 0), (.uartRxSetup, 1)],
      isSetup x.1 = true ∧ x.2 < setupCalls x.1 ∧
      (answering (List.replicate x.2 true ++ [false]) fresh).env.cfgOutcomes.take (x.2 + 1)
        = List.replicate x.2 true ++ [false] := by decide +kernel

/-- The master commands; the payload at both ends of its range. -/
theorem witness_i2c_master :
    (planned busyPlan i2cMaster).ready ∧ (planned busyPlan i2cMaster).i2c.role = .master ∧
    (List.replicate 255 (0xA5 : Byte)).length ≤ 255 ∧ ([] : List Byte).length ≤ 255 ∧
    i2cMaster.cfgSucceeds (2 * 255 + 2) := by decide +kernel

/-- Each clause of `AbsentReceiver`. -/
theorem witness_AbsentReceiver :
    let a := after (.i2cMWrite 0x84) i2cMaster
    let b := held a .sda .d1
    (a.ready ∧ a.i2c.role = .master ∧ (a.pins.get .sda).dir = .input ∧ (a.pins.get .sda).pull = .down ∧
      a.env.ext.get .sda = .z ∧ a.env.cfgOutcomes.head? = some true ∧ a.cfgSucceeds (2 * 255 + 2) ∧ a.env.plan = []) ∧
    (b.ready ∧ b.i2c.role = .master ∧ (b.pins.get .sda).dir = .input ∧ b.env.ext.get .sda = .d1 ∧
      b.env.cfgOutcomes.head? = some true ∧ b.env.plan = []) := by
  decide +kernel

/-- Each clause of `I2cMasterReadsPeer`: a read; no byte and two bytes; a refused address, a NACK that cuts a transfer short, and a
transfer of the most bytes, all acknowledged. -/
theorem witness_I2cMasterReadsPeer :
    (i2cMaster.seq.busy = false ∧ i2cMaster.i2c.role = .master ∧ i2cMaster.env.cfgOutcomes.head? = some true) ∧
    (∀ vs ∈ [([] : List Byte), [0x10, 0x11]], vs.length ≤ 255 ∧ i2cMaster.cfgSucceeds (2 * vs.length + 2)) ∧
    (∀ x ∈ [(([] : List Byte), [false]), ([0xA5, 0x5A], [true, false]),
            (List.replicate 255 0xA5, List.replicate 256 true)],
      x.1.length ≤ 255 ∧ 1 ≤ x.2.length ∧ x.2.length ≤ x.1.length + 1 ∧ (∀ a ∈ x.2.dropLast, a = true) ∧
      (x.2.length ≤ x.1.length → x.2.getLast? = some false) ∧ i2cMaster.cfgSucceeds (2 * x.2.length)) := by decide +kernel

/-- The same state with any of the plans. -/
theorem witness_I2cMasterReadsPeer_plan (plan : List EnvAct) :
    (planned plan i2cMaster).env.plan = plan ∧ (planned plan i2cMaster).cfg = i2cMaster.cfg ∧
    (planned plan i2cMaster).seq = i2cMaster.seq ∧ (planned plan i2cMaster).i2c = i2cMaster.i2c ∧
    (planned plan i2cMaster).env.cfgOutcomes = i2cMaster.env.cfgOutcomes := ⟨rfl, rfl, rfl, rfl, rfl⟩

/-- An empty plan leaves every line. -/
theorem leaves_nil (p : Pin) : leaves p [] := fun _ h => nomatch h

/-- A plan that moves another line leaves this one. -/
theorem witness_leaves : leaves .sda busyPlan ∧ leaves .scl busyPlan := by
  constructor <;> intro e <;> cases e <;> decide

/-- Both clauses of `I2cSWstart`, the second in both its cases. -/
theorem witness_I2cSWstart :
    let a := planned busyPlan (raised .mI2c i2cSlave)
    let c := held (raised .mI2c i2cSlave) .scl .d0
    (a.ready ∧ a.i2c.role = .slave ∧ a.flag.get .mI2c = true ∧ lineOf (a.pins.get .scl) (a.env.ext.get .scl) = .l1 ∧
      a.cfgSucceeds 3 ∧ a.env.plan = busyPlan) ∧
    (i2cSlave.quiet ∧ i2cSlave.i2c.role = .slave ∧ i2cSlave.flag.get .mI2c = false) ∧
    (c.quiet ∧ c.i2c.role = .slave ∧ lineOf (c.pins.get .scl) (c.env.ext.get .scl) = .l0) := by decide +kernel

theorem witness_I2cSRecv :
    let s := planned (i2cClocker 0x84) i2cStarted
    s.seq.busy = false ∧ s.env.plan = i2cClocker 0x84 ∧ s.i2c.role = .slave ∧ (s.pins.get .scl).dir = .input ∧
    (s.pins.get .scl).irq = .rising ∧ (s.pins.get .scl).hnd = some { mbx := .mI2c, once := false } ∧
    (s.pins.get .sda).dir = .input ∧ (s.pins.get .sda).hnd = none ∧ s.flag.get .mI2c = false := by decide +kernel

theorem witness_I2cSAck :
    (planned busyPlan (raised .mI2c i2cStarted)).ready ∧ (planned busyPlan (raised .mI2c i2cStarted)).i2c.role = .slave ∧
    (planned busyPlan (raised .mI2c i2cStarted)).flag.get .mI2c = true ∧ (raised .mI2c i2cStarted).quiet := by decide +kernel

theorem witness_I2cSWstopNoStop :
    let s := planned busyPlan (held i2cSlave .scl .d0)
    s.ready ∧ s.i2c.role = .slave ∧ (s.pins.get .scl).dir = .input ∧ s.env.ext.get .scl = .d0 ∧ s.env.plan = busyPlan ∧
    s.cfgSucceeds 3 ∧ (held i2cSlave .scl .d0).quiet := by decide +kernel

theorem witness_I2cSWstopStop :
    let s := planned i2cStopper i2cSlave
    s.seq.busy = false ∧ s.env.plan = i2cStopper ∧ s.i2c.role = .slave ∧ (s.pins.get .scl).dir = .input ∧
    (s.pins.get .sda).dir = .input ∧ s.cfgSucceeds 5 := by decide +kernel

theorem witness_I2cSServe :
    let s := planned (i2cFrame 5 0x84) i2cSlave
    s.seq.busy = false ∧ s.env.plan = i2cFrame s.cfg.i2cTAckHold 0x84 ∧ s.i2c.role = .slave ∧ (s.pins.get .scl).dir = .input ∧
    (s.pins.get .scl).irq = .none ∧ (s.pins.get .sda).dir = .input ∧ (s.pins.get .sda).irq = .falling ∧
    (s.pins.get .sda).hnd = some { mbx := .mI2c, once := false } ∧ s.flag.get .mI2c = false ∧ s.cfgSucceeds 8 := by
  decide +kernel

theorem witness_SpiExchange :
    (∀ m ∈ [(0 : BitVec 2), 1, 2, 3], (planned busyPlan (spiIn .master m fresh)).ready ∧
      (planned busyPlan (spiIn .master m fresh)).spi.role = .master ∧
      (planned busyPlan (spiIn .master m fresh)).spi.mode = m) := by decide +kernel

theorem witness_SpiExchangeReadsPeer :
    (∀ m ∈ [(0 : BitVec 2), 1, 2, 3],
      let s := planned (spiPeer m 2 0xA5) (after (.spiMSetup m) fresh)
      s.seq.busy = false ∧ s.env.plan = spiPeer m s.cfg.spiTHalf 0xA5 ∧ s.spi.role = .master ∧ s.spi.mode = m ∧
      (s.pins.get .sdi).dir = .input) := by decide +kernel

theorem witness_SpiResponse :
    (∀ m ∈ [(0 : BitVec 2), 1, 2, 3],
      let s := planned (spiClocker m 0xA5) (after (.spiSSetup m) (held fresh .cs .d1))
      s.seq.busy = false ∧ s.env.plan = spiClocker m 0xA5 ∧ s.spi.role = .slave ∧ s.spi.mode = m ∧
      (s.pins.get .sclk).dir = .input ∧ (s.pins.get .sdi).dir = .input ∧ (s.pins.get .cs).dir = .input ∧
      (s.pins.get .cs).irq = .falling ∧ (s.pins.get .cs).hnd = some { mbx := .mSpi, once := false }) := by decide +kernel

theorem witness_uart_tx : (planned busyPlan uartTx).ready ∧ (planned busyPlan uartTx).uart.txRdy = true := by decide +kernel

/-- A receiver with a byte in its buffer and the event pending: the index at 1, the last below the capacity. -/
def uartFilled : State :=
  raised .mUart { uartRx with uart := { uartRx.uart with rxBuf := [(0, 0x31)], rxIdx := 1 } }

theorem inv_uartFilled : uartFilled.Inv := by
  refine ⟨by decide +kernel, ⟨by decide +kernel, fun j hj => ?_, fun j hj => ?_, by decide +kernel⟩, by decide +kernel,
    by decide +kernel, fun h => absurd (by decide +kernel) h⟩
  · have hb : uartFilled.uart.rxBuf = [(0, 0x31)] := by decide +kernel
    have hc : uartFilled.cfg.rxCap = 2 := by decide +kernel
    rw [hb]
    have h0 : j ≠ 0 := by omega
    simp [Memory.read?, Ne.symm h0]
  · have hi : uartFilled.uart.rxIdx = 1 := by decide +kernel
    have h0 : j = 0 := by omega
    subst h0
    decide +kernel

theorem witness_UartRxFrame :
    (uartFilled.ready ∧ uartFilled.uart.rxRdy = true ∧ uartFilled.flag.get .mUart = true) ∧ uartFilled.Inv ∧
    (raised .mUart uartRx).ready ∧ (raised .mUart uartRx).flag.get .mUart = true :=
  ⟨by decide +kernel, inv_uartFilled, by decide +kernel, by decide +kernel⟩

/-- `UartRxFrameReadsPeer` and the second clause of `UartRxLoop`, with either stop bit. -/
theorem witness_UartRxFrameReadsPeer (stop : Bool) :
    let s := planned (uartPeer 104 52 0x55 stop) uartRx
    s.Inv ∧ (s.seq.busy = false ∧ s.uart.rxRdy = true ∧ s.env.plan = uartPeer s.cfg.uartTBit s.cfg.uartTHalf 0x55 stop ∧
      (s.pins.get .rx).dir = .input ∧ (s.pins.get .rx).irq = .falling ∧
      (s.pins.get .rx).hnd = some { mbx := .mUart, once := true } ∧ s.flag.get .mUart = false ∧ s.cfgSucceeds 1) :=
  ⟨inv_uartRx, by cases stop <;> decide +kernel⟩

/-- The first clause of `UartRxLoop`. -/
theorem witness_UartRxLoop : (planned busyPlan uartRx).ready ∧ (planned busyPlan uartRx).uart.rxRdy = true := by decide +kernel

end Sys2Proof.Tests
end

section
/-! The reset state of the machine, table by table (10_state.md R35), and the obligation that collects its values. -/

namespace Sys2Proof.Machine

/-- Every pin has the same five fields after reset. -/
@[simp] theorem State.reset_pins_get (p : Pin) : State.reset.pins.get p = PinRegs.reset :=
  PerPin.get_all PinRegs.reset p

/-- Every mailbox flag starts "cleared". -/
@[simp] theorem State.reset_flag_get (m : Mbx) : State.reset.flag.get m = false := by
  cases m <;> rfl

@[simp] theorem State.reset_seq : State.reset.seq = Seq.reset := rfl
@[simp] theorem State.reset_i2c : State.reset.i2c = I2c.reset := rfl
@[simp] theorem State.reset_spi : State.reset.spi = Spi.reset := rfl
@[simp] theorem State.reset_uart : State.reset.uart = Uart.reset := rfl

/-- Settles O12: the pin and flag tables by their lookups after reset, every other register by the record that holds it. -/
theorem resetValues : Obligations.ResetValues := by
  unfold Obligations.ResetValues
  have pinFields (p : Pin) : (State.reset.pins.get p).dir = .input ∧ (State.reset.pins.get p).pull = .none ∧
      (State.reset.pins.get p).irq = .none ∧ (State.reset.pins.get p).lat = false ∧
      (State.reset.pins.get p).hnd = none := by
    simp [PinRegs.reset]
  refine ⟨by simp [Seq.reset], by simp [Seq.reset], pinFields, State.reset_flag_get, ?engines⟩
  case engines => simp [I2c.reset, Spi.reset, Uart.reset]

end Sys2Proof.Machine
end

section
/-! The resolved level of a line, row by row of its table (20_memory.md R64), and the obligation that collects the rows. -/

namespace Sys2Proof.Machine

/-- The block drives the latch of an output and nothing on an input. -/
theorem State.blk_eq (s : State) (p : Pin) :
    s.blk p = if (s.pins.get p).dir = .output then (if (s.pins.get p).lat then .d1 else .d0) else .z := by
  unfold State.blk
  cases (s.pins.get p).dir with
  | input => rfl
  | output => rfl

/-- The level of a line, once both drives are known, is the table's entry for them. -/
theorem State.line_of_drives {s : State} {p : Pin} {blk ext : Ext} (hblk : s.blk p = blk)
    (hext : s.env.ext.get p = ext) : s.line p = resolve blk ext (s.pins.get p).pull := by
  rw [State.line, hblk, hext]

@[simp] theorem resolve_floating_up : resolve .z .z .up = .l1 := rfl
@[simp] theorem resolve_floating_down : resolve .z .z .down = .l0 := rfl
@[simp] theorem resolve_floating_none : resolve .z .z .none = .x := rfl

/-- A driver outside decides the line when the block does not drive, whatever the pull. -/
@[simp] theorem resolve_z_ofBit (b : Bool) (pull : Pull) : resolve .z (.ofBit b) pull = .ofBit b := by
  cases b <;> rfl

/-- The block decides the line when nobody outside drives, whatever the pull. -/
@[simp] theorem resolve_ofBit_z (b : Bool) (pull : Pull) : resolve (.ofBit b) .z pull = .ofBit b := by
  cases b <;> rfl

/-- Two drivers that agree give their level. -/
@[simp] theorem resolve_ofBit_self (b : Bool) (pull : Pull) : resolve (.ofBit b) (.ofBit b) pull = .ofBit b := by
  cases b <;> rfl

/-- Bus contention: two drivers that disagree leave the level undetermined. -/
theorem resolve_contended {blk ext : Ext} (hblk : blk ≠ .z) (hext : ext ≠ .z) (hne : blk ≠ ext) (pull : Pull) :
    resolve blk ext pull = .x := by
  cases blk with
  | z => exact absurd rfl hblk
  | d0 =>
    cases ext with
    | z => exact absurd rfl hext
    | d0 => exact absurd rfl hne
    | d1 => rfl
  | d1 =>
    cases ext with
    | z => exact absurd rfl hext
    | d0 => rfl
    | d1 => exact absurd rfl hne

/-- Settles O14: the line is the table's entry for the two drives, and each clause is one row of the table. -/
theorem lineLevel : Obligations.LineLevel := by
  unfold Obligations.LineLevel
  intro s p
  rw [← State.blk_eq]
  intro blk ext
  have entry {b e : Ext} (hb : blk = b) (he : ext = e) : s.line p = resolve b e (s.pins.get p).pull :=
    State.line_of_drives hb he
  refine ⟨fun hb he => ?floating,
    fun hb he => (entry hb he).trans (resolve_z_ofBit false _), fun hb he => (entry hb he).trans (resolve_z_ofBit true _),
    fun hb he => (entry hb he).trans (resolve_ofBit_z false _), fun hb he => (entry hb he).trans (resolve_ofBit_z true _),
    fun hb he => (entry hb he).trans (resolve_ofBit_self false _),
    fun hb he => (entry hb he).trans (resolve_ofBit_self true _),
    fun hb he hne => (entry rfl rfl).trans (resolve_contended hb he hne _)⟩
  case floating =>
    rw [entry hb he]
    cases (s.pins.get p).pull with
    | up => exact resolve_floating_up
    | down => exact resolve_floating_down
    | none => exact resolve_floating_none

end Sys2Proof.Machine
end

section
/-! Reserved command words (30_encoding.md R91 to R94, R97): each reason to be reserved makes the decoder reject, and the
obligation that the block refuses what the decoder rejects. -/

namespace Sys2Proof.Machine

/-! ## Rejecting -/

/-- The decoder, or a part of it, rejects what it reads. -/
def Rejects {α : Type} (x : Except Reject α) : Prop := ∃ r, x = .error r

@[simp] theorem rejects_error {α : Type} (r : Reject) : Rejects (.error r : Except Reject α) := ⟨r, rfl⟩

/-- What is rejected early stays rejected. -/
theorem Rejects.bind {α β : Type} {x : Except Reject α} (h : Rejects x) {f : α → Except Reject β} : Rejects (x >>= f) := by
  obtain ⟨r, rfl⟩ := h
  exact ⟨r, rfl⟩

/-- What is rejected later is rejected, whatever was read before. -/
theorem Rejects.after {α β : Type} {x : Except Reject α} {f : α → Except Reject β} (h : ∀ a, Rejects (f a)) :
    Rejects (x >>= f) := by
  cases x with
  | error r => exact ⟨r, rfl⟩
  | ok a => exact h a

/-! ## Operands that name nothing, fields that must be 0 -/

theorem mustBeZero_rejects {n : Nat} {f : BitVec n} {r : Reject} (h : f ≠ 0) : Rejects (mustBeZero f r) :=
  ⟨r, if_neg h⟩

/-- A slice is not 0 when its value, cut out of the whole by arithmetic, is not. -/
theorem extractLsb'_ne_zero {n : Nat} {x : BitVec n} {start len : Nat} (h : x.toNat / 2 ^ start % 2 ^ len ≠ 0) :
    x.extractLsb' start len ≠ 0 := by
  intro h0
  have hval := congrArg BitVec.toNat h0
  rw [BitVec.extractLsb'_toNat, Nat.shiftRight_eq_div_pow] at hval
  exact h (by simpa using hval)

theorem pinOf_rejects {a : Byte} (h : 7 < a.toNat) : Rejects (pinOf a) := by
  unfold pinOf
  split
  case h_9 => simp
  all_goals omega

theorem mbxOf_rejects {a : Nat} (h : 2 < a) : Rejects (mbxOf a) := by
  match a, h with
  | _ + 3, _ => exact rejects_error _

theorem addrOf_rejects {a : Byte} (h : 127 < a.toNat) : Rejects (addrOf a) := by
  have hbit : a.getLsbD 7 = true := by
    have hlt : a.toNat < 256 := a.isLt
    rw [BitVec.getLsbD, Nat.testBit_eq_decide_div_mod_eq, decide_eq_true_eq]
    omega
  exact ⟨_, if_pos hbit⟩

theorem pullOf_rejects {c : Byte} (h : c.toNat / 2 % 4 = 3) : Rejects (pullOf c) := by
  have hval : (c.extractLsb' 1 2).toNat = 3 := by
    rw [BitVec.extractLsb'_toNat, Nat.shiftRight_eq_div_pow]; exact h
  rw [pullOf, hval]
  exact rejects_error _

theorem irqOf_rejects {c : Byte} (h : c.toNat / 8 % 4 = 3) : Rejects (irqOf c) := by
  have hval : (c.extractLsb' 3 2).toNat = 3 := by
    rw [BitVec.extractLsb'_toNat, Nat.shiftRight_eq_div_pow]; exact h
  rw [irqOf, hval]
  exact rejects_error _

/-- One payload word with a bit above 7:0 spoils the payload. -/
theorem payloadOf_rejects {ys : List Word} (h : ∃ y ∈ ys, 255 < y.toNat) : Rejects (payloadOf ys) := by
  induction ys with
  | nil => simp at h
  | cons y ys ih =>
    unfold payloadOf
    split
    · next h0 =>
      have hy : ¬ 255 < y.toNat := fun hy =>
        extractLsb'_ne_zero (by have := y.isLt; omega) h0
      have htail : ∃ z ∈ ys, 255 < z.toNat := by simpa [hy] using h
      obtain ⟨r, hr⟩ := ih htail
      exact ⟨r, by rw [hr]; rfl⟩
    · exact rejects_error _

/-! ## The formats (R91): a broken one is rejected before the command is made -/

theorem formatZ_rejects {w : Word} {i : Instr} (h : Format.z.broken w) : Rejects (formatZ w i) :=
  (mustBeZero_rejects h).bind

theorem formatP_rejects {w : Word} {k : Pin → Instr} (h : Format.p.broken w) : Rejects (formatP w k) := by
  rcases h with hb | hc | hp
  · exact (mustBeZero_rejects hb).bind
  · exact .after fun _ => (mustBeZero_rejects hc).bind
  · exact .after fun _ => .after fun _ => (pinOf_rejects hp).bind

theorem formatPC_rejects {w : Word} {k : Pin → Byte → Except Reject Instr} (h : Format.pc.broken w) :
    Rejects (formatPC w k) := by
  rcases h with hb | hp
  · exact (mustBeZero_rejects hb).bind
  · exact .after fun _ => (pinOf_rejects hp).bind

theorem formatM_rejects {w : Word} {k : Mbx → Instr} (h : Format.m.broken w) : Rejects (formatM w k) := by
  rcases h with hb | hc | hm
  · exact (mustBeZero_rejects hb).bind
  · exact .after fun _ => (mustBeZero_rejects hc).bind
  · exact .after fun _ => .after fun _ => (mbxOf_rejects hm).bind

theorem formatC_rejects {w : Word} {k : Byte → Except Reject Instr} (h : Format.c.broken w) : Rejects (formatC w k) := by
  rcases h with ha | hb
  · exact (mustBeZero_rejects ha).bind
  · exact .after fun _ => (mustBeZero_rejects hb).bind

theorem formatA_rejects {w : Word} {k : Addr → Instr} (h : Format.a.broken w) : Rejects (formatA w k) := by
  rcases h with hb | hc | ha
  · exact (mustBeZero_rejects hb).bind
  · exact .after fun _ => (mustBeZero_rejects hc).bind
  · exact .after fun _ => .after fun _ => (addrOf_rejects ha).bind

theorem formatAC_rejects {w : Word} {k : Addr → Byte → Instr} (h : Format.ac.broken w) : Rejects (formatAC w k) := by
  rcases h with hb | ha
  · exact (mustBeZero_rejects hb).bind
  · exact .after fun _ => (addrOf_rejects ha).bind

theorem formatAB_rejects {w : Word} {k : Addr → Byte → Instr} (h : Format.ab.broken w) : Rejects (formatAB w k) := by
  rcases h with hc | ha
  · exact (mustBeZero_rejects hc).bind
  · exact .after fun _ => (addrOf_rejects ha).bind

theorem formatABL_rejects {w : Word} {ys : List Word} {k : Addr → List Byte → Instr} (h : Format.abl.broken w) :
    Rejects (formatABL w ys k) := by
  rcases h with hc | ha
  · exact (mustBeZero_rejects hc).bind
  · exact .after fun _ => (addrOf_rejects ha).bind

theorem formatBL_rejects {w : Word} {ys : List Word} {k : List Byte → Instr} (h : Format.bl.broken w) :
    Rejects (formatBL w ys k) := by
  rcases h with ha | hc
  · exact (mustBeZero_rejects ha).bind
  · exact .after fun _ => (mustBeZero_rejects hc).bind

theorem not_broken_n (w : Word) : ¬ Format.n.broken w := id

/-! ## Sub-fields of `c` (R92) -/

theorem subPinCfg_rejects (p : Pin) {c : Byte} (h : 31 < c.toNat ∨ c.toNat / 2 % 4 = 3 ∨ c.toNat / 8 % 4 = 3) :
    Rejects (subPinCfg p c) := by
  rcases h with htop | hpull | hirq
  · exact (mustBeZero_rejects (extractLsb'_ne_zero (by have := c.isLt; omega))).bind
  · exact .after fun _ => (pullOf_rejects hpull).bind
  · exact .after fun _ => .after fun _ => (irqOf_rejects hirq).bind

theorem subPinSet_rejects (p : Pin) {c : Byte} (h : 1 < c.toNat) : Rejects (subPinSet p c) :=
  (mustBeZero_rejects (extractLsb'_ne_zero (by have := c.isLt; omega))).bind

theorem subIrqReg_rejects (p : Pin) {c : Byte} (h : 31 < c.toNat ∨ c.toNat / 4 % 4 ≠ 0 ∨ c.toNat % 4 = 3) :
    Rejects (subIrqReg p c) := by
  rcases h with htop | hmid | hmbx
  · exact .after fun _ => (mustBeZero_rejects (extractLsb'_ne_zero (by have := c.isLt; omega))).bind
  · exact (mustBeZero_rejects (extractLsb'_ne_zero hmid)).bind
  · have hval : 2 < (c.extractLsb' 0 2).toNat := by
      rw [BitVec.extractLsb'_toNat, Nat.shiftRight_eq_div_pow]; omega
    exact .after fun _ => .after fun _ => (mbxOf_rejects hval).bind

theorem subRead_rejects {c : Byte} (h : 1 < c.toNat) : Rejects (subRead c) :=
  (mustBeZero_rejects (extractLsb'_ne_zero (by have := c.isLt; omega))).bind

theorem subMode_rejects (k : BitVec 2 → Instr) {c : Byte} (h : 3 < c.toNat) : Rejects (subMode k c) :=
  (mustBeZero_rejects (extractLsb'_ne_zero (by have := c.isLt; omega))).bind

theorem formatPC_rejects_of_sub {w : Word} {k : Pin → Byte → Except Reject Instr} (h : ∀ p, Rejects (k p (cOf w))) :
    Rejects (formatPC w k) :=
  .after fun _ => .after h

theorem formatC_rejects_of_sub {w : Word} {k : Byte → Except Reject Instr} (h : Rejects (k (cOf w))) :
    Rejects (formatC w k) :=
  .after fun _ => .after fun _ => h

/-! ## The opcode map (R94), one reason of R97 at a time -/

/-- Row by row the decoder runs the format of the opcode map, and a word with no row it rejects. The cases are the rows in the
map's order, each unit's missing ops after its rows. -/
theorem decodeWord_rejects_of_format {w : Word} (ys : List Word)
    (h : ∀ f, formatOf (unitOf w).toNat (opOf w).toNat = some f → f.broken w) : Rejects (decodeWord w ys) := by
  unfold decodeWord
  split
  case h_7 | h_12 | h_28 | h_39 | h_46 | h_47 => exact rejects_error _
  all_goals
    rename_i hunit hop
    rw [hunit, hop] at h
  case h_1 | h_2 | h_4 => exact formatPC_rejects (h _ rfl)
  case h_3 | h_5 => exact formatP_rejects (h _ rfl)
  case h_6 => exact (not_broken_n w (h _ rfl)).elim
  case h_8 | h_9 | h_10 | h_11 => exact formatM_rejects (h _ rfl)
  case h_19 => exact formatABL_rejects (h _ rfl)
  case h_20 => exact formatAB_rejects (h _ rfl)
  case h_25 => exact formatAC_rejects (h _ rfl)
  case h_27 => exact formatA_rejects (h _ rfl)
  case h_42 => exact formatBL_rejects (h _ rfl)
  case h_13 | h_14 | h_16 | h_18 | h_21 | h_22 | h_23 | h_24 | h_26 | h_40 | h_43 | h_44 | h_45 =>
    exact formatZ_rejects (h _ rfl)
  all_goals exact formatC_rejects (h _ rfl)

theorem decodeWord_rejects_of_subField {w : Word} (ys : List Word)
    (h : subFieldBroken (unitOf w).toNat (opOf w).toNat (cOf w)) : Rejects (decodeWord w ys) := by
  unfold subFieldBroken at h
  split at h
  case h_7 => exact h.elim
  all_goals
    rename_i hunit hop
    rw [decodeWord, hunit, hop]
  · exact formatPC_rejects_of_sub fun p => subPinCfg_rejects p h
  · exact formatPC_rejects_of_sub fun p => subPinSet_rejects p h
  · exact formatPC_rejects_of_sub fun p => subIrqReg_rejects p h
  · exact formatC_rejects_of_sub (subRead_rejects h)
  · exact formatC_rejects_of_sub (subMode_rejects _ h)
  · exact formatC_rejects_of_sub (subMode_rejects _ h)

/-- Only the two rows with a payload can have a bad payload word. -/
theorem decodeWord_rejects_of_payload {w : Word} {ys : List Word} (hlen : ys.length = payloadCount w)
    (h : ∃ y ∈ ys, 255 < y.toNat) : Rejects (decodeWord w ys) := by
  have hpos : payloadCount w ≠ 0 := by
    obtain ⟨y, hy, -⟩ := h
    exact hlen ▸ (List.length_pos_of_mem hy).ne'
  unfold payloadCount at hpos
  split at hpos
  · next hrow =>
    rcases hrow with ⟨hunit, hop⟩ | ⟨hunit, hop⟩ <;> rw [decodeWord, hunit, hop]
    · exact .after fun _ => .after fun _ => (payloadOf_rejects h).bind
    · exact .after fun _ => .after fun _ => (payloadOf_rejects h).bind
  · exact absurd rfl hpos

/-- What R97 calls reserved the decoder rejects. -/
theorem decodeWord_rejects_of_isReserved {w : Word} {ys : List Word} (hlen : ys.length = payloadCount w)
    (h : isReserved w ys) : Rejects (decodeWord w ys) := by
  rcases h with hformat | hsub | hpayload
  · refine decodeWord_rejects_of_format ys fun f hf => ?_
    rw [hf] at hformat
    exact hformat
  · exact decodeWord_rejects_of_subField ys hsub
  · exact decodeWord_rejects_of_payload hlen hpayload

/-! ## The stream and the block -/

/-- The decoder takes as many payload words as R93 says. -/
theorem payloadWords_eq_payloadCount (w : Word) : payloadWords w = payloadCount w := by
  unfold payloadWords payloadCount
  split <;> simp_all

/-- A reserved command is told, with its length, whatever follows it in the stream. -/
theorem decode_of_isReserved {w : Word} {ys : List Word} (rest : List Word) (hlen : ys.length = payloadCount w)
    (h : isReserved w ys) : ∃ r, decode (w :: (ys ++ rest)) = .reserved r (1 + ys.length) := by
  obtain ⟨r, hr⟩ := decodeWord_rejects_of_isReserved hlen h
  have hcount : payloadWords w = ys.length := (payloadWords_eq_payloadCount w).trans hlen.symm
  refine ⟨r, ?_⟩
  rw [decode, hcount, List.take_left, hr, if_neg (lt_irrefl _)]

/-- `State.refuse` does what R97 says of a refused command. -/
theorem State.refuse_refused (len : Nat) (s : State) : Refused len s (s.refuse len) :=
  ⟨⟨rfl, rfl, rfl, rfl, rfl, rfl, rfl⟩, rfl⟩

/-- Where nothing moves before the sequencer, the next move is not the environment's. -/
theorem State.undisturbed_envMoves {s : State} (h : s.undisturbed) : s.envMoves = false := by
  obtain ⟨-, hplan | hplan⟩ := h
  · simp [State.envMoves, hplan]
  · obtain ⟨as, has⟩ := List.head?_eq_some_iff.mp hplan
    simp [State.envMoves, has]

/-- Settles O5: the decoder tells the reserved command and its length, and the idle block refuses it. -/
theorem reservedRefused : Obligations.ReservedRefused := by
  unfold Obligations.ReservedRefused
  intro s w ys rest hundisturbed hwords hlen hres
  have hidle : s.seq.busy = false := hundisturbed.1
  obtain ⟨r, hdecode⟩ := decode_of_isReserved rest hlen hres
  refine ⟨s.refuse (1 + ys.length), ?_, State.refuse_refused _ s⟩
  simp [step, hidle, State.undisturbed_envMoves hundisturbed, hwords, hdecode]

end Sys2Proof.Machine
end

section
/-! The gates (30_encoding.md R99): each command is run behind the gate R99 gives it, an accepted command stays in `SEQ_CMD`
while it runs, and the obligation that collects both. -/

namespace Sys2Proof.Machine

/-! ## The gates are the conditions of R99 -/

theorem gateI2cMaster_iff (s : State) : gateI2cMaster s = true ↔ s.i2c.role = .master := by simp [gateI2cMaster]

theorem gateI2cSlave_iff (s : State) : gateI2cSlave s = true ↔ s.i2c.role = .slave := by simp [gateI2cSlave]

theorem gateSpiMaster_iff (m : BitVec 2) (s : State) :
    gateSpiMaster m s = true ↔ s.spi.role = .master ∧ s.spi.mode = m := by simp [gateSpiMaster]

theorem gateSpiSlave_iff (m : BitVec 2) (s : State) :
    gateSpiSlave m s = true ↔ s.spi.role = .slave ∧ s.spi.mode = m := by simp [gateSpiSlave]

theorem gateNone_iff (s : State) : gateNone s = true ↔ True := by simp [gateNone]

theorem gateNever_iff (s : State) : gateNever s = true ↔ False := by simp [gateNever]

/-- Every command is run by `command`, behind a gate that is open exactly where R99 does not refuse it. -/
theorem exec_gated (i : Instr) (s : State) :
    ∃ gate prog ret, exec i s = command i gate prog ret s ∧ (gate s = true ↔ gateOpen s i) := by
  cases i with
  | i2cMStart | i2cMWrite | i2cMAcks | i2cMRead | i2cMStop | i2cMXfer | i2cMRdn =>
    exact ⟨gateI2cMaster, _, _, rfl, gateI2cMaster_iff s⟩
  | i2cSWstart | i2cSRecv | i2cSAck | i2cSWstop | i2cSServe => exact ⟨gateI2cSlave, _, _, rfl, gateI2cSlave_iff s⟩
  | spiMXchg0 | spiMXchg1 | spiMXchg2 | spiMXchg3 => exact ⟨gateSpiMaster _, _, _, rfl, gateSpiMaster_iff _ s⟩
  | spiSResp0 | spiSResp1 | spiSResp2 | spiSResp3 => exact ⟨gateSpiSlave _, _, _, rfl, gateSpiSlave_iff _ s⟩
  | uartTxByte | uartSend => exact ⟨gateUartTx, _, _, rfl, Iff.rfl⟩
  | uartRxFrame | uartRxLoop => exact ⟨gateUartRx, _, _, rfl, Iff.rfl⟩
  | mbxSignal => exact ⟨gateNever, _, _, rfl, gateNever_iff s⟩
  | pinCfg | pinSet | pinGet | irqReg | irqUnreg | waitUs | mbxWaitclr | mbxTest | mbxClear | i2cSDisp
  | i2cMSetup | i2cSSetup | spiMSetup | spiSSetup | uartTxSetup | uartRxSetup => exact ⟨gateNone, _, _, rfl, gateNone_iff s⟩

/-! ## What a run leaves in `SEQ_CMD` -/

@[simp] theorem State.onConfigFailure_seq_cmd (use : CfgUse) (s : State) : (s.onConfigFailure use).seq.cmd = s.seq.cmd := by
  cases use <;> rfl

@[simp] theorem State.settle_seq_cmd (s : State) : s.settle.seq.cmd = s.seq.cmd := by
  unfold State.settle; split <;> simp

theorem SpinCond.eval_seq (c : SpinCond) (s : State) : (c.eval s).2.seq = s.seq := by
  cases c with
  | flagClear m => simp only [SpinCond.eval]; split <;> simp
  | _ => simp [SpinCond.eval]

theorem Micro.run_seq_cmd (op : Micro) (s : State) : (op.run s).seq.cmd = s.seq.cmd := by
  cases op with
  | reg r =>
    obtain ⟨-, -, -, hcmd, -⟩ := RegOp.apply_seq r s
    exact hcmd
  | pinCfg p d pl ir use => simp only [Micro.run, State.pinCfg]; split <;> simp
  | irqReg p m os use => simp only [Micro.run, State.irqReg]; split <;> simp
  | sample p d => cases d <;> simp [Micro.run, Dest.store]
  | wait n => simp only [Micro.run]; split <;> simp
  | spin c a => simp only [Micro.run]; split <;> simp [SpinCond.eval_seq]
  | stopPass k a =>
    simp only [Micro.run]
    split
    · split <;> simp
    · simp
  | nackKeep k => simp only [Micro.run]; split <;> simp
  | pinSet | irqUnreg | mbxTest | mbxClear | rxAgain => simp [Micro.run, State.pinSet, State.irqUnreg]

theorem State.seqStep_seq_cmd (s : State) : s.seqStep.seq.cmd = s.seq.cmd := by
  unfold State.seqStep
  split
  · simp
  · simp [Micro.run_seq_cmd]

theorem State.elapse_seq_cmd (d : Nat) (s : State) : (s.elapse d).seq.cmd = s.seq.cmd := by
  simp only [State.elapse]
  split <;> simp

theorem State.advance_seq_cmd (s : State) : s.advance.seq.cmd = s.seq.cmd := by
  unfold State.advance
  split
  · exact s.seqStep_seq_cmd
  · exact s.elapse_seq_cmd _

/-- No act but the reset input changes `SEQ_CMD`. -/
theorem EnvAct.apply_seq_cmd {a : EnvAct} (ha : a ≠ .reset) (s : State) : (a.apply s).seq.cmd = s.seq.cmd := by
  cases a with
  | turn => simp only [EnvAct.apply]; split <;> simp [State.seqStep_seq_cmd]
  | drive p e => simp [EnvAct.apply]
  | pass d =>
    simp only [EnvAct.apply, State.passTime]
    split
    · split
      · split <;> simp
      · exact s.elapse_seq_cmd d
    · simp
  | reset => exact absurd rfl ha

/-- A run without a reset, to the command's end or to a wait, keeps `SEQ_CMD`. -/
theorem State.runOn_seq_cmd {s : State} (hplan : noReset s.env.plan) : s.runOn.seq.cmd = s.seq.cmd :=
  @runPlan_keeps (fun t => t.seq.cmd = s.seq.cmd) (fun _ _ h => h) (fun t _ h => t.advance_seq_cmd.trans h) _ _
    (fun _ ha t _ h => (EnvAct.apply_seq_cmd (fun e => hplan (e ▸ ha)) t).trans h) rfl

theorem State.accept_seq_cmd (i : Instr) (prog : List Micro) (ret : Ret) (s : State) :
    (s.accept i prog ret).seq.cmd = { word := encodeWord i, payload := (encode i).tail } :=
  State.settle_seq_cmd _

theorem State.accept_plan (i : Instr) (prog : List Micro) (ret : Ret) (s : State) :
    (s.accept i prog ret).env.plan = s.env.plan := by
  unfold State.accept State.settle
  split <;> simp

/-- Settles O15: every command goes through `command` behind its gate of R99; a closed gate refuses, and what an open one
accepts no run without a reset takes out of `SEQ_CMD`. -/
theorem gatesRefuse : Obligations.GatesRefuse := by
  unfold Obligations.GatesRefuse
  intro i s hwf
  obtain ⟨gate, prog, ret, hexec, hgate⟩ := exec_gated i s
  rw [hexec]
  refine ⟨fun hidle hclosed => ?closed, fun ⟨hidle, hplan⟩ hopen => ?opened⟩
  case closed =>
    have hshut : gate s = false := Bool.eq_false_iff.mpr fun hg => hclosed (hgate.mp hg)
    exact ⟨_, command_refused i gate prog ret s hidle hshut, State.refuse_refused _ s⟩
  case opened =>
    have hplan' : noReset (s.accept i prog ret).env.plan := by rwa [State.accept_plan]
    exact ⟨_, command_accepted i gate prog ret s hidle (hgate.mpr hopen) hwf,
      (State.runOn_seq_cmd hplan').trans (State.accept_seq_cmd i prog ret s)⟩

end Sys2Proof.Machine
end

section
/-! The I2C slave's dispatch (43_i2c_slave.md R185): a run keeps what its solo run leaves behind, the dispatch code in numbers,
and the obligation that collects them. -/

namespace Sys2Proof.Machine

/-! ## What a run takes over from its solo run -/

theorem Alike.returned {g t : State} (h : Alike g t) {i : Instr} {s : State} {ws : List Word} (hg : Returned i s g ws) :
    Returned i s t ws := by
  obtain ⟨hbusy, hres, hcp, hstream, hcfg⟩ := hg
  exact ⟨h.busy.trans hbusy, h.res.trans hres, h.cp.trans hcp, h.stream.trans hstream, h.cfg.trans hcfg⟩

theorem Alike.pinsKeptBut {g t : State} (h : Alike g t) {ps : List Pin} {s : State} (hg : pinsKeptBut ps s g) :
    pinsKeptBut ps s t :=
  fun q hq => (hg q hq).trans (h.pins q)

theorem Alike.flagsKeptBut {g t : State} (h : Alike g t) {ms : List Mbx} {s : State} (hg : flagsKeptBut ms s g) :
    flagsKeptBut ms s t :=
  fun m hm hs => h.flags m (hg m hm hs)

/-- The sequencer does to the pins what it does alone: the two traces differ in flag sets only. -/
theorem Alike.did {g t : State} (h : Alike g t) {s : State} {es : List (Nat × Event)} (hg : Did s g es) : Did s t es := by
  have hacts : pinActs t.env.trace = pinActs g.env.trace := by
    rw [← pinActs_own t.env.trace, h.own, pinActs_own]
  exact hacts.trans hg

/-! ## The dispatch code -/

/-- `OK` is status 0, so the word of a successful command is its value alone (30_encoding.md R95, R98). -/
theorem resultWord_ok (v : Byte) : resultWord statusOk v = v.setWidth 32 := by
  rw [BitVec.setWidth_eq_append (by decide)]
  rfl

/-- The dispatch code in numbers: the address is the byte halved, the direction its parity. -/
theorem dispatchCode_eq (lsa : Addr) (v : Byte) :
    dispatchCode lsa v = if v.toNat / 2 = lsa.toNat then (if v.toNat % 2 = 1 then 2 else 1) else 0 := by
  have haddr : v.extractLsb' 1 7 = lsa ↔ v.toNat / 2 = lsa.toNat := by
    rw [← BitVec.toNat_inj, BitVec.extractLsb'_toNat, Nat.shiftRight_eq_div_pow]
    omega
  have hdir : v.getLsbD 0 = true ↔ v.toNat % 2 = 1 := by
    simp [BitVec.getLsbD, Nat.testBit_zero]
  simp only [dispatchCode, haddr, hdir]

/-! ## The command -/

/-- `I2C_S_DISP` has no gate: an idle block always accepts it (R185, "never refused for the role"). -/
theorem exec_i2cSDisp {s : State} (hidle : s.seq.busy = false) (lsa : Addr) (v : Byte) :
    exec (.i2cSDisp lsa v) s =
      .next (s.accept (.i2cSDisp lsa v) i2cSDispProg (.const (dispatchCode lsa v))).runOn :=
  command_accepted (.i2cSDisp lsa v) gateNone _ _ s hidle rfl rfl

/-- The solo run of a command of one micro-operation: the micro-operation with nothing left after it, settled in the same
step. -/
theorem soloRun_accept_one (c : Nat → Choice) (i : Instr) (op : Micro) (ret : Ret) (s : State) :
    soloRun c 1 (s.accept i [op] ret) =
      ((op.solo (c 0).bit (((s.accept i [op] ret).setPos []).setFree (c 0).pre)).setFree (c 0).post).settle :=
  rfl

/-- What `I2C_S_DISP` does alone: its state register, and the dispatch code as its result. -/
theorem soloRun_i2cSDisp (c : Nat → Choice) (lsa : Addr) (v : Byte) (s : State) {g : State}
    (hg : soloRun c 1 (s.accept (.i2cSDisp lsa v) i2cSDispProg (.const (dispatchCode lsa v))) = g) :
    Returned (.i2cSDisp lsa v) s g (okWords (dispatchCode lsa v)) ∧
      g.i2c = { s.i2c with sState := .dispatch } ∧ g.spi = s.spi ∧ g.uart = s.uart ∧
      g.pins = s.pins ∧ g.flag = s.flag ∧ g.env.now = s.env.now ∧ Did s g [] := by
  rw [i2cSDispProg, soloRun_accept_one, State.settle_nil _ rfl rfl] at hg
  subst hg
  have hword : [resultWord statusOk (dispatchCode lsa v)] = okWords (dispatchCode lsa v) := by rw [resultWord_ok]
  exact ⟨⟨rfl, hword, rfl, rfl, rfl⟩, rfl, rfl, rfl, rfl, rfl, rfl, rfl⟩

/-- Settles O49: the command is accepted and has no wait, so under every plan it ends as it does alone but for what edges add,
and alone it writes its state register and returns the dispatch code. -/
theorem i2cSDisp : Obligations.I2cSDisp := by
  unfold Obligations.I2cSDisp
  intro lsa v s ⟨hidle, hplan⟩
  have hplain : ∀ op ∈ i2cSDispProg, op.plain = true := by decide
  obtain ⟨-, c, halike⟩ := accept_plain (.i2cSDisp lsa v) i2cSDispProg (.const (dispatchCode lsa v)) s hplan hplain
  obtain ⟨hret, hi2c, hspi, huart, hpins, hflag, hnow, hdid⟩ := soloRun_i2cSDisp c lsa v s rfl
  have hpinsKept : pinsKeptBut [] s _ := fun q _ => hpins ▸ pinKept.refl (s.pins.get q)
  have hflagsKept : flagsKeptBut [] s _ := fun _ _ hm => hflag ▸ hm
  rw [← dispatchCode_eq]
  exact ⟨_, exec_i2cSDisp hidle lsa v, halike.returned hret, halike.i2c.trans hi2c, halike.spi.trans hspi,
    halike.uart.trans huart, halike.pinsKeptBut hpinsKept, halike.flagsKeptBut hflagsKept, halike.now.trans hnow,
    halike.did hdid⟩

end Sys2Proof.Machine
end

section
/-! The encoding: every part of the decoder says which words it takes and what it makes of them, and the obligations that
decoding and encoding are inverse and that exactly the reserved words are rejected (30_encoding.md R90 to R94, R97). -/

namespace Sys2Proof.Machine

open Laws

/-! ## A command word is its fields (R90) -/

theorem mkWord_fields (w : Word) : mkWord (unitOf w) (opOf w) (aOf w) (bOf w) (cOf w) = w := by
  unfold mkWord unitOf opOf aOf bOf cOf
  apply BitVec.eq_of_getLsbD_eq
  intro i hi
  simp only [BitVec.getLsbD_append, BitVec.getLsbD_extractLsb']
  split_ifs <;> grind

theorem nOf_eq_fields (w : Word) : nOf w = aOf w ++ bOf w ++ cOf w := by
  unfold nOf aOf bOf cOf
  apply BitVec.eq_of_getLsbD_eq
  intro i hi
  simp only [BitVec.getLsbD_append, BitVec.getLsbD_extractLsb']
  split_ifs <;> grind

/-- The fields a 24-bit operand is laid out in, and the operand read back from them. -/
theorem append_bytes_eq {n : BitVec 24} {a b c : Byte} :
    a ++ b ++ c = n ↔ a = n.extractLsb' 16 8 ∧ b = n.extractLsb' 8 8 ∧ c = n.extractLsb' 0 8 := by
  constructor
  · rintro rfl
    refine ⟨?_, ?_, ?_⟩ <;> apply BitVec.eq_of_getLsbD_eq <;> intro i hi <;>
      simp only [BitVec.getLsbD_append, BitVec.getLsbD_extractLsb'] <;> grind
  · rintro ⟨rfl, rfl, rfl⟩
    apply BitVec.eq_of_getLsbD_eq
    intro i hi
    simp only [BitVec.getLsbD_append, BitVec.getLsbD_extractLsb']
    grind

/-- A word with the unit and op of a row is the row's encoding of its operand fields. -/
theorem eq_mkWord {w : Word} {u o : BitVec 4} (hu : unitOf w = u) (ho : opOf w = o) {a b c : Byte} (ha : aOf w = a)
    (hb : bOf w = b) (hc : cOf w = c) : w = mkWord u o a b c := by
  rw [← hu, ← ho, ← ha, ← hb, ← hc, mkWord_fields]

/-! ## What the parts of the decoder accept -/

@[simp] theorem mustBeZero_ok {n : Nat} {f : BitVec n} {r : Reject} {u : Unit} : mustBeZero f r = .ok u ↔ f = 0 := by
  unfold mustBeZero; split <;> simp_all

@[simp] theorem bind_eq_ok {α β : Type} {x : Except Reject α} {f : α → Except Reject β} {b : β} :
    x >>= f = .ok b ↔ ∃ a, x = .ok a ∧ f a = .ok b := by
  cases x with
  | error r => simp [Bind.bind, Except.bind]
  | ok a => simp [Bind.bind, Except.bind]

@[simp] theorem map_eq_ok {α β : Type} {x : Except Reject α} {f : α → β} {b : β} :
    f <$> x = .ok b ↔ ∃ a, x = .ok a ∧ f a = b := by
  cases x with
  | error r => simp [Functor.map, Except.map]
  | ok a => simp [Functor.map, Except.map]

@[simp] theorem pure_eq_ok {α : Type} {a b : α} : (pure a : Except Reject α) = .ok b ↔ a = b := by
  simp [pure, Except.pure]

@[simp] theorem pinOf_ok {a : Byte} {p : Pin} : pinOf a = .ok p ↔ a = p.code := by
  constructor
  · intro h
    unfold pinOf at h
    split at h <;> cases h <;> exact BitVec.eq_of_toNat_eq ‹_›
  · rintro rfl
    cases p <;> rfl

@[simp] theorem mbxOf_ok {a : Nat} {m : Mbx} : mbxOf a = .ok m ↔ a = m.code.toNat := by
  constructor
  · intro h
    unfold mbxOf at h
    split at h <;> cases h <;> rfl
  · rintro rfl
    cases m <;> rfl

@[simp] theorem addrOf_ok {a : Byte} {x : Addr} : addrOf a = .ok x ↔ a = addrByte x := by
  have h7 : a.getLsbD 7 = true ↔ 128 ≤ a.toNat := by
    rw [BitVec.getLsbD, Nat.testBit_eq_decide_div_mod_eq, decide_eq_true_eq]
    omega
  unfold addrOf addrByte
  simp only [h7]
  constructor
  · intro h
    split at h <;> cases h
    apply BitVec.eq_of_toNat_eq
    simp; omega
  · rintro rfl
    rw [if_neg (by simp; omega)]
    congr 1
    apply BitVec.eq_of_toNat_eq
    simp [x.isLt]

@[simp] theorem payloadOf_ok {ys : List Word} {bs : List Byte} :
    payloadOf ys = .ok bs ↔ ys = bs.map (fun y => y.setWidth 32) := by
  induction ys generalizing bs with
  | nil => cases bs <;> simp [payloadOf]
  | cons y ys ih =>
    have hword (b : Byte) : (y.extractLsb' 8 24 = 0 ∧ y.extractLsb' 0 8 = b) ↔ y = b.setWidth 32 := by
      simp only [← BitVec.toNat_inj, BitVec.extractLsb'_toNat, Nat.shiftRight_eq_div_pow, BitVec.toNat_setWidth]
      simp; omega
    unfold payloadOf
    cases bs with
    | nil =>
      split
      · cases payloadOf ys <;> simp [Except.map]
      · simp
    | cons b bs =>
      simp only [List.map_cons, List.cons.injEq, ← hword b, ← ih]
      split
      · cases payloadOf ys <;> simp_all [Except.map]
      · simp_all

/-! ## The formats (R91) -/

section Formats
variable {w : Word} {ys : List Word} {i : Instr}

theorem formatZ_ok {j : Instr} : formatZ w j = .ok i ↔ (aOf w = 0 ∧ bOf w = 0 ∧ cOf w = 0) ∧ j = i := by
  have : (0 : BitVec 24) = (0 : Byte) ++ (0 : Byte) ++ (0 : Byte) := rfl
  simp [formatZ, nOf_eq_fields, append_bytes_eq]

theorem formatP_ok {k : Pin → Instr} :
    formatP w k = .ok i ↔ bOf w = 0 ∧ cOf w = 0 ∧ ∃ p, aOf w = p.code ∧ k p = i := by
  simp [formatP]

theorem formatPC_ok {k : Pin → Byte → Except Reject Instr} :
    formatPC w k = .ok i ↔ bOf w = 0 ∧ ∃ p, aOf w = p.code ∧ k p (cOf w) = .ok i := by
  simp [formatPC]

theorem formatM_ok {k : Mbx → Instr} :
    formatM w k = .ok i ↔ bOf w = 0 ∧ cOf w = 0 ∧ ∃ m, aOf w = m.code ∧ k m = i := by
  simp [formatM, BitVec.toNat_inj]

theorem formatC_ok {k : Byte → Except Reject Instr} :
    formatC w k = .ok i ↔ aOf w = 0 ∧ bOf w = 0 ∧ k (cOf w) = .ok i := by
  simp [formatC]

theorem formatA_ok {k : Addr → Instr} :
    formatA w k = .ok i ↔ bOf w = 0 ∧ cOf w = 0 ∧ ∃ x, aOf w = addrByte x ∧ k x = i := by
  simp [formatA]

theorem formatAC_ok {k : Addr → Byte → Instr} :
    formatAC w k = .ok i ↔ bOf w = 0 ∧ ∃ x, aOf w = addrByte x ∧ k x (cOf w) = i := by
  simp [formatAC]

theorem formatAB_ok {k : Addr → Byte → Instr} :
    formatAB w k = .ok i ↔ cOf w = 0 ∧ ∃ x, aOf w = addrByte x ∧ k x (bOf w) = i := by
  simp [formatAB]

theorem formatABL_ok {k : Addr → List Byte → Instr} :
    formatABL w ys k = .ok i ↔
      cOf w = 0 ∧ ∃ x, aOf w = addrByte x ∧ ∃ bs : List Byte, ys = bs.map (fun y => y.setWidth 32) ∧ k x bs = i := by
  simp [formatABL]

theorem formatBL_ok {k : List Byte → Instr} :
    formatBL w ys k = .ok i ↔ aOf w = 0 ∧ cOf w = 0 ∧ ∃ bs : List Byte, ys = bs.map (fun y => y.setWidth 32) ∧ k bs = i := by
  simp [formatBL]

end Formats

/-! ## The sub-fields of `c` (R92) -/

/-- The fields of `c` of a `PIN_CFG`, read one by one, are those `pinCfgByte` lays out. -/
theorem eq_pinCfgByte {c : Byte} {d : Dir} {pl : Pull} {ir : Irq} :
    c = pinCfgByte d pl ir ↔
      c.extractLsb' 5 3 = 0 ∧ (if c.getLsbD 0 then Dir.output else .input) = d ∧ pullOf c = .ok pl ∧ irqOf c = .ok ir := by
  revert c
  cases d <;> cases pl <;> cases ir <;> decide +kernel

theorem eq_boolCode {c : Byte} {v : Bool} : c = boolCode v ↔ c.extractLsb' 1 7 = 0 ∧ c.getLsbD 0 = v := by
  revert c
  cases v <;> decide +kernel

theorem eq_irqRegByte {c : Byte} {m : Mbx} {os : Bool} :
    c = irqRegByte m os ↔
      c.extractLsb' 2 2 = 0 ∧ c.extractLsb' 5 3 = 0 ∧ (c.extractLsb' 0 2).toNat = m.code.toNat ∧ c.getLsbD 4 = os := by
  revert c
  cases m <;> cases os <;> decide +kernel

theorem eq_modeByte {c : Byte} {m : BitVec 2} : c = m.setWidth 8 ↔ c.extractLsb' 2 6 = 0 ∧ c.extractLsb' 0 2 = m := by
  simp only [← BitVec.toNat_inj, BitVec.extractLsb'_toNat, Nat.shiftRight_eq_div_pow, BitVec.toNat_setWidth]
  simp; omega

theorem subPinCfg_ok {p : Pin} {c : Byte} {i : Instr} :
    subPinCfg p c = .ok i ↔ ∃ d pl ir, c = pinCfgByte d pl ir ∧ .pinCfg p d pl ir = i := by
  simp only [subPinCfg, bind_eq_ok, mustBeZero_ok, pure_eq_ok, eq_pinCfgByte]
  exact ⟨fun ⟨_, h0, pl, hpl, ir, hir, hi⟩ => ⟨_, pl, ir, ⟨h0, rfl, hpl, hir⟩, hi⟩,
    fun ⟨_, pl, ir, ⟨h0, hd, hpl, hir⟩, hi⟩ => ⟨(), h0, pl, hpl, ir, hir, hd ▸ hi⟩⟩

theorem subPinSet_ok {p : Pin} {c : Byte} {i : Instr} :
    subPinSet p c = .ok i ↔ ∃ v, c = boolCode v ∧ .pinSet p v = i := by
  simp only [subPinSet, bind_eq_ok, mustBeZero_ok, pure_eq_ok, eq_boolCode]
  exact ⟨fun ⟨_, h0, hi⟩ => ⟨_, ⟨h0, rfl⟩, hi⟩, fun ⟨_, ⟨h0, hv⟩, hi⟩ => ⟨(), h0, hv ▸ hi⟩⟩

theorem subIrqReg_ok {p : Pin} {c : Byte} {i : Instr} :
    subIrqReg p c = .ok i ↔ ∃ m os, c = irqRegByte m os ∧ .irqReg p m os = i := by
  simp only [subIrqReg, bind_eq_ok, mustBeZero_ok, pure_eq_ok, mbxOf_ok, eq_irqRegByte]
  exact ⟨fun ⟨_, h0, _, h1, m, hm, hi⟩ => ⟨m, _, ⟨h0, h1, hm, rfl⟩, hi⟩,
    fun ⟨m, _, ⟨h0, h1, hm, hos⟩, hi⟩ => ⟨(), h0, (), h1, m, hm, hos ▸ hi⟩⟩

theorem subRead_ok {c : Byte} {i : Instr} : subRead c = .ok i ↔ ∃ v, c = boolCode v ∧ .i2cMRead v = i := by
  simp only [subRead, bind_eq_ok, mustBeZero_ok, pure_eq_ok, eq_boolCode]
  exact ⟨fun ⟨_, h0, hi⟩ => ⟨_, ⟨h0, rfl⟩, hi⟩, fun ⟨_, ⟨h0, hv⟩, hi⟩ => ⟨(), h0, hv ▸ hi⟩⟩

theorem subMode_ok {c : Byte} {k : BitVec 2 → Instr} {i : Instr} :
    subMode k c = .ok i ↔ ∃ m : BitVec 2, c = m.setWidth 8 ∧ k m = i := by
  simp [subMode, eq_modeByte]

theorem subByte_ok {c : Byte} {k : Byte → Instr} {i : Instr} : subByte k c = .ok i ↔ k c = i := by
  simp [subByte]

/-! ## Decoding what was encoded -/

/-- The payload words of a command (R93). -/
abbrev payloadWordsOf (bs : List Byte) : List Word := bs.map fun y => y.setWidth 32

theorem decodeWord_encodeWord (i : Instr) : decodeWord (encodeWord i) (payloadWordsOf i.payload) = .ok i := by
  cases i with
  | i2cMSetup | i2cMStart | i2cMAcks | i2cMStop | i2cSSetup | i2cSWstart | i2cSRecv | i2cSAck | i2cSWstop | uartTxSetup
  | uartRxSetup | uartRxFrame | uartRxLoop =>
    rw [encodeWord, decodeWord, unitOf_mkWord, opOf_mkWord]
    exact formatZ_ok.mpr ⟨⟨aOf_mkWord .., bOf_mkWord .., cOf_mkWord ..⟩, rfl⟩
  | i2cMWrite x | spiMXchg0 x | spiMXchg1 x | spiMXchg2 x | spiMXchg3 x | spiSResp0 x | spiSResp1 x | spiSResp2 x
  | spiSResp3 x | uartTxByte x =>
    rw [encodeWord, decodeWord, unitOf_mkWord, opOf_mkWord]
    exact formatC_ok.mpr ⟨aOf_mkWord .., bOf_mkWord .., subByte_ok.mpr (by rw [cOf_mkWord])⟩
  | spiMSetup m | spiSSetup m =>
    rw [encodeWord, decodeWord, unitOf_mkWord, opOf_mkWord]
    exact formatC_ok.mpr ⟨aOf_mkWord .., bOf_mkWord .., subMode_ok.mpr ⟨m, cOf_mkWord .., rfl⟩⟩
  | i2cMRead ack =>
    rw [encodeWord, decodeWord, unitOf_mkWord, opOf_mkWord]
    exact formatC_ok.mpr ⟨aOf_mkWord .., bOf_mkWord .., subRead_ok.mpr ⟨ack, cOf_mkWord .., rfl⟩⟩
  | mbxSignal m | mbxWaitclr m | mbxTest m | mbxClear m =>
    rw [encodeWord, decodeWord, unitOf_mkWord, opOf_mkWord]
    exact formatM_ok.mpr ⟨bOf_mkWord .., cOf_mkWord .., m, aOf_mkWord .., rfl⟩
  | pinGet p | irqUnreg p =>
    rw [encodeWord, decodeWord, unitOf_mkWord, opOf_mkWord]
    exact formatP_ok.mpr ⟨bOf_mkWord .., cOf_mkWord .., p, aOf_mkWord .., rfl⟩
  | pinCfg p d pl ir =>
    rw [encodeWord, decodeWord, unitOf_mkWord, opOf_mkWord]
    exact formatPC_ok.mpr ⟨bOf_mkWord .., p, aOf_mkWord .., subPinCfg_ok.mpr ⟨d, pl, ir, cOf_mkWord .., rfl⟩⟩
  | pinSet p v =>
    rw [encodeWord, decodeWord, unitOf_mkWord, opOf_mkWord]
    exact formatPC_ok.mpr ⟨bOf_mkWord .., p, aOf_mkWord .., subPinSet_ok.mpr ⟨v, cOf_mkWord .., rfl⟩⟩
  | irqReg p m os =>
    rw [encodeWord, decodeWord, unitOf_mkWord, opOf_mkWord]
    exact formatPC_ok.mpr ⟨bOf_mkWord .., p, aOf_mkWord .., subIrqReg_ok.mpr ⟨m, os, cOf_mkWord .., rfl⟩⟩
  | waitUs n =>
    rw [encodeWord, decodeWord, unitOf_mkWord, opOf_mkWord, nOf_eq_fields, aOf_mkWord, bOf_mkWord, cOf_mkWord,
      append_bytes_eq.mpr ⟨rfl, rfl, rfl⟩]
    rfl
  | i2cMXfer addr ys =>
    rw [encodeWord, decodeWord, unitOf_mkWord, opOf_mkWord]
    exact formatABL_ok.mpr ⟨cOf_mkWord .., addr, aOf_mkWord .., ys, rfl, rfl⟩
  | uartSend ys =>
    rw [encodeWord, decodeWord, unitOf_mkWord, opOf_mkWord]
    exact formatBL_ok.mpr ⟨aOf_mkWord .., cOf_mkWord .., ys, rfl, rfl⟩
  | i2cMRdn addr count =>
    rw [encodeWord, decodeWord, unitOf_mkWord, opOf_mkWord]
    exact formatAB_ok.mpr ⟨cOf_mkWord .., addr, aOf_mkWord .., by rw [bOf_mkWord]⟩
  | i2cSDisp lsa v =>
    rw [encodeWord, decodeWord, unitOf_mkWord, opOf_mkWord]
    exact formatAC_ok.mpr ⟨bOf_mkWord .., lsa, aOf_mkWord .., by rw [cOf_mkWord]⟩
  | i2cSServe lsa =>
    rw [encodeWord, decodeWord, unitOf_mkWord, opOf_mkWord]
    exact formatA_ok.mpr ⟨bOf_mkWord .., cOf_mkWord .., lsa, aOf_mkWord .., rfl⟩

/-- The decoder takes as many payload words of a well-formed command as it carries. -/
theorem payloadWords_encodeWord {i : Instr} (h : i.wf = true) : payloadWords (encodeWord i) = i.payload.length := by
  have hs : EncodedWord.Statement i := by
    cases i with
    | i2cMXfer addr ys => exact EncodedWord.i2cMXfer addr ys
    | uartSend ys => exact EncodedWord.uartSend ys
    | _ => exact fun _ => ⟨by rw [encodeWord, unitOf_mkWord]; decide, by rw [encodeWord, payloadWords_mkWord]; rfl⟩
  exact (hs h).2

/-- Settles O2: the decoder takes the command's own payload words from the stream, and each row's format reads back the fields
its encoder laid out. -/
theorem decodeEncode : Obligations.DecodeEncode := by
  unfold Obligations.DecodeEncode
  intro i rest hwf
  have hcount : payloadWords (encodeWord i) = (payloadWordsOf i.payload).length := by
    rw [payloadWords_encodeWord hwf, List.length_map]
  show decode (encodeWord i :: (payloadWordsOf i.payload ++ rest)) = .instr i
  rw [decode, hcount, List.take_left, if_neg (lt_irrefl _), decodeWord_encodeWord]

/-! ## Whatever decodes was encoded -/

theorem countByte_toNat {b : Byte} {n : Nat} (h : b.toNat = n) : b = countByte n := by
  subst h; simp [countByte]

/-- A word whose fields are those the encoder lays out is the command's word. -/
theorem eq_encodeWord {w : Word} {i : Instr} {u o : BitVec 4} {a b c : Byte}
    (henc : encodeWord i = mkWord u o a b c) (hu : (unitOf w).toNat = u.toNat) (ho : (opOf w).toNat = o.toNat)
    (ha : aOf w = a) (hb : bOf w = b) (hc : cOf w = c) : w = encodeWord i :=
  (eq_mkWord (BitVec.eq_of_toNat_eq hu) (BitVec.eq_of_toNat_eq ho) ha hb hc).trans henc.symm

/-- A word that decodes to a command is the command's word, and its payload words are the command's. The cases are the rows of the
opcode map in its order. -/
theorem encodeWord_of_decodeWord {w : Word} {ys : List Word} {i : Instr} (hlen : ys.length = payloadWords w)
    (h : decodeWord w ys = .ok i) : w = encodeWord i ∧ ys = payloadWordsOf i.payload := by
  unfold decodeWord at h
  split at h
  case h_7 | h_12 | h_28 | h_39 | h_46 | h_47 => cases h
  all_goals
    rename_i hunit hop
    rw [payloadWords, hunit, hop] at hlen
  case h_19 =>
    obtain ⟨hc, x, ha, bs, rfl, rfl⟩ := formatABL_ok.mp h
    have hb : bOf w = countByte bs.length := countByte_toNat (by simpa using hlen.symm)
    exact ⟨eq_encodeWord rfl hunit hop ha hb hc, rfl⟩
  case h_42 =>
    obtain ⟨ha, hc, bs, rfl, rfl⟩ := formatBL_ok.mp h
    have hb : bOf w = countByte bs.length := countByte_toNat (by simpa using hlen.symm)
    exact ⟨eq_encodeWord rfl hunit hop ha hb hc, rfl⟩
  all_goals obtain rfl : ys = [] := List.length_eq_zero_iff.mp hlen
  case h_1 =>
    obtain ⟨hb, p, ha, hi⟩ := formatPC_ok.mp h
    obtain ⟨d, pl, ir, hc, rfl⟩ := subPinCfg_ok.mp hi
    exact ⟨eq_encodeWord rfl hunit hop ha hb hc, rfl⟩
  case h_2 =>
    obtain ⟨hb, p, ha, hi⟩ := formatPC_ok.mp h
    obtain ⟨v, hc, rfl⟩ := subPinSet_ok.mp hi
    exact ⟨eq_encodeWord rfl hunit hop ha hb hc, rfl⟩
  case h_4 =>
    obtain ⟨hb, p, ha, hi⟩ := formatPC_ok.mp h
    obtain ⟨m, os, hc, rfl⟩ := subIrqReg_ok.mp hi
    exact ⟨eq_encodeWord rfl hunit hop ha hb hc, rfl⟩
  case h_3 | h_5 =>
    obtain ⟨hb, hc, p, ha, rfl⟩ := formatP_ok.mp h
    exact ⟨eq_encodeWord rfl hunit hop ha hb hc, rfl⟩
  case h_6 =>
    cases h
    obtain ⟨ha, hb, hc⟩ := append_bytes_eq.mp (nOf_eq_fields w).symm
    exact ⟨eq_encodeWord rfl hunit hop ha hb hc, rfl⟩
  case h_8 | h_9 | h_10 | h_11 =>
    obtain ⟨hb, hc, m, ha, rfl⟩ := formatM_ok.mp h
    exact ⟨eq_encodeWord rfl hunit hop ha hb hc, rfl⟩
  case h_17 =>
    obtain ⟨ha, hb, hi⟩ := formatC_ok.mp h
    obtain ⟨v, hc, rfl⟩ := subRead_ok.mp hi
    exact ⟨eq_encodeWord rfl hunit hop ha hb hc, rfl⟩
  case h_29 | h_30 =>
    obtain ⟨ha, hb, hi⟩ := formatC_ok.mp h
    obtain ⟨m, hc, rfl⟩ := subMode_ok.mp hi
    exact ⟨eq_encodeWord rfl hunit hop ha hb hc, rfl⟩
  case h_20 =>
    obtain ⟨hc, x, ha, rfl⟩ := formatAB_ok.mp h
    exact ⟨eq_encodeWord rfl hunit hop ha rfl hc, rfl⟩
  case h_25 =>
    obtain ⟨hb, x, ha, rfl⟩ := formatAC_ok.mp h
    exact ⟨eq_encodeWord rfl hunit hop ha hb rfl, rfl⟩
  case h_27 =>
    obtain ⟨hb, hc, x, ha, rfl⟩ := formatA_ok.mp h
    exact ⟨eq_encodeWord rfl hunit hop ha hb hc, rfl⟩
  case h_13 | h_14 | h_16 | h_18 | h_21 | h_22 | h_23 | h_24 | h_26 | h_40 | h_43 | h_44 | h_45 =>
    obtain ⟨⟨ha, hb, hc⟩, rfl⟩ := formatZ_ok.mp h
    exact ⟨eq_encodeWord rfl hunit hop ha hb hc, rfl⟩
  all_goals
    obtain ⟨ha, hb, hi⟩ := formatC_ok.mp h
    obtain rfl := subByte_ok.mp hi
    exact ⟨eq_encodeWord rfl hunit hop ha hb rfl, rfl⟩

/-- The payload count the command word gives is an 8-bit field. -/
theorem payloadWords_le (w : Word) : payloadWords w ≤ 255 := by
  unfold payloadWords
  have := (bOf w).isLt
  split <;> omega

/-- A stream that decodes to a command begins with a word and the payload words it asks for, which decode to it. -/
theorem decode_instr {ws : List Word} {i : Instr} (h : decode ws = .instr i) :
    ∃ w ys rest, ws = w :: (ys ++ rest) ∧ ys.length = payloadWords w ∧ decodeWord w ys = .ok i := by
  cases ws with
  | nil => cases h
  | cons w ws =>
    rw [decode] at h
    split at h
    · cases h
    · next hlen =>
      have hall : (ws.take (payloadWords w)).length = payloadWords w := by rw [List.length_take] at hlen ⊢; omega
      refine ⟨w, ws.take (payloadWords w), ws.drop (payloadWords w), by rw [List.take_append_drop], hall, ?_⟩
      split at h
      · next hi => cases h; exact hi
      · cases h

/-- Settles O3: the stream begins with words that decode to the command, and row by row those are the words the encoder makes. -/
theorem encodeDecode : Obligations.EncodeDecode := by
  unfold Obligations.EncodeDecode
  intro ws i h
  obtain ⟨w, ys, rest, rfl, hlen, hi⟩ := decode_instr h
  obtain ⟨hw, hys⟩ := encodeWord_of_decodeWord hlen hi
  refine ⟨?wf, rest, by rw [hw, hys]; rfl⟩
  case wf =>
    have hcount : i.payload.length = payloadWords w := by rw [← hlen, hys, List.length_map]
    exact decide_eq_true (hcount ▸ payloadWords_le w)

/-! ## Whatever is not reserved decodes -/

theorem exists_pinOf {a : Byte} (h : ¬ 7 < a.toNat) : ∃ p : Pin, pinOf a = .ok p := by
  unfold pinOf
  generalize a.toNat = n at h ⊢
  have : n ≤ 7 := by omega
  interval_cases n <;> exact ⟨_, rfl⟩

theorem exists_mbxOf {a : Nat} (h : ¬ 2 < a) : ∃ m, mbxOf a = .ok m := by
  have : a ≤ 2 := by omega
  interval_cases a <;> exact ⟨_, rfl⟩

theorem exists_addrOf {a : Byte} (h : ¬ 127 < a.toNat) : ∃ x, addrOf a = .ok x :=
  ⟨a.setWidth 7, addrOf_ok.mpr (by apply BitVec.eq_of_toNat_eq; simp [addrByte]; omega)⟩

theorem exists_payloadOf {ys : List Word} (h : ¬ ∃ y ∈ ys, 255 < y.toNat) : ∃ bs, payloadOf ys = .ok bs := by
  refine ⟨ys.map (·.setWidth 8), payloadOf_ok.mpr ?_⟩
  have hword : ∀ y ∈ ys, (y.setWidth 8).setWidth 32 = y := by
    intro y hy
    have : ¬ 255 < y.toNat := fun hlt => h ⟨y, hy, hlt⟩
    apply BitVec.eq_of_toNat_eq
    simp; omega
  rw [List.map_map]
  exact ((List.map_congr_left hword).trans (List.map_id' ys)).symm

/-- The code of `PULL` and `IRQ` at bit `start` of `c`. -/
theorem two_bits {c : Byte} {start : Nat} : (c.extractLsb' start 2).toNat = c.toNat / 2 ^ start % 4 := by
  rw [BitVec.extractLsb'_toNat, Nat.shiftRight_eq_div_pow]

theorem exists_pullOf {c : Byte} (h : c.toNat / 2 % 4 ≠ 3) : ∃ pl, pullOf c = .ok pl := by
  unfold pullOf
  rw [two_bits, pow_one]
  have : c.toNat / 2 % 4 ≤ 2 := by omega
  interval_cases c.toNat / 2 % 4 <;> exact ⟨_, rfl⟩

theorem exists_irqOf {c : Byte} (h : c.toNat / 8 % 4 ≠ 3) : ∃ ir, irqOf c = .ok ir := by
  unfold irqOf
  rw [two_bits]
  have : c.toNat / 2 ^ 3 % 4 ≤ 2 := by omega
  interval_cases c.toNat / 2 ^ 3 % 4 <;> exact ⟨_, rfl⟩

/-- The bits of `c` from `start` up are 0 when `c` is small. -/
theorem topBits_zero {c : Byte} {start len : Nat} (h : c.toNat < 2 ^ start) : c.extractLsb' start len = 0 := by
  apply BitVec.eq_of_toNat_eq
  rw [BitVec.extractLsb'_toNat, Nat.shiftRight_eq_div_pow, Nat.div_eq_of_lt h]
  simp

theorem exists_subPinCfg (p : Pin) {c : Byte} (h : ¬ (31 < c.toNat ∨ c.toNat / 2 % 4 = 3 ∨ c.toNat / 8 % 4 = 3)) :
    ∃ i, subPinCfg p c = .ok i := by
  obtain ⟨pl, hpl⟩ := exists_pullOf fun hp => h (.inr (.inl hp))
  obtain ⟨ir, hir⟩ := exists_irqOf fun hi => h (.inr (.inr hi))
  exact ⟨_, subPinCfg_ok.mpr ⟨_, pl, ir, eq_pinCfgByte.mpr ⟨topBits_zero (by omega), rfl, hpl, hir⟩, rfl⟩⟩

theorem exists_subPinSet (p : Pin) {c : Byte} (h : ¬ 1 < c.toNat) : ∃ i, subPinSet p c = .ok i :=
  ⟨_, subPinSet_ok.mpr ⟨_, eq_boolCode.mpr ⟨topBits_zero (by omega), rfl⟩, rfl⟩⟩

theorem exists_subRead {c : Byte} (h : ¬ 1 < c.toNat) : ∃ i, subRead c = .ok i :=
  ⟨_, subRead_ok.mpr ⟨_, eq_boolCode.mpr ⟨topBits_zero (by omega), rfl⟩, rfl⟩⟩

theorem exists_subMode (k : BitVec 2 → Instr) {c : Byte} (h : ¬ 3 < c.toNat) : ∃ i, subMode k c = .ok i :=
  ⟨_, subMode_ok.mpr ⟨_, eq_modeByte.mpr ⟨topBits_zero (by omega), rfl⟩, rfl⟩⟩

theorem exists_subIrqReg (p : Pin) {c : Byte} (h : ¬ (31 < c.toNat ∨ c.toNat / 4 % 4 ≠ 0 ∨ c.toNat % 4 = 3)) :
    ∃ i, subIrqReg p c = .ok i := by
  have hmid : c.extractLsb' 2 2 = 0 := BitVec.eq_of_toNat_eq (by rw [two_bits]; simp; omega)
  obtain ⟨m, hm⟩ := (exists_mbxOf (by rw [two_bits]; omega) : ∃ m, mbxOf (c.extractLsb' 0 2).toNat = .ok m)
  exact ⟨_, subIrqReg_ok.mpr ⟨m, _, eq_irqRegByte.mpr ⟨hmid, topBits_zero (by omega), mbxOf_ok.mp hm, rfl⟩, rfl⟩⟩

theorem exists_formatPC {w : Word} {k : Pin → Byte → Except Reject Instr} (h : ¬ Format.pc.broken w)
    (hk : ∀ p, ∃ i, k p (cOf w) = .ok i) : ∃ i, formatPC w k = .ok i := by
  obtain ⟨hb, ha⟩ := not_or.mp h
  obtain ⟨p, hp⟩ := exists_pinOf ha
  obtain ⟨i, hi⟩ := hk p
  exact ⟨i, formatPC_ok.mpr ⟨not_not.mp hb, p, pinOf_ok.mp hp, hi⟩⟩

theorem exists_formatC {w : Word} {k : Byte → Except Reject Instr} (h : ¬ Format.c.broken w)
    (hk : ∃ i, k (cOf w) = .ok i) : ∃ i, formatC w k = .ok i := by
  obtain ⟨ha, hb⟩ := not_or.mp h
  obtain ⟨i, hi⟩ := hk
  exact ⟨i, formatC_ok.mpr ⟨not_not.mp ha, not_not.mp hb, hi⟩⟩

/-- Where the opcode map has rows. -/
theorem formatOf_some {u o : Nat} {f : Format} (h : formatOf u o = some f) :
    (u = 0 ∧ o < 6) ∨ (u = 1 ∧ o < 4) ∨ (u = 2 ∧ o < 15) ∨ (u = 3 ∧ o < 12 ∧ o ≠ 2 ∧ o ≠ 3) ∨ (u = 4 ∧ o < 6) := by
  have below {rows : List Format} (h : rows[o]? = some f) : o < rows.length := (List.getElem?_eq_some_iff.mp h).1
  unfold formatOf at h
  split at h
  · exact .inl ⟨rfl, below h⟩
  · exact .inr (.inl ⟨rfl, below h⟩)
  · exact .inr (.inr (.inl ⟨rfl, below h⟩))
  · refine .inr (.inr (.inr (.inl ⟨rfl, ?_, ?_, ?_⟩)))
    · exact (List.getElem?_eq_some_iff.mp (Option.join_eq_some_iff.mp h)).1
    · rintro rfl; cases h
    · rintro rfl; cases h
  · exact .inr (.inr (.inr (.inr ⟨rfl, below h⟩)))
  · cases h

/-- A word whose row's format and sub-fields are in order, with payload words in order, decodes. The cases are the rows of the opcode
map in its order; a word with no row has no format. -/
theorem exists_decodeWord {w : Word} {ys : List Word} {f : Format}
    (hrow : formatOf (unitOf w).toNat (opOf w).toNat = some f) (hf : ¬ f.broken w)
    (hsub : ¬ subFieldBroken (unitOf w).toNat (opOf w).toNat (cOf w)) (hpay : ¬ ∃ y ∈ ys, 255 < y.toNat) :
    ∃ i, decodeWord w ys = .ok i := by
  unfold decodeWord
  split
  case h_7 | h_12 | h_28 | h_39 | h_46 | h_47 =>
    have hrows := formatOf_some hrow
    clear hrow hf hsub
    grind
  all_goals
    rename_i hunit hop
    rw [hunit, hop] at hrow hsub
    cases hrow
  case h_1 => exact exists_formatPC hf fun p => exists_subPinCfg p hsub
  case h_2 => exact exists_formatPC hf fun p => exists_subPinSet p hsub
  case h_4 => exact exists_formatPC hf fun p => exists_subIrqReg p hsub
  case h_3 | h_5 =>
    obtain ⟨hb, hc, ha⟩ : bOf w = 0 ∧ cOf w = 0 ∧ ¬ 7 < (aOf w).toNat := by simpa [Format.broken, not_or] using hf
    obtain ⟨p, hp⟩ := exists_pinOf ha
    exact ⟨_, formatP_ok.mpr ⟨hb, hc, p, pinOf_ok.mp hp, rfl⟩⟩
  case h_6 => exact ⟨_, rfl⟩
  case h_8 | h_9 | h_10 | h_11 =>
    obtain ⟨hb, hc, ha⟩ : bOf w = 0 ∧ cOf w = 0 ∧ ¬ 2 < (aOf w).toNat := by simpa [Format.broken, not_or] using hf
    obtain ⟨m, hm⟩ := exists_mbxOf ha
    exact ⟨_, formatM_ok.mpr ⟨hb, hc, m, BitVec.eq_of_toNat_eq (mbxOf_ok.mp hm), rfl⟩⟩
  case h_19 =>
    obtain ⟨hc, ha⟩ : cOf w = 0 ∧ ¬ 127 < (aOf w).toNat := by simpa [Format.broken, not_or] using hf
    obtain ⟨x, hx⟩ := exists_addrOf ha
    obtain ⟨bs, hbs⟩ := exists_payloadOf hpay
    exact ⟨_, formatABL_ok.mpr ⟨hc, x, addrOf_ok.mp hx, bs, payloadOf_ok.mp hbs, rfl⟩⟩
  case h_20 =>
    obtain ⟨hc, ha⟩ : cOf w = 0 ∧ ¬ 127 < (aOf w).toNat := by simpa [Format.broken, not_or] using hf
    obtain ⟨x, hx⟩ := exists_addrOf ha
    exact ⟨_, formatAB_ok.mpr ⟨hc, x, addrOf_ok.mp hx, rfl⟩⟩
  case h_25 =>
    obtain ⟨hb, ha⟩ : bOf w = 0 ∧ ¬ 127 < (aOf w).toNat := by simpa [Format.broken, not_or] using hf
    obtain ⟨x, hx⟩ := exists_addrOf ha
    exact ⟨_, formatAC_ok.mpr ⟨hb, x, addrOf_ok.mp hx, rfl⟩⟩
  case h_27 =>
    obtain ⟨hb, hc, ha⟩ : bOf w = 0 ∧ cOf w = 0 ∧ ¬ 127 < (aOf w).toNat := by simpa [Format.broken, not_or] using hf
    obtain ⟨x, hx⟩ := exists_addrOf ha
    exact ⟨_, formatA_ok.mpr ⟨hb, hc, x, addrOf_ok.mp hx, rfl⟩⟩
  case h_42 =>
    obtain ⟨ha, hc⟩ : aOf w = 0 ∧ cOf w = 0 := by simpa [Format.broken, not_or] using hf
    obtain ⟨bs, hbs⟩ := exists_payloadOf hpay
    exact ⟨_, formatBL_ok.mpr ⟨ha, hc, bs, payloadOf_ok.mp hbs, rfl⟩⟩
  case h_13 | h_14 | h_16 | h_18 | h_21 | h_22 | h_23 | h_24 | h_26 | h_40 | h_43 | h_44 | h_45 =>
    have hn : nOf w = 0 := not_not.mp hf
    exact ⟨_, formatZ_ok.mpr ⟨append_bytes_eq.mp ((nOf_eq_fields w).symm.trans hn), rfl⟩⟩
  case h_17 => exact exists_formatC hf (exists_subRead hsub)
  case h_29 | h_30 => exact exists_formatC hf (exists_subMode _ hsub)
  all_goals exact exists_formatC hf ⟨_, rfl⟩

/-- Settles O4: a reserved word is rejected for one of R97's reasons; with none of them each part of the decoder accepts. -/
theorem reservedExactly : Obligations.ReservedExactly := by
  unfold Obligations.ReservedExactly
  intro w ys rest hlen
  refine ⟨decode_of_isReserved rest hlen, fun hres => ?_⟩
  obtain ⟨hrow, hsub, hpay⟩ : _ ∧ ¬ subFieldBroken _ _ _ ∧ _ := by simpa only [isReserved, not_or] using hres
  have hcount : payloadWords w = ys.length := (payloadWords_eq_payloadCount w).trans hlen.symm
  cases hf : formatOf (unitOf w).toNat (opOf w).toNat with
  | none => simp [hf] at hrow
  | some f =>
    obtain ⟨i, hi⟩ := exists_decodeWord hf (by simpa [hf] using hrow) hsub hpay
    exact ⟨i, by rw [decode, hcount, List.take_left, hi, if_neg (lt_irrefl _)]⟩

/-- Settles O1: each stream is short and closed, and the decoder computes its command. -/
theorem specWordsDecode : Obligations.SpecWordsDecode := by
  unfold Obligations.SpecWordsDecode
  decide

end Sys2Proof.Machine
end

section
/-! One step of the machine: what `step` and `exec` are, that no step goes back, and the invariant. -/

namespace Sys2Proof.Machine

/-! ## What `exec` and `step` are -/

/-- A command presented to a busy block changes nothing; an idle block refuses it, or accepts and runs it. -/
theorem exec_cases (i : Instr) (s : State) :
    (s.seq.busy = true ∧ exec i s = .next s) ∨
    (s.seq.busy = false ∧ exec i s = .next (s.refuse i.lengthWords)) ∨
    (s.seq.busy = false ∧ ∃ prog ret, exec i s = .next (s.accept i prog ret).runOn) := by
  obtain ⟨gate, prog, ret, hexec, -⟩ := exec_gated i s
  rw [hexec]
  unfold command
  cases hb : s.seq.busy with
  | true => exact .inl ⟨rfl, rfl⟩
  | false =>
    cases hg : gate s && i.wf with
    | true => exact .inr (.inr ⟨rfl, prog, ret, by simp⟩)
    | false => exact .inr (.inl ⟨rfl, by simp⟩)

/-- What one step can be: the running command goes on, the idle block's environment acts (or nothing does), a command is presented,
or a reserved one is refused. -/
theorem step_cases (s : State) :
    (s.seq.busy = true ∧ step s = .next s.runOn) ∨
    (s.seq.busy = false ∧ step s = .next s.envStep) ∨
    (s.seq.busy = false ∧ ∃ i, step s = exec i s) ∨
    (s.seq.busy = false ∧ ∃ len, step s = .next (s.refuse len)) := by
  unfold step
  cases hb : s.seq.busy with
  | true => exact .inl ⟨rfl, rfl⟩
  | false =>
    cases he : s.envMoves with
    | true => exact .inr (.inl ⟨rfl, by simp⟩)
    | false =>
      cases hd : decode s.pendingWords with
      | instr i => exact .inr (.inr (.inl ⟨rfl, i, by simp⟩))
      | reserved why len => exact .inr (.inr (.inr ⟨rfl, len, by simp⟩))
      | incomplete => exact .inr (.inl ⟨rfl, by simp⟩)

/-- Settles O6: a busy block's step is its run, and the turn of an undisturbed idle block is the decoded command's. -/
theorem stepRunsTheCommand : Obligations.StepRunsTheCommand := by
  unfold Obligations.StepRunsTheCommand
  refine ⟨fun s i hs hdecode _ => ?_, fun s hb => by simp [step, hb]⟩
  simp [step, hs.1, State.undisturbed_envMoves hs, hdecode]

/-- Settles O7: every command goes through `command`, which looks at `SEQ_BUSY` first. -/
theorem busyAcceptsNothing : Obligations.BusyAcceptsNothing := by
  unfold Obligations.BusyAcceptsNothing
  intro i s hb
  obtain ⟨gate, prog, ret, hexec, -⟩ := exec_gated i s
  rw [hexec, command_busy i gate prog ret s hb]

theorem exec_next (i : Instr) (s : State) : ∃ t, exec i s = .next t := by
  rcases exec_cases i s with ⟨-, h⟩ | ⟨-, h⟩ | ⟨-, prog, ret, h⟩
  · exact ⟨_, h⟩
  · exact ⟨_, h⟩
  · exact ⟨_, h⟩

/-- Settles O8: each of the cases of a step ends in a next state. -/
theorem nothingStops : Obligations.NothingStops := by
  unfold Obligations.NothingStops
  refine ⟨exec_next, fun s => ?_⟩
  rcases step_cases s with ⟨-, h⟩ | ⟨-, h⟩ | ⟨-, i, h⟩ | ⟨-, len, h⟩
  · exact ⟨_, h⟩
  · exact ⟨_, h⟩
  · rw [h]; exact exec_next i s
  · exact ⟨_, h⟩

/-- Settles O26: the gate of `MBX_SIGNAL` never opens. -/
theorem mbxSignal : Obligations.MbxSignal := by
  unfold Obligations.MbxSignal
  intro m s hidle
  exact ⟨_, command_refused (.mbxSignal m) gateNever [] .ok s hidle rfl, State.refuse_refused _ s⟩

/-- With the reset input next in the plan, a step is the reset, and the rest of the plan stays. -/
theorem step_reset {s : State} {as : List EnvAct} (h : s.env.plan = .reset :: as) :
    step s = .next (s.resetInput.setPlan as) := by
  cases hb : s.seq.busy with
  | true =>
    have hrun : s.runOn = (s.resetInput.setPlan as) := by
      unfold State.runOn
      rw [h, runPlan, if_pos (by simpa using hb)]
      exact runPlan_idle as _ rfl rfl
    rw [step, if_pos hb, hrun]
  | false =>
    have hmoves : s.envMoves = true := by simp [State.envMoves, h]
    simp only [step, hb, hmoves, State.envStep, h]
    rfl

/-- Settles O13: the step is the reset input, and each register is the reset state's. -/
theorem resetInput : Obligations.ResetInput := by
  unfold Obligations.ResetInput
  intro s as hplan
  refine ⟨_, step_reset hplan, ?_⟩
  simp [PinRegs.reset, Seq.reset, I2c.reset, Spi.reset, Uart.reset]
  rfl

end Sys2Proof.Machine
end

section
/-! What every step keeps: the principle, no step goes back (20_memory.md R70, 10_state.md R23, 00_scope.md R13), and the invariant
of the machine (10_state.md R21, 45_uart.md R247). -/

namespace Sys2Proof.Machine

/-! ## The principle -/

/-- Everything a run without a reset is made of keeps `P`. -/
structure KeptByRun (P : State → Prop) : Prop where
  setPlan : ∀ s as, P s → P (s.setPlan as)
  seqStep : ∀ s, s.seq.busy = true → s.seq.waitRem = 0 → P s → P s.seqStep
  elapse : ∀ s d, s.seq.busy = true → s.seq.waitRem ≠ 0 → P s → P (s.elapse d)
  addTime : ∀ s d, P s → P (s.addTime d)
  driveExt : ∀ s p e, P s → P (s.driveExt p e)

/-- Everything a step of the machine is made of keeps `P`. -/
structure KeptByAll (P : State → Prop) : Prop extends KeptByRun P where
  resetInput : ∀ s, P s → P s.resetInput
  refuse : ∀ s len, P s → P (s.refuse len)
  accept : ∀ s i prog ret, s.seq.busy = false → P s → P (s.accept i prog ret)

namespace KeptByRun

theorem advance {P : State → Prop} (h : KeptByRun P) (s : State) (hb : s.seq.busy = true) (hs : P s) : P s.advance := by
  unfold State.advance
  split
  · next h0 => exact h.seqStep s hb h0 hs
  · next h0 => exact h.elapse s _ hb h0 hs

theorem apply {P : State → Prop} (h : KeptByRun P) {a : EnvAct} (ha : a ≠ .reset) (s : State) (hs : P s) :
    P (a.apply s) := by
  cases a with
  | turn =>
    simp only [EnvAct.apply]
    split
    · next hc =>
      simp only [Bool.and_eq_true, decide_eq_true_eq] at hc
      exact h.seqStep s hc.1 hc.2 hs
    · exact hs
  | drive p e => exact h.driveExt s p e hs
  | pass d =>
    simp only [EnvAct.apply, State.passTime]
    split
    · next hb =>
      split
      · split
        · exact h.addTime s d hs
        · exact hs
      · next h0 => exact h.elapse s d hb h0 hs
    · exact h.addTime s d hs
  | reset => exact absurd rfl ha

theorem runOn {P : State → Prop} (h : KeptByRun P) (s : State) (hp : noReset s.env.plan) (hs : P s) : P s.runOn :=
  runPlan_keeps h.setPlan h.advance _ _ (fun _ ha s _ hs => h.apply (fun e => hp (e ▸ ha)) s hs) (h.setPlan s _ hs)

end KeptByRun

namespace KeptByAll

theorem apply {P : State → Prop} (h : KeptByAll P) (a : EnvAct) (s : State) (hs : P s) : P (a.apply s) := by
  by_cases ha : a = .reset
  · rw [ha]; exact h.resetInput s hs
  · exact h.toKeptByRun.apply ha s hs

theorem runOn {P : State → Prop} (h : KeptByAll P) (s : State) (hs : P s) : P s.runOn :=
  runPlan_keeps h.setPlan h.advance _ _ (fun a _ s _ hs => h.apply a s hs) (h.setPlan s _ hs)

theorem exec {P : State → Prop} (h : KeptByAll P) (i : Instr) {s t : State} (hs : P s) (ht : exec i s = .next t) : P t := by
  rcases exec_cases i s with ⟨-, he⟩ | ⟨-, he⟩ | ⟨hb, prog, ret, he⟩ <;> rw [he] at ht <;> cases ht
  · exact hs
  · exact h.refuse s _ hs
  · exact h.runOn _ (h.accept s i prog ret hb hs)

theorem step {P : State → Prop} (h : KeptByAll P) {s t : State} (hs : P s) (ht : step s = .next t) : P t := by
  rcases step_cases s with ⟨-, he⟩ | ⟨-, he⟩ | ⟨-, i, he⟩ | ⟨-, len, he⟩ <;> rw [he] at ht
  · cases ht; exact h.runOn s hs
  · cases ht
    unfold State.envStep
    split
    · exact hs
    · exact h.apply _ _ (h.setPlan s _ hs)
  · exact h.exec i hs ht
  · cases ht; exact h.refuse s len hs

end KeptByAll

/-! ## No step goes back -/

/-- From `s` to `t` the parameters and the stream stay, and `NOW`, `CP` and `TRACE` only grow. -/
structure Forward (s t : State) : Prop where
  cfg : t.cfg = s.cfg
  stream : t.env.stream = s.env.stream
  now : s.env.now ≤ t.env.now
  cp : s.env.cp ≤ t.env.cp
  trace : s.env.trace <:+ t.env.trace

namespace Forward

theorem refl (s : State) : Forward s s := ⟨rfl, rfl, le_refl _, le_refl _, List.suffix_refl _⟩

theorem trans {s t u : State} (h : Forward s t) (k : Forward t u) : Forward s u :=
  ⟨k.cfg.trans h.cfg, k.stream.trans h.stream, h.now.trans k.now, h.cp.trans k.cp, h.trace.trans k.trace⟩

/-- Nothing that only differs in what these fields do not hold goes back. -/
theorem of_eq {s t : State} (hc : t.cfg = s.cfg) (hs : t.env.stream = s.env.stream) (hn : t.env.now = s.env.now)
    (hp : t.env.cp = s.env.cp) (ht : t.env.trace = s.env.trace) : Forward s t :=
  ⟨hc, hs, hn.ge, hp.ge, ht ▸ List.suffix_refl _⟩

/-- An entry more in `TRACE`, and nothing else of these fields. -/
theorem of_cons {s t : State} {e : Stamped} (ht : t.env.trace = e :: s.env.trace) (hc : t.cfg = s.cfg)
    (hs : t.env.stream = s.env.stream) (hn : t.env.now = s.env.now) (hp : t.env.cp = s.env.cp) : Forward s t :=
  ⟨hc, hs, hn.ge, hp.ge, ht ▸ List.suffix_cons _ _⟩

/-- The same from a state that differs in nothing of these fields. -/
theorem after {s u t : State} (h : Forward u t) (hc : u.cfg = s.cfg) (hs : u.env.stream = s.env.stream)
    (hn : u.env.now = s.env.now) (hp : u.env.cp = s.env.cp) (ht : u.env.trace = s.env.trace) : Forward s t :=
  (of_eq hc hs hn hp ht).trans h

theorem log (s : State) (e : Event) : Forward s (s.log e) := of_cons rfl rfl rfl rfl rfl

theorem edge {s t : State} (h : EdgeOnly s t) : Forward s t := by
  obtain ⟨es, he, -⟩ := h.trace
  exact ⟨h.cfg, h.stream, h.now.ge, h.cp.ge, he ▸ List.suffix_append _ _⟩

theorem dropCfg (s : State) : Forward s s.dropCfg := by
  unfold State.dropCfg
  split <;> exact of_eq rfl rfl rfl rfl rfl

theorem afterRead (p : Pin) (s : State) : Forward s (s.afterRead p) := by
  unfold State.afterRead
  split
  · exact (edge s.dropX_edgeOnly).trans (log _ _)
  · exact log _ _

theorem onConfigFailure (use : CfgUse) (s : State) : Forward s (s.onConfigFailure use) := by
  cases use <;> exact of_eq rfl rfl rfl rfl rfl

theorem reportByte (s : State) (j : Nat) : Forward s (s.reportByte j) := by
  unfold State.reportByte
  split
  · exact log _ _
  · exact (log _ _).trans (of_eq rfl rfl rfl rfl rfl)

theorem report (l : List Nat) (s : State) : Forward s (l.foldl State.reportByte s) := by
  induction l generalizing s with
  | nil => exact refl s
  | cons j l ih => exact (reportByte s j).trans (ih _)

theorem rxStop (s : State) : Forward s s.rxStop := by
  have happend : Forward s s.rxAppend := of_eq rfl rfl rfl rfl rfl
  unfold State.rxStop
  split
  · split
    · unfold State.bufferFull
      split
      · exact happend.trans ((report _ _).trans (of_eq rfl rfl rfl rfl rfl))
      · exact happend.trans (of_eq rfl rfl rfl rfl rfl)
    · exact happend
  · exact of_eq rfl rfl rfl rfl rfl

theorem reg (r : RegOp) (s : State) : Forward s (r.apply s) := by
  cases r with
  | mStateWrite => simp only [RegOp.apply]; split <;> exact of_eq rfl rfl rfl rfl rfl
  | emitDispatch lsa =>
    simp only [RegOp.apply, State.emitDispatch]
    split
    · exact refl s
    · exact log _ _
  | rxStop => exact rxStop s
  | emitFrameDone => exact log _ _
  | _ => exact of_eq rfl rfl rfl rfl rfl

theorem eval (c : SpinCond) (s : State) : Forward s (c.eval s).2 := by
  cases c with
  | flag m => exact refl s
  | flagClear m =>
    simp only [SpinCond.eval]
    split
    · exact ⟨rfl, rfl, le_refl _, le_refl _, List.suffix_cons _ _⟩
    · exact refl s
  | level p v => exact afterRead p s
  | startSeen => exact afterRead .scl s

theorem run (op : Micro) (s : State) : Forward s (op.run s) := by
  cases op with
  | reg r => exact reg r s
  | pinCfg p d pl ir use =>
    simp only [Micro.run, State.pinCfg]
    split
    · exact (dropCfg s).trans ((log _ _).trans (edge (State.movePin_edgeOnly _ _ _)))
    · exact (dropCfg s).trans ((log _ _).trans (onConfigFailure use _))
  | pinSet p v => exact (log _ _).trans (edge (State.movePin_edgeOnly _ _ _))
  | sample p d => exact (afterRead p s).trans (by cases d <;> exact of_eq rfl rfl rfl rfl rfl)
  | irqReg p m os use =>
    simp only [Micro.run, State.irqReg]
    split
    · exact (dropCfg s).trans ((log _ _).trans (of_eq rfl rfl rfl rfl rfl))
    · exact (dropCfg s).trans ((log _ _).trans (onConfigFailure use _))
  | irqUnreg p => exact (log _ _).trans (of_eq rfl rfl rfl rfl rfl)
  | wait n =>
    simp only [Micro.run]
    split
    · exact log _ _
    · exact of_cons rfl rfl rfl rfl rfl
  | mbxTest m => exact of_cons rfl rfl rfl rfl rfl
  | mbxClear m => exact of_cons rfl rfl rfl rfl rfl
  | spin c a =>
    simp only [Micro.run]
    split
    · exact eval c s
    · exact (eval c s).trans (of_eq rfl rfl rfl rfl rfl)
  | stopPass k a =>
    simp only [Micro.run]
    split
    · split <;> exact (afterRead .scl s).trans (of_eq rfl rfl rfl rfl rfl)
    · exact (afterRead .scl s).trans (of_eq rfl rfl rfl rfl rfl)
  | nackKeep k => simp only [Micro.run]; split <;> exact of_eq rfl rfl rfl rfl rfl
  | rxAgain => exact of_eq rfl rfl rfl rfl rfl

theorem settle (s : State) : Forward s s.settle := by
  unfold State.settle
  split
  · exact ⟨rfl, rfl, le_refl _, by simp [Nat.add_assoc], List.suffix_cons _ _⟩
  · exact refl s

theorem seqStep (s : State) : Forward s s.seqStep := by
  unfold State.seqStep
  split
  · exact settle s
  · next op rest _ => exact ((run op (s.setPos rest)).trans (settle _)).after rfl rfl rfl rfl rfl

theorem addTime (d : Nat) (s : State) : Forward s (s.addTime d) :=
  ⟨rfl, rfl, Nat.le_add_right _ _, le_refl _, List.suffix_refl _⟩

theorem elapse (d : Nat) (s : State) : Forward s (s.elapse d) := by
  have htime : Forward s
      (({ s with seq := { s.seq with waitRem := s.seq.waitRem - d } } : State).addTime (min d s.seq.waitRem)) :=
    (addTime _ _).after rfl rfl rfl rfl rfl
  simp only [State.elapse]
  split
  · exact htime.trans ((settle _).after rfl rfl rfl rfl rfl)
  · exact htime

theorem accept (i : Instr) (prog : List Micro) (ret : Ret) (s : State) : Forward s (s.accept i prog ret) :=
  (settle _).after rfl rfl rfl rfl rfl

/-- Nothing a step is made of goes back from what `s` has come to. -/
theorem keptByAll (s : State) : KeptByAll (Forward s) where
  setPlan _ _ h := h.trans (of_eq rfl rfl rfl rfl rfl)
  seqStep t _ _ h := h.trans (seqStep t)
  elapse t d _ _ h := h.trans (elapse d t)
  addTime t d h := h.trans (addTime d t)
  driveExt t p e h := h.trans ((edge (State.driveExt_edgeOnly p e t)).after rfl rfl rfl rfl rfl)
  resetInput _ h := h.trans ⟨rfl, rfl, le_refl _, le_refl _, List.suffix_cons _ _⟩
  refuse _ _ h := h.trans ⟨rfl, rfl, le_refl _, Nat.le_add_right _ _, List.suffix_cons _ _⟩
  accept t i prog ret _ h := h.trans (accept i prog ret t)

end Forward

/-- Settles O11: nothing a step is made of goes back. -/
theorem stepMovesForward : Obligations.StepMovesForward := by
  unfold Obligations.StepMovesForward
  intro s t ht
  obtain ⟨hcfg, hstream, hnow, hcp, htrace⟩ := (Forward.keptByAll s).step (Forward.refl s) ht
  exact ⟨hcfg, hstream, hnow, hcp, htrace⟩

/-! ## The invariant -/

/-- The invariant is about the parameters, the sequencer and the UART registers. -/
theorem State.Inv_congr {s t : State} (h : s.Inv) (hc : t.cfg = s.cfg) (hq : t.seq = s.seq) (hu : t.uart = s.uart) : t.Inv := by
  unfold State.Inv State.rxOk State.rxFilled State.seqOk at h ⊢
  rw [hc, hq, hu]
  exact h

theorem State.rxOk_congr {s t : State} (h : s.rxOk) (hc : t.cfg = s.cfg) (hb : t.uart.rxBuf = s.uart.rxBuf)
    (hi : t.uart.rxIdx = s.uart.rxIdx) : t.rxOk := by
  unfold State.rxOk State.rxFilled at h ⊢
  rw [hc, hb, hi]
  exact h

theorem State.rxCap_pos {s : State} (h : s.cfg.wf = true) : 0 < s.cfg.rxCap := by
  simp only [Config.Params.wf, Bool.and_eq_true, decide_eq_true_eq] at h
  omega

/-- Giving up the buffer's position keeps the buffer in order. -/
theorem State.rxOk_setRxIdx_zero {s : State} (hcap : 0 < s.cfg.rxCap) (hwf : Memory.wf s.uart.rxBuf = true)
    (hin : ∀ j, s.cfg.rxCap ≤ j → Memory.read? s.uart.rxBuf j = none) : (s.setRxIdx 0).rxOk :=
  ⟨hwf, hin, fun _ hj => absurd hj (Nat.not_lt_zero _), hcap⟩

theorem State.reportByte_uart (s : State) (j : Nat) : (s.reportByte j).uart = s.uart := by
  unfold State.reportByte; split <;> rfl

theorem foldl_reportByte_uart (l : List Nat) (s : State) : (l.foldl State.reportByte s).uart = s.uart := by
  induction l generalizing s with
  | nil => rfl
  | cons j l ih => exact (ih _).trans (s.reportByte_uart j)

theorem foldl_reportByte_cfg (l : List Nat) (s : State) : (l.foldl State.reportByte s).cfg = s.cfg :=
  (Forward.report l s).cfg

/-- `buffer_full()` changes nothing of the UART but `RX_IDX`, whatever the policy. -/
theorem State.bufferFull_uart (s : State) : s.bufferFull.uart = { s.uart with rxIdx := 0 } := by
  unfold State.bufferFull
  split
  · simp [foldl_reportByte_uart]
  · rfl

theorem State.bufferFull_cfg (s : State) : s.bufferFull.cfg = s.cfg := by
  unfold State.bufferFull
  split
  · simp [foldl_reportByte_cfg]
  · rfl

/-- The stop bit keeps the buffer in order: the byte goes to an entry inside the capacity, and a full buffer starts over. -/
theorem State.rxOk_rxStop {s : State} (hcap : 0 < s.cfg.rxCap) (h : s.rxOk) : s.rxStop.rxOk := by
  obtain ⟨hwf, hin, hfill, hlt⟩ := h
  have hbuf : s.rxAppend.uart.rxBuf = Memory.write s.uart.rxBuf s.uart.rxIdx s.uart.rxsh := by
    simp [State.rxAppend, hlt]
  have hwf' : Memory.wf s.rxAppend.uart.rxBuf = true := hbuf ▸ Memory.write_wf _ _ _ hwf
  have hin' : ∀ j, s.rxAppend.cfg.rxCap ≤ j → Memory.read? s.rxAppend.uart.rxBuf j = none := by
    intro j hj
    have hj' : s.cfg.rxCap ≤ j := hj
    rw [hbuf, Memory.read_write_other _ _ (by omega)]
    exact hin j hj'
  unfold State.rxStop
  split
  · split
    · have := @State.rxOk_setRxIdx_zero s.rxAppend hcap hwf' hin'
      exact State.rxOk_congr this (State.bufferFull_cfg _) (by rw [State.bufferFull_uart]; rfl)
        (by rw [State.bufferFull_uart]; rfl)
    · next hne =>
      refine ⟨hwf', hin', ?_, ?_⟩
      · intro j hj
        have hj' : j < s.uart.rxIdx + 1 := hj
        rw [hbuf]
        by_cases he : j = s.uart.rxIdx
        · rw [he, Memory.read_write_same]; rfl
        · rw [Memory.read_write_other _ _ he]; exact hfill j (by omega)
      · have hne' : s.uart.rxIdx + 1 ≠ s.cfg.rxCap := hne
        show s.uart.rxIdx + 1 < s.cfg.rxCap
        omega
  · exact State.rxOk_setRxIdx_zero hcap hwf hin

theorem RegOp.apply_rxOk (r : RegOp) {s : State} (hcap : 0 < s.cfg.rxCap) (h : s.rxOk) : (r.apply s).rxOk := by
  cases r with
  | rxStop => exact State.rxOk_rxStop hcap h
  | rxIdxZero => exact State.rxOk_setRxIdx_zero hcap h.1 h.2.1
  | mStateWrite => simp only [RegOp.apply]; split <;> exact h
  | emitDispatch lsa => simp only [RegOp.apply, State.emitDispatch]; split <;> exact h
  | _ => exact h

theorem State.dropCfg_uart (s : State) : s.dropCfg.uart = s.uart := by unfold State.dropCfg; split <;> rfl

theorem State.afterRead_uart (p : Pin) (s : State) : (s.afterRead p).uart = s.uart := by
  unfold State.afterRead
  split
  · simp [s.dropX_edgeOnly.uart]
  · rfl

theorem SpinCond.eval_uart (c : SpinCond) (s : State) : (c.eval s).2.uart = s.uart := by
  cases c with
  | flag m => rfl
  | flagClear m => simp only [SpinCond.eval]; split <;> rfl
  | level p v => exact State.afterRead_uart p s
  | startSeen => exact State.afterRead_uart .scl s

/-- Only a register assignment and a sample change a UART register. -/
theorem Micro.run_uart (op : Micro) (s : State) (hr : ∀ r, op ≠ .reg r) (hs : ∀ p d, op ≠ .sample p d) :
    (op.run s).uart = s.uart := by
  cases op with
  | reg r => exact absurd rfl (hr r)
  | sample p d => exact absurd rfl (hs p d)
  | pinCfg p d pl ir use =>
    simp only [Micro.run, State.pinCfg]
    split
    · rw [(State.movePin_edgeOnly _ _ _).uart]; exact s.dropCfg_uart
    · cases use <;> exact s.dropCfg_uart
  | pinSet p v => exact (State.movePin_edgeOnly _ _ _).uart
  | irqReg p m os use =>
    simp only [Micro.run, State.irqReg]
    split
    · exact s.dropCfg_uart
    · cases use <;> exact s.dropCfg_uart
  | wait n => simp only [Micro.run]; split <;> rfl
  | spin c a =>
    simp only [Micro.run]
    split <;> exact c.eval_uart s
  | stopPass k a =>
    simp only [Micro.run]
    split
    · split <;> exact State.afterRead_uart .scl s
    · exact State.afterRead_uart .scl s
  | nackKeep k => simp only [Micro.run]; split <;> rfl
  | irqUnreg | mbxTest | mbxClear | rxAgain => rfl

theorem Micro.run_rxOk (op : Micro) {s : State} (hcap : 0 < s.cfg.rxCap) (h : s.rxOk) : (op.run s).rxOk := by
  have hcfg := (Forward.run op s).cfg
  cases op with
  | reg r => exact RegOp.apply_rxOk r hcap h
  | sample p d =>
    have hu := s.afterRead_uart p
    refine State.rxOk_congr h hcfg ?_ ?_ <;> cases d <;> simp [Micro.run, Dest.store, hu]
  | pinCfg | pinSet | irqReg | irqUnreg | wait | mbxTest | mbxClear | spin | stopPass | nackKeep | rxAgain =>
    refine State.rxOk_congr h hcfg ?_ ?_ <;> rw [Micro.run_uart _ s (by simp) (by simp)]

/-- A micro-operation starts a wait of its own, or leaves `WAITREM` and `SEQ_BUSY` as they were. -/
theorem Micro.run_wait (op : Micro) (s : State) :
    (op.run s).seq.busy = s.seq.busy ∧
    ((op.run s).seq.waitRem = s.seq.waitRem ∨
      ∃ n, (op.run s).seq.pos = .wait n :: s.seq.pos ∧ (op.run s).seq.waitRem = n) := by
  by_cases h : op.straight = true
  · obtain ⟨hb, ⟨-, hw⟩ | ⟨n, -, -, hp, hw⟩⟩ := Micro.run_seq op s h
    · exact ⟨hb, .inl hw⟩
    · exact ⟨hb, .inr ⟨n, hp, hw⟩⟩
  · cases op with
    | spin c a => simp only [Micro.run]; split <;> simp [SpinCond.eval_seq]
    | stopPass k a =>
      simp only [Micro.run]
      split
      · split <;> simp
      · simp
    | rxAgain => simp [Micro.run]
    | _ => exact absurd rfl h

/-- A settled state has its sequencer in order, if a wait in progress is at the head. -/
theorem State.settle_seqOk {s : State} (hb : s.seq.busy = true)
    (hw : s.seq.waitRem = 0 ∨ ∃ n rest, s.seq.pos = .wait n :: rest ∧ s.seq.waitRem ≤ n) : s.settle.seqOk := by
  unfold State.seqOk
  rw [State.settle_busy_iff s hb, State.settle_pos, State.settle_waitRem]
  refine ⟨fun hidle => ?_, id, fun h0 => hw.resolve_left h0⟩
  have hpos : s.seq.pos = [] := by
    by_contra hne
    rw [(State.settle_busy_iff s hb).mpr hne] at hidle
    cases hidle
  refine ⟨hpos, ?_⟩
  rcases hw with hw | ⟨n, rest, hp, -⟩
  · exact hw
  · rw [hpos] at hp; cases hp

theorem State.settle_rxOk {s : State} (h : s.rxOk) : s.settle.rxOk := by
  unfold State.settle; split <;> exact h

theorem State.settle_cfg (s : State) : s.settle.cfg = s.cfg := (Forward.settle s).cfg

theorem State.seqOk_congr {s t : State} (h : s.seqOk) (hq : t.seq = s.seq) : t.seqOk := by
  unfold State.seqOk at h ⊢
  rw [hq]
  exact h

theorem State.seqOk_seqStep {s : State} (h : s.seqOk) (hb : s.seq.busy = true) (h0 : s.seq.waitRem = 0) : s.seqStep.seqOk := by
  unfold State.seqStep
  split
  · next hnil => exact absurd hnil (h.2.1 hb)
  · next op rest _ =>
    obtain ⟨hb', hw⟩ := Micro.run_wait op (s.setPos rest)
    refine State.settle_seqOk (hb'.trans hb) ?_
    rcases hw with hw | ⟨n, hp, hw⟩
    · exact .inl (hw.trans h0)
    · exact .inr ⟨n, _, hp, hw.le⟩

theorem State.seqOk_elapse {s : State} (d : Nat) (h : s.seqOk) (hb : s.seq.busy = true) (h0 : s.seq.waitRem ≠ 0) :
    (s.elapse d).seqOk := by
  obtain ⟨-, hpos, hwait⟩ := h
  obtain ⟨n, rest, hp, hle⟩ := hwait h0
  simp only [State.elapse]
  split
  · next hz => exact State.settle_seqOk hb (.inl hz)
  · exact ⟨fun hi => absurd (hb.symm.trans hi) (by simp), hpos, fun _ => ⟨n, rest, hp, by simp; omega⟩⟩

theorem State.seqOk_accept (i : Instr) (prog : List Micro) (ret : Ret) (s : State) : (s.accept i prog ret).seqOk :=
  State.settle_seqOk rfl (.inl rfl)

/-- A run keeps the sequencer in order. -/
theorem State.seqOk_keptByRun : KeptByRun State.seqOk where
  setPlan _ _ h := State.seqOk_congr h rfl
  seqStep _ hb h0 h := State.seqOk_seqStep h hb h0
  elapse _ d hb h0 h := State.seqOk_elapse d h hb h0
  addTime _ _ h := State.seqOk_congr h rfl
  driveExt s p e h := State.seqOk_congr h (State.driveExt_edgeOnly p e s).seq

theorem State.rxOk_seqStep {s : State} (hcap : 0 < s.cfg.rxCap) (h : s.rxOk) : s.seqStep.rxOk := by
  unfold State.seqStep
  split
  · exact State.settle_rxOk h
  · exact State.settle_rxOk (Micro.run_rxOk _ hcap h)

theorem State.rxOk_elapse {s : State} (d : Nat) (h : s.rxOk) : (s.elapse d).rxOk := by
  simp only [State.elapse]
  split
  · exact State.settle_rxOk h
  · exact h

/-- The reset input leaves the invariant true whatever was before, as long as the parameters are in range. -/
theorem State.Inv_resetInput {s : State} (h : s.Inv) : s.resetInput.Inv := by
  have hcap := State.rxCap_pos h.1
  exact ⟨h.1, ⟨rfl, fun _ _ => rfl, fun _ hj => absurd hj (Nat.not_lt_zero _), hcap⟩,
    ⟨fun _ => ⟨rfl, rfl⟩, fun hb => Bool.noConfusion hb, fun hw => absurd rfl hw⟩⟩

theorem State.Inv_keptByAll : KeptByAll State.Inv where
  setPlan _ _ h := State.Inv_congr h rfl rfl rfl
  seqStep s hb h0 := fun ⟨hwf, hrx, hseq⟩ =>
    ⟨(Forward.seqStep s).cfg ▸ hwf, State.rxOk_seqStep (State.rxCap_pos hwf) hrx, State.seqOk_seqStep hseq hb h0⟩
  elapse s d hb h0 := fun ⟨hwf, hrx, hseq⟩ =>
    ⟨(Forward.elapse d s).cfg ▸ hwf, State.rxOk_elapse d hrx, State.seqOk_elapse d hseq hb h0⟩
  addTime _ _ h := State.Inv_congr h rfl rfl rfl
  driveExt s p e h :=
    have he := State.driveExt_edgeOnly p e s
    State.Inv_congr h he.cfg he.seq he.uart
  resetInput _ h := State.Inv_resetInput h
  refuse _ _ h := State.Inv_congr h rfl rfl rfl
  accept s i prog ret _ := fun ⟨hwf, hrx, _⟩ =>
    ⟨(Forward.accept i prog ret s).cfg ▸ hwf, State.settle_rxOk hrx, State.seqOk_accept i prog ret s⟩

/-- Settles O10: nothing a step is made of breaks the invariant. -/
theorem stepKeepsInv : Obligations.StepKeepsInv := by
  unfold Obligations.StepKeepsInv
  intro s t hs ht
  exact State.Inv_keptByAll.step hs ht

/-- The parameters of this implementation are in range (00_scope.md R6). -/
theorem params_wf : Config.params.wf = true := by
  have hpins : Config.pinMap.length = 8 ∧ Config.pinMap.Nodup := by
    unfold Config.pinMap Config.nPins
    dsimp only
    split
    · next h => exact ⟨by simp, h⟩
    · exact ⟨by simp, List.nodup_range⟩
  have hbaud : Config.params.uartBaud ≤ 1000000 := by
    have := Nat.mod_lt Config.uartBaudLessOne (by omega : 0 < 1000000)
    simp only [Config.params]; omega
  simp only [Config.Params.wf, Bool.and_eq_true, decide_eq_true_eq]
  exact ⟨⟨⟨⟨⟨by simp [Config.params], by simp [Config.params]⟩, hbaud⟩, by simp [Config.params]⟩, hpins.1⟩, hpins.2⟩

/-- Settles O9: the parameters are in range, the buffer holds nothing and the sequencer is idle. -/
theorem invAtReset : Obligations.InvAtReset := by
  unfold Obligations.InvAtReset
  have hcap : 0 < State.reset.cfg.rxCap := State.rxCap_pos params_wf
  exact ⟨params_wf, ⟨rfl, fun _ _ => rfl, fun _ hj => absurd hj (Nat.not_lt_zero _), hcap⟩,
    ⟨fun _ => ⟨rfl, rfl⟩, fun hb => Bool.noConfusion hb, fun hw => absurd rfl hw⟩⟩

end Sys2Proof.Machine
end

section
/-! The frame of every command (10_state.md R24, R26, R27, R29, R30, R33; 20_memory.md R60): each micro-operation writes only what
the rules let its command write, and what every micro-operation leaves alone a run leaves alone. -/

namespace Sys2Proof.Machine

/-! ## What a micro-operation writes -/

/-- The engine whose registers it writes. -/
def RegOp.engine : RegOp → Option Engine
  | .i2cRole _ | .mState _ | .mStateWrite | .sState _ | .i2cLoad _ | .i2cDec | .i2cAck => some .i2c
  | .spiRole _ | .spiMode _ | .spiLoad _ | .spiDec => some .spi
  | .uartTxRdy _ | .uartRxRdy _ | .uartTxLoad _ | .uartRxLoad | .uartDec | .rxIdxZero | .rxStop => some .uart
  | .pushAck | .pushByte | .emitDispatch _ | .emitFrameDone => none

def Dest.engine : Dest → Option Engine
  | .tmp => none
  | .i2cShift _ => some .i2c
  | .spiShi _ => some .spi
  | .uartRxsh _ => some .uart

/-- The engine of a command's `unit`, command by command. -/
def unitEngine : Instr → Option Engine
  | .i2cMSetup | .i2cMStart | .i2cMWrite _ | .i2cMAcks | .i2cMRead _ | .i2cMStop | .i2cMXfer _ _ | .i2cMRdn _ _ | .i2cSSetup
  | .i2cSWstart | .i2cSRecv | .i2cSAck | .i2cSDisp _ _ | .i2cSWstop | .i2cSServe _ => some .i2c
  | .spiMSetup _ | .spiSSetup _ | .spiMXchg0 _ | .spiMXchg1 _ | .spiMXchg2 _ | .spiMXchg3 _ | .spiSResp0 _ | .spiSResp1 _
  | .spiSResp2 _ | .spiSResp3 _ => some .spi
  | .uartTxSetup | .uartTxByte _ | .uartSend _ | .uartRxSetup | .uartRxFrame | .uartRxLoop => some .uart
  | _ => none

theorem engineOf_eq (i : Instr) : engineOf i = unitEngine i := by
  cases i <;> rw [engineOf, encodeWord, Laws.unitOf_mkWord] <;> rfl

/-- It writes a role, the SPI mode or a ready bit (10_state.md R27, R29, R30). -/
def RegOp.setsRole : RegOp → Bool
  | .i2cRole _ | .spiRole _ | .spiMode _ | .uartTxRdy _ | .uartRxRdy _ => true
  | _ => false

/-- What it writes `i` may write: its engine's registers, a role only in a setup, the buffer only in a frame command. -/
def RegOp.within (i : Instr) (r : RegOp) : Bool :=
  (decide (r.engine = none) || decide (r.engine = unitEngine i)) && (!r.setsRole || isSetup i) &&
    (decide (r ≠ .rxStop) || storesFrames i)

/-- What it writes `i` may write. -/
def Micro.within (i : Instr) : Micro → Bool
  | .reg r => r.within i
  | .pinCfg p _ _ _ _ => decide (p ∈ cfgPins i)
  | .pinSet p _ => decide (p ∈ latPins i)
  | .sample _ d => decide (d.engine = none) || decide (d.engine = unitEngine i)
  | .irqReg p _ _ _ | .irqUnreg p => decide (p ∈ hndPins i)
  | .mbxClear m | .spin (.flagClear m) _ => decide (m ∈ clears i)
  | .rxAgain => decide (i = .uartRxLoop)
  | _ => true

theorem uartRxLoopProg_within (c : Config.Params) : (uartRxLoopProg c).all (Micro.within .uartRxLoop) = true := rfl

theorem i2cMXferProg_within (c : Config.Params) (addr : Addr) (ys : List Byte) :
    (i2cMXferProg c addr ys).all (Micro.within (.i2cMXfer addr ys)) = true := by
  have hbyte : ∀ y, (onNackStop c ++ i2cMXferByte c y).all (Micro.within (.i2cMXfer addr ys)) = true := fun _ => rfl
  simp only [i2cMXferProg, List.all_append, List.all_flatMap, hbyte, Bool.and_eq_true, List.all_eq_true, implies_true, and_true]
  exact ⟨⟨List.all_eq_true.mp rfl, List.all_eq_true.mp rfl⟩, List.all_eq_true.mp rfl⟩

theorem i2cMRdnProg_within (c : Config.Params) (addr : Addr) (count : Byte) :
    (i2cMRdnProg c addr count.toNat).all (Micro.within (.i2cMRdn addr count)) = true := by
  have hbyte : ∀ ack, (i2cMRdnByte c ack).all (Micro.within (.i2cMRdn addr count)) = true := fun _ => rfl
  simp only [i2cMRdnProg, List.all_append, List.all_flatMap, hbyte, Bool.and_eq_true, List.all_eq_true, implies_true, and_true]
  exact ⟨⟨⟨⟨List.all_eq_true.mp rfl, List.all_eq_true.mp rfl⟩, List.all_eq_true.mp rfl⟩, List.all_eq_true.mp rfl⟩,
    List.all_eq_true.mp rfl⟩

theorem uartSendProg_within (c : Config.Params) (ys : List Byte) :
    (uartSendProg c ys).all (Micro.within (.uartSend ys)) = true := by
  have hbyte : ∀ y, (uartTxByteProg c y).all (Micro.within (.uartSend ys)) = true := fun _ => rfl
  simp [uartSendProg, List.all_flatMap, hbyte]

/-- Every command is run by `command`, and its micro-operations write only what it may write. -/
theorem exec_within (i : Instr) (s : State) :
    ∃ gate prog ret, exec i s = command i gate prog ret s ∧ prog.all (Micro.within i) = true := by
  cases i with
  | i2cMXfer addr ys => exact ⟨_, _, _, rfl, i2cMXferProg_within _ _ _⟩
  | i2cMRdn addr count => exact ⟨_, _, _, rfl, i2cMRdnProg_within _ _ _⟩
  | uartSend ys => exact ⟨_, _, _, rfl, uartSendProg_within _ _⟩
  | pinCfg | pinSet | irqReg | irqUnreg | mbxWaitclr | mbxClear =>
    refine ⟨_, _, _, rfl, List.all_eq_true.mpr fun op hop => ?_⟩
    rw [List.mem_singleton.mp hop]
    exact decide_eq_true (List.mem_singleton.mpr rfl)
  | pinGet | waitUs | mbxSignal | mbxTest | i2cMSetup | i2cMStart | i2cMWrite | i2cMAcks | i2cMRead | i2cMStop | i2cSSetup
  | i2cSWstart | i2cSRecv | i2cSAck | i2cSDisp | i2cSWstop | i2cSServe | spiMSetup | spiSSetup | spiMXchg0 | spiMXchg1
  | spiMXchg2 | spiMXchg3 | spiSResp0 | spiSResp1 | spiSResp2 | spiSResp3 | uartTxSetup | uartTxByte | uartRxSetup
  | uartRxFrame | uartRxLoop =>
    refine ⟨_, _, _, rfl, ?_⟩
    rfl

/-! ## What is kept -/

theorem handlerKept.refl (r : PinRegs) : handlerKept r r := .inl rfl

theorem handlerKept.trans {a b c : PinRegs} (h : handlerKept a b) (k : handlerKept b c) : handlerKept a c := by
  rcases k with k | ⟨k, g, hg, hon⟩
  · rcases h with h | ⟨h, g, hg, hon⟩
    · exact .inl (k.trans h)
    · exact .inr ⟨k.trans h, g, hg, hon⟩
  · rcases h with h | ⟨h, -⟩
    · exact .inr ⟨k, g, h ▸ hg, hon⟩
    · rw [h] at hg; cases hg

/-- A pin keeps the fields the command does not write. -/
structure PinWithin (i : Instr) (q : Pin) (a b : PinRegs) : Prop where
  lat : q ∉ latPins i → b.lat = a.lat
  cfg : q ∉ cfgPins i → b.dir = a.dir ∧ b.pull = a.pull ∧ b.irq = a.irq
  hnd : q ∉ hndPins i → handlerKept a b

theorem PinWithin.trans {i : Instr} {q : Pin} {a b c : PinRegs} (h : PinWithin i q a b) (k : PinWithin i q b c) :
    PinWithin i q a c where
  lat hq := (k.lat hq).trans (h.lat hq)
  cfg hq :=
    have ⟨h1, h2, h3⟩ := h.cfg hq
    have ⟨k1, k2, k3⟩ := k.cfg hq
    ⟨k1.trans h1, k2.trans h2, k3.trans h3⟩
  hnd hq := (h.hnd hq).trans (k.hnd hq)

theorem PinWithin.of_kept {i : Instr} {q : Pin} {a b : PinRegs} (h : pinKept a b) : PinWithin i q a b := by
  obtain ⟨hdir, hpull, hirq, hlat, hhnd⟩ := h
  exact ⟨fun _ => hlat, fun _ => ⟨hdir, hpull, hirq⟩, fun _ => hhnd⟩

/-- The registers of the engines keep what the command does not write. -/
structure EnginesWithin (i : Instr) (s t : State) : Prop where
  i2c : unitEngine i ≠ some .i2c → t.i2c = s.i2c
  spi : unitEngine i ≠ some .spi → t.spi = s.spi
  uart : unitEngine i ≠ some .uart → t.uart = s.uart
  roles : isSetup i = false → t.i2c.role = s.i2c.role ∧ t.spi.role = s.spi.role ∧ t.spi.mode = s.spi.mode ∧
    t.uart.txRdy = s.uart.txRdy ∧ t.uart.rxRdy = s.uart.rxRdy
  buf : storesFrames i = false → t.uart.rxBuf = s.uart.rxBuf

theorem EnginesWithin.of_same {i : Instr} {s t : State} (h : enginesSame s t) : EnginesWithin i s t := by
  obtain ⟨hi, hs, hu⟩ := h
  exact ⟨fun _ => hi, fun _ => hs, fun _ => hu, fun _ => by rw [hi, hs, hu]; simp, fun _ => by rw [hu]⟩

theorem EnginesWithin.trans {i : Instr} {s t u : State} (h : EnginesWithin i s t) (k : EnginesWithin i t u) :
    EnginesWithin i s u where
  i2c hi := (k.i2c hi).trans (h.i2c hi)
  spi hi := (k.spi hi).trans (h.spi hi)
  uart hi := (k.uart hi).trans (h.uart hi)
  roles hi :=
    have ⟨h1, h2, h3, h4, h5⟩ := h.roles hi
    have ⟨k1, k2, k3, k4, k5⟩ := k.roles hi
    ⟨k1.trans h1, k2.trans h2, k3.trans h3, k4.trans h4, k5.trans h5⟩
  buf hi := (k.buf hi).trans (h.buf hi)

/-- From `s` to `t` nothing changed but what `i` may write, what edges do, and the environment. -/
structure Within (i : Instr) (s t : State) : Prop where
  pins : ∀ q, PinWithin i q (s.pins.get q) (t.pins.get q)
  flags : flagsKeptBut (clears i) s t
  engines : EnginesWithin i s t

namespace Within

theorem of_same {i : Instr} {s t : State} (hp : t.pins = s.pins) (hf : t.flag = s.flag) (he : enginesSame s t) : Within i s t :=
  ⟨fun _ => hp ▸ .of_kept (pinKept.refl _), fun _ _ h => hf ▸ h, .of_same he⟩

theorem refl (i : Instr) (s : State) : Within i s s := of_same rfl rfl ⟨rfl, rfl, rfl⟩

theorem trans {i : Instr} {s t u : State} (h : Within i s t) (k : Within i t u) : Within i s u :=
  ⟨fun q => (h.pins q).trans (k.pins q), fun m hm hs => k.flags m hm (h.flags m hm hs), h.engines.trans k.engines⟩

/-- The same from a state that differs in none of these. -/
theorem after {i : Instr} {s u t : State} (h : Within i u t) (hp : u.pins = s.pins) (hf : u.flag = s.flag)
    (he : enginesSame s u) : Within i s t :=
  (of_same hp hf he).trans h

theorem enginesSame_of_edge {s t : State} (h : EdgeOnly s t) : enginesSame s t := ⟨h.i2c, h.spi, h.uart⟩

/-- A pin takes fields that differ only in what the command may write. -/
theorem movePin {i : Instr} {p : Pin} {r : PinRegs} {s : State} (hr : PinWithin i p (s.pins.get p) r) :
    Within i s (s.movePin p r) where
  pins q := by
    have hq := State.movePin_pins p q r s
    split at hq
    · next e => exact e ▸ hr.trans (.of_kept (e ▸ hq))
    · exact .of_kept hq
  flags m _ h := State.movePin_flag p r s m h
  engines := .of_same (enginesSame_of_edge (State.movePin_edgeOnly p r s))

theorem driveExt (i : Instr) (p : Pin) (e : Ext) (s : State) : Within i s (s.driveExt p e) where
  pins q := .of_kept (State.driveExt_pins p q e s)
  flags m _ h := State.driveExt_flag p e s m h
  engines :=
    have he := State.driveExt_edgeOnly p e s
    .of_same ⟨he.i2c, he.spi, he.uart⟩

theorem setHandler {i : Instr} {p : Pin} (hp : p ∈ hndPins i) (h : Option Handler) (s : State) :
    Within i s (s.setHandler p h) where
  pins q := by
    rw [State.setHandler_pins, PerPin.get_set]
    split
    · next e => subst e; exact ⟨fun _ => rfl, fun _ => ⟨rfl, rfl, rfl⟩, fun hq => absurd hp hq⟩
    · exact .of_kept (pinKept.refl _)
  flags _ _ h := h
  engines := .of_same ⟨rfl, rfl, rfl⟩

theorem clearFlag {i : Instr} {m : Mbx} (hm : m ∈ clears i) (s : State) : Within i s (s.clearFlag m) where
  pins _ := .of_kept (pinKept.refl _)
  flags k hk h := by
    have hne : k ≠ m := fun e => hk (e ▸ hm)
    rw [State.clearFlag_flag, PerMbx.get_set_ne _ _ hne]
    exact h
  engines := .of_same ⟨rfl, rfl, rfl⟩

theorem dropCfg (i : Instr) (s : State) : Within i s s.dropCfg := by
  unfold State.dropCfg
  split <;> exact of_same rfl rfl ⟨rfl, rfl, rfl⟩

theorem afterRead (i : Instr) (p : Pin) (s : State) : Within i s (s.afterRead p) := by
  unfold State.afterRead
  split
  · have he := s.dropX_edgeOnly
    exact of_same s.dropX_pins s.dropX_flag ⟨he.i2c, he.spi, he.uart⟩
  · exact of_same rfl rfl ⟨rfl, rfl, rfl⟩

theorem onConfigFailure (i : Instr) (use : CfgUse) (s : State) : Within i s (s.onConfigFailure use) := by
  cases use <;> exact of_same rfl rfl ⟨rfl, rfl, rfl⟩

theorem report_eq (l : List Nat) (s : State) :
    l.foldl State.reportByte s = { s with env := (l.foldl State.reportByte s).env } := by
  induction l generalizing s with
  | nil => rfl
  | cons j l ih =>
    have hj : s.reportByte j = { s with env := (s.reportByte j).env } := by unfold State.reportByte; split <;> rfl
    rw [List.foldl_cons, ih, hj]

theorem bufferFull_eq (s : State) : s.bufferFull = { s with uart := s.bufferFull.uart, env := s.bufferFull.env } := by
  unfold State.bufferFull
  split
  · rw [report_eq]; rfl
  · rfl

/-- The arms of the stop bit write the buffer and its index, and report. -/
theorem rxStop_eq (s : State) : s.rxStop =
    { s with uart := { s.uart with rxBuf := s.rxStop.uart.rxBuf, rxIdx := s.rxStop.uart.rxIdx }, env := s.rxStop.env } := by
  unfold State.rxStop
  split
  · split
    · rw [bufferFull_eq, State.bufferFull_uart]; rfl
    · rfl
  · rfl

/-- A register assignment leaves pins and flags alone. -/
theorem reg_pins (r : RegOp) (s : State) : (r.apply s).pins = s.pins ∧ (r.apply s).flag = s.flag := by
  cases r with
  | mStateWrite => simp only [RegOp.apply]; split <;> exact ⟨rfl, rfl⟩
  | emitDispatch lsa => simp only [RegOp.apply, State.emitDispatch]; split <;> exact ⟨rfl, rfl⟩
  | rxStop => rw [RegOp.apply, rxStop_eq]; exact ⟨rfl, rfl⟩
  | _ => exact ⟨rfl, rfl⟩

/-- A register assignment writes its engine's registers, the roles only if it is one that sets them, the buffer only at a stop bit. -/
theorem reg_engines (r : RegOp) (s : State) :
    (r.engine ≠ some .i2c → (r.apply s).i2c = s.i2c) ∧ (r.engine ≠ some .spi → (r.apply s).spi = s.spi) ∧
    (r.engine ≠ some .uart → (r.apply s).uart = s.uart) ∧
    (r.setsRole = false → (r.apply s).i2c.role = s.i2c.role ∧ (r.apply s).spi.role = s.spi.role ∧
      (r.apply s).spi.mode = s.spi.mode ∧ (r.apply s).uart.txRdy = s.uart.txRdy ∧ (r.apply s).uart.rxRdy = s.uart.rxRdy) ∧
    (r ≠ .rxStop → (r.apply s).uart.rxBuf = s.uart.rxBuf) := by
  cases r with
  | mStateWrite => simp only [RegOp.apply, RegOp.engine]; split <;> simp
  | emitDispatch lsa => simp only [RegOp.apply, State.emitDispatch]; split <;> simp
  | rxStop =>
    rw [RegOp.apply, rxStop_eq]
    exact ⟨fun _ => rfl, fun _ => rfl, fun h => absurd rfl h, fun _ => ⟨rfl, rfl, rfl, rfl, rfl⟩, fun h => absurd rfl h⟩
  | _ => simp [RegOp.apply, RegOp.engine, RegOp.setsRole]

theorem reg {i : Instr} {r : RegOp} (h : r.within i = true) (s : State) : Within i s (r.apply s) := by
  obtain ⟨⟨heng, hrole⟩, hbuf⟩ : ((r.engine = none ∨ r.engine = unitEngine i) ∧ (r.setsRole = false ∨ isSetup i = true)) ∧
      (r ≠ .rxStop ∨ storesFrames i = true) := by
    simpa [RegOp.within, -ne_eq] using h
  have hother {e : Engine} (he : unitEngine i ≠ some e) : r.engine ≠ some e := by
    rcases heng with h | h <;> rw [h]
    · simp
    · exact he
  obtain ⟨hpins, hflag⟩ := reg_pins r s
  obtain ⟨hi, hs, hu, hr, hb⟩ := reg_engines r s
  refine ⟨fun q => hpins ▸ .of_kept (pinKept.refl _), fun _ _ hm => hflag ▸ hm,
    fun he => hi (hother he), fun he => hs (hother he), fun he => hu (hother he), fun he => hr ?_, fun he => hb ?_⟩
  · exact hrole.resolve_right (by simp [he])
  · exact hbuf.resolve_right (by simp [he])

/-- A sample goes to the sequencer or to a shift register of the command's engine. -/
theorem sample {i : Instr} {d : Dest} (h : d.engine = none ∨ d.engine = unitEngine i) (b : Bool) (s : State) :
    Within i s (d.store b s) := by
  have hother {e : Engine} (he : unitEngine i ≠ some e) : d.engine ≠ some e := by
    rcases h with h | h <;> rw [h]
    · simp
    · exact he
  refine ⟨fun _ => ?_, fun _ _ hm => ?_, fun he => ?_, fun he => ?_, fun he => ?_, fun _ => ?_, fun _ => ?_⟩
  · cases d <;> exact .of_kept (pinKept.refl _)
  · cases d <;> exact hm
  · cases d <;> first | rfl | exact absurd rfl (hother he)
  · cases d <;> first | rfl | exact absurd rfl (hother he)
  · cases d <;> first | rfl | exact absurd rfl (hother he)
  · cases d <;> exact ⟨rfl, rfl, rfl, rfl, rfl⟩
  · cases d <;> rfl

theorem run {i : Instr} {op : Micro} (h : op.within i = true) (s : State) : Within i s (op.run s) := by
  cases op with
  | reg r => exact reg h s
  | pinCfg p d pl ir use =>
    have hp : p ∈ cfgPins i := of_decide_eq_true h
    simp only [Micro.run, State.pinCfg]
    split
    · refine (dropCfg i s).trans ((movePin ?_).after rfl rfl ⟨rfl, rfl, rfl⟩)
      have hpins : s.dropCfg.pins = s.pins := by unfold State.dropCfg; split <;> rfl
      rw [State.log_pins, hpins]
      exact ⟨fun _ => rfl, fun hq => absurd hp hq, fun _ => handlerKept.refl _⟩
    · exact (dropCfg i s).trans ((onConfigFailure i use _).after rfl rfl ⟨rfl, rfl, rfl⟩)
  | pinSet p v =>
    have hp : p ∈ latPins i := of_decide_eq_true h
    have hr : PinWithin i p ((s.log (.pinWrite p (v.value s))).pins.get p) { s.pins.get p with lat := v.value s } :=
      ⟨fun hq => absurd hp hq, fun _ => ⟨rfl, rfl, rfl⟩, fun _ => handlerKept.refl _⟩
    exact (movePin hr).after rfl rfl ⟨rfl, rfl, rfl⟩
  | sample p d => exact (afterRead i p s).trans (sample (by simpa [Micro.within] using h) _ _)
  | irqReg p m os use =>
    have hp : p ∈ hndPins i := of_decide_eq_true h
    simp only [Micro.run, State.irqReg]
    split
    · exact (dropCfg i s).trans ((setHandler hp _ _).after rfl rfl ⟨rfl, rfl, rfl⟩)
    · exact (dropCfg i s).trans ((onConfigFailure i use _).after rfl rfl ⟨rfl, rfl, rfl⟩)
  | irqUnreg p => exact (setHandler (of_decide_eq_true h) none _).after rfl rfl ⟨rfl, rfl, rfl⟩
  | mbxClear m => exact clearFlag (of_decide_eq_true h) s
  | wait n => simp only [Micro.run]; split <;> exact of_same rfl rfl ⟨rfl, rfl, rfl⟩
  | spin c a =>
    have heval : Within i s (c.eval s).2 := by
      cases c with
      | flag m => exact refl i s
      | flagClear m =>
        simp only [SpinCond.eval]
        split
        · exact clearFlag (of_decide_eq_true h) s
        · exact refl i s
      | level p v => exact afterRead i p s
      | startSeen => exact afterRead i .scl s
    simp only [Micro.run]
    split
    · exact heval
    · exact heval.trans (of_same rfl rfl ⟨rfl, rfl, rfl⟩)
  | stopPass k a =>
    simp only [Micro.run]
    split
    · split <;> exact (afterRead i .scl s).trans (of_same rfl rfl ⟨rfl, rfl, rfl⟩)
    · exact (afterRead i .scl s).trans (of_same rfl rfl ⟨rfl, rfl, rfl⟩)
  | nackKeep k => simp only [Micro.run]; split <;> exact of_same rfl rfl ⟨rfl, rfl, rfl⟩
  | mbxTest | rxAgain => exact of_same rfl rfl ⟨rfl, rfl, rfl⟩

theorem settle (i : Instr) (s : State) : Within i s s.settle := by
  unfold State.settle
  split <;> exact of_same rfl rfl ⟨rfl, rfl, rfl⟩

theorem elapse (i : Instr) (d : Nat) (s : State) : Within i s (s.elapse d) := by
  simp only [State.elapse]
  split
  · exact (settle i _).after rfl rfl ⟨rfl, rfl, rfl⟩
  · exact of_same rfl rfl ⟨rfl, rfl, rfl⟩

end Within

/-- What is left after a micro-operation is left before it, but for a wait or a spin-wait begun again and the next frame of
`UART_RX_LOOP`. -/
theorem Micro.run_pos_within {i : Instr} {op : Micro} {s : State} (h : op.within i = true)
    (hs : ∀ o ∈ s.seq.pos, o.within i = true) : ∀ o ∈ (op.run s).seq.pos, o.within i = true := by
  by_cases hst : op.straight = true
  · obtain ⟨-, ⟨hsuf, -⟩ | ⟨n, -, -, hp, -⟩⟩ := Micro.run_seq op s hst
    · exact fun o ho => hs o (hsuf.subset ho)
    · rw [hp]; exact List.forall_mem_cons.mpr ⟨rfl, hs⟩
  · cases op with
    | spin c a =>
      have hagain : (Micro.spin c true).within i = true := by cases c <;> exact h
      simp only [Micro.run]
      split
      · rw [SpinCond.eval_seq]; exact hs
      · rw [State.pushOp_seq_pos, SpinCond.eval_seq]
        exact List.forall_mem_cons.mpr ⟨hagain, hs⟩
    | stopPass k a =>
      simp only [Micro.run]
      split
      · split
        · simpa using hs
        · rw [State.pushOp_seq_pos, State.afterRead_seq]
          exact List.forall_mem_cons.mpr ⟨rfl, hs⟩
      · simpa using fun o ho => hs o (List.mem_of_mem_drop ho)
    | rxAgain =>
      have hi : i = .uartRxLoop := of_decide_eq_true h
      rw [Micro.run, State.setPos_seq_pos]
      subst hi
      exact List.forall_mem_append.mpr ⟨List.all_eq_true.mp (uartRxLoopProg_within s.cfg), hs⟩
    | _ => exact absurd rfl hst

/-- A run whose micro-operations write only what `i` may write stays within `i`. -/
theorem Within.keptByRun (i : Instr) (s : State) :
    KeptByRun fun t => Within i s t ∧ ∀ op ∈ t.seq.pos, op.within i = true where
  setPlan _ _ h := ⟨h.1.trans (of_same rfl rfl ⟨rfl, rfl, rfl⟩), h.2⟩
  seqStep t _ _ h := by
    obtain ⟨hw, hpos⟩ := h
    unfold State.seqStep
    split
    · exact ⟨hw.trans (settle i t), by rwa [State.settle_pos]⟩
    · next op rest hp =>
      obtain ⟨hop, hrest⟩ := List.forall_mem_cons.mp (hp ▸ hpos)
      refine ⟨hw.trans (((run hop (t.setPos rest)).trans (settle i _)).after rfl rfl ⟨rfl, rfl, rfl⟩), ?_⟩
      rw [State.settle_pos]
      exact Micro.run_pos_within hop hrest
  elapse t d _ _ h := by
    refine ⟨h.1.trans (elapse i d t), ?_⟩
    simp only [State.elapse]
    split
    · rw [State.settle_pos]
      exact fun o ho => h.2 o (List.mem_of_mem_tail (by simpa using ho))
    · exact h.2
  addTime _ _ h := ⟨h.1.trans (of_same rfl rfl ⟨rfl, rfl, rfl⟩), h.2⟩
  driveExt t p e h := ⟨h.1.trans (driveExt i p e t), by rw [State.driveExt_seq]; exact h.2⟩

/-- Every command stays within what it may write. -/
theorem exec_stays_within (i : Instr) {s : State} (h : s.ready) : ∃ t, exec i s = .next t ∧ Within i s t := by
  obtain ⟨gate, prog, ret, hexec, hprog⟩ := exec_within i s
  rw [hexec, command, if_neg (by simp [h.1])]
  refine ⟨_, rfl, ?_⟩
  split
  · have hacc : Within i s (s.accept i prog ret) := (Within.settle i _).after rfl rfl ⟨rfl, rfl, rfl⟩
    have hpos : (s.accept i prog ret).seq.pos = prog := by unfold State.accept; rw [State.settle_pos]
    exact ((Within.keptByRun i s).runOn _ (by rw [State.accept_plan]; exact h.2)
      ⟨hacc, by rw [hpos]; exact List.all_eq_true.mp hprog⟩).1
  · exact Within.of_same rfl rfl ⟨rfl, rfl, rfl⟩

/-- Settles O16: every micro-operation of a command writes only what the command may write, and edges clear no flag and take away
one-shot handlers only. -/
theorem everyCommandKeepsTheRest : Obligations.EveryCommandKeepsTheRest := by
  unfold Obligations.EveryCommandKeepsTheRest
  intro i s hs
  obtain ⟨t, ht, hpins, hflags, hengines⟩ := exec_stays_within i hs
  have hforward := (Forward.keptByAll s).exec i (Forward.refl s) ht
  rw [engineOf_eq]
  exact ⟨t, ht, hforward.cfg, hforward.stream, fun q => (hpins q).lat, fun q => (hpins q).cfg, fun q => (hpins q).hnd, hflags,
    hengines.i2c, hengines.spi, hengines.uart, fun hi a => by rw [hengines.buf hi]⟩

/-- Settles O17: the assignments of roles, mode and ready bits are within setup commands only. -/
theorem rolesOnlyBySetup : Obligations.RolesOnlyBySetup := by
  unfold Obligations.RolesOnlyBySetup
  intro i s hi hs
  obtain ⟨t, ht, -, -, hengines⟩ := exec_stays_within i hs
  exact ⟨t, ht, hengines.roles hi⟩

end Sys2Proof.Machine
end

section
/-! The edge synchronizer (41_mailbox.md R131, R137), and the commands of one micro-operation (40_pin_ops.md, 41_mailbox.md). -/

namespace Sys2Proof.Machine

/-! ## The edge synchronizer does what R131 says -/

/-- A line that was at `old` takes its level in `s`: the handler runs on the armed edge, may run on a transition into or out of `X`
that could be one, and does not run otherwise. -/
theorem State.edgeSync_handler {p : Pin} {s : State} {h : Handler} (hh : (s.pins.get p).hnd = some h) (old : Level) :
    (edgeIs (s.pins.get p).irq old (s.line p) → handlerRan p h s.pins s.flag (s.edgeSync p old)) ∧
    (edgeMaybe (s.pins.get p).irq old (s.line p) →
      handlerRan p h s.pins s.flag (s.edgeSync p old) ∨ handlerSilent s.pins s.flag (s.edgeSync p old)) ∧
    (¬ edgeIs (s.pins.get p).irq old (s.line p) → ¬ edgeMaybe (s.pins.get p).irq old (s.line p) →
      handlerSilent s.pins s.flag (s.edgeSync p old)) := by
  rw [← edgeMatch_yes, ← edgeMatch_free]
  unfold State.edgeSync
  rw [hh]
  cases hm : edgeMatch (s.pins.get p).irq old (s.line p) with
  | no => exact ⟨nofun, nofun, fun _ _ => ⟨rfl, rfl⟩⟩
  | yes => exact ⟨fun _ => State.enterHandler_ran p h s, nofun, fun hn => absurd rfl hn⟩
  | free =>
    refine ⟨nofun, fun _ => ?_, fun _ hn => absurd rfl hn⟩
    dsimp only
    split
    · exact .inl (by simpa [handlerRan] using State.enterHandler_ran p h s.dropX)
    · exact .inr ⟨s.dropX_pins, s.dropX_flag⟩

theorem State.edgeSync_unhandled {p : Pin} {s : State} (hh : (s.pins.get p).hnd = none) (old : Level) : s.edgeSync p old = s := by
  unfold State.edgeSync
  rw [hh]

/-- `EXT[p] <- e` with no edge synchronizer acting. -/
def State.setExt (p : Pin) (e : Ext) (s : State) : State := { s with env := { s.env with ext := s.env.ext.set p e } }

theorem State.driveExt_eq (p : Pin) (e : Ext) (s : State) : s.driveExt p e = (s.setExt p e).edgeSync p (s.line p) := rfl

/-- A state that differs from `s` in the fields of `p` and the drive onto its line, after the edge synchronizer. -/
theorem edgeSync_moved {p : Pin} {r : PinRegs} {e : Ext} {s u : State} (hpins : u.pins = s.pins.set p r)
    (hflag : u.flag = s.flag) (hext : u.env.ext.get p = e) : Moved p r e s (u.edgeSync p (s.line p)) := by
  have hr : u.pins.get p = r := by rw [hpins, PerPin.get_set_same]
  have hnew : u.line p = lineOf r e := by rw [State.line_eq, hr, hext]
  unfold Moved
  dsimp only
  rw [← State.line_eq]
  split
  · next hh =>
    rw [State.edgeSync_unhandled (by rw [hr]; exact hh)]
    exact ⟨hpins, hflag⟩
  · next h hh =>
    have hrun := State.edgeSync_handler (show (u.pins.get p).hnd = some h by rw [hr]; exact hh) (s.line p)
    rw [hr, hnew, hpins, hflag] at hrun
    exact hrun

theorem driveExt_moved (p : Pin) (e : Ext) (s : State) : Moved p (s.pins.get p) e s (s.driveExt p e) :=
  edgeSync_moved (PerPin.set_get _ _).symm rfl (PerPin.get_set_same _ _ _)

/-- A pin's move in a state that differs from `s` in nothing it reads. -/
theorem movePin_moved {p : Pin} {r : PinRegs} {s u : State} (hpins : u.pins = s.pins) (hflag : u.flag = s.flag)
    (hext : u.env.ext = s.env.ext) : Moved p r (s.env.ext.get p) s (u.movePin p r) := by
  have hline : u.line p = s.line p := by rw [State.line_eq, State.line_eq, hpins, hext]
  unfold State.movePin
  rw [hline]
  exact edgeSync_moved (by rw [hpins]) hflag (by rw [hext])

/-- Nothing moved. -/
theorem moved_of_same {p : Pin} {s t : State} (hpins : t.pins = s.pins) (hflag : t.flag = s.flag) :
    Moved p (s.pins.get p) (s.env.ext.get p) s t := by
  have hsilent : handlerSilent (s.pins.set p (s.pins.get p)) s.flag t := ⟨by rw [hpins, PerPin.set_get], hflag⟩
  unfold Moved
  dsimp only
  split
  · exact hsilent
  · refine ⟨fun he => ?_, fun _ => .inr hsilent, fun _ _ => hsilent⟩
    rcases he with ⟨-, ho, hn⟩ | ⟨-, ho, hn⟩ <;> rw [ho] at hn <;> cases hn

/-- `Moved` looks at the pins and flags it ends with. -/
theorem Moved.congr {p : Pin} {r : PinRegs} {e : Ext} {s t u : State} (h : Moved p r e s t) (hpins : u.pins = t.pins)
    (hflag : u.flag = t.flag) : Moved p r e s u := by
  unfold Moved handlerSilent handlerRan at h ⊢
  rw [hpins, hflag]
  exact h

/-- The environment's drive moves a line, its edge acts in that step, and nothing else changes. -/
theorem driveExt_spec (p : Pin) (e : Ext) (s : State) :
    Moved p (s.pins.get p) e s (s.driveExt p e) ∧ enginesSame s (s.driveExt p e) ∧ (s.driveExt p e).seq = s.seq ∧
    (s.driveExt p e).cfg = s.cfg ∧ (s.driveExt p e).env.ext = s.env.ext.set p e ∧ (s.driveExt p e).env.now = s.env.now ∧
    (s.driveExt p e).env.plan = s.env.plan ∧ (s.driveExt p e).env.cp = s.env.cp ∧
    (s.driveExt p e).env.res = s.env.res := by
  have he := State.driveExt_edgeOnly p e s
  exact ⟨driveExt_moved p e s, ⟨he.i2c, he.spi, he.uart⟩, he.seq, he.cfg, he.ext, he.now, he.plan, he.cp, he.res⟩

/-- An idle block's step is its environment's next drive. -/
theorem step_drive_idle {s : State} {p : Pin} {e : Ext} {as : List EnvAct} (hb : s.seq.busy = false)
    (hplan : s.env.plan = .drive p e :: as) : step s = .next ((s.setPlan as).driveExt p e) := by
  have hmoves : s.envMoves = true := by simp [State.envMoves, hplan]
  simp only [step, hb, hmoves, State.envStep, hplan]
  rfl

/-- Settles O18: the drive is the edge synchronizer's step, whoever runs meanwhile, and a running command goes on after it. -/
theorem environmentEdge : Obligations.EnvironmentEdge := by
  unfold Obligations.EnvironmentEdge
  refine ⟨fun s p e => driveExt_spec p e s, fun s p e as hb hplan => ?busy, fun s p e as hb hplan => ?idle⟩
  case busy =>
    have hb' : ((s.driveExt p e).setPlan as).seq.busy = true := by simpa using hb
    rw [EnvAct.apply, State.driveExt_setPlan, step, step, if_pos hb, if_pos hb']
    unfold State.runOn
    rw [hplan, runPlan, if_pos (by simpa using hb), EnvAct.apply, State.driveExt_setPlan]
    rfl
  case idle =>
    exact ⟨_, step_drive_idle hb hplan, driveExt_spec p e (s.setPlan as)⟩

/-- A matching edge whose flag is 1 already leaves only a one-shot handler's removal behind. -/
theorem driveExt_lost {p : Pin} {e : Ext} {h : Handler} {s : State} (hh : (s.pins.get p).hnd = some h)
    (hflag : s.flag.get h.mbx = true)
    (hedge : edgeIs (s.pins.get p).irq (lineOf (s.pins.get p) (s.env.ext.get p)) (lineOf (s.pins.get p) e)) :
    (s.driveExt p e).flag = s.flag ∧ (s.driveExt p e).env.trace = s.env.trace ∧ (s.driveExt p e).seq = s.seq ∧
    enginesSame s (s.driveExt p e) ∧
    (s.driveExt p e).pins = if h.once then s.pins.set p ((s.pins.get p).withHnd none) else s.pins := by
  have hyes : edgeMatch ((s.setExt p e).pins.get p).irq (s.line p) ((s.setExt p e).line p) = .yes := by
    rw [edgeMatch_yes, State.line_eq, State.line_eq, State.setExt, PerPin.get_set_same]
    exact hedge
  have hh' : ((s.setExt p e).pins.get p).hnd = some h := hh
  rw [State.driveExt_eq, State.edgeSync, hh']
  dsimp only
  rw [hyes]
  dsimp only
  rw [State.enterHandler, State.signal_lost h.mbx (s.setExt p e) hflag]
  split <;> exact ⟨rfl, rfl, rfl, ⟨rfl, rfl, rfl⟩, rfl⟩

/-- Settles O19: the handler's signal finds its flag set and changes nothing. -/
theorem secondEdgeIsLost : Obligations.SecondEdgeIsLost := by
  unfold Obligations.SecondEdgeIsLost
  refine ⟨fun s p e h hh hflag hedge => driveExt_lost hh hflag hedge, fun s p e h as hb hplan hh hflag hedge => ?_⟩
  exact ⟨_, step_drive_idle hb hplan, @driveExt_lost p e h (s.setPlan as) hh hflag hedge⟩

/-! ## What the statements read of `TRACE` no edge changes -/

theorem EdgeOnly.own {s t : State} (h : EdgeOnly s t) : ownTrace t.env.trace = ownTrace s.env.trace := by
  obtain ⟨es, he, hes⟩ := h.trace
  have hnone : ownTrace es = [] := by
    unfold ownTrace
    rw [List.filter_eq_nil_iff]
    intro x hx
    obtain ⟨m, hm⟩ := hes x hx
    simp [hm]
  have happ : ownTrace (es ++ s.env.trace) = ownTrace es ++ ownTrace s.env.trace := List.filter_append _ _
  rw [he, happ, hnone, List.nil_append]

theorem pinActs_of_own {tr tr' : List Stamped} (h : ownTrace tr = ownTrace tr') : pinActs tr = pinActs tr' := by
  rw [← pinActs_own tr, h, pinActs_own]

/-! ## A command of one micro-operation, undisturbed -/

/-- The block just after it has taken command `i`, with no micro-operation left. -/
def State.started (i : Instr) (ret : Ret) (s : State) : State :=
  { s with seq := { busy := true, cmd := { word := encodeWord i, payload := (encode i).tail }, pos := [], tmp := false,
                    out := [], ret := ret, waitRem := 0 } }

@[simp] theorem State.started_cfg (i : Instr) (ret : Ret) (s : State) : (s.started i ret).cfg = s.cfg := rfl
@[simp] theorem State.started_pins (i : Instr) (ret : Ret) (s : State) : (s.started i ret).pins = s.pins := rfl
@[simp] theorem State.started_flag (i : Instr) (ret : Ret) (s : State) : (s.started i ret).flag = s.flag := rfl
@[simp] theorem State.started_i2c (i : Instr) (ret : Ret) (s : State) : (s.started i ret).i2c = s.i2c := rfl
@[simp] theorem State.started_spi (i : Instr) (ret : Ret) (s : State) : (s.started i ret).spi = s.spi := rfl
@[simp] theorem State.started_uart (i : Instr) (ret : Ret) (s : State) : (s.started i ret).uart = s.uart := rfl
@[simp] theorem State.started_env (i : Instr) (ret : Ret) (s : State) : (s.started i ret).env = s.env := rfl
@[simp] theorem State.started_seq_busy (i : Instr) (ret : Ret) (s : State) : (s.started i ret).seq.busy = true := rfl
@[simp] theorem State.started_seq_pos (i : Instr) (ret : Ret) (s : State) : (s.started i ret).seq.pos = [] := rfl
@[simp] theorem State.started_seq_tmp (i : Instr) (ret : Ret) (s : State) : (s.started i ret).seq.tmp = false := rfl
@[simp] theorem State.started_seq_out (i : Instr) (ret : Ret) (s : State) : (s.started i ret).seq.out = [] := rfl
@[simp] theorem State.started_seq_ret (i : Instr) (ret : Ret) (s : State) : (s.started i ret).seq.ret = ret := rfl
@[simp] theorem State.started_seq_waitRem (i : Instr) (ret : Ret) (s : State) : (s.started i ret).seq.waitRem = 0 := rfl
@[simp] theorem State.started_seq_cmd (i : Instr) (ret : Ret) (s : State) :
    (s.started i ret).seq.cmd = { word := encodeWord i, payload := (encode i).tail } := rfl

theorem State.accept_eq (i : Instr) (prog : List Micro) (ret : Ret) (s : State) :
    s.accept i prog ret = ((s.started i ret).setPos prog).settle := rfl

/-- The state in which the command of an undisturbed block begins: the plan is out of the way. -/
abbrev State.begun (i : Instr) (ret : Ret) (s : State) : State := (s.started i ret).setPlan []

theorem drain_idle (n : Nat) (s : State) (hb : s.seq.busy = false) : drain n s = s := by
  cases n with
  | zero => rfl
  | succ n => rw [drain, if_neg (by simp [hb])]

/-- A run stopped by its command's return keeps the returned state but for its plan. -/
theorem runPlan_idle_any (plan : List EnvAct) (s : State) (hb : s.seq.busy = false) :
    ∃ as, runPlan plan s = s.setPlan as := by
  cases plan with
  | nil => exact ⟨s.env.plan, by rw [runPlan, drain_idle _ _ hb]; rfl⟩
  | cons a as => exact ⟨_, by rw [runPlan, if_neg (by simp [hb])]⟩

/-- The only micro-operation of an undisturbed command runs, and the command returns. -/
theorem runOn_one (op : Micro) (hst : op.straight = true) (hw : ∀ n, op ≠ .wait n) (i : Instr) (ret : Ret) {s : State}
    (hs : s.undisturbed) :
    (op.run (s.begun i ret)).seq.cmd = { word := encodeWord i, payload := (encode i).tail } ∧
    ∃ as, (s.accept i [op] ret).runOn = (op.run (s.begun i ret)).returnResult.setPlan as := by
  refine ⟨Micro.run_seq_cmd op _, ?_⟩
  obtain ⟨hbusy, ⟨hsuf, -⟩ | ⟨n, -, he, -⟩⟩ := Micro.run_seq op (s.begun i ret) hst
  case inr => exact absurd he (hw n)
  have hpos : (op.run (s.begun i ret)).seq.pos = [] := List.suffix_nil.mp hsuf
  have hdone : ((s.begun i ret).setPos [op]).seqStep = (op.run (s.begun i ret)).returnResult := State.settle_nil _ hbusy hpos
  have hrunning : ((s.begun i ret).setPos [op]).seq.busy = true := rfl
  have hacc : s.accept i [op] ret = (s.started i ret).setPos [op] := State.settle_busy _ (by simp)
  unfold State.runOn
  rw [State.accept_plan, hacc]
  show ∃ as, runPlan s.env.plan ((s.begun i ret).setPos [op]) = _
  obtain ⟨-, hplan | hplan⟩ := hs
  · have hadv : ((s.begun i ret).setPos [op]).advance = (op.run (s.begun i ret)).returnResult := hdone
    refine ⟨(op.run (s.begun i ret)).returnResult.env.plan, ?_⟩
    rw [hplan, runPlan, State.drainFuel, drain, if_pos hrunning, hadv, if_neg (by simp [State.spinning]), drain_idle _ _ rfl]
    rfl
  · obtain ⟨as, has⟩ := List.head?_eq_some_iff.mp hplan
    obtain ⟨as', has'⟩ := runPlan_idle_any as (op.run (s.begun i ret)).returnResult rfl
    have hturn : EnvAct.apply ((s.begun i ret).setPos [op]) .turn = (op.run (s.begun i ret)).returnResult := hdone
    exact ⟨as', by rw [has, runPlan, if_pos hrunning, hturn, has']⟩

/-- A command that has returned left the host its results and moved `CP` on. -/
theorem returned_of_returnResult {i : Instr} {s u : State} {ws : List Word} (as : List EnvAct)
    (hcmd : u.seq.cmd = { word := encodeWord i, payload := (encode i).tail }) (hws : resultWords u = ws)
    (hcp : u.env.cp = s.env.cp) (hstream : u.env.stream = s.env.stream) (hcfg : u.cfg = s.cfg) :
    Returned i s (u.returnResult.setPlan as) ws := by
  refine ⟨rfl, hws, ?_, hstream, hcfg⟩
  simp only [State.setPlan_env_cp, State.returnResult_env_cp, hcmd, hcp, encode, List.tail_cons, List.length_map,
    Instr.lengthWords]
  omega

/-- The platform's answer is one it can give. -/
theorem platformSays_cfgAnswer (s : State) : s.platformSays [s.cfgAnswer] := by
  unfold State.platformSays State.cfgAnswer
  cases s.env.cfgOutcomes with
  | nil => rfl
  | cons b bs => simp

theorem resultWords_ok {s : State} (h : s.seq.ret = .ok) : resultWords s = okWords 0 := by
  rw [resultWords, h]; rfl

theorem resultWords_bit {s : State} {b : Bool} (h : s.seq.ret = .bit) (hb : s.seq.tmp = b) :
    resultWords s = okWords (if b then 1 else 0) := by
  rw [resultWords, h]
  dsimp only
  rw [hb, resultWord_ok]
  rfl

/-- An ungated command of an idle block is accepted. -/
theorem exec_ungated {i : Instr} {prog : List Micro} {ret : Ret} {s : State} (he : exec i s = command i gateNone prog ret s)
    (hw : i.wf = true) (hb : s.seq.busy = false) : exec i s = .next (s.accept i prog ret).runOn :=
  he.trans (command_accepted i gateNone prog ret s hb rfl hw)

/-- From `s` to `t` there was one act `ev` of the sequencer on pins or flags: the engines, the lines' environment, time and the
host's stream stay, and `TRACE` shows the act and what edges did. -/
structure OneAct (ev : Event) (s t : State) : Prop where
  cfg : t.cfg = s.cfg
  engines : enginesSame s t
  ext : t.env.ext = s.env.ext
  now : t.env.now = s.env.now
  stream : t.env.stream = s.env.stream
  cp : t.env.cp = s.env.cp
  own : ownTrace t.env.trace = { time := s.env.now, event := ev } :: ownTrace s.env.trace

namespace OneAct

theorem log (s : State) {ev : Event} (hev : ∀ m, ev ≠ .flagSet m) : OneAct ev s (s.log ev) :=
  ⟨rfl, ⟨rfl, rfl, rfl⟩, rfl, rfl, rfl, rfl, ownTrace_cons _ _ hev⟩

theorem edge {ev : Event} {s t u : State} (h : OneAct ev s t) (e : EdgeOnly t u) : OneAct ev s u :=
  ⟨e.cfg.trans h.cfg, ⟨e.i2c.trans h.engines.1, e.spi.trans h.engines.2.1, e.uart.trans h.engines.2.2⟩, e.ext.trans h.ext,
    e.now.trans h.now, e.stream.trans h.stream, e.cp.trans h.cp, e.own.trans h.own⟩

/-- Nothing of these changed further. -/
theorem of_eq {ev : Event} {s t u : State} (h : OneAct ev s t) (hc : u.cfg = t.cfg) (he : enginesSame t u) (hv : u.env = t.env) :
    OneAct ev s u :=
  ⟨hc.trans h.cfg, ⟨he.1.trans h.engines.1, he.2.1.trans h.engines.2.1, he.2.2.trans h.engines.2.2⟩, by rw [hv, h.ext],
    by rw [hv, h.now], by rw [hv, h.stream], by rw [hv, h.cp], by rw [hv, h.own]⟩

theorem setHandler {ev : Event} {s t : State} (h : OneAct ev s t) (p : Pin) (k : Option Handler) :
    OneAct ev s (t.setHandler p k) := h.of_eq rfl ⟨rfl, rfl, rfl⟩ rfl

theorem failConfig {ev : Event} {s t : State} (h : OneAct ev s t) : OneAct ev s t.failConfig := h.of_eq rfl ⟨rfl, rfl, rfl⟩ rfl

theorem setTmp {ev : Event} {s t : State} (h : OneAct ev s t) (b : Bool) : OneAct ev s (Dest.store b t .tmp) :=
  h.of_eq rfl ⟨rfl, rfl, rfl⟩ rfl

/-- The same with the platform's answer taken first. -/
theorem afterDropCfg (s : State) {ev : Event} (hev : ∀ m, ev ≠ .flagSet m) : OneAct ev s (s.dropCfg.log ev) := by
  have h := log s.dropCfg hev
  unfold State.dropCfg at h ⊢
  split
  · exact ⟨rfl, ⟨rfl, rfl, rfl⟩, rfl, rfl, rfl, rfl, ownTrace_cons _ _ hev⟩
  · exact ⟨rfl, ⟨rfl, rfl, rfl⟩, rfl, rfl, rfl, rfl, ownTrace_cons _ _ hev⟩

theorem afterRead (p : Pin) (s : State) : OneAct (.pinSample p (s.readLevel p)) s (s.afterRead p) := by
  unfold State.afterRead
  split
  · next hx =>
    have hread : s.readLevel p = s.xDraw := by rw [State.readLevel, hx]
    have he := s.dropX_edgeOnly
    rw [hread]
    refine ⟨he.cfg, ⟨he.i2c, he.spi, he.uart⟩, he.ext, he.now, he.stream, he.cp, ?_⟩
    rw [State.log_env_trace, ownTrace_cons _ _ (by simp), he.own, he.now]
  · exact log s (by simp)

/-- What is left of a command of one act when it has returned. -/
theorem returned {ev : Event} {i : Instr} {ret : Ret} {s t : State} (h : OneAct ev (s.begun i ret) t)
    (hcmd : t.seq.cmd = { word := encodeWord i, payload := (encode i).tail }) {ws : List Word} (hws : resultWords t = ws)
    (as : List EnvAct) :
    Returned i s (t.returnResult.setPlan as) ws ∧ enginesSame s (t.returnResult.setPlan as) ∧
    (t.returnResult.setPlan as).env.ext = s.env.ext ∧ (t.returnResult.setPlan as).env.now = s.env.now ∧
    pinActs (t.returnResult.setPlan as).env.trace = pinActs ({ time := s.env.now, event := ev } :: s.env.trace) := by
  refine ⟨returned_of_returnResult as hcmd hws h.cp h.stream h.cfg, h.engines, h.ext, h.now, ?_⟩
  have hresult : pinActs (t.returnResult.setPlan as).env.trace = pinActs t.env.trace := rfl
  have hown := h.own
  rw [hresult, ← pinActs_own, hown]
  have happ (e : Stamped) (tr : List Stamped) : pinActs (e :: ownTrace tr) = pinActs (e :: tr) := by
    have : pinActs (ownTrace tr) = pinActs tr := pinActs_own tr
    unfold pinActs at this ⊢
    rw [List.filterMap_cons, List.filterMap_cons, this]
  exact happ _ _

end OneAct

/-! ## The pin commands -/

/-- Settles O21: the write and its edge are one step. -/
theorem pinSet : Obligations.PinSet := by
  unfold Obligations.PinSet
  intro p v s hs
  obtain ⟨hcmd, as, hrun⟩ := runOn_one (.pinSet p (.const v)) rfl nofun (.pinSet p v) .ok hs
  have hlog : OneAct (.pinWrite p v) (s.begun (.pinSet p v) .ok) _ := OneAct.log _ nofun
  have hedge := State.movePin_edgeOnly p { s.pins.get p with lat := v } ((s.begun (.pinSet p v) .ok).log (.pinWrite p v))
  obtain ⟨hret, heng, hext, hnow, hacts⟩ := (hlog.edge hedge).returned hcmd (resultWords_ok (congrArg Seq.ret hedge.seq)) as
  exact ⟨_, (exec_ungated rfl rfl hs.1).trans (congrArg _ hrun), hret, movePin_moved rfl rfl rfl, heng, hext, hnow, hacts⟩

@[simp] theorem State.dropCfg_pins (s : State) : s.dropCfg.pins = s.pins := by unfold State.dropCfg; split <;> rfl
@[simp] theorem State.dropCfg_flag (s : State) : s.dropCfg.flag = s.flag := by unfold State.dropCfg; split <;> rfl
@[simp] theorem State.dropCfg_env_ext (s : State) : s.dropCfg.env.ext = s.env.ext := by unfold State.dropCfg; split <;> rfl

/-- A `PIN_CFG` the platform answers with success moves the pin. -/
theorem State.pinCfg_succeeds (p : Pin) (d : Dir) (pl : Pull) (ir : Irq) (use : CfgUse) {s : State} (h : s.cfgAnswer = true) :
    OneAct (.pinConfig p d pl ir true) s (s.pinCfg p d pl ir use) ∧ (s.pinCfg p d pl ir use).seq = s.seq ∧
    Moved p ((s.pins.get p).withCfg true d pl ir) (s.env.ext.get p) s (s.pinCfg p d pl ir use) := by
  have hlog : OneAct (.pinConfig p d pl ir true) s _ := OneAct.afterDropCfg s nofun
  rw [State.pinCfg, h]
  exact ⟨hlog.edge (State.movePin_edgeOnly _ _ _), by simp, movePin_moved (by simp) (by simp) (by simp)⟩

/-- A `PIN_CFG` the platform refuses changes nothing but that a checked one ends its command. -/
theorem State.pinCfg_fails (p : Pin) (d : Dir) (pl : Pull) (ir : Irq) (use : CfgUse) {s : State} (h : s.cfgAnswer = false) :
    OneAct (.pinConfig p d pl ir false) s (s.pinCfg p d pl ir use) ∧
    (s.pinCfg p d pl ir use).seq = (s.onConfigFailure use).seq ∧
    (s.pinCfg p d pl ir use).pins = s.pins ∧ (s.pinCfg p d pl ir use).flag = s.flag := by
  have hlog : OneAct (.pinConfig p d pl ir false) s _ := OneAct.afterDropCfg s nofun
  rw [State.pinCfg, h]
  cases use with
  | checked => exact ⟨hlog.of_eq rfl ⟨rfl, rfl, rfl⟩ rfl, by simp [State.onConfigFailure, State.failConfig], by simp [State.onConfigFailure],
      by simp [State.onConfigFailure]⟩
  | discarded => exact ⟨hlog, by simp [State.onConfigFailure], by simp [State.onConfigFailure], by simp [State.onConfigFailure]⟩

theorem resultWords_cfgFail {s : State} (h : s.seq.ret = .cfgFail) : resultWords s = cfgFailWords := by
  rw [resultWords, h]; rfl

/-- Settles O20: the platform's answer decides between the move of the pin, its edge in the same step, and `CFG_FAIL`. -/
theorem pinCfg : Obligations.PinCfg := by
  unfold Obligations.PinCfg
  intro p d pl ir s hs
  obtain ⟨hcmd, as, hrun⟩ := runOn_one (.pinCfg p d pl ir .checked) rfl nofun (.pinCfg p d pl ir) .ok hs
  refine ⟨_, s.cfgAnswer, (exec_ungated rfl rfl hs.1).trans (congrArg _ hrun), platformSays_cfgAnswer s, ?_⟩
  cases hok : s.cfgAnswer with
  | true =>
    have hans : (s.begun (.pinCfg p d pl ir) .ok).cfgAnswer = true := hok
    obtain ⟨hact, hseq, hmoved⟩ := State.pinCfg_succeeds p d pl ir .checked hans
    obtain ⟨hret, heng, hext, hnow, hacts⟩ := hact.returned hcmd (resultWords_ok (congrArg Seq.ret hseq)) as
    exact ⟨hret, hmoved, heng, hext, hnow, hacts⟩
  | false =>
    have hans : (s.begun (.pinCfg p d pl ir) .ok).cfgAnswer = false := hok
    obtain ⟨hact, hseq, hpins, hflag⟩ := State.pinCfg_fails p d pl ir .checked hans
    obtain ⟨hret, heng, hext, hnow, hacts⟩ := hact.returned hcmd (resultWords_cfgFail (congrArg Seq.ret hseq)) as
    exact ⟨hret, moved_of_same hpins hflag, heng, hext, hnow, hacts⟩

/-- Settles O23: the platform's answer decides between the new handler and `CFG_FAIL`. -/
theorem irqReg : Obligations.IrqReg := by
  unfold Obligations.IrqReg
  intro p m os s hs
  obtain ⟨hcmd, as, hrun⟩ := runOn_one (.irqReg p m os .checked) rfl nofun (.irqReg p m os) .ok hs
  refine ⟨_, s.cfgAnswer, (exec_ungated rfl rfl hs.1).trans (congrArg _ hrun), platformSays_cfgAnswer s, ?_⟩
  have hlog : OneAct (.handlerReg p m os s.cfgAnswer) (s.begun (.irqReg p m os) .ok) _ := OneAct.afterDropCfg _ nofun
  have hans : (s.begun (.irqReg p m os) .ok).cfgAnswer = s.cfgAnswer := rfl
  rw [Micro.run, State.irqReg, hans] at hcmd ⊢
  cases hok : s.cfgAnswer with
  | true =>
    rw [hok] at hlog hcmd
    obtain ⟨hret, heng, hext, hnow, -⟩ := (hlog.setHandler p (some { mbx := m, once := os })).returned hcmd (resultWords_ok (by simp)) as
    exact ⟨hret, by simp [PinRegs.withHnd], by simp, heng, hext, hnow⟩
  | false =>
    rw [hok] at hlog hcmd
    obtain ⟨hret, heng, hext, hnow, -⟩ := hlog.failConfig.returned hcmd (resultWords_cfgFail rfl) as
    exact ⟨hret, by simp [State.onConfigFailure], by simp [State.onConfigFailure], heng, hext, hnow⟩

/-- Settles O24: the handler goes, and nothing else. -/
theorem irqUnreg : Obligations.IrqUnreg := by
  unfold Obligations.IrqUnreg
  intro p s hs
  obtain ⟨hcmd, as, hrun⟩ := runOn_one (.irqUnreg p) rfl nofun (.irqUnreg p) .ok hs
  have hlog : OneAct (.handlerUnreg p) (s.begun (.irqUnreg p) .ok) _ := OneAct.log _ nofun
  obtain ⟨hret, heng, hext, hnow, -⟩ := (hlog.setHandler p none).returned hcmd (resultWords_ok rfl) as
  exact ⟨_, (exec_ungated rfl rfl hs.1).trans (congrArg _ hrun), hret, rfl, rfl, heng, hext, hnow⟩

/-- Settles O22: the sample is the line's level, or the draw that an `X` line takes. -/
theorem pinGet : Obligations.PinGet := by
  unfold Obligations.PinGet
  intro p s hs
  obtain ⟨hcmd, as, hrun⟩ := runOn_one (.sample p .tmp) rfl nofun (.pinGet p) .bit hs
  have hact := (OneAct.afterRead p (s.begun (.pinGet p) .bit)).setTmp ((s.begun (.pinGet p) .bit).readLevel p)
  have hread : (s.begun (.pinGet p) .bit).readLevel p = s.readLevel p := rfl
  obtain ⟨hret, heng, hext, hnow, -⟩ := hact.returned hcmd (resultWords_bit (by simp [Dest.store, State.started]) hread) as
  have hpins : ((s.begun (.pinGet p) .bit).afterRead p).pins = s.pins ∧ ((s.begun (.pinGet p) .bit).afterRead p).flag = s.flag := by
    unfold State.afterRead
    split <;> simp [State.started]
  refine ⟨_, s.readLevel p, (exec_ungated rfl rfl hs.1).trans (congrArg _ hrun), hret, ?_, ?_, ?_, hpins.1, hpins.2, heng, hext, hnow⟩
  all_goals rw [← State.line_eq]
  · exact fun h => by rw [State.readLevel, h]
  · exact fun h => by rw [State.readLevel, h]
  · intro b h hb
    obtain ⟨bs, hbs⟩ := List.head?_eq_some_iff.mp hb
    rw [State.readLevel, h]
    dsimp only
    rw [State.xDraw, hbs]

/-! ## The mailbox commands that do not wait -/

/-- Settles O29: the flag is read, or cleared, in one step. -/
theorem mbxTestAndClear : Obligations.MbxTestAndClear := by
  unfold Obligations.MbxTestAndClear
  intro m s hs
  constructor
  · obtain ⟨hcmd, as, hrun⟩ := runOn_one (.mbxTest m) rfl nofun (.mbxTest m) .bit hs
    have hlog : OneAct (.flagTest m (s.flag.get m)) (s.begun (.mbxTest m) .bit) ((Micro.mbxTest m).run (s.begun (.mbxTest m) .bit)) :=
      ⟨rfl, ⟨rfl, rfl, rfl⟩, rfl, rfl, rfl, rfl, ownTrace_cons _ _ (by simp)⟩
    obtain ⟨hret, heng, hext, hnow, -⟩ := hlog.returned hcmd (resultWords_bit rfl rfl) as
    exact ⟨_, (exec_ungated rfl rfl hs.1).trans (congrArg _ hrun), hret, rfl, rfl, heng, hext, hnow⟩
  · obtain ⟨hcmd, as, hrun⟩ := runOn_one (.mbxClear m) rfl nofun (.mbxClear m) .ok hs
    have hlog : OneAct (.flagClear m) (s.begun (.mbxClear m) .ok) ((Micro.mbxClear m).run (s.begun (.mbxClear m) .ok)) :=
      ⟨rfl, ⟨rfl, rfl, rfl⟩, rfl, rfl, rfl, rfl, ownTrace_cons _ _ (by simp)⟩
    obtain ⟨hret, heng, hext, hnow, -⟩ := hlog.returned hcmd (resultWords_ok rfl) as
    exact ⟨_, (exec_ungated rfl rfl hs.1).trans (congrArg _ hrun), hret, rfl, rfl, heng, hext, hnow⟩

end Sys2Proof.Machine
end

section
/-! A run seen through what the statements read: `View` holds the registers, the pins, the time and the projections of `TRACE`, and
`Micro.eff` is what a micro-operation does to a view. `Micro.run_ran` ties them to the model: a micro-operation takes a state like the
view to a state like its effect, whatever edges do meanwhile. -/

namespace Sys2Proof.Machine

/-! ## Views -/

/-- What the statements read of a solo state. -/
structure View where
  cfg : Config.Params
  i2c : I2c
  spi : Spi
  uart : Uart
  tmp : Bool
  out : List Byte
  ret : Ret
  pins : PerPin PinRegs
  flag : PerMbx Bool
  now : Nat
  /-- the platform's coming answers -/
  answers : List Bool
  /-- the projections of `TRACE`, newest first -/
  writes : List (Nat × Pin × Bool)
  acts : List (Nat × Event)
  samples : PerPin (List (Nat × Bool))
  reports : List Byte
  notes : List (BitVec 4 × Byte)

/-- One list of samples for each pin. -/
def samplesOf (tr : List Stamped) : PerPin (List (Nat × Bool)) :=
  { sda := pinSamples .sda tr, scl := pinSamples .scl tr, sclk := pinSamples .sclk tr, sdo := pinSamples .sdo tr,
    sdi := pinSamples .sdi tr, cs := pinSamples .cs tr, tx := pinSamples .tx tr, rx := pinSamples .rx tr }

theorem samplesOf_get (tr : List Stamped) (p : Pin) : (samplesOf tr).get p = pinSamples p tr := by cases p <;> rfl

def State.view (s : State) : View :=
  { cfg := s.cfg, i2c := s.i2c, spi := s.spi, uart := s.uart, tmp := s.seq.tmp, out := s.seq.out, ret := s.seq.ret,
    pins := s.pins, flag := s.flag, now := s.env.now, answers := s.env.cfgOutcomes, writes := pinWrites s.env.trace,
    acts := pinActs s.env.trace, samples := samplesOf s.env.trace, reports := reportBytes s.env.trace,
    notes := notifications s.env.trace }

/-! ## What one micro-operation does to a view -/

namespace View

/-- `PIN_SET(p, v)`. -/
def write (p : Pin) (v : Bool) (w : View) : View :=
  { w with pins := w.pins.set p ((w.pins.get p).withLat v), writes := (w.now, p, v) :: w.writes,
           acts := (w.now, .pinWrite p v) :: w.acts }

/-- `PIN_CFG`, answered with `ok`. -/
def config (p : Pin) (d : Dir) (pl : Pull) (ir : Irq) (ok : Bool) (w : View) : View :=
  { w with pins := w.pins.set p ((w.pins.get p).withCfg ok d pl ir), answers := w.answers.tail,
           acts := (w.now, .pinConfig p d pl ir ok) :: w.acts }

/-- `IRQ_REG`, answered with `ok`. -/
def register (p : Pin) (m : Mbx) (os : Bool) (ok : Bool) (w : View) : View :=
  { w with pins := if ok then w.pins.set p ((w.pins.get p).withHnd (some { mbx := m, once := os })) else w.pins,
           answers := w.answers.tail, acts := (w.now, .handlerReg p m os ok) :: w.acts }

/-- `IRQ_UNREG`. -/
def unregister (p : Pin) (w : View) : View :=
  { w with pins := w.pins.set p ((w.pins.get p).withHnd none), acts := (w.now, .handlerUnreg p) :: w.acts }

/-- The value of an output bit. -/
def outBit (w : View) : OutBit → Bool
  | .const v => v
  | .i2cShift i => bitOf w.i2c.shift i
  | .spiSho i => bitOf w.spi.sho i
  | .uartTxsh i => bitOf w.uart.txsh i

/-- A sample put where it belongs. -/
def store (b : Bool) (w : View) : Dest → View
  | .tmp => { w with tmp := b }
  | .i2cShift i => { w with i2c := { w.i2c with shift := setBit w.i2c.shift i b } }
  | .spiShi i => { w with spi := { w.spi with shi := setBit w.spi.shi i b } }
  | .uartRxsh i => { w with uart := { w.uart with rxsh := setBit w.uart.rxsh i b } }

/-- A sample of pin `p` that reads `b`. -/
def sample (p : Pin) (b : Bool) (w : View) : View :=
  { w with samples := w.samples.set p ((w.now, b) :: w.samples.get p) }

def clear (m : Mbx) (w : View) : View := { w with flag := w.flag.set m false }

def pass (n : Nat) (w : View) : View := { w with now := w.now + n }

/-- The buffer and its index after the stop bit. -/
def rxUart (w : View) : Uart :=
  if w.tmp then
    { w.uart with
      rxBuf := if w.uart.rxIdx < w.cfg.rxCap then Memory.write w.uart.rxBuf w.uart.rxIdx w.uart.rxsh else w.uart.rxBuf
      rxIdx := if w.uart.rxIdx + 1 = w.cfg.rxCap then 0 else w.uart.rxIdx + 1 }
  else { w.uart with rxIdx := 0 }

/-- The flush report of a full buffer, `free` being the bytes of the entries nothing has written. -/
def rxReport (free : Nat → Byte) (w : View) : List Byte :=
  if w.tmp = true ∧ w.uart.rxIdx + 1 = w.cfg.rxCap ∧ w.cfg.rxPolicy = .flush then
    (List.range w.cfg.rxCap).map fun j => (Memory.read? w.rxUart.rxBuf j).getD (free j)
  else []

end View

/-- The effect of a register assignment, append or notification on a view. -/
def RegOp.eff (free : Nat → Byte) (w : View) : RegOp → View
  | .i2cRole r => { w with i2c := { w.i2c with role := r } }
  | .mState x => { w with i2c := { w.i2c with mState := x } }
  | .mStateWrite => if w.i2c.mState = .address then w else { w with i2c := { w.i2c with mState := .data } }
  | .sState x => { w with i2c := { w.i2c with sState := x } }
  | .i2cLoad v => { w with i2c := { w.i2c with shift := v, bitcnt := 8 } }
  | .i2cDec => { w with i2c := { w.i2c with bitcnt := w.i2c.bitcnt - 1 } }
  | .i2cAck => { w with i2c := { w.i2c with ack := !w.tmp } }
  | .pushAck => { w with out := w.out ++ [bitByte w.i2c.ack] }
  | .pushByte => { w with out := w.out ++ [w.i2c.shift] }
  | .emitDispatch lsa =>
    if dispatchCode lsa w.i2c.shift = 0 then w
    else { w with notes := ((dispatchCode lsa w.i2c.shift).setWidth 4, w.i2c.shift) :: w.notes }
  | .spiRole r => { w with spi := { w.spi with role := r } }
  | .spiMode m => { w with spi := { w.spi with mode := m } }
  | .spiLoad x => { w with spi := { w.spi with sho := x, shi := 0, bitcnt := 8 } }
  | .spiDec => { w with spi := { w.spi with bitcnt := w.spi.bitcnt - 1 } }
  | .uartTxRdy v => { w with uart := { w.uart with txRdy := v } }
  | .uartRxRdy v => { w with uart := { w.uart with rxRdy := v } }
  | .uartTxLoad x => { w with uart := { w.uart with txsh := x, bitcnt := 8 } }
  | .uartRxLoad => { w with uart := { w.uart with rxsh := 0, bitcnt := 8 } }
  | .uartDec => { w with uart := { w.uart with bitcnt := w.uart.bitcnt - 1 } }
  | .rxIdxZero => { w with uart := { w.uart with rxIdx := 0 } }
  | .rxStop => { w with uart := w.rxUart, reports := (w.rxReport free).reverse ++ w.reports }
  | .emitFrameDone => { w with notes := (3, 0) :: w.notes }

/-- What the environment and the platform decide of one micro-operation: the level it reads, the platform's answer, the bytes of
entries nothing has written. -/
structure Input where
  bit : Bool
  ok : Bool
  free : Nat → Byte

/-- The pin a micro-operation reads. -/
def Micro.reads : Micro → Pin
  | .sample p _ => p
  | .spin (.level p _) _ => p
  | _ => .scl

/-- The effect of one micro-operation on a view, a wait's whole length at once and a spin-wait passing. -/
def Micro.eff (x : Input) (w : View) : Micro → View
  | .reg r => r.eff x.free w
  | .pinCfg p d pl ir use =>
    let v := w.config p d pl ir x.ok
    if x.ok = false ∧ use = .checked then { v with ret := .cfgFail } else v
  | .pinSet p v => w.write p (w.outBit v)
  | .sample p d => (w.sample p x.bit).store x.bit d
  | .irqReg p m os use =>
    let v := w.register p m os x.ok
    if x.ok = false ∧ use = .checked then { v with ret := .cfgFail } else v
  | .irqUnreg p => w.unregister p
  | .wait n => w.pass n
  | .mbxClear m => w.clear m
  | .spin (.flagClear m) _ => w.clear m
  | .spin (.level p _) _ => w.sample p x.bit
  | .spin .startSeen _ => w.sample .scl x.bit
  | .stopPass _ _ => { w.sample .scl x.bit with tmp := x.bit }
  | _ => w

/-- The micro-operations that are left after one. -/
def Micro.next (x : Input) (w : View) (rest : List Micro) : Micro → List Micro
  | .pinCfg _ _ _ _ .checked => if x.ok then rest else []
  | .irqReg _ _ _ .checked => if x.ok then rest else []
  | .nackKeep k => if w.i2c.ack then rest else rest.drop (rest.length - k)
  | .stopPass k _ => if x.bit then rest else rest.drop k
  | .rxAgain => uartRxLoopProg w.cfg ++ rest
  | _ => rest

/-- A micro-operation whose effect the view and the level read decide: a spin-wait that passes at its first evaluation, a pass of
`I2C_S_WSTOP` that ends the loop, and all others but `MBX_TEST`. -/
def Micro.ready (w : View) (b : Bool) : Micro → Prop
  | .spin (.flag m) a => a = false ∧ w.flag.get m = true
  | .spin (.flagClear m) a => a = false ∧ w.flag.get m = true
  | .spin (.level _ v) a => a = false ∧ b = v
  | .spin .startSeen a => a = false ∧ b = true ∧ w.flag.get .mI2c = true
  | .stopPass _ a => a = false ∧ (b = true → w.flag.get .mI2c = true)
  | .mbxTest _ => False
  | _ => True

/-! ## States like a view -/

/-- The state is the view but for what edges did: a one-shot handler may have fired, and flags may be set. -/
structure Like (w : View) (s : State) : Prop where
  seen : w = { s.view with pins := w.pins, flag := w.flag }
  pins : ∀ q, pinKept (w.pins.get q) (s.pins.get q)
  flags : ∀ m, w.flag.get m = true → s.flag.get m = true

/-- From `s` to `t` one micro-operation ran: `t` is like `w`, `pos` is left to run, and the lines' environment and the host's side
are as they were. -/
structure Ran (w : View) (pos : List Micro) (s t : State) : Prop where
  like : Like w t
  pos : t.seq.pos = pos
  busy : t.seq.busy = s.seq.busy
  cmd : t.seq.cmd = s.seq.cmd
  waitRem : t.seq.waitRem = s.seq.waitRem
  ext : t.env.ext = s.env.ext
  stream : t.env.stream = s.env.stream
  cp : t.env.cp = s.env.cp
  res : t.env.res = s.env.res

theorem Like.refl (s : State) : Like s.view s := ⟨rfl, fun _ => pinKept.refl _, fun _ h => h⟩

theorem samplesOf_own (tr : List Stamped) : samplesOf (ownTrace tr) = samplesOf tr := by
  simp only [samplesOf, pinSamples_own]

/-- An edge changes nothing a view holds but pins and flags. -/
theorem EdgeOnly.view {s t : State} (e : EdgeOnly s t) : t.view = { s.view with pins := t.pins, flag := t.flag } := by
  have ho := e.own
  simp only [State.view, e.cfg, e.i2c, e.spi, e.uart, e.seq, e.now, e.cfgOutcomes]
  rw [← pinWrites_own, ← pinActs_own, ← samplesOf_own, ← reportBytes_own, ← notifications_own, ho, pinWrites_own, pinActs_own,
    samplesOf_own, reportBytes_own, notifications_own]

theorem Like.edge {w : View} {s t : State} (h : Like w s) (e : EdgeOnly s t) (hp : ∀ q, pinKept (s.pins.get q) (t.pins.get q))
    (hf : ∀ m, s.flag.get m = true → t.flag.get m = true) : Like w t :=
  ⟨by rw [e.view]; exact h.seen, fun q => (h.pins q).trans (hp q), fun m hm => hf m (h.flags m hm)⟩

theorem Ran.edge {w : View} {pos : List Micro} {s t u : State} (h : Ran w pos s t) (e : EdgeOnly t u)
    (hp : ∀ q, pinKept (t.pins.get q) (u.pins.get q)) (hf : ∀ m, t.flag.get m = true → u.flag.get m = true) : Ran w pos s u :=
  ⟨h.like.edge e hp hf, by rw [e.seq, h.pos], by rw [e.seq, h.busy], by rw [e.seq, h.cmd], by rw [e.seq, h.waitRem],
    e.ext.trans h.ext, e.stream.trans h.stream, e.cp.trans h.cp, e.res.trans h.res⟩

/-! ## What one micro-operation does -/

/-- A state is like its own view with earlier pins and flags. -/
theorem Like.of_view {v : View} {s : State} (h : s.view = { v with pins := s.pins, flag := s.flag })
    (hp : ∀ q, pinKept (v.pins.get q) (s.pins.get q)) (hf : ∀ m, v.flag.get m = true → s.flag.get m = true) : Like v s :=
  ⟨by rw [h], hp, hf⟩

/-- The pins changed at `p` on both sides. -/
theorem kept_set {P Q : PerPin PinRegs} (h : ∀ q, pinKept (P.get q) (Q.get q)) (p : Pin) {a b : PinRegs} (hab : pinKept a b) (q : Pin) :
    pinKept ((P.set p a).get q) ((Q.set p b).get q) := by
  simp only [PerPin.get_set]
  split
  · exact hab
  · exact h q

theorem pinKept.withLat {a b : PinRegs} (h : pinKept a b) (v : Bool) : pinKept (a.withLat v) (b.withLat v) := by
  obtain ⟨hdir, hpull, hirq, -, hhnd⟩ := h
  exact ⟨hdir, hpull, hirq, rfl, hhnd⟩

theorem pinKept.withCfg {a b : PinRegs} (h : pinKept a b) (ok : Bool) (d : Dir) (pl : Pull) (ir : Irq) :
    pinKept (a.withCfg ok d pl ir) (b.withCfg ok d pl ir) := by
  cases ok
  · exact h
  · obtain ⟨-, -, -, hlat, hhnd⟩ := h
    exact ⟨rfl, rfl, rfl, hlat, hhnd⟩

theorem pinKept.withHnd {a b : PinRegs} (h : pinKept a b) (k : Option Handler) : pinKept (a.withHnd k) (b.withHnd k) := by
  obtain ⟨hdir, hpull, hirq, hlat, -⟩ := h
  exact ⟨hdir, hpull, hirq, hlat, .inl rfl⟩

/-- A step that leaves pins, flags and the sequencer's list as they are takes a state like `w` to one like `v`, where `v` differs from
`w` as the states' views do. -/
theorem Ran.of_same {w v : View} {s t : State} (h : Like w s)
    (hv : v = { t.view with pins := w.pins, flag := w.flag }) (hpins : t.pins = s.pins) (hflag : t.flag = s.flag)
    (hq : t.seq.pos = s.seq.pos ∧ t.seq.busy = s.seq.busy ∧ t.seq.cmd = s.seq.cmd ∧ t.seq.waitRem = s.seq.waitRem)
    (he : t.env.ext = s.env.ext ∧ t.env.stream = s.env.stream ∧ t.env.cp = s.env.cp ∧ t.env.res = s.env.res) :
    Ran v s.seq.pos s t := by
  subst hv
  obtain ⟨hpos, hbusy, hcmd, hwait⟩ := hq
  obtain ⟨hext, hstream, hcp, hres⟩ := he
  exact ⟨⟨rfl, by rw [hpins]; exact h.pins, by rw [hflag]; exact h.flags⟩, hpos, hbusy, hcmd, hwait, hext, hstream, hcp, hres⟩

/-- The state does not differ at all. -/
theorem Ran.refl {w : View} {s : State} (h : Like w s) : Ran w s.seq.pos s s := ⟨h, rfl, rfl, rfl, rfl, rfl, rfl, rfl, rfl⟩

/-! ### The stop bit -/

theorem State.reportByte_view (s : State) (j : Nat) : ∃ b, (s.reportByte j).view =
    { s.view with reports := (Memory.read? s.uart.rxBuf j).getD b :: s.view.reports } := by
  refine ⟨Config.freeByte s.env.freeCtr, ?_⟩
  unfold State.reportByte
  split
  · next hb => rw [hb]; rfl
  · next hb => rw [hb]; rfl

theorem State.reportByte_env (s : State) (j : Nat) : (s.reportByte j).env.ext = s.env.ext ∧
    (s.reportByte j).env.stream = s.env.stream ∧ (s.reportByte j).env.cp = s.env.cp ∧ (s.reportByte j).env.res = s.env.res := by
  unfold State.reportByte; split <;> exact ⟨rfl, rfl, rfl, rfl⟩

/-- A flush report reads one byte of each entry. -/
theorem report_view {l : List Nat} (hl : l.Nodup) (s : State) : ∃ free : Nat → Byte, (l.foldl State.reportByte s).view =
    { s.view with
      reports := (l.map fun j => (Memory.read? s.uart.rxBuf j).getD (free j)).reverse ++ s.view.reports } := by
  induction l generalizing s with
  | nil => exact ⟨fun _ => 0, rfl⟩
  | cons j l ih =>
    obtain ⟨hj, hl⟩ := List.nodup_cons.mp hl
    obtain ⟨b, hb⟩ := s.reportByte_view j
    obtain ⟨free, hfree⟩ := ih hl (s.reportByte j)
    refine ⟨fun k => if k = j then b else free k, ?_⟩
    have hrest : (l.map fun k => (Memory.read? s.uart.rxBuf k).getD (if k = j then b else free k)) =
        l.map fun k => (Memory.read? (s.reportByte j).uart.rxBuf k).getD (free k) := by
      refine List.map_congr_left fun k hk => ?_
      rw [if_neg (by rintro rfl; exact hj hk), State.reportByte_uart]
    have hfirst : (fun k => if k = j then b else free k) j = b := if_pos rfl
    rw [List.foldl_cons, hfree, hb, List.map_cons, hrest, hfirst, List.reverse_cons, List.append_assoc]
    rfl

theorem report_env (l : List Nat) (s : State) : (l.foldl State.reportByte s).env.ext = s.env.ext ∧
    (l.foldl State.reportByte s).env.stream = s.env.stream ∧ (l.foldl State.reportByte s).env.cp = s.env.cp ∧
    (l.foldl State.reportByte s).env.res = s.env.res := by
  induction l generalizing s with
  | nil => exact ⟨rfl, rfl, rfl, rfl⟩
  | cons j l ih =>
    obtain ⟨hext, hstream, hcp, hres⟩ := s.reportByte_env j
    rw [List.foldl_cons, ← hext, ← hstream, ← hcp, ← hres]
    exact ih _

theorem State.rxStop_view (s : State) : ∃ free, s.rxStop.view =
    { s.view with uart := s.view.rxUart, reports := (s.view.rxReport free).reverse ++ s.view.reports } := by
  obtain ⟨free, hfree⟩ := report_view (@List.nodup_range s.cfg.rxCap) s.rxAppend
  refine ⟨free, ?_⟩
  have htmp : s.view.tmp = s.seq.tmp := rfl
  have hidx : s.view.uart.rxIdx = s.uart.rxIdx := rfl
  have hcap : s.view.cfg = s.cfg := rfl
  have happ : s.rxAppend.uart.rxIdx = s.uart.rxIdx + 1 := rfl
  unfold View.rxReport View.rxUart State.rxStop
  rw [htmp, hidx, hcap, happ]
  cases s.seq.tmp with
  | false => rfl
  | true =>
    by_cases hfull : s.uart.rxIdx + 1 = s.cfg.rxCap
    · simp only [if_pos hfull, State.bufferFull]
      cases hpol : s.rxAppend.cfg.rxPolicy with
      | flush =>
        have hpol' : s.cfg.rxPolicy = .flush := hpol
        simp only [hpol', hfull, and_self, if_true]
        have hset (t : State) (n : Nat) : (t.setRxIdx n).view = { t.view with uart := { t.uart with rxIdx := n } } := rfl
        rw [hset, foldl_reportByte_uart]
        have : s.rxAppend.cfg = s.cfg := rfl
        rw [this, hfree]
        rfl
      | reset =>
        have hpol' : s.cfg.rxPolicy = .reset := hpol
        simp only [hpol', hfull]
        rfl
    · simp only [hfull, false_and, and_false, if_false]
      rfl

theorem State.rxStop_env (s : State) : s.rxStop.env.ext = s.env.ext ∧ s.rxStop.env.stream = s.env.stream ∧
    s.rxStop.env.cp = s.env.cp ∧ s.rxStop.env.res = s.env.res := by
  unfold State.rxStop State.bufferFull
  split
  · split
    · split
      · exact report_env _ _
      · exact ⟨rfl, rfl, rfl, rfl⟩
    · exact ⟨rfl, rfl, rfl, rfl⟩
  · exact ⟨rfl, rfl, rfl, rfl⟩

theorem RegOp.apply_ran (r : RegOp) {w : View} {s : State} (h : Like w s) :
    ∃ free, Ran (r.eff free w) s.seq.pos s (r.apply s) := by
  have hw := h.seen
  cases r
  case mStateWrite =>
    refine ⟨fun _ => 0, ?_⟩
    have hi : w.i2c = s.i2c := by rw [hw]; rfl
    simp only [RegOp.eff, RegOp.apply, hi]
    split
    · exact .refl h
    · exact .of_same h (by rw [hw]; rfl) rfl rfl ⟨rfl, rfl, rfl, rfl⟩ ⟨rfl, rfl, rfl, rfl⟩
  case emitDispatch lsa =>
    refine ⟨fun _ => 0, ?_⟩
    have hi : w.i2c = s.i2c := by rw [hw]; rfl
    simp only [RegOp.eff, RegOp.apply, State.emitDispatch, hi]
    split
    · exact .refl h
    · exact .of_same h (by rw [hw]; rfl) rfl rfl ⟨rfl, rfl, rfl, rfl⟩ ⟨rfl, rfl, rfl, rfl⟩
  case rxStop =>
    obtain ⟨free, hfree⟩ := s.rxStop_view
    refine ⟨free, .of_same h ?_ (Within.reg_pins .rxStop s).1 (Within.reg_pins .rxStop s).2 ?_ s.rxStop_env⟩
    · rw [hw]
      exact congrArg (fun v : View => { v with pins := w.pins, flag := w.flag }) hfree.symm
    · rw [RegOp.apply, State.rxStop_seq]
      exact ⟨rfl, rfl, rfl, rfl⟩
  all_goals
    exact ⟨fun _ => 0, .of_same h (by rw [hw]; rfl) rfl rfl ⟨rfl, rfl, rfl, rfl⟩ ⟨rfl, rfl, rfl, rfl⟩⟩

/-! ### The pins and the flags -/

theorem State.log_act_view (s : State) {e : Event}
    (he : (∃ p d pl ir ok, e = .pinConfig p d pl ir ok) ∨ (∃ p m os ok, e = .handlerReg p m os ok) ∨ ∃ p, e = .handlerUnreg p) :
    (s.log e).view = { s.view with acts := (s.env.now, e) :: s.view.acts } := by
  obtain ⟨p, d, pl, ir, ok, rfl⟩ | ⟨p, m, os, ok, rfl⟩ | ⟨p, rfl⟩ := he <;> rfl

theorem State.log_sample_view (p : Pin) (b : Bool) (s : State) : (s.log (.pinSample p b)).view = s.view.sample p b := by
  have hs : samplesOf ({ time := s.env.now, event := .pinSample p b } :: s.env.trace) =
      (samplesOf s.env.trace).set p ((s.env.now, b) :: (samplesOf s.env.trace).get p) := by cases p <;> rfl
  simp only [State.view, State.log, View.sample, hs]
  rfl

theorem State.dropCfg_view (s : State) : s.dropCfg.view = { s.view with answers := s.view.answers.tail } := by
  have ha : s.view.answers = s.env.cfgOutcomes := rfl
  rw [ha]
  unfold State.dropCfg
  split
  · next h => rw [h]; rfl
  · next h =>
    have : s.bumpFree.view = { s.view with answers := s.env.cfgOutcomes } := rfl
    rw [this, h]
    rfl

theorem State.dropCfg_env (s : State) : s.dropCfg.env.ext = s.env.ext ∧ s.dropCfg.env.stream = s.env.stream ∧
    s.dropCfg.env.cp = s.env.cp ∧ s.dropCfg.env.res = s.env.res ∧ s.dropCfg.env.now = s.env.now := by
  unfold State.dropCfg; split <;> exact ⟨rfl, rfl, rfl, rfl, rfl⟩

/-- The registers of pin `p` replaced on both sides, before the edge synchronizer acts. -/
theorem Ran.setPins {w : View} {pos : List Micro} {s t : State} (h : Ran w pos s t) (p : Pin) {a b : PinRegs} (hab : pinKept a b) :
    Ran { w with pins := w.pins.set p a } pos s { t with pins := t.pins.set p b } :=
  ⟨⟨by rw [h.like.seen]; rfl, kept_set h.like.pins p hab, h.like.flags⟩, h.pos, h.busy, h.cmd, h.waitRem, h.ext, h.stream, h.cp,
    h.res⟩

/-- The registers of pin `p` replaced, the edge synchronizer acting. -/
theorem Ran.movePin {w : View} {pos : List Micro} {s t : State} (h : Ran w pos s t) (p : Pin) {a b : PinRegs} (hab : pinKept a b) :
    Ran { w with pins := w.pins.set p a } pos s (t.movePin p b) :=
  (h.setPins p hab).edge (State.edgeSync_edgeOnly p (t.line p) _) (fun q => State.edgeSync_pins p q (t.line p) _)
    (fun m hm => State.edgeSync_flag p (t.line p) _ m hm)

theorem Ran.failConfig {w : View} {pos : List Micro} {s t : State} (h : Ran w pos s t) :
    Ran { w with ret := .cfgFail } [] s t.failConfig :=
  ⟨⟨by rw [h.like.seen]; rfl, h.like.pins, h.like.flags⟩, rfl, h.busy, h.cmd, h.waitRem, h.ext, h.stream, h.cp, h.res⟩

theorem State.pinSet_ran (p : Pin) (v : Bool) {w : View} {s : State} (h : Like w s) :
    Ran (w.write p v) s.seq.pos s (s.pinSet p v) := by
  have hlog : Ran { w with writes := (w.now, p, v) :: w.writes, acts := (w.now, .pinWrite p v) :: w.acts } s.seq.pos s
      (s.log (.pinWrite p v)) := .of_same h (by rw [h.seen]; rfl) rfl rfl ⟨rfl, rfl, rfl, rfl⟩ ⟨rfl, rfl, rfl, rfl⟩
  exact hlog.movePin p ((h.pins p).withLat v)

theorem State.irqUnreg_ran (p : Pin) {w : View} {s : State} (h : Like w s) :
    Ran (w.unregister p) s.seq.pos s (s.irqUnreg p) :=
  ⟨⟨by rw [h.seen]; rfl, kept_set h.pins p ((h.pins p).withHnd none), h.flags⟩, rfl, rfl, rfl, rfl, rfl, rfl, rfl, rfl⟩

theorem State.clearFlag_ran (m : Mbx) {w : View} {s : State} (h : Like w s) : Ran (w.clear m) s.seq.pos s (s.clearFlag m) := by
  refine ⟨⟨by rw [h.seen]; rfl, h.pins, fun k hk => ?_⟩, rfl, rfl, rfl, rfl, rfl, rfl, rfl, rfl⟩
  simp only [View.clear, PerMbx.get_set, State.clearFlag_flag] at hk ⊢
  split at hk
  · cases hk
  · next hne => rw [if_neg hne]; exact h.flags k hk

/-- The platform's answer is used up and the act observed. -/
theorem State.answered_ran (e : Event) {w : View} {s : State} (h : Like w s)
    (he : (∃ p d pl ir ok, e = .pinConfig p d pl ir ok) ∨ (∃ p m os ok, e = .handlerReg p m os ok) ∨ ∃ p, e = .handlerUnreg p) :
    Ran { w with answers := w.answers.tail, acts := (w.now, e) :: w.acts } s.seq.pos s (s.dropCfg.log e) := by
  obtain ⟨hext, hstream, hcp, hres, hnow⟩ := s.dropCfg_env
  have hv := s.dropCfg.log_act_view he
  rw [s.dropCfg_view, hnow] at hv
  have hq : (s.dropCfg.log e).seq = s.seq := s.dropCfg_seq
  refine .of_same h ?_ s.dropCfg_pins s.dropCfg_flag ?_ ⟨hext, hstream, hcp, hres⟩
  · rw [hv, h.seen]; rfl
  · rw [hq]; exact ⟨rfl, rfl, rfl, rfl⟩

/-- What a failed configuration leaves to run, and what the command is to return. -/
theorem Ran.onConfigFailure {w : View} {pos : List Micro} {s t : State} (h : Ran w pos s t) (use : CfgUse) :
    Ran (if use = .checked then { w with ret := .cfgFail } else w) (if use = .checked then [] else pos) s
      (t.onConfigFailure use) := by
  cases use
  · exact h.failConfig
  · exact h

theorem Micro.next_pinCfg (x : Input) (w : View) (rest : List Micro) (p : Pin) (d : Dir) (pl : Pull) (ir : Irq) (use : CfgUse) :
    (Micro.pinCfg p d pl ir use).next x w rest = if x.ok = false ∧ use = .checked then [] else rest := by
  cases use <;> cases hx : x.ok <;> simp [Micro.next, hx]

theorem Micro.next_irqReg (x : Input) (w : View) (rest : List Micro) (p : Pin) (m : Mbx) (os : Bool) (use : CfgUse) :
    (Micro.irqReg p m os use).next x w rest = if x.ok = false ∧ use = .checked then [] else rest := by
  cases use <;> cases hx : x.ok <;> simp [Micro.next, hx]

theorem Micro.pinCfg_ran (p : Pin) (d : Dir) (pl : Pull) (ir : Irq) (use : CfgUse) {x : Input} {w : View} {s : State} (h : Like w s)
    (hx : x.ok = s.cfgAnswer) :
    Ran ((Micro.pinCfg p d pl ir use).eff x w) ((Micro.pinCfg p d pl ir use).next x w s.seq.pos) s (s.pinCfg p d pl ir use) := by
  have ht := State.answered_ran (.pinConfig p d pl ir s.cfgAnswer) h (.inl ⟨p, d, pl, ir, _, rfl⟩)
  rw [Micro.next_pinCfg]
  simp only [Micro.eff, State.pinCfg, View.config, hx]
  cases hok : s.cfgAnswer with
  | true =>
    simp only [hok] at ht
    have hkept := (h.pins p).withCfg true d pl ir
    exact ht.movePin p hkept
  | false =>
    simp only [hok] at ht
    have hsame : (w.pins.get p).withCfg false d pl ir = w.pins.get p := rfl
    rw [hsame, PerPin.set_get]
    cases use
    · exact ht.failConfig
    · exact ht

theorem Micro.irqReg_ran (p : Pin) (m : Mbx) (os : Bool) (use : CfgUse) {x : Input} {w : View} {s : State} (h : Like w s)
    (hx : x.ok = s.cfgAnswer) :
    Ran ((Micro.irqReg p m os use).eff x w) ((Micro.irqReg p m os use).next x w s.seq.pos) s (s.irqReg p m os use) := by
  have ht := State.answered_ran (.handlerReg p m os s.cfgAnswer) h (.inr (.inl ⟨p, m, os, _, rfl⟩))
  rw [Micro.next_irqReg]
  simp only [Micro.eff, State.irqReg, View.register, hx]
  cases hok : s.cfgAnswer with
  | true =>
    simp only [hok] at ht
    exact ht.setPins p ((ht.like.pins p).withHnd _)
  | false =>
    simp only [hok] at ht
    cases use
    · exact ht.failConfig
    · exact ht

/-! ### Reading a line -/

theorem State.afterRead_ran (p : Pin) {w : View} {s : State} (h : Like w s) :
    Ran (w.sample p (s.readLevel p)) s.seq.pos s (s.afterRead p) := by
  have key (u : State) (hu : EdgeOnly s u) (hp : u.pins = s.pins) (hf : u.flag = s.flag) :
      Ran (w.sample p (s.readLevel p)) s.seq.pos s (u.log (.pinSample p (s.readLevel p))) := by
    have hw := h.edge hu (fun q => hp ▸ pinKept.refl _) fun m hm => hf ▸ hm
    have hv := State.log_sample_view p (s.readLevel p) u
    refine ⟨⟨?_, hw.pins, hw.flags⟩, congrArg Seq.pos hu.seq, congrArg Seq.busy hu.seq, congrArg Seq.cmd hu.seq,
      congrArg Seq.waitRem hu.seq, hu.ext, hu.stream, hu.cp, hu.res⟩
    rw [hv, hw.seen]
    rfl
  unfold State.afterRead
  split
  · next hx =>
    have hread : s.readLevel p = s.xDraw := by rw [State.readLevel, hx]
    rw [← hread]
    exact key _ s.dropX_edgeOnly s.dropX_pins s.dropX_flag
  · exact key s (.refl s) rfl rfl

theorem Ran.store {w : View} {pos : List Micro} {s t : State} (h : Ran w pos s t) (b : Bool) (d : Dest) :
    Ran (w.store b d) pos s (d.store b t) := by
  cases d <;>
    exact ⟨⟨by rw [h.like.seen]; rfl, h.like.pins, h.like.flags⟩, h.pos, h.busy, h.cmd, h.waitRem, h.ext, h.stream, h.cp, h.res⟩

theorem Like.outBit {w : View} {s : State} (h : Like w s) (v : OutBit) : v.value s = w.outBit v := by
  rw [h.seen]; cases v <;> rfl

theorem Ran.setPos {w : View} {pos : List Micro} {s t : State} (h : Ran w pos s t) (rest : List Micro) :
    Ran w rest s (t.setPos rest) :=
  ⟨⟨by rw [h.like.seen]; rfl, h.like.pins, h.like.flags⟩, rfl, h.busy, h.cmd, h.waitRem, h.ext, h.stream, h.cp, h.res⟩

/-! ### All of them -/

/-- A micro-operation that is ready takes a state like the view to a state like its effect on the view. -/
theorem Micro.run_ran (op : Micro) {w : View} {s : State} (h : Like w s) (hw : ∀ n, op ≠ .wait n)
    (hr : op.ready w (s.readLevel op.reads)) : ∃ x : Input, x.bit = s.readLevel op.reads ∧ x.ok = s.cfgAnswer ∧
      Ran (op.eff x w) (op.next x w s.seq.pos) s (op.run s) := by
  cases op with
  | reg r =>
    obtain ⟨free, hran⟩ := r.apply_ran h
    exact ⟨⟨_, _, free⟩, rfl, rfl, hran⟩
  | pinCfg p d pl ir use => exact ⟨⟨_, s.cfgAnswer, fun _ => 0⟩, rfl, rfl, Micro.pinCfg_ran p d pl ir use h rfl⟩
  | pinSet p v =>
    refine ⟨⟨_, _, fun _ => 0⟩, rfl, rfl, ?_⟩
    rw [Micro.run, Micro.eff, h.outBit]
    exact s.pinSet_ran p _ h
  | sample p d => exact ⟨⟨s.readLevel p, _, fun _ => 0⟩, rfl, rfl, (s.afterRead_ran p h).store _ d⟩
  | irqReg p m os use => exact ⟨⟨_, s.cfgAnswer, fun _ => 0⟩, rfl, rfl, Micro.irqReg_ran p m os use h rfl⟩
  | irqUnreg p => exact ⟨⟨_, _, fun _ => 0⟩, rfl, rfl, s.irqUnreg_ran p h⟩
  | wait n => exact absurd rfl (hw n)
  | mbxTest m => exact hr.elim
  | mbxClear m => exact ⟨⟨_, _, fun _ => 0⟩, rfl, rfl, s.clearFlag_ran m h⟩
  | spin c a =>
    refine ⟨⟨s.readLevel _, s.cfgAnswer, fun _ => 0⟩, rfl, rfl, ?_⟩
    cases c with
    | flag m =>
      obtain ⟨-, hm⟩ := hr
      have hs : s.flag.get m = true := h.flags m hm
      simp only [Micro.run, SpinCond.eval, hs, if_true]
      exact .refl h
    | flagClear m =>
      obtain ⟨-, hm⟩ := hr
      have hs : s.flag.get m = true := h.flags m hm
      simp only [Micro.run, SpinCond.eval, hs, if_true]
      exact s.clearFlag_ran m h
    | level p v =>
      obtain ⟨-, hv⟩ := hr
      have hv : s.readLevel p = v := hv
      simp only [Micro.run, SpinCond.eval, hv, beq_self_eq_true, if_true]
      exact s.afterRead_ran p h
    | startSeen =>
      obtain ⟨-, hv, hm⟩ := hr
      have hv : s.readLevel .scl = true := hv
      have hs : s.flag.get .mI2c = true := h.flags _ hm
      simp only [Micro.run, SpinCond.eval, hv, hs, Bool.and_self, if_true]
      exact s.afterRead_ran .scl h
  | stopPass k a =>
    refine ⟨⟨s.readLevel _, s.cfgAnswer, fun _ => 0⟩, rfl, rfl, ?_⟩
    have hm : s.readLevel .scl = true → w.flag.get .mI2c = true := hr.2
    have hran := (s.afterRead_ran .scl h).store (s.readLevel .scl) .tmp
    cases hb : s.readLevel .scl with
    | false =>
      have hpos : (s.afterRead .scl).seq.pos = s.seq.pos := by rw [State.afterRead_seq]
      rw [hb] at hran
      simp only [Micro.run, Micro.next, Micro.eff, Micro.reads, hb, Bool.false_eq_true, if_false, hpos]
      exact hran.setPos (s.seq.pos.drop k)
    | true =>
      have hs : s.flag.get .mI2c = true := h.flags _ (hm hb)
      rw [hb] at hran
      simp only [Micro.run, Micro.next, Micro.eff, Micro.reads, hb, hs, if_true]
      exact hran
  | nackKeep k =>
    refine ⟨⟨_, _, fun _ => 0⟩, rfl, rfl, ?_⟩
    have hi : w.i2c = s.i2c := by rw [h.seen]; rfl
    simp only [Micro.run, Micro.eff, Micro.next, hi]
    split
    · exact .refl h
    · exact (Ran.refl h).setPos _
  | rxAgain =>
    refine ⟨⟨_, _, fun _ => 0⟩, rfl, rfl, ?_⟩
    have hc : w.cfg = s.cfg := by rw [h.seen]; rfl
    simp only [Micro.run, Micro.eff, Micro.next, hc]
    exact (Ran.refl h).setPos _

end Sys2Proof.Machine
end

section
/-! Every run of a command is a walk along its micro-operations at the level of views: `Ends a K prog w` says that every such walk is
ready throughout and ends in a view `K` holds of, and `exec_ends` that the command then returns in a state like such a view, under every
plan without a reset. -/

namespace Sys2Proof.Machine

/-! ## Where a command stands -/

/-- The result words of a command that returns with the view `w`; `count` stands for the count of 256 gathered bytes (log 13). -/
def View.words (w : View) (count : Byte) : List Word :=
  match w.ret with
  | .ok => [resultWord statusOk 0]
  | .bit => [resultWord statusOk (bitByte w.tmp)]
  | .i2cAck => [resultWord statusOk (bitByte w.i2c.ack)]
  | .i2cShift => [resultWord statusOk w.i2c.shift]
  | .spiShi => [resultWord statusOk w.spi.shi]
  | .const v => [resultWord statusOk v]
  | .gathered => resultWord statusOk (if w.out.length < 256 then BitVec.ofNat 8 w.out.length else count) :: w.out.map valueWord
  | .serve lsa =>
    [resultWord statusOk w.i2c.shift, valueWord (dispatchCode lsa w.i2c.shift), valueWord (bitByte w.tmp)]
  | .cfgFail => [resultWord statusCfgFail 0]

theorem resultWords_view (s : State) : resultWords s = s.view.words (Config.freeByte s.env.freeCtr) := by
  unfold resultWords View.words
  cases h : s.seq.ret with
  | gathered => simp only [State.view, h]; rfl
  | _ => simp only [State.view, h]

theorem Like.words {w : View} {s : State} (h : Like w s) (v : Byte) : w.words v = s.view.words v := by
  rw [h.seen]; rfl

/-- Command `i`, presented in `s0`, has returned with the view `w`. -/
structure Done (i : Instr) (s0 : State) (w : View) (s : State) : Prop where
  like : Like w s
  pos : s.seq.pos = []
  busy : s.seq.busy = false
  waitRem : s.seq.waitRem = 0
  returned : ∃ v, Returned i s0 s (w.words v)

/-- Command `i`, presented in `s0`, has come to the view `w` with `pos` left to run and `r` microseconds left of a wait, the environment
driving the lines with `e`. -/
structure Busy (i : Instr) (s0 : State) (e : PerPin Ext) (w : View) (r : Nat) (pos : List Micro) (s : State) : Prop where
  like : Like w s
  pos : s.seq.pos = pos
  busy : s.seq.busy = true
  waitRem : s.seq.waitRem = r
  cmd : s.seq.cmd = { word := encodeWord i, payload := (encode i).tail }
  ext : s.env.ext = e
  cfg : s.cfg = s0.cfg
  stream : s.env.stream = s0.env.stream
  cp : s.env.cp = s0.env.cp
  res : s.env.res = s0.env.res

/-- Command `i` has come to the view `w` with `pos` left to run: with nothing left it has returned. -/
def At (i : Instr) (s0 : State) (e : PerPin Ext) (w : View) : List Micro → State → Prop
  | [], s => Done i s0 w s
  | op :: rest, s => Busy i s0 e w 0 (op :: rest) s

/-- Command `i` has come to the view `w` and is to wait `r` microseconds before it goes on with `rest`. -/
def Waits (i : Instr) (s0 : State) (e : PerPin Ext) (w : View) : Nat → List Micro → State → Prop
  | 0, rest, s => At i s0 e w rest s
  | r + 1, rest, s => ∃ n, Busy i s0 e w (r + 1) (.wait n :: rest) s

variable {i : Instr} {s0 : State} {e : PerPin Ext} {w : View}

theorem Busy.waits {op : Micro} {rest : List Micro} {s : State} (h : Busy i s0 e w 0 (op :: rest) s) :
    Waits i s0 e w 0 (op :: rest) s := h

theorem Busy.settle {pos : List Micro} {s : State} (h : Busy i s0 e w 0 pos s) : At i s0 e w pos s.settle := by
  cases pos with
  | nil =>
    rw [State.settle_nil s h.busy h.pos]
    refine ⟨⟨h.like.seen, h.like.pins, h.like.flags⟩, rfl, rfl, h.waitRem, Config.freeByte s.env.freeCtr, ?_⟩
    have hws : resultWords s = w.words (Config.freeByte s.env.freeCtr) := by rw [resultWords_view, h.like.words]
    exact returned_of_returnResult s.env.plan h.cmd hws h.cp h.stream h.cfg
  | cons op rest =>
    rw [State.settle_busy s (by rw [h.pos]; simp)]
    exact h

/-- The next micro-operation, when it is ready. -/
theorem Busy.seqStep {op : Micro} {rest : List Micro} {s : State} (h : Busy i s0 e w 0 (op :: rest) s) (hw : ∀ n, op ≠ .wait n)
    (hr : op.ready w (s.readLevel op.reads)) : ∃ x : Input, x.bit = s.readLevel op.reads ∧ x.ok = s.cfgAnswer ∧
      At i s0 e (op.eff x w) (op.next x w rest) s.seqStep := by
  have hlike : Like w (s.setPos rest) := ⟨h.like.seen, h.like.pins, h.like.flags⟩
  obtain ⟨x, hbit, hok, hran⟩ := op.run_ran hlike hw hr
  refine ⟨x, hbit, hok, ?_⟩
  have hstep : s.seqStep = (op.run (s.setPos rest)).settle := by rw [State.seqStep, h.pos]
  rw [hstep]
  refine Busy.settle ⟨hran.like, hran.pos, hran.busy.trans h.busy, hran.waitRem.trans h.waitRem, hran.cmd.trans h.cmd,
    hran.ext.trans h.ext, ?_, hran.stream.trans h.stream, hran.cp.trans h.cp, hran.res.trans h.res⟩
  exact (Forward.run op (s.setPos rest)).cfg.trans h.cfg

/-- The beginning of a wait. -/
theorem Busy.wait {n : Nat} {rest : List Micro} {s : State} (h : Busy i s0 e w 0 (.wait n :: rest) s) :
    Waits i s0 e w n rest s.seqStep := by
  have hstep : s.seqStep = ((Micro.wait n).run (s.setPos rest)).settle := by rw [State.seqStep, h.pos]
  have hlog : Busy i s0 e w 0 rest ((s.setPos rest).log (.waitStart n)) :=
    ⟨⟨h.like.seen, h.like.pins, h.like.flags⟩, rfl, h.busy, h.waitRem, h.cmd, h.ext, h.cfg, h.stream, h.cp, h.res⟩
  rw [hstep]
  cases n with
  | zero => exact hlog.settle
  | succ n =>
    have hrun : (Micro.wait (n + 1)).run (s.setPos rest) =
        { s.log (.waitStart (n + 1)) with seq := { s.seq with pos := .wait (n + 1) :: rest, waitRem := n + 1 } } := by
      simp [Micro.run, State.log, State.setPos, State.pushOp]
    rw [hrun, State.settle_busy _ (by simp)]
    exact ⟨n + 1, ⟨h.like.seen, h.like.pins, h.like.flags⟩, rfl, h.busy, rfl, h.cmd, h.ext, h.cfg, h.stream, h.cp, h.res⟩

/-- Time inside a wait. -/
theorem Busy.elapse {r n : Nat} {rest : List Micro} {s : State} (d : Nat) (h : Busy i s0 e w r (.wait n :: rest) s) :
    Waits i s0 e (w.pass (min d r)) (r - d) rest (s.elapse d) := by
  have htime (k : Nat) (hk : s.seq.waitRem - d = k) :
      Busy i s0 e (w.pass (min d r)) k (.wait n :: rest)
        (({ s with seq := { s.seq with waitRem := s.seq.waitRem - d } } : State).addTime (min d s.seq.waitRem)) :=
    ⟨⟨by rw [h.like.seen, h.waitRem]; rfl, h.like.pins, h.like.flags⟩, h.pos, h.busy, hk, h.cmd, h.ext, h.cfg, h.stream, h.cp, h.res⟩
  rw [h.waitRem] at htime
  unfold State.elapse
  rw [h.waitRem]
  cases hk : r - d with
  | zero =>
    have hend := htime 0 hk
    simp only [hk] at hend ⊢
    refine Busy.settle ⟨⟨hend.like.seen, hend.like.pins, hend.like.flags⟩, ?_, h.busy, rfl, h.cmd, h.ext, h.cfg, h.stream, h.cp, h.res⟩
    simp [h.pos]
  | succ k =>
    have hmore := htime (k + 1) hk
    simp only [hk] at hmore ⊢
    exact ⟨n, hmore⟩

/-- The environment moves a line. -/
theorem Busy.drive {r : Nat} {pos : List Micro} {s : State} (h : Busy i s0 e w r pos s) (p : Pin) (v : Ext) :
    Busy i s0 (e.set p v) w r pos (s.driveExt p v) := by
  have he := State.driveExt_edgeOnly p v s
  have hset : Like w { s with env := { s.env with ext := s.env.ext.set p v } } := ⟨h.like.seen, h.like.pins, h.like.flags⟩
  refine ⟨hset.edge he (fun q => State.driveExt_pins p q v s) (fun m hm => State.driveExt_flag p v s m hm), ?_, ?_, ?_, ?_, ?_,
    he.cfg.trans h.cfg, he.stream.trans h.stream, he.cp.trans h.cp, he.res.trans h.res⟩
  · rw [State.driveExt_seq, h.pos]
  · rw [State.driveExt_seq, h.busy]
  · rw [State.driveExt_seq, h.waitRem]
  · rw [State.driveExt_seq, h.cmd]
  · rw [he.ext, ← h.ext]

/-! ## Every walk -/

/-- What is known of the environment during a run: the lines it leaves alone, and what it drives onto them. -/
structure Around where
  still : Pin → Prop
  ext : PerPin Ext

/-- The environment of a command presented in `s`. -/
def State.around (s : State) : Around := { still := fun p => leaves p s.env.plan, ext := s.env.ext }

/-- `x` can be what the environment and the platform decide of the next micro-operation: a line left alone reads as its level where it
has one, and an answer is the platform's given one where there is one. -/
structure Around.allows (a : Around) (w : View) (op : Micro) (x : Input) : Prop where
  bit : a.still op.reads → ∀ v, lineOf (w.pins.get op.reads) (a.ext.get op.reads) = .ofBit v → x.bit = v
  ok : ∀ v, w.answers.head? = some v → x.ok = v

/-- Every walk along `prog` from the view `w` is ready throughout and ends in a view `K` holds of. -/
inductive Ends (a : Around) (K : View → Prop) : List Micro → View → Prop
  | done {w : View} (h : K w) : Ends a K [] w
  | step {op : Micro} {rest : List Micro} {w : View} (hloop : op ≠ .rxAgain)
      (hr : ∀ x, a.allows w op x → op.ready w x.bit)
      (hn : ∀ x, a.allows w op x → Ends a K (op.next x w rest) (op.eff x w)) : Ends a K (op :: rest) w

theorem Like.answers {w : View} {s : State} (h : Like w s) : w.answers = s.env.cfgOutcomes := by rw [h.seen]; rfl

/-- A level the line resolves to is the level read. -/
theorem Like.readLevel {w : View} {s : State} (h : Like w s) {p : Pin} {v : Bool}
    (hv : lineOf (w.pins.get p) (s.env.ext.get p) = .ofBit v) : s.readLevel p = v := by
  obtain ⟨hdir, hpull, -, hlat, -⟩ := h.pins p
  have hline : s.line p = .ofBit v := by
    rw [State.line_eq, ← hv]
    unfold lineOf
    rw [hdir, hpull, hlat]
  unfold State.readLevel
  rw [hline]
  cases v <;> rfl

/-- What the environment and the platform decide of the next micro-operation is something they can. -/
theorem Busy.allows {a : Around} {op : Micro} {rest : List Micro} {s : State} (h : Busy i s0 e w 0 (op :: rest) s)
    (he : ∀ p, a.still p → e.get p = a.ext.get p) {x : Input} (hbit : x.bit = s.readLevel op.reads) (hok : x.ok = s.cfgAnswer) :
    a.allows w op x := by
  constructor
  · intro hstill v hv
    rw [← he _ hstill, ← h.ext] at hv
    rw [hbit, h.like.readLevel hv]
  · intro v hv
    rw [h.like.answers] at hv
    obtain ⟨l, hl⟩ := List.head?_eq_some_iff.mp hv
    rw [hok, State.cfgAnswer, hl]

/-! ## A run is a walk -/

/-- The run is on a walk that ends where `K` holds. -/
def OnWalk (i : Instr) (s0 : State) (a : Around) (K : View → Prop) (s : State) : Prop :=
  (∃ w, K w ∧ Done i s0 w s) ∨
  ∃ e w r rest, (∀ p, a.still p → e.get p = a.ext.get p) ∧ Waits i s0 e w r rest s ∧ s.seq.busy = true ∧ Ends a K rest (w.pass r)

variable {a : Around} {K : View → Prop}

theorem Waits.idle {r : Nat} {rest : List Micro} {s : State} (h : Waits i s0 e w r rest s) (hb : s.seq.busy = false) :
    r = 0 ∧ rest = [] ∧ Done i s0 w s := by
  cases r with
  | zero =>
    cases rest with
    | nil => exact ⟨rfl, rfl, h⟩
    | cons op rest => exact absurd h.busy (by simp [hb])
  | succ r =>
    obtain ⟨n, h⟩ := h
    exact absurd h.busy (by simp [hb])

/-- A walk that has come to `rest` goes on, or has ended. -/
theorem OnWalk.of_waits {r : Nat} {rest : List Micro} {s : State} (he : ∀ p, a.still p → e.get p = a.ext.get p)
    (h : Waits i s0 e w r rest s) (hk : Ends a K rest (w.pass r)) : OnWalk i s0 a K s := by
  cases hb : s.seq.busy with
  | true => exact .inr ⟨e, w, r, rest, he, h, hb, hk⟩
  | false =>
    obtain ⟨rfl, rfl, hdone⟩ := h.idle hb
    cases hk with
    | done hk => exact .inl ⟨w, hk, hdone⟩

theorem OnWalk.of_at {pos : List Micro} {s : State} (he : ∀ p, a.still p → e.get p = a.ext.get p) (h : At i s0 e w pos s)
    (hk : Ends a K pos w) : OnWalk i s0 a K s :=
  @OnWalk.of_waits i s0 e w a K 0 pos s he h hk

theorem View.pass_pass (w : View) (m n : Nat) : (w.pass m).pass n = w.pass (m + n) := by
  simp [View.pass, Nat.add_assoc]

/-- Where a busy run stands: before a micro-operation, or in a wait. -/
theorem OnWalk.cases {s : State} (h : OnWalk i s0 a K s) (hb : s.seq.busy = true) :
    ∃ e w, (∀ p, a.still p → e.get p = a.ext.get p) ∧
      ((∃ op rest, Busy i s0 e w 0 (op :: rest) s ∧ Ends a K (op :: rest) w) ∨
       ∃ r n rest, Busy i s0 e w (r + 1) (.wait n :: rest) s ∧ Ends a K rest (w.pass (r + 1))) := by
  obtain ⟨w, -, hdone⟩ | ⟨e, w, r, rest, he, h, -, hk⟩ := h
  · exact absurd hb (by simp [hdone.busy])
  · refine ⟨e, w, he, ?_⟩
    cases r with
    | succ r =>
      obtain ⟨n, h⟩ := h
      exact .inr ⟨r, n, rest, h, hk⟩
    | zero =>
      cases rest with
      | nil => exact absurd hb (by simp [Done.busy h])
      | cons op rest => exact .inl ⟨op, rest, h, hk⟩

/-- What is left to run never grows. -/
theorem Micro.next_length (op : Micro) (hloop : op ≠ .rxAgain) (x : Input) (w : View) (rest : List Micro) :
    (op.next x w rest).length ≤ rest.length := by
  cases op with
  | rxAgain => exact absurd rfl hloop
  | pinCfg p d pl ir use => rw [Micro.next_pinCfg]; split <;> simp
  | irqReg p m os use => rw [Micro.next_irqReg]; split <;> simp
  | nackKeep k => simp only [Micro.next]; split <;> simp
  | stopPass k again => simp only [Micro.next]; split <;> simp
  | _ => exact le_refl _

/-- The sequencer's step is a step of the walk. -/
theorem Busy.seqStep_walk {op : Micro} {rest : List Micro} {s : State} (he : ∀ p, a.still p → e.get p = a.ext.get p)
    (h : Busy i s0 e w 0 (op :: rest) s) (hk : Ends a K (op :: rest) w) :
    ∃ v r rest', Waits i s0 e v r rest' s.seqStep ∧ Ends a K rest' (v.pass r) ∧ rest'.length ≤ rest.length := by
  cases hk with
  | step hloop hr hn =>
    by_cases hw : ∃ n, op = .wait n
    · obtain ⟨n, rfl⟩ := hw
      have hx : a.allows w (.wait n) ⟨s.readLevel .scl, s.cfgAnswer, fun _ => 0⟩ := h.allows he rfl rfl
      exact ⟨w, n, rest, h.wait, hn _ hx, le_refl _⟩
    · have hready : op.ready w (s.readLevel op.reads) :=
        hr ⟨s.readLevel op.reads, s.cfgAnswer, fun _ => 0⟩ (h.allows he rfl rfl)
      obtain ⟨x, hbit, hok, hat⟩ := h.seqStep (fun n hn => hw ⟨n, hn⟩) hready
      exact ⟨_, 0, _, hat, hn x (h.allows he hbit hok), op.next_length hloop x w rest⟩

theorem OnWalk.seqStep {op : Micro} {rest : List Micro} {s : State} (he : ∀ p, a.still p → e.get p = a.ext.get p)
    (h : Busy i s0 e w 0 (op :: rest) s) (hk : Ends a K (op :: rest) w) : OnWalk i s0 a K s.seqStep := by
  obtain ⟨v, r, rest', hw, hk, -⟩ := h.seqStep_walk he hk
  exact .of_waits he hw hk

theorem OnWalk.elapse {r n d : Nat} {rest : List Micro} {s : State} (he : ∀ p, a.still p → e.get p = a.ext.get p)
    (h : Busy i s0 e w (r + 1) (.wait n :: rest) s) (hk : Ends a K rest (w.pass (r + 1))) : OnWalk i s0 a K (s.elapse d) := by
  refine .of_waits he (h.elapse d) ?_
  rw [View.pass_pass]
  have : min d (r + 1) + (r + 1 - d) = r + 1 := by omega
  rwa [this]

theorem OnWalk.setPlan {s : State} (h : OnWalk i s0 a K s) (as : List EnvAct) : OnWalk i s0 a K (s.setPlan as) := by
  have hbusy {e w r pos} (h : Busy i s0 e w r pos s) : Busy i s0 e w r pos (s.setPlan as) :=
    ⟨⟨h.like.seen, h.like.pins, h.like.flags⟩, h.pos, h.busy, h.waitRem, h.cmd, h.ext, h.cfg, h.stream, h.cp, h.res⟩
  cases hb : s.seq.busy with
  | true =>
    obtain ⟨e, w, he, ⟨op, rest, h, hk⟩ | ⟨r, n, rest, h, hk⟩⟩ := h.cases hb
    · exact .inr ⟨e, w, 0, op :: rest, he, hbusy h, hb, hk⟩
    · exact .inr ⟨e, w, r + 1, rest, he, ⟨n, hbusy h⟩, hb, hk⟩
  | false =>
    obtain ⟨w, hk, hd⟩ | ⟨-, -, -, -, -, -, hb', -⟩ := h
    · obtain ⟨v, hret⟩ := hd.returned
      exact .inl ⟨w, hk, ⟨hd.like.seen, hd.like.pins, hd.like.flags⟩, hd.pos, hd.busy, hd.waitRem, v, hret⟩
    · exact absurd hb' (by simp [hb])

/-- Driving a line that is not left alone. -/
theorem agrees_set (he : ∀ p, a.still p → e.get p = a.ext.get p) {p : Pin} (hp : ¬ a.still p) (v : Ext) :
    ∀ q, a.still q → (e.set p v).get q = a.ext.get q := by
  intro q hq
  rw [PerPin.get_set_ne _ _ (by rintro rfl; exact hp hq), he q hq]

/-- A walk is never inside a spin-wait. -/
theorem Busy.not_spinning {op : Micro} {rest : List Micro} {s : State} (h : Busy i s0 e w 0 (op :: rest) s)
    (he : ∀ p, a.still p → e.get p = a.ext.get p) (hk : Ends a K (op :: rest) w) : s.spinning = false := by
  cases hk with
  | step hloop hr hn =>
    have hready := hr ⟨s.readLevel op.reads, s.cfgAnswer, fun _ => 0⟩ (h.allows he rfl rfl)
    unfold State.spinning
    rw [h.pos]
    cases op with
    | spin c again => cases c <;> (have : again = false := hready.1; subst this; rfl)
    | stopPass k again => have : again = false := hready.1; subst this; rfl
    | _ => rfl

/-- One act of the environment keeps to the walk. -/
theorem OnWalk.act {act : EnvAct} {s : State} (h : OnWalk i s0 a K s) (hb : s.seq.busy = true) (hr : act ≠ .reset)
    (hstill : ∀ p v, act = .drive p v → ¬ a.still p) : OnWalk i s0 a K (act.apply s) := by
  obtain ⟨e, w, he, ⟨op, rest, h, hk⟩ | ⟨r, n, rest, h, hk⟩⟩ := h.cases hb
  · cases act with
    | reset => exact absurd rfl hr
    | turn =>
      have hact : EnvAct.turn.apply s = s.seqStep := by simp [EnvAct.apply, hb, h.waitRem]
      rw [hact]
      exact .seqStep he h hk
    | drive p v => exact .of_waits (agrees_set he (hstill p v rfl) v) (h.drive p v).waits hk
    | pass d =>
      have hact : (EnvAct.pass d).apply s = s := by simp [EnvAct.apply, State.passTime, hb, h.waitRem, h.not_spinning he hk]
      rw [hact]
      exact .of_waits he h.waits hk
  · cases act with
    | reset => exact absurd rfl hr
    | turn =>
      have hact : EnvAct.turn.apply s = s := by simp [EnvAct.apply, h.waitRem]
      rw [hact]
      exact .inr ⟨e, w, r + 1, rest, he, ⟨n, h⟩, hb, hk⟩
    | drive p v => exact .inr ⟨_, w, r + 1, rest, agrees_set he (hstill p v rfl) v, ⟨n, h.drive p v⟩, (h.drive p v).busy, hk⟩
    | pass d =>
      have hact : (EnvAct.pass d).apply s = s.elapse d := by simp [EnvAct.apply, State.passTime, hb, h.waitRem]
      rw [hact]
      exact .elapse he h hk

/-! ## It returns -/

/-- How much work a place on a walk leaves. -/
theorem Waits.work {r : Nat} {rest : List Micro} {s : State} (h : Waits i s0 e w r rest s) :
    s.work ≤ 2 * rest.length + if r = 0 then 0 else 1 := by
  unfold State.work
  cases r with
  | zero =>
    cases rest with
    | nil => rw [Done.pos h]; simp
    | cons op rest => rw [Busy.pos h]; simp
  | succ r =>
    obtain ⟨n, h⟩ := h
    rw [h.pos, h.waitRem]
    simp
    omega

/-- The sequencer alone keeps to the walk and comes nearer to its end. -/
theorem OnWalk.advance {s : State} (h : OnWalk i s0 a K s) (hb : s.seq.busy = true) :
    OnWalk i s0 a K s.advance ∧ s.advance.work < s.work := by
  obtain ⟨e, w, he, ⟨op, rest, h, hk⟩ | ⟨r, n, rest, h, hk⟩⟩ := h.cases hb
  · have hadv : s.advance = s.seqStep := by rw [State.advance, if_pos h.waitRem]
    have hwork : s.work = 2 * rest.length + 2 := by simp [State.work, h.pos, h.waitRem, Nat.mul_add]
    obtain ⟨v, r, rest', hw, hk, hlen⟩ := h.seqStep_walk he hk
    rw [hadv, hwork]
    refine ⟨.of_waits he hw hk, ?_⟩
    have hle := hw.work
    split at hle <;> omega
  · have hadv : s.advance = s.elapse (r + 1) := by simp [State.advance, h.waitRem]
    have hwork : s.work = 2 * rest.length + 1 := by simp [State.work, h.pos, h.waitRem, Nat.mul_add]
    have hw := h.elapse (r + 1)
    rw [Nat.min_self, Nat.sub_self] at hw
    rw [hadv, hwork]
    have hle := hw.work
    exact ⟨.of_waits he hw hk, by simpa using Nat.lt_succ_of_le hle⟩

theorem OnWalk.not_spinning {s : State} (h : OnWalk i s0 a K s) : s.spinning = false := by
  cases hb : s.seq.busy with
  | true =>
    obtain ⟨e, w, he, ⟨op, rest, h, hk⟩ | ⟨r, n, rest, h, -⟩⟩ := h.cases hb
    · exact h.not_spinning he hk
    · unfold State.spinning; rw [h.pos]
  | false =>
    obtain ⟨w, -, hd⟩ | ⟨-, -, -, -, -, -, hb', -⟩ := h
    · unfold State.spinning; rw [hd.pos]
    · exact absurd hb' (by simp [hb])

theorem OnWalk.drain (n : Nat) {s : State} (h : OnWalk i s0 a K s) (hn : s.work < n) : ∃ w, K w ∧ Done i s0 w (drain n s) := by
  induction n generalizing s with
  | zero => omega
  | succ n ih =>
    unfold Machine.drain
    cases hb : s.seq.busy with
    | true =>
      obtain ⟨hadv, hwork⟩ := h.advance hb
      rw [if_pos rfl, if_neg (by simp [hadv.not_spinning])]
      exact ih hadv (by omega)
    | false =>
      obtain h | ⟨-, -, -, -, -, -, hb', -⟩ := h
      · exact h
      · exact absurd hb' (by simp [hb])

/-- A run on a walk ends where the walk does, under every plan without a reset that leaves the still lines alone. -/
theorem OnWalk.runPlan {plan : List EnvAct} {s : State} (h : OnWalk i s0 a K s) (hr : noReset plan)
    (hstill : ∀ p v, EnvAct.drive p v ∈ plan → ¬ a.still p) : ∃ w, K w ∧ Done i s0 w (runPlan plan s) := by
  induction plan generalizing s with
  | nil =>
    refine h.drain _ ?_
    unfold State.drainFuel State.work
    omega
  | cons act plan ih =>
    unfold Machine.runPlan
    cases hb : s.seq.busy with
    | true =>
      rw [if_pos rfl]
      refine ih (h.act hb ?_ ?_) (fun hm => hr (List.mem_cons_of_mem _ hm)) fun p v hm => hstill p v (List.mem_cons_of_mem _ hm)
      · rintro rfl
        exact hr List.mem_cons_self
      · rintro p v rfl
        exact hstill p v List.mem_cons_self
    | false =>
      rw [if_neg (by simp)]
      obtain ⟨w, hk, hd⟩ | ⟨-, -, -, -, -, -, hb', -⟩ := h.setPlan (act :: plan)
      · exact ⟨w, hk, hd⟩
      · exact absurd hb' (by simp [hb])

/-! ## A command is a walk -/

/-- The view of a command that begins in `s`. -/
def State.taken (ret : Ret) (s : State) : View := { s.view with tmp := false, out := [], ret := ret }

/-- An accepted command begins with its whole program to run. -/
theorem accept_at (i : Instr) (prog : List Micro) (ret : Ret) (s : State) :
    At i s s.env.ext (s.taken ret) prog ((s.accept i prog ret).setPlan []) := by
  have hbusy : Busy i s s.env.ext (s.taken ret) 0 prog (((s.started i ret).setPlan []).setPos prog) :=
    ⟨⟨rfl, fun _ => pinKept.refl _, fun _ h => h⟩, rfl, rfl, rfl, rfl, rfl, rfl, rfl, rfl, rfl⟩
  have haccept : (s.accept i prog ret).setPlan [] = (((s.started i ret).setPlan []).setPos prog).settle := by
    rw [State.accept_eq]
    cases prog <;> rfl
  rw [haccept]
  exact hbusy.settle

/-- A command every walk of which ends where `K` holds returns in a state like such a view, under every plan without a reset. -/
theorem exec_ends (i : Instr) (K : View → Prop) {gate : State → Bool} {prog : List Micro} {ret : Ret} {s : State}
    (he : exec i s = command i gate prog ret s) (hs : s.ready) (hg : gate s = true) (hw : i.wf = true)
    (hk : Ends s.around K prog (s.taken ret)) : ∃ t, exec i s = .next t ∧ ∃ w, K w ∧ Done i s w t := by
  obtain ⟨hidle, hreset⟩ := hs
  refine ⟨_, he.trans (command_accepted i gate prog ret s hidle hg hw), ?_⟩
  rw [State.runOn, State.accept_plan]
  have hwalk : OnWalk i s s.around K ((s.accept i prog ret).setPlan []) :=
    .of_at (fun _ _ => rfl) (accept_at i prog ret s) hk
  exact hwalk.runPlan hreset fun p v hm hstill => hstill v hm

end Sys2Proof.Machine
end

section
/-! One rule for each micro-operation of a walk, and what a returned command leaves to the host and to the block. -/

namespace Sys2Proof.Machine

/-- The eight pins. -/
def Pin.list : List Pin := [.sda, .scl, .sclk, .sdo, .sdi, .cs, .tx, .rx]

/-- The three mailboxes. -/
def Mbx.list : List Mbx := [.mI2c, .mSpi, .mUart]

theorem Pin.mem_list (p : Pin) : p ∈ Pin.list := by cases p <;> decide

theorem Mbx.mem_list (m : Mbx) : m ∈ Mbx.list := by cases m <;> decide

/-- Two tables agree but for the pins `ps`: one comparison of what is left of them, closed by evaluation. -/
theorem PerPin.get_eq_of_rest {α : Type} {t u : PerPin α} {ps : List Pin}
    (h : (Pin.list.filter (· ∉ ps)).map t.get = (Pin.list.filter (· ∉ ps)).map u.get) (q : Pin) (hq : q ∉ ps) : t.get q = u.get q :=
  List.map_inj_left.mp h q (List.mem_filter.mpr ⟨Pin.mem_list q, decide_eq_true hq⟩)

theorem PerMbx.get_eq_of_rest {α : Type} {t u : PerMbx α} {ms : List Mbx}
    (h : (Mbx.list.filter (· ∉ ms)).map t.get = (Mbx.list.filter (· ∉ ms)).map u.get) (m : Mbx) (hm : m ∉ ms) : t.get m = u.get m :=
  List.map_inj_left.mp h m (List.mem_filter.mpr ⟨Mbx.mem_list m, decide_eq_true hm⟩)

/-- What a line of a pin with registers `r` can read as: its level where the line is left alone and has one. -/
def Around.reads (a : Around) (p : Pin) (r : PinRegs) (b : Bool) : Prop :=
  a.still p → ∀ v, lineOf r (a.ext.get p) = .ofBit v → b = v

namespace Ends

variable {a : Around} {K : View → Prop} {w : View} {rest : List Micro}

theorem rxStop (h : ∀ free, Ends a K rest (RegOp.rxStop.eff free w)) : Ends a K (.reg .rxStop :: rest) w :=
  .step nofun (fun _ _ => trivial) fun x _ => h x.free

/-- Only the stop bit reads entries nothing has written. -/
theorem reg {r : RegOp} (hr : r ≠ .rxStop) (h : Ends a K rest (r.eff (fun _ => 0) w)) : Ends a K (.reg r :: rest) w := by
  refine .step nofun (fun _ _ => trivial) fun x _ => ?_
  have heff : r.eff x.free w = r.eff (fun _ => 0) w := by
    cases r with
    | rxStop => exact absurd rfl hr
    | _ => rfl
  show Ends a K rest (r.eff x.free w)
  rw [heff]
  exact h

theorem pinSet {p : Pin} {v : OutBit} (h : Ends a K rest (w.write p (w.outBit v))) : Ends a K (.pinSet p v :: rest) w :=
  .step nofun (fun _ _ => trivial) fun _ _ => h

theorem wait {n : Nat} (h : Ends a K rest (w.pass n)) : Ends a K (.wait n :: rest) w :=
  .step nofun (fun _ _ => trivial) fun _ _ => h

theorem mbxClear {m : Mbx} (h : Ends a K rest (w.clear m)) : Ends a K (.mbxClear m :: rest) w :=
  .step nofun (fun _ _ => trivial) fun _ _ => h

theorem irqUnreg {p : Pin} (h : Ends a K rest (w.unregister p)) : Ends a K (.irqUnreg p :: rest) w :=
  .step nofun (fun _ _ => trivial) fun _ _ => h

/-- A configuration in the middle of a transfer: its status is discarded. -/
theorem pinCfg {p : Pin} {d : Dir} {pl : Pull} {ir : Irq}
    (h : ∀ ok, (∀ v, w.answers.head? = some v → ok = v) → Ends a K rest (w.config p d pl ir ok)) :
    Ends a K (.pinCfg p d pl ir .discarded :: rest) w := by
  refine .step nofun (fun _ _ => trivial) fun x hx => ?_
  simpa [Micro.eff, Micro.next] using h x.ok hx.ok

theorem irqReg {p : Pin} {m : Mbx} {os : Bool}
    (h : ∀ ok, (∀ v, w.answers.head? = some v → ok = v) → Ends a K rest (w.register p m os ok)) :
    Ends a K (.irqReg p m os .discarded :: rest) w := by
  refine .step nofun (fun _ _ => trivial) fun x hx => ?_
  simpa [Micro.eff, Micro.next] using h x.ok hx.ok

/-- A checked configuration that the platform lets succeed. -/
theorem pinCfg_ok {p : Pin} {d : Dir} {pl : Pull} {ir : Irq} (use : CfgUse) (ha : w.answers.head? = some true)
    (h : Ends a K rest (w.config p d pl ir true)) : Ends a K (.pinCfg p d pl ir use :: rest) w := by
  refine .step nofun (fun _ _ => trivial) fun x hx => ?_
  rw [Micro.next_pinCfg]
  simpa [Micro.eff, hx.ok true ha] using h

theorem irqReg_ok {p : Pin} {m : Mbx} {os : Bool} (use : CfgUse) (ha : w.answers.head? = some true)
    (h : Ends a K rest (w.register p m os true)) : Ends a K (.irqReg p m os use :: rest) w := by
  refine .step nofun (fun _ _ => trivial) fun x hx => ?_
  rw [Micro.next_irqReg]
  simpa [Micro.eff, hx.ok true ha] using h

/-- A checked configuration that fails stops its command. -/
theorem pinCfg_fail {p : Pin} {d : Dir} {pl : Pull} {ir : Irq} (ha : w.answers.head? = some false)
    (h : K { w.config p d pl ir false with ret := .cfgFail }) : Ends a K (.pinCfg p d pl ir .checked :: rest) w := by
  refine .step nofun (fun _ _ => trivial) fun x hx => ?_
  rw [Micro.next_pinCfg]
  simpa [Micro.eff, hx.ok false ha] using done h

theorem irqReg_fail {p : Pin} {m : Mbx} {os : Bool} (ha : w.answers.head? = some false)
    (h : K { w.register p m os false with ret := .cfgFail }) : Ends a K (.irqReg p m os .checked :: rest) w := by
  refine .step nofun (fun _ _ => trivial) fun x hx => ?_
  rw [Micro.next_irqReg]
  simpa [Micro.eff, hx.ok false ha] using done h

theorem sample {p : Pin} {d : Dest} (h : ∀ b, a.reads p (w.pins.get p) b → Ends a K rest ((w.sample p b).store b d)) :
    Ends a K (.sample p d :: rest) w :=
  .step nofun (fun _ _ => trivial) fun x hx => h x.bit hx.bit

/-- The wait for a flag that is set already. -/
theorem flagClear {m : Mbx} (hm : w.flag.get m = true) (h : Ends a K rest (w.clear m)) :
    Ends a K (.spin (.flagClear m) false :: rest) w :=
  .step nofun (fun _ _ => ⟨rfl, hm⟩) fun _ _ => h

theorem flag {m : Mbx} (hm : w.flag.get m = true) (h : Ends a K rest w) : Ends a K (.spin (.flag m) false :: rest) w :=
  .step nofun (fun _ _ => ⟨rfl, hm⟩) fun _ _ => h

theorem nackKeep {k : Nat} (h : Ends a K (if w.i2c.ack then rest else rest.drop (rest.length - k)) w) :
    Ends a K (.nackKeep k :: rest) w :=
  .step nofun (fun _ _ => trivial) fun _ _ => h

theorem of_eq {v : View} (h : Ends a K rest v) (e : w = v) : Ends a K rest w := e ▸ h

/-- A program made of one piece for each element of a list. -/
theorem flatMap {α : Type} {g : α → List Micro} {f : View → α → View}
    (hg : ∀ (x : α) (rest : List Micro) (w : View), Ends a K rest (f w x) → Ends a K (g x ++ rest) w) (l : List α)
    (h : Ends a K rest (l.foldl f w)) : Ends a K (l.flatMap g ++ rest) w := by
  induction l generalizing w with
  | nil => exact h
  | cons x l ih =>
    rw [List.flatMap_cons, List.append_assoc]
    exact hg x _ w (ih h)

/-- A program made of one piece for each bit of a frame, each of which takes one bit from a line. -/
theorem flatMap_bits {g : Fin 8 → List Micro} (f : View → Fin 8 → Bool → View) (R : View → Bool → Prop)
    (hR : ∀ w i b b', R (f w i b) b' → R w b')
    (hg : ∀ (i : Fin 8) (rest : List Micro) (w : View), (∀ b, R w b → Ends a K rest (f w i b)) → Ends a K (g i ++ rest) w)
    {l : List (Fin 8)} (hl : l.Nodup)
    (h : ∀ v : Byte, (∀ i ∈ l, R w (bitOf v i)) → Ends a K rest (l.foldl (fun w i => f w i (bitOf v i)) w)) :
    Ends a K (l.flatMap g ++ rest) w := by
  have hbits (h : ∀ β : Fin 8 → Bool, (∀ i ∈ l, R w (β i)) → Ends a K rest (l.foldl (fun w i => f w i (β i)) w)) :
      Ends a K (l.flatMap g ++ rest) w := by
    clear * - hR hg hl h
    induction l generalizing w with
    | nil => exact h (fun _ => false) nofun
    | cons i l ih =>
      obtain ⟨hi, hl⟩ := List.nodup_cons.mp hl
      rw [List.flatMap_cons, List.append_assoc]
      refine hg i _ w fun b hb => ih hl fun β hβ => ?_
      have hne : ∀ j ∈ l, Function.update β i b j = β j := fun j hj => Function.update_of_ne (by rintro rfl; exact hi hj) _ _
      have hw := h (Function.update β i b) fun j hj => by
        rcases List.mem_cons.mp hj with rfl | hj
        · rwa [Function.update_self]
        · rw [hne j hj]; exact hR w i b _ (hβ j hj)
      rw [List.foldl_cons, Function.update_self] at hw
      rwa [List.foldl_ext (fun w i => f w i (β i)) (fun w j => f w j (Function.update β i b j)) _ fun u j hj => by rw [hne j hj]]
  refine hbits fun β hβ => ?_
  have hv (i : Fin 8) : bitOf (BitVec.ofFnLE β) i = β i := by simp [bitOf]
  have := h (BitVec.ofFnLE β) fun i hi => by rw [hv]; exact hβ i hi
  simpa only [hv] using this

end Ends

/-! ## What a returned command leaves -/

namespace Done

variable {i : Instr} {s t : State} {w : View}

theorem i2c (h : Done i s w t) : t.i2c = w.i2c := by rw [h.like.seen]; rfl
theorem spi (h : Done i s w t) : t.spi = w.spi := by rw [h.like.seen]; rfl
theorem uart (h : Done i s w t) : t.uart = w.uart := by rw [h.like.seen]; rfl
theorem now (h : Done i s w t) : t.env.now = w.now := by rw [h.like.seen]; rfl
theorem writes (h : Done i s w t) : pinWrites t.env.trace = w.writes := by rw [h.like.seen]; rfl
theorem acts (h : Done i s w t) : pinActs t.env.trace = w.acts := by rw [h.like.seen]; rfl
theorem reports (h : Done i s w t) : reportBytes t.env.trace = w.reports := by rw [h.like.seen]; rfl
theorem notes (h : Done i s w t) : notifications t.env.trace = w.notes := by rw [h.like.seen]; rfl

theorem samples (h : Done i s w t) (p : Pin) : pinSamples p t.env.trace = w.samples.get p := by
  have hs : w.samples = samplesOf t.env.trace := by rw [h.like.seen]; rfl
  rw [hs, samplesOf_get]

theorem pinsKeptBut (h : Done i s w t) {ps : List Pin} (hp : ∀ q, q ∉ ps → w.pins.get q = s.pins.get q) : pinsKeptBut ps s t :=
  fun q hq => hp q hq ▸ h.like.pins q

theorem flagsKeptBut (h : Done i s w t) {ms : List Mbx} (hm : ∀ m, m ∉ ms → w.flag.get m = s.flag.get m) : flagsKeptBut ms s t :=
  fun m hm' hf => h.like.flags m ((hm m hm').trans hf)

/-- The result words, where the view says what they are. -/
theorem words (h : Done i s w t) {ws : List Word} (hw : ∀ v, w.words v = ws) : Returned i s t ws := by
  obtain ⟨v, hret⟩ := h.returned
  rwa [hw v] at hret

end Done

/-- Settles O25. -/
theorem waitUs : Obligations.WaitUs := by
  unfold Obligations.WaitUs
  intro n s hs
  obtain ⟨t, ht, w, rfl, hd⟩ := exec_ends (.waitUs n) (fun w => w = (s.taken .ok).pass n.toNat) rfl hs rfl rfl
    (.wait (.done rfl))
  refine ⟨t, ht, hd.words fun _ => ?_, hd.now, hd.waitRem, ⟨hd.i2c, hd.spi, hd.uart⟩, hd.pinsKeptBut fun _ _ => rfl,
    hd.flagsKeptBut fun _ _ => rfl, hd.acts⟩
  rfl

/-! ## Setup commands -/

/-- A platform whose next answers are all success. -/
theorem State.cfgSucceeds_split {s : State} {n : Nat} (h : s.cfgSucceeds n) : ∃ l, s.env.cfgOutcomes = List.replicate n true ++ l :=
  ⟨s.env.cfgOutcomes.drop n, by rw [← h, List.take_append_drop]⟩

/-- The platform's next answer is success. -/
theorem succeeds_head {as l : List Bool} {n : Nat} (h : as = List.replicate (n + 1) true ++ l) : as.head? = some true := by
  rw [h]; rfl

/-- Settles O30. -/
theorem i2cMSetup : Obligations.I2cMSetup := by
  unfold Obligations.I2cMSetup
  intro s hs hc
  obtain ⟨l, hl⟩ := State.cfgSucceeds_split hc
  have h1 : s.env.cfgOutcomes.head? = some true := by simp [hl]
  have h2 : s.env.cfgOutcomes.tail.head? = some true := by simp [hl]
  obtain ⟨t, ht, w, hw, hd⟩ := exec_ends (.i2cMSetup) (fun w => w = _) rfl hs rfl rfl
    (.reg nofun <| .pinSet <| .pinCfg_ok _ h1 <| .pinSet <| .pinCfg_ok _ h2 <| .reg nofun <| .reg nofun <| .done rfl)
  simp only [View.write, View.config, View.outBit, RegOp.eff, State.taken, State.view, PerPin.set, PerPin.get] at hw
  subst hw
  refine ⟨t, ht, hd.words fun _ => ?_, hd.acts, hd.i2c, hd.spi, hd.uart, hd.like.pins .sda, hd.like.pins .scl,
    hd.pinsKeptBut fun q hq => ?_, hd.flagsKeptBut fun _ _ => rfl, hd.now⟩
  · rfl
  · exact PerPin.get_eq_of_rest (by rfl) q hq

/-- A pin with a handler that is not one-shot keeps it. -/
theorem pinKept.eq_of_not_once {a b : PinRegs} (h : pinKept a b) (hh : ∀ k, a.hnd = some k → k.once = false) : b = a := by
  obtain ⟨hdir, hpull, hirq, hlat, hhnd | ⟨-, k, hk, ho⟩⟩ := h
  · cases a; cases b; simp_all
  · simp [hh k hk] at ho

/-- Settles O32. -/
theorem spiMSetup : Obligations.SpiMSetup := by
  unfold Obligations.SpiMSetup
  intro m s hs hc
  obtain ⟨l, hl⟩ := State.cfgSucceeds_split hc
  have h1 : s.env.cfgOutcomes.head? = some true := by simp [hl]
  have h2 : s.env.cfgOutcomes.tail.head? = some true := by simp [hl]
  have h3 : s.env.cfgOutcomes.tail.tail.head? = some true := by simp [hl]
  have h4 : s.env.cfgOutcomes.tail.tail.tail.head? = some true := by simp [hl]
  obtain ⟨t, ht, w, hw, hd⟩ := exec_ends (.spiMSetup m) (fun w => w = _) rfl hs rfl rfl
    (.reg nofun <| .pinSet <| .pinCfg_ok _ h1 <| .pinSet <| .pinCfg_ok _ h2 <| .pinSet <| .pinCfg_ok _ h3 <| .pinCfg_ok _ h4 <|
      .reg nofun <| .reg nofun <| .done rfl)
  simp only [View.write, View.config, View.outBit, RegOp.eff, State.taken, State.view, PerPin.set, PerPin.get] at hw
  subst hw
  refine ⟨t, ht, hd.words fun _ => ?_, hd.acts, hd.spi, hd.i2c, hd.uart, hd.like.pins .cs, hd.like.pins .sclk, hd.like.pins .sdo,
    hd.like.pins .sdi, hd.pinsKeptBut fun q hq => ?_, hd.flagsKeptBut fun _ _ => rfl, hd.now⟩
  · rfl
  · exact PerPin.get_eq_of_rest (by rfl) q hq

/-- Settles O34. -/
theorem uartTxSetup : Obligations.UartTxSetup := by
  unfold Obligations.UartTxSetup
  intro s hs hc
  obtain ⟨l, hl⟩ := State.cfgSucceeds_split hc
  have h1 : s.env.cfgOutcomes.head? = some true := by simp [hl]
  obtain ⟨t, ht, w, hw, hd⟩ := exec_ends (.uartTxSetup) (fun w => w = _) rfl hs rfl rfl
    (.reg nofun <| .pinSet <| .pinCfg_ok _ h1 <| .reg nofun <| .done rfl)
  simp only [View.write, View.config, View.outBit, RegOp.eff, State.taken, State.view, PerPin.set, PerPin.get] at hw
  subst hw
  refine ⟨t, ht, hd.words fun _ => ?_, hd.acts, hd.uart, hd.i2c, hd.spi, hd.like.pins .tx,
    hd.pinsKeptBut fun q hq => ?_, hd.flagsKeptBut fun _ _ => rfl, hd.now⟩
  · rfl
  · exact PerPin.get_eq_of_rest (by rfl) q hq

/-! ### What holds of a quiet block once a micro-operation has made it so -/

/-- A micro-operation that goes on with those after it, or has its command fail. -/
def Micro.goesOn : Micro → Bool
  | .nackKeep _ | .stopPass _ _ | .rxAgain => false
  | _ => true

theorem Micro.run_goesOn {op : Micro} (h : op.goesOn = true) (s : State) :
    (op.run s).seq.ret = .cfgFail ∧ (op.run s).seq.pos = [] ∨
    (op.run s).seq.pos = s.seq.pos ∨
    ∃ op', op'.goesOn = true ∧ (op.straight = true → op' = op) ∧ (op.run s).seq.pos = op' :: s.seq.pos := by
  cases op with
  | reg r =>
    obtain ⟨-, hpos, -⟩ := RegOp.apply_seq r s
    exact .inr (.inl hpos)
  | pinCfg p d pl ir use =>
    simp only [Micro.run, State.pinCfg]
    split
    · simp
    · cases use <;> simp [State.onConfigFailure]
  | irqReg p m os use =>
    simp only [Micro.run, State.irqReg]
    split
    · simp
    · cases use <;> simp [State.onConfigFailure]
  | sample p d => cases d <;> simp [Micro.run, Dest.store]
  | wait n =>
    simp only [Micro.run]
    split
    · simp
    · exact .inr (.inr ⟨.wait n, rfl, fun _ => rfl, rfl⟩)
  | spin c a =>
    simp only [Micro.run]
    split
    · simp [SpinCond.eval_seq]
    · exact .inr (.inr ⟨.spin c true, rfl, nofun, by simp [SpinCond.eval_seq]⟩)
  | pinSet | irqUnreg | mbxTest | mbxClear => simp [Micro.run, State.pinSet, State.irqUnreg]
  | nackKeep | stopPass | rxAgain => cases h

/-- Once `op` has run, `G` holds as long as only micro-operations of `post` run. -/
def Made (G : PerPin PinRegs → PerMbx Bool → Prop) (op : Micro) (post : List Micro) (s : State) : Prop :=
  (s.seq.ret = .cfgFail ∧ s.seq.pos = []) ∨ (∃ pre, s.seq.pos = pre ++ op :: post ∧ ∀ o ∈ pre, o.goesOn = true) ∨
  (G s.pins s.flag ∧ ∀ o ∈ s.seq.pos, o ∈ post)

variable {G : PerPin PinRegs → PerMbx Bool → Prop} {op : Micro} {post : List Micro}

theorem Made.congr {s t : State} (h : Made G op post s) (hret : t.seq.ret = s.seq.ret) (hpos : t.seq.pos = s.seq.pos)
    (hpins : t.pins = s.pins) (hflag : t.flag = s.flag) : Made G op post t := by
  unfold Made at h ⊢
  rwa [hret, hpos, hpins, hflag]

/-- The returned command leaves pins and flags as they are. -/
theorem Made.settle {s : State} (h : Made G op post s) : Made G op post s.settle := by
  have hp : s.settle.seq.pos = s.seq.pos := State.settle_pos s
  unfold State.settle at hp ⊢
  split
  · next hb => exact h.congr rfl (by simpa [hb] using hp) rfl rfl
  · exact h

/-- What makes `G` hold: a micro-operation that goes on, after which `G` holds unless its command fails. -/
structure Makes (G : PerPin PinRegs → PerMbx Bool → Prop) (op : Micro) (post : List Micro) : Prop where
  goesOn : op.goesOn = true
  notWait : ∀ n, op ≠ .wait n
  made : ∀ s : State, ((op.run s).seq.ret = .cfgFail ∧ (op.run s).seq.pos = []) ∨ (G (op.run s).pins (op.run s).flag ∧ (op.run s).seq.pos = s.seq.pos)
  straight : ∀ o ∈ post, o.straight = true ∧ o.goesOn = true
  keeps : ∀ o : Micro, o ∈ post → ∀ s : State, G s.pins s.flag → G (o.run s).pins (o.run s).flag

theorem Makes.seqStep (h : Makes G op post) {s : State} (hs : Made G op post s) : Made G op post s.seqStep := by
  unfold State.seqStep
  split
  · exact hs.settle
  · next o rest hpos =>
    refine Made.settle ?_
    obtain ⟨-, hnil⟩ | ⟨pre, hpre, hgo⟩ | ⟨hG, hin⟩ := hs
    · simp [hnil] at hpos
    · rw [hpre] at hpos
      cases pre with
      | nil =>
        obtain ⟨rfl, rfl⟩ : op = o ∧ post = rest := by simpa using hpos
        obtain hf | ⟨hG, hp⟩ := h.made (s.setPos post)
        · exact .inl hf
        · exact .inr (.inr ⟨hG, by rw [hp]; exact fun o ho => ho⟩)
      | cons o' pre =>
        obtain ⟨rfl, rfl⟩ : o' = o ∧ pre ++ op :: post = rest := by simpa using hpos
        have hgo' : ∀ o ∈ pre, o.goesOn = true := fun o ho => hgo o (List.mem_cons_of_mem _ ho)
        obtain hf | hp | ⟨o'', hgo'', -, hp⟩ := Micro.run_goesOn (hgo o' List.mem_cons_self) (s.setPos (pre ++ op :: post))
        · exact .inl hf
        · exact .inr (.inl ⟨pre, hp, hgo'⟩)
        · exact .inr (.inl ⟨o'' :: pre, hp, fun o ho => by
            rcases List.mem_cons.mp ho with rfl | ho
            · exact hgo''
            · exact hgo' o ho⟩)
    · rw [hpos] at hin
      obtain ⟨ho, hrest⟩ := List.forall_mem_cons.mp hin
      obtain ⟨hst, hgo⟩ := h.straight o ho
      have hG' := h.keeps o ho (s.setPos rest) hG
      obtain hf | hp | ⟨o', -, he, hp⟩ := Micro.run_goesOn hgo (s.setPos rest)
      · exact .inl hf
      · exact .inr (.inr ⟨hG', by rw [hp]; exact hrest⟩)
      · exact .inr (.inr ⟨hG', by rw [hp, he hst]; exact hin⟩)

theorem Makes.elapse (h : Makes G op post) {s : State} (d : Nat) (hs : Made G op post s) (hok : s.seqOk) (hw : s.seq.waitRem ≠ 0) :
    Made G op post (s.elapse d) := by
  obtain ⟨n, rest, hpos, -⟩ := hok.2.2 hw
  have htime (k : Nat) : Made G op post (({ s with seq := { s.seq with waitRem := k } } : State).addTime (min d s.seq.waitRem)) :=
    hs.congr rfl rfl rfl rfl
  unfold State.elapse
  simp only
  split
  · refine Made.settle ?_
    obtain ⟨hret, hnil⟩ | ⟨pre, hpre, hgo⟩ | ⟨hG, hin⟩ := hs
    · simp [hnil] at hpos
    · cases pre with
      | nil => exact absurd (by simpa [hpre] using hpos) fun he : op = .wait n ∧ _ => h.notWait n he.1
      | cons o pre =>
        exact .inr (.inl ⟨pre, by simp [hpre], fun o ho => hgo o (List.mem_cons_of_mem _ ho)⟩)
    · exact .inr (.inr ⟨hG, fun o ho => hin o (List.mem_of_mem_tail ho)⟩)
  · exact htime _

/-- What a quiet block's command has made so holds when it has returned without a failed configuration. -/
theorem Makes.exec (h : Makes G op post) (pre : List Micro) {i : Instr} {gate : State → Bool} {ret : Ret} {s t : State} {w : View}
    (he : exec i s = command i gate (pre ++ op :: post) ret s) (hq : s.quiet) (hg : gate s = true) (hw : i.wf = true)
    (hpre : ∀ o ∈ pre, o.goesOn = true) (ht : exec i s = .next t) (hd : Done i s w t) (hret : w.ret ≠ .cfgFail) : G t.pins t.flag := by
  obtain ⟨hidle, hplan⟩ := hq
  have hrun : t = (s.accept i (pre ++ op :: post) ret).runOn := by
    rw [he, command_accepted i gate _ ret s hidle hg hw] at ht
    exact (Host.Outcome.next.inj ht).symm
  have hkeep : Made G op post t ∧ t.seqOk := by
    rw [hrun, State.runOn, State.accept_plan, hplan]
    refine @drain_keeps (fun u => Made G op post u ∧ u.seqOk) (fun u hb hu => ?_) _ _ ⟨?_, ?_⟩
    · exact ⟨by
        unfold State.advance
        split
        · exact h.seqStep hu.1
        · next hw => exact h.elapse _ hu.1 hu.2 hw, State.seqOk_keptByRun.advance u hb hu.2⟩
    · exact .inr (.inl ⟨pre, by rw [State.setPlan_seq, State.accept, State.settle_pos], hpre⟩)
    · exact State.seqOk_congr (State.seqOk_accept i _ ret s) rfl
  obtain ⟨hfail, -⟩ | ⟨pre, hp, -⟩ | ⟨hG, -⟩ := hkeep.1
  · have hr : w.ret = t.seq.ret := by rw [hd.like.seen]; rfl
    exact absurd (hr.trans hfail) hret
  · exact absurd (hp.symm.trans hd.pos) (by simp)
  · exact hG

/-- A line that made no transition the pin is armed for, or of a pin without a handler, makes nothing happen. -/
theorem State.edgeSync_silent {p : Pin} {old : Level} {s : State}
    (h : (s.pins.get p).hnd = none ∨ edgeMatch (s.pins.get p).irq old (s.line p) = .no) : s.edgeSync p old = s := by
  unfold State.edgeSync
  obtain h | h := h
  · rw [h]
  · rw [h]; split <;> rfl

theorem edgeMatch_unarmed (old new : Level) : edgeMatch .none old new = .no := rfl

/-- A configuration that disarms the pin sets no flag. -/
theorem State.pinCfg_unarmed_flag (p : Pin) (d : Dir) (pl : Pull) (use : CfgUse) (s : State) :
    (s.pinCfg p d pl .none use).flag = s.flag := by
  simp only [State.pinCfg]
  split
  · unfold State.movePin
    rw [State.edgeSync_silent (.inr (by simp [edgeMatch_unarmed]))]
    simp
  · cases use <;> simp [State.onConfigFailure]

/-- The micro-operations that set no flag. -/
def Micro.quietOp : Micro → Bool
  | .reg _ | .wait _ | .mbxClear _ | .irqReg _ _ _ .discarded | .irqUnreg _ | .pinCfg _ _ _ .none _ => true
  | _ => false

theorem Micro.quietOp_flag {o : Micro} (h : o.quietOp = true) (s : State) (m : Mbx) (hm : s.flag.get m = false) :
    (o.run s).flag.get m = false := by
  have hset (k : Mbx) : (s.flag.set k false).get m = false := by
    rw [PerMbx.get_set]; split
    · rfl
    · exact hm
  cases o with
  | reg r => rw [Micro.run, (Within.reg_pins r s).2, hm]
  | wait n => simp only [Micro.run]; split <;> exact hm
  | mbxClear k => exact hset k
  | irqReg p k os use =>
    simp only [Micro.run, State.irqReg]
    split
    · simpa using hm
    · cases use <;> simpa [State.onConfigFailure] using hm
  | irqUnreg p => exact hm
  | pinCfg p d pl ir use =>
    cases ir with
    | none => rw [Micro.run, State.pinCfg_unarmed_flag, hm]
    | _ => cases h
  | _ => cases h

theorem Micro.quietOp_goesOn {o : Micro} (h : o.quietOp = true) : o.straight = true ∧ o.goesOn = true := by
  cases o <;> first | exact ⟨rfl, rfl⟩ | cases h

/-- `MBX_CLEAR` makes the flag 0, for as long as nothing sets it. -/
theorem makes_flag_clear (m : Mbx) (post : List Micro) (h : post.all Micro.quietOp = true) :
    Makes (fun _ f => f.get m = false) (.mbxClear m) post where
  goesOn := rfl
  notWait := nofun
  made := fun s => .inr ⟨by simp [Micro.run], rfl⟩
  straight := fun o ho => Micro.quietOp_goesOn (List.all_eq_true.mp h o ho)
  keeps := fun o ho s hs => Micro.quietOp_flag (List.all_eq_true.mp h o ho) s m hs

/-- Settles O31. -/
theorem i2cSSetup : Obligations.I2cSSetup := by
  unfold Obligations.I2cSSetup
  intro s hs hc
  obtain ⟨l, hl⟩ := State.cfgSucceeds_split hc
  have h1 : s.env.cfgOutcomes.head? = some true := by simp [hl]
  have h2 : s.env.cfgOutcomes.tail.head? = some true := by simp [hl]
  have h3 : s.env.cfgOutcomes.tail.tail.head? = some true := by simp [hl]
  obtain ⟨t, ht, w, hw, hd⟩ := exec_ends (.i2cSSetup) (fun w => w = _) rfl hs rfl rfl
    (.reg nofun <| .pinCfg_ok _ h1 <| .pinCfg_ok _ h2 <| .irqReg_ok _ h3 <| .mbxClear <| .reg nofun <| .reg nofun <| .done rfl)
  simp only [View.config, View.register, View.clear, RegOp.eff, State.taken, State.view, PerPin.set, PerPin.get, if_true] at hw
  subst hw
  have hflag (hq : s.quiet) : t.flag.get .mI2c = false :=
    (makes_flag_clear .mI2c [.reg (.i2cRole .slave), .reg (.sState .idleMonitor)] rfl).exec
      [.reg (.i2cRole .none), .pinCfg .scl .input .none .none .checked, .pinCfg .sda .input .none .falling .checked,
        .irqReg .sda .mI2c false .checked] rfl hq rfl rfl (by simp [Micro.goesOn]) ht hd nofun
  refine ⟨t, ht, hd.words fun _ => ?_, hd.acts, hd.i2c, hd.spi, hd.uart, (hd.like.pins .sda).eq_of_not_once ?_, hd.like.pins .scl,
    hd.pinsKeptBut fun q hq => ?_, hd.flagsKeptBut fun m hm => ?_, hflag, hd.now⟩
  · rfl
  · rintro _ ⟨⟩; rfl
  · exact PerPin.get_eq_of_rest (by rfl) q hq
  · exact PerMbx.get_eq_of_rest (by rfl) m hm

/-- Settles O33. -/
theorem spiSSetup : Obligations.SpiSSetup := by
  unfold Obligations.SpiSSetup
  intro m s hs hc
  obtain ⟨l, hl⟩ := State.cfgSucceeds_split hc
  have h1 : s.env.cfgOutcomes.head? = some true := by simp [hl]
  have h2 : s.env.cfgOutcomes.tail.head? = some true := by simp [hl]
  have h3 : s.env.cfgOutcomes.tail.tail.head? = some true := by simp [hl]
  have h4 : s.env.cfgOutcomes.tail.tail.tail.head? = some true := by simp [hl]
  have h5 : s.env.cfgOutcomes.tail.tail.tail.tail.head? = some true := by simp [hl]
  obtain ⟨t, ht, w, hw, hd⟩ := exec_ends (.spiSSetup m) (fun w => w = _) rfl hs rfl rfl
    (.reg nofun <| .pinCfg_ok _ h1 <| .pinCfg_ok _ h2 <| .pinSet <| .pinCfg_ok _ h3 <| .pinCfg_ok _ h4 <| .irqReg_ok _ h5 <|
      .mbxClear <| .reg nofun <| .reg nofun <| .done rfl)
  simp only [View.write, View.config, View.register, View.clear, View.outBit, RegOp.eff, State.taken, State.view, PerPin.set, PerPin.get,
    if_true] at hw
  subst hw
  have hflag (hq : s.quiet) : t.flag.get .mSpi = false :=
    (makes_flag_clear .mSpi [.reg (.spiMode m), .reg (.spiRole .slave)] rfl).exec
      [.reg (.spiRole .none), .pinCfg .sclk .input .none .none .checked, .pinCfg .sdi .input .none .none .checked,
        .pinSet .sdo (.const false), .pinCfg .sdo .output .none .none .checked, .pinCfg .cs .input .none .falling .checked,
        .irqReg .cs .mSpi false .checked] rfl hq rfl rfl (by simp [Micro.goesOn]) ht hd nofun
  refine ⟨t, ht, hd.words fun _ => ?_, hd.acts, hd.spi, hd.i2c, hd.uart, hd.like.pins .sclk, hd.like.pins .sdi, hd.like.pins .sdo,
    (hd.like.pins .cs).eq_of_not_once ?_, hd.pinsKeptBut fun q hq => ?_, hd.flagsKeptBut fun k hk => ?_, hflag, hd.now⟩
  · rfl
  · rintro _ ⟨⟩; rfl
  · exact PerPin.get_eq_of_rest (by rfl) q hq
  · exact PerMbx.get_eq_of_rest (by rfl) k hk

/-- `IRQ_REG` makes the handler the pin's, for as long as no line moves. -/
theorem makes_handler (p : Pin) (m : Mbx) (os : Bool) (post : List Micro)
    (h : ∀ o ∈ post, (∃ r, o = .reg r) ∨ ∃ k, o = .mbxClear k) :
    Makes (fun pins _ => (pins.get p).hnd = some { mbx := m, once := os }) (.irqReg p m os .checked) post where
  goesOn := rfl
  notWait := nofun
  made := by
    intro s
    simp only [Micro.run, State.irqReg]
    split
    · exact .inr ⟨by simp, by simp⟩
    · exact .inl ⟨rfl, rfl⟩
  straight := by
    intro o ho
    obtain ⟨r, rfl⟩ | ⟨k, rfl⟩ := h o ho <;> exact ⟨rfl, rfl⟩
  keeps := by
    intro o ho s hs
    obtain ⟨r, rfl⟩ | ⟨k, rfl⟩ := h o ho
    · rw [Micro.run, (Within.reg_pins r s).1]; exact hs
    · exact hs

/-- Settles O35. -/
theorem uartRxSetup : Obligations.UartRxSetup := by
  unfold Obligations.UartRxSetup
  intro s hs hc
  obtain ⟨l, hl⟩ := State.cfgSucceeds_split hc
  have h1 : s.env.cfgOutcomes.head? = some true := by simp [hl]
  have h2 : s.env.cfgOutcomes.tail.head? = some true := by simp [hl]
  obtain ⟨t, ht, w, hw, hd⟩ := exec_ends (.uartRxSetup) (fun w => w = _) rfl hs rfl rfl
    (.reg nofun <| .pinCfg_ok _ h1 <| .irqReg_ok _ h2 <| .mbxClear <| .reg nofun <| .reg nofun <| .done rfl)
  simp only [View.config, View.register, View.clear, RegOp.eff, State.taken, State.view, PerPin.set, PerPin.get, if_true] at hw
  subst hw
  have hflag (hq : s.quiet) : t.flag.get .mUart = false :=
    (makes_flag_clear .mUart [.reg .rxIdxZero, .reg (.uartRxRdy true)] rfl).exec
      [.reg (.uartRxRdy false), .pinCfg .rx .input .up .falling .checked, .irqReg .rx .mUart true .checked]
      rfl hq rfl rfl (by simp [Micro.goesOn]) ht hd nofun
  have hhnd (hq : s.quiet) : (t.pins.get .rx).hnd = some { mbx := .mUart, once := true } :=
    (makes_handler .rx .mUart true [.mbxClear .mUart, .reg .rxIdxZero, .reg (.uartRxRdy true)] (by simp)).exec
      [.reg (.uartRxRdy false), .pinCfg .rx .input .up .falling .checked] rfl hq rfl rfl (by simp [Micro.goesOn]) ht hd nofun
  refine ⟨t, ht, hd.words fun _ => ?_, hd.acts, hd.uart, hd.i2c, hd.spi, hd.like.pins .rx, hd.pinsKeptBut fun q hq => ?_,
    hd.flagsKeptBut fun k hk => ?_, fun hq => ⟨hflag hq, hhnd hq⟩, hd.now⟩
  · rfl
  · exact PerPin.get_eq_of_rest (by rfl) q hq
  · exact PerMbx.get_eq_of_rest (by rfl) k hk

end Sys2Proof.Machine
end

section
/-! A setup command one of whose configurations fails. -/

namespace Sys2Proof.Machine

/-- The view in which a program stops whose configuration or registration number `k` fails. -/
def failWalk : Nat → List Micro → View → View
  | k, .reg r :: ops, w => failWalk k ops (r.eff (fun _ => 0) w)
  | k, .pinSet p v :: ops, w => failWalk k ops (w.write p (w.outBit v))
  | 0, .pinCfg p d pl ir _ :: _, w => { w.config p d pl ir false with ret := .cfgFail }
  | k + 1, .pinCfg p d pl ir _ :: ops, w => failWalk k ops (w.config p d pl ir true)
  | 0, .irqReg p m os _ :: _, w => { w.register p m os false with ret := .cfgFail }
  | k + 1, .irqReg p m os _ :: ops, w => failWalk k ops (w.register p m os true)
  | k, .mbxClear m :: ops, w => failWalk k ops (w.clear m)
  | _, _, w => w

/-- What a setup command is made of. -/
def Micro.inSetup : Micro → Bool
  | .reg r => decide (r ≠ .rxStop)
  | .pinSet _ _ | .pinCfg _ _ _ _ .checked | .irqReg _ _ _ .checked | .mbxClear _ => true
  | _ => false

theorem ends_failWalk {a : Around} {prog : List Micro} (hprog : prog.all Micro.inSetup = true) {k : Nat} {w : View} {l : List Bool}
    (ha : w.answers = List.replicate k true ++ false :: l) : Ends a (fun v => v = failWalk k prog w) prog w := by
  induction prog generalizing k w with
  | nil => exact .done (by cases k <;> rfl)
  | cons op ops ih =>
    obtain ⟨hop, hops⟩ : op.inSetup = true ∧ ops.all Micro.inSetup = true := by simpa using hprog
    cases op with
    | reg r =>
      have hw : (r.eff (fun _ => 0) w).answers = w.answers := by
        cases r with
        | mStateWrite => simp only [RegOp.eff]; split <;> rfl
        | emitDispatch lsa => simp only [RegOp.eff]; split <;> rfl
        | _ => rfl
      simp only [failWalk]
      exact .reg (of_decide_eq_true hop) (ih hops (hw.trans ha))
    | pinSet p v => simp only [failWalk]; exact .pinSet (ih hops ha)
    | mbxClear m => simp only [failWalk]; exact .mbxClear (ih hops ha)
    | pinCfg p d pl ir use =>
      cases use with
      | discarded => cases hop
      | checked =>
        cases k with
        | zero => exact .pinCfg_fail (by rw [ha]; rfl) rfl
        | succ k => exact .pinCfg_ok _ (by rw [ha]; rfl) (ih hops (by simp [View.config, ha, List.replicate_succ]))
    | irqReg p m os use =>
      cases use with
      | discarded => cases hop
      | checked =>
        cases k with
        | zero => exact .irqReg_fail (by rw [ha]; rfl) rfl
        | succ k => exact .irqReg_ok _ (by rw [ha]; rfl) (ih hops (by simp [View.register, ha, List.replicate_succ]))
    | _ => cases hop

/-- The acts on the pins of a program of writes, configurations and registrations that succeed at time `t`. -/
def progActs (t : Nat) : List Micro → List (Nat × Event)
  | .pinSet p (.const v) :: ops => wr t p v :: progActs t ops
  | .pinCfg p d pl ir _ :: ops => cf t p d pl ir true :: progActs t ops
  | .irqReg p m os _ :: ops => rg t p m os true :: progActs t ops
  | _ => []

/-- How many configurations and registrations are in it. -/
def progCalls (ops : List Micro) : Nat :=
  ops.countP fun
    | .pinCfg _ _ _ _ _ | .irqReg _ _ _ _ => true
    | _ => false

/-- It acts on the pins. -/
def Micro.onPins : Micro → Bool
  | .pinSet _ (.const _) | .pinCfg _ _ _ _ _ | .irqReg _ _ _ _ => true
  | _ => false

/-- The view in which a program stops that came from the view `w` by the acts `es` on the pins alone. -/
structure StoppedAfter (es : List (Nat × Event)) (w v : View) : Prop where
  ret : v.ret = .cfgFail
  acts : v.acts = es.reverse ++ w.acts
  pins : ∀ q, v.pins.get q = fieldsAfter q es (w.pins.get q)
  i2c : v.i2c = w.i2c
  spi : v.spi = w.spi
  uart : v.uart = w.uart
  flag : v.flag = w.flag
  now : v.now = w.now

/-- One act before the others. -/
theorem StoppedAfter.cons {e : Event} {es : List (Nat × Event)} {w u v : View} (h : StoppedAfter es u v)
    (hu : u = { w with pins := u.pins, answers := u.answers, writes := u.writes, acts := (w.now, e) :: w.acts })
    (hp : ∀ q, u.pins.get q = fieldsAct q (w.pins.get q) e) : StoppedAfter ((w.now, e) :: es) w v where
  ret := h.ret
  acts := by rw [h.acts, hu]; simp
  pins := fun q => by rw [h.pins, hp]; rfl
  i2c := h.i2c.trans (by rw [hu])
  spi := h.spi.trans (by rw [hu])
  uart := h.uart.trans (by rw [hu])
  flag := h.flag.trans (by rw [hu])
  now := h.now.trans (by rw [hu])

theorem write_pins (p q : Pin) (v : Bool) (w : View) :
    (w.write p v).pins.get q = fieldsAct q (w.pins.get q) (.pinWrite p v) := by
  simp only [View.write, fieldsAct, PerPin.get_set, @eq_comm Pin p]
  split
  · next h => rw [h]
  · rfl

theorem config_pins (p q : Pin) (d : Dir) (pl : Pull) (ir : Irq) (ok : Bool) (w : View) :
    (w.config p d pl ir ok).pins.get q = fieldsAct q (w.pins.get q) (.pinConfig p d pl ir ok) := by
  simp only [View.config, fieldsAct, PerPin.get_set, @eq_comm Pin p]
  split
  · next h => rw [h]
  · rfl

theorem register_pins (p q : Pin) (m : Mbx) (os ok : Bool) (w : View) :
    (w.register p m os ok).pins.get q = fieldsAct q (w.pins.get q) (.handlerReg p m os ok) := by
  simp only [View.register, fieldsAct, @eq_comm Pin p]
  cases ok with
  | false => simp
  | true =>
    simp only [if_true, PerPin.get_set, and_true]
    split
    · next h => rw [h]
    · rfl

/-- A program that starts with acts on the pins and fails among them has done those before the failure, and the failed one. -/
theorem failWalk_stopped {body : List Micro} (hbody : body.all Micro.onPins = true) (tail : List Micro) {k : Nat}
    (hk : k < progCalls body) (w : View) :
    StoppedAfter (failAt k (progActs w.now body)) w (failWalk k (body ++ tail) w) := by
  have hstop (u : View) : StoppedAfter [] u { u with ret := .cfgFail } := ⟨rfl, rfl, fun _ => rfl, rfl, rfl, rfl, rfl, rfl⟩
  induction body generalizing k w with
  | nil => exact absurd hk (Nat.not_lt_zero _)
  | cons op body ih =>
    obtain ⟨hop, hbody⟩ : op.onPins = true ∧ body.all Micro.onPins = true := by simpa using hbody
    cases op with
    | pinSet p v =>
      cases v with
      | const v =>
        have hrest := @ih hbody k (by simpa [progCalls] using hk) (w.write p v)
        have hfail : failAt k (progActs w.now (.pinSet p (.const v) :: body)) = wr w.now p v :: failAt k (progActs w.now body) := by
          cases k <;> rfl
        have hwalk : failWalk k (.pinSet p (.const v) :: body ++ tail) w = failWalk k (body ++ tail) (w.write p v) := by
          cases k <;> rfl
        rw [hfail, hwalk]
        exact hrest.cons rfl fun q => write_pins p q v w
      | _ => cases hop
    | pinCfg p d pl ir use =>
      cases k with
      | zero => exact (hstop (w.config p d pl ir false)).cons rfl fun q => config_pins p q d pl ir false w
      | succ k =>
        have hrest := @ih hbody k (by simpa [progCalls] using hk) (w.config p d pl ir true)
        exact hrest.cons rfl fun q => config_pins p q d pl ir true w
    | irqReg p m os use =>
      cases k with
      | zero => exact (hstop (w.register p m os false)).cons rfl fun q => register_pins p q m os false w
      | succ k =>
        have hrest := @ih hbody k (by simpa [progCalls] using hk) (w.register p m os true)
        exact hrest.cons rfl fun q => register_pins p q m os true w
    | _ => cases hop

/-- A setup command clears its role or ready bit, acts on the pins, and then sets its registers: its body and what is after it. -/
def setupParts : Instr → RegOp × List Micro × List Micro
  | .i2cMSetup => (.i2cRole .none, i2cMSetupProg.tail.take 4, i2cMSetupProg.tail.drop 4)
  | .i2cSSetup => (.i2cRole .none, i2cSSetupProg.tail.take 3, i2cSSetupProg.tail.drop 3)
  | .spiMSetup m => (.spiRole .none, (spiMSetupProg m).tail.take 7, (spiMSetupProg m).tail.drop 7)
  | .spiSSetup m => (.spiRole .none, (spiSSetupProg m).tail.take 6, (spiSSetupProg m).tail.drop 6)
  | .uartTxSetup => (.uartTxRdy false, uartTxSetupProg.tail.take 2, uartTxSetupProg.tail.drop 2)
  | .uartRxSetup => (.uartRxRdy false, uartRxSetupProg.tail.take 2, uartRxSetupProg.tail.drop 2)
  | _ => (.rxStop, [], [])

/-- The whole program. -/
def setupProg (i : Instr) : List Micro := .reg (setupParts i).1 :: ((setupParts i).2.1 ++ (setupParts i).2.2)

theorem exec_setup {i : Instr} (h : isSetup i = true) (s : State) :
    exec i s = command i gateNone (setupProg i) .ok s ∧ i.wf = true ∧ (setupProg i).all Micro.inSetup = true := by
  cases i <;> first | exact ⟨rfl, rfl, rfl⟩ | cases h

theorem setupParts_body (i : Instr) (t : Nat) :
    (setupParts i).2.1.all Micro.onPins = true ∧ progCalls (setupParts i).2.1 = setupCalls i ∧
    progActs t (setupParts i).2.1 = setupActs t i := by
  cases i <;> exact ⟨rfl, rfl, rfl⟩

/-- The first step of a setup clears its own engine's role or ready bit. -/
theorem setupParts_reg {i : Instr} (h : isSetup i = true) (free : Nat → Byte) (w : View) : (setupParts i).1.eff free w =
    { w with
      i2c := if engineOf i = some .i2c then { w.i2c with role := .none } else w.i2c
      spi := if engineOf i = some .spi then { w.spi with role := .none } else w.spi
      uart := { w.uart with
        txRdy := if i = .uartTxSetup then false else w.uart.txRdy
        rxRdy := if i = .uartRxSetup then false else w.uart.rxRdy } } := by
  rw [engineOf_eq]
  cases i <;> cases h <;> rfl

/-- Settles O36. -/
theorem setupFailure : Obligations.SetupFailure := by
  unfold Obligations.SetupFailure
  intro i k s hs hset hk hc
  obtain ⟨he, hwf, hprog⟩ := exec_setup hset s
  obtain ⟨hbody, hcalls, hacts⟩ := setupParts_body i s.env.now
  have ha : (s.taken .ok).answers = List.replicate k true ++ false :: s.env.cfgOutcomes.drop (k + 1) := by
    have := List.take_append_drop (k + 1) s.env.cfgOutcomes
    rw [hc, List.append_assoc] at this
    exact this.symm
  obtain ⟨t, ht, w, rfl, hd⟩ := exec_ends i _ he hs rfl hwf (ends_failWalk hprog ha)
  have hwalk : failWalk k (setupProg i) (s.taken .ok) =
      failWalk k ((setupParts i).2.1 ++ (setupParts i).2.2) ((setupParts i).1.eff (fun _ => 0) (s.taken .ok)) := by cases k <;> rfl
  have hstop := failWalk_stopped hbody (setupParts i).2.2 (hcalls.symm ▸ hk) ((setupParts i).1.eff (fun _ => 0) (s.taken .ok))
  rw [← hwalk, setupParts_reg hset] at hstop
  have hnow : (s.taken .ok).now = s.env.now := rfl
  simp only [hnow, hacts] at hstop
  refine ⟨t, ht, hd.words fun v => ?_, hd.acts.trans hstop.acts, hd.i2c.trans hstop.i2c, hd.spi.trans hstop.spi,
    hd.uart.trans hstop.uart, fun q => hstop.pins q ▸ hd.like.pins q, hd.flagsKeptBut fun m _ => by rw [hstop.flag]; rfl,
    hd.now.trans hstop.now⟩
  rw [View.words, hstop.ret]
  rfl

end Sys2Proof.Machine
end

section
/-! The pieces of the I2C master's programs, each with the view it leads to. -/

namespace Sys2Proof.Machine

@[simp] theorem PinRegs.withLat_withLat (r : PinRegs) (u v : Bool) : (r.withLat u).withLat v = r.withLat v := rfl

/-- A bit counter counts eight bits down. -/
theorem eight_steps : ∀ b : BitVec 4, b - 1#4 - 1#4 - 1#4 - 1#4 - 1#4 - 1#4 - 1#4 - 1#4 = b - 8#4 := by
  decide

/-! ## Frames and their bits -/

theorem bitOf_setBit (v : Byte) (i j : Fin 8) (b : Bool) : bitOf (setBit v i b) j = if j = i then b else bitOf v j := by
  have hone : (1#8 <<< i.val).getLsbD j.val = decide (j = i) := by revert i j; decide
  unfold bitOf setBit
  split
  · next hb => rw [BitVec.getLsbD_or, hone]; by_cases h : j = i <;> simp [h, hb]
  · next hb => rw [BitVec.getLsbD_and, BitVec.getLsbD_not, hone]; by_cases h : j = i <;> simp [h, hb]

theorem byte_ext {u v : Byte} (h : ∀ i, bitOf u i = bitOf v i) : u = v :=
  BitVec.eq_of_getLsbD_eq fun i hi => h ⟨i, hi⟩

/-- Eight bits put in place, bit 7 first, are the byte. -/
theorem msbFirst_setBits (u v : Byte) : msbFirst.foldl (fun x i => setBit x i (bitOf v i)) u = v := by
  refine byte_ext fun j => ?_
  simp only [msbFirst, List.foldl_cons, List.foldl_nil, bitOf_setBit]
  fin_cases j <;> rfl

theorem lsbFirst_setBits (u v : Byte) : lsbFirst.foldl (fun x i => setBit x i (bitOf v i)) u = v := by
  refine byte_ext fun j => ?_
  simp only [lsbFirst, List.foldl_cons, List.foldl_nil, bitOf_setBit]
  fin_cases j <;> rfl

/-! ## `I2C_M_WRITE` -/

namespace View

/-- After one data bit of `I2C_M_WRITE`. -/
def wroteBit (D : Nat) (w : View) (i : Fin 8) : View :=
  { w with
    i2c := { w.i2c with bitcnt := w.i2c.bitcnt - 1 }
    now := w.now + 2 * D
    pins := { w.pins with sda := w.pins.sda.withLat (bitOf w.i2c.shift i), scl := w.pins.scl.withLat false }
    writes := [(w.now + D, .scl, false), (w.now, .scl, true), (w.now, .sda, bitOf w.i2c.shift i)] ++ w.writes
    acts := [wr (w.now + D) .scl false, wr w.now .scl true, wr w.now .sda (bitOf w.i2c.shift i)] ++ w.acts }

/-- After `I2C_M_WRITE x`, the platform having answered `ok`. -/
def wroteByte (D : Nat) (x : Byte) (ok : Bool) (w : View) : View :=
  { w with
    i2c := { w.i2c with shift := x, bitcnt := 0, mState := .waitAck }
    now := w.now + 16 * D
    answers := w.answers.tail
    pins := { w.pins with
      sda := (w.pins.sda.withLat (x.getLsbD 0)).withCfg ok .input .down .none, scl := w.pins.scl.withLat false }
    writes := (writeWave D w.now x).reverse ++ w.writes
    acts := cf (w.now + 16 * D) .sda .input .down .none ok ::
      ((writeWave D w.now x).map fun e => wr e.1 e.2.1 e.2.2).reverse ++ w.acts }

theorem range8 : List.range 8 = [0, 1, 2, 3, 4, 5, 6, 7] := rfl

theorem foldl_wroteBit (D : Nat) (w : View) : msbFirst.foldl (wroteBit D) w =
    { w with
      i2c := { w.i2c with bitcnt := w.i2c.bitcnt - 8 }
      now := w.now + 16 * D
      pins := { w.pins with sda := w.pins.sda.withLat (w.i2c.shift.getLsbD 0), scl := w.pins.scl.withLat false }
      writes := (writeWave D w.now w.i2c.shift).reverse ++ w.writes
      acts := ((writeWave D w.now w.i2c.shift).map fun e => wr e.1 e.2.1 e.2.2).reverse ++ w.acts } := by
  simp [msbFirst, wroteBit, writeWave, range8, wr, bitOf, eight_steps]
  omega

end View

variable {a : Around} {K : View → Prop} {w : View} {rest : List Micro}

theorem Ends.writeBit (c : Config.Params) (i : Fin 8) (rest : List Micro) (w : View) (h : Ends a K rest (w.wroteBit c.i2cTEdge i)) :
    Ends a K (i2cMWriteBit c i ++ rest) w := by
  refine .pinSet <| .pinSet <| .wait <| .pinSet <| .wait <| .reg nofun <| .of_eq h ?_
  simp only [View.write, View.outBit, View.pass, RegOp.eff, View.wroteBit, PerPin.set, PerPin.get, View.mk.injEq, true_and, and_true,
    PinRegs.withLat_withLat, wr, List.cons_append, List.nil_append]
  omega

theorem View.mStateWrite_eff (free : Nat → Byte) (w : View) : RegOp.mStateWrite.eff free w =
    { w with i2c := { w.i2c with mState := if w.i2c.mState = .address then .address else .data } } := by
  simp only [RegOp.eff]
  split
  · next h => rw [← h]
  · rfl

theorem Ends.writeByte {c : Config.Params} {x : Byte}
    (h : ∀ ok, (∀ v, w.answers.head? = some v → ok = v) → Ends a K rest (w.wroteByte c.i2cTEdge x ok)) :
    Ends a K (i2cMWriteProg c x ++ rest) w := by
  unfold i2cMWriteProg
  rw [List.append_assoc, List.append_assoc]
  refine .reg nofun <| .reg nofun <| .flatMap (Ends.writeBit c) msbFirst ?_
  rw [View.foldl_wroteBit, View.mStateWrite_eff]
  refine .pinCfg fun ok hok => .reg nofun <| .of_eq (h ok hok) ?_
  simp only [RegOp.eff, View.config, View.wroteByte, PerPin.set, PerPin.get, cf, BitVec.sub_self, List.cons_append]
  rfl

/-! ## `I2C_M_ACKS` -/

/-- After `I2C_M_ACKS`, its sample having read `b` and the platform having answered `ok`. -/
def View.acked (D : Nat) (b ok : Bool) (w : View) : View :=
  { w with
    i2c := { w.i2c with ack := !b, mState := .data }
    tmp := b
    now := w.now + 2 * D
    answers := w.answers.tail
    pins := { w.pins with sda := w.pins.sda.withCfg ok .output .none .none, scl := w.pins.scl.withLat false }
    writes := (pulseWave D w.now).reverse ++ w.writes
    acts := [cf (w.now + 2 * D) .sda .output .none .none ok, wr (w.now + D) .scl false, wr w.now .scl true] ++ w.acts
    samples := { w.samples with sda := (w.now + D, b) :: w.samples.sda } }

theorem Ends.acks {c : Config.Params}
    (h : ∀ b ok, a.reads .sda w.pins.sda b → (∀ v, w.answers.head? = some v → ok = v) → Ends a K rest (w.acked c.i2cTEdge b ok)) :
    Ends a K (i2cMAcksProg c ++ rest) w := by
  refine .reg nofun <| .pinSet <| .wait <| .sample fun b hb => .pinSet <| .wait <| .pinCfg fun ok hok => .reg nofun <| .reg nofun <|
    .of_eq (h b ok hb hok) ?_
  simp only [View.write, View.outBit, View.pass, View.sample, View.store, View.config, RegOp.eff, View.acked, pulseWave, PerPin.set,
    PerPin.get, View.mk.injEq, true_and, and_true, PinRegs.withLat_withLat, wr, cf, List.cons_append, List.nil_append,
    List.reverse_cons, List.reverse_nil, List.cons.injEq, Prod.mk.injEq]
  omega

/-! ## `I2C_M_READ` -/

namespace View

/-- After one data bit of `I2C_M_READ`, which reads `b`. -/
def readBit (D : Nat) (w : View) (i : Fin 8) (b : Bool) : View :=
  { w with
    i2c := { w.i2c with shift := setBit w.i2c.shift i b, bitcnt := w.i2c.bitcnt - 1 }
    now := w.now + 2 * D
    pins := { w.pins with scl := w.pins.scl.withLat false }
    writes := (pulseWave D w.now).reverse ++ w.writes
    acts := [wr (w.now + D) .scl false, wr w.now .scl true] ++ w.acts
    samples := { w.samples with sda := (w.now + D, b) :: w.samples.sda } }

/-- After `I2C_M_READ ack`, which reads `v`, the platform having answered `ok1` and `ok2`. -/
def readByte (D : Nat) (ack : Bool) (v : Byte) (ok1 ok2 : Bool) (w : View) : View :=
  { w with
    i2c := { w.i2c with shift := v, bitcnt := 0, mState := .data }
    now := w.now + 18 * D
    answers := w.answers.tail.tail
    pins := { w.pins with
      sda := ((w.pins.sda.withCfg ok1 .input .down .none).withCfg ok2 .output .none .none).withLat (!ack)
      scl := w.pins.scl.withLat false }
    writes := (readWave D w.now ack).reverse ++ w.writes
    acts := [wr (w.now + 17 * D) .scl false, wr (w.now + 16 * D) .scl true, wr (w.now + 16 * D) .sda (!ack),
        cf (w.now + 16 * D) .sda .output .none .none ok2] ++
      (((List.range 8).flatMap fun k => pulseWave D (w.now + 2 * k * D)).map fun e => wr e.1 e.2.1 e.2.2).reverse ++
      cf w.now .sda .input .down .none ok1 :: w.acts
    samples := { w.samples with sda := (msbSamples (2 * D) (w.now + D) v).reverse ++ w.samples.sda } }

theorem foldl_readBit (D : Nat) (v : Byte) (w : View) : msbFirst.foldl (fun w i => readBit D w i (bitOf v i)) w =
    { w with
      i2c := { w.i2c with shift := v, bitcnt := w.i2c.bitcnt - 8 }
      now := w.now + 16 * D
      pins := { w.pins with scl := w.pins.scl.withLat false }
      writes := ((List.range 8).flatMap fun k => pulseWave D (w.now + 2 * k * D)).reverse ++ w.writes
      acts := (((List.range 8).flatMap fun k => pulseWave D (w.now + 2 * k * D)).map fun e => wr e.1 e.2.1 e.2.2).reverse ++ w.acts
      samples := { w.samples with sda := (msbSamples (2 * D) (w.now + D) v).reverse ++ w.samples.sda } } := by
  have hshift := msbFirst_setBits w.i2c.shift v
  simp only [msbFirst, List.foldl_cons, List.foldl_nil] at hshift
  simp [msbFirst, readBit, pulseWave, msbSamples, range8, wr, eight_steps, hshift]
  simp [bitOf]
  omega

end View

theorem Ends.readBit (c : Config.Params) (i : Fin 8) (rest : List Micro) (w : View)
    (h : ∀ b, a.reads .sda w.pins.sda b → Ends a K rest (w.readBit c.i2cTEdge i b)) : Ends a K (i2cMReadBit c i ++ rest) w := by
  refine .pinSet <| .wait <| .sample fun b hb => .pinSet <| .wait <| .reg nofun <| .of_eq (h b hb) ?_
  simp only [View.write, View.outBit, View.pass, View.sample, View.store, RegOp.eff, View.readBit, pulseWave, PerPin.set, PerPin.get,
    View.mk.injEq, true_and, and_true, PinRegs.withLat_withLat, wr, List.cons_append, List.nil_append, List.reverse_cons,
    List.reverse_nil]
  omega

theorem Ends.readByte {c : Config.Params} {ack : Bool}
    (h : ∀ v ok1 ok2, (∀ i, a.reads .sda (w.pins.sda.withCfg ok1 .input .down .none) (bitOf v i)) →
      (∀ b, w.answers.head? = some b → ok1 = b) → (∀ b, w.answers.tail.head? = some b → ok2 = b) →
      Ends a K rest (w.readByte c.i2cTEdge ack v ok1 ok2)) :
    Ends a K (i2cMReadProg c ack ++ rest) w := by
  unfold i2cMReadProg
  rw [List.append_assoc, List.append_assoc]
  refine .reg nofun <| .pinCfg fun ok1 hok1 => .reg nofun <| .flatMap_bits (View.readBit c.i2cTEdge)
    (fun w b => a.reads .sda w.pins.sda b) (fun _ _ _ _ h => h) (Ends.readBit c) (by decide) fun v hv => ?_
  rw [View.foldl_readBit]
  refine .reg nofun <| .pinCfg fun ok2 hok2 => .pinSet <| .pinSet <| .wait <| .pinSet <| .wait <| .reg nofun <|
    .of_eq (h v ok1 ok2 (fun i => hv i (by revert i; decide)) hok1 hok2) ?_
  simp only [View.write, View.outBit, View.pass, View.config, RegOp.eff, View.readByte, readWave, pulseWave, PerPin.set, PerPin.get,
    View.mk.injEq, true_and, and_true, PinRegs.withLat_withLat, wr, cf, BitVec.sub_self, List.cons_append, List.nil_append,
    List.reverse_append, List.reverse_cons, List.reverse_nil, List.cons.injEq, Prod.mk.injEq, BitVec.ofNat_eq_ofNat]
  omega

/-! ## `I2C_M_START` and `I2C_M_STOP` -/

namespace View

/-- After `I2C_M_START`. -/
def begun (D : Nat) (w : View) : View :=
  { w with
    i2c := { w.i2c with mState := .address }
    now := w.now + 3 * D
    pins := { w.pins with sda := w.pins.sda.withLat false, scl := w.pins.scl.withLat false }
    writes := (startWave D w.now).reverse ++ w.writes
    acts := ((startWave D w.now).map fun e => wr e.1 e.2.1 e.2.2).reverse ++ w.acts }

/-- After `I2C_M_STOP`. -/
def ended (D : Nat) (w : View) : View :=
  { w with
    i2c := { w.i2c with mState := .idle }
    now := w.now + 2 * D
    pins := { w.pins with sda := w.pins.sda.withLat true, scl := w.pins.scl.withLat true }
    writes := (stopWave D w.now).reverse ++ w.writes
    acts := ((stopWave D w.now).map fun e => wr e.1 e.2.1 e.2.2).reverse ++ w.acts }

end View

theorem Ends.start {c : Config.Params} (h : Ends a K rest (w.begun c.i2cTEdge)) : Ends a K (i2cMStartProg c ++ rest) w := by
  refine .reg nofun <| .pinSet <| .pinSet <| .wait <| .pinSet <| .wait <| .pinSet <| .wait <| .reg nofun <| .of_eq h ?_
  simp only [View.write, View.outBit, View.pass, RegOp.eff, View.begun, startWave, PerPin.set, PerPin.get, View.mk.injEq, true_and,
    and_true, PinRegs.withLat_withLat, wr, List.cons_append, List.nil_append, List.reverse_cons, List.reverse_nil, List.map_cons,
    List.map_nil, List.cons.injEq, Prod.mk.injEq]
  omega

theorem Ends.stop {c : Config.Params} (h : Ends a K rest (w.ended c.i2cTEdge)) : Ends a K (i2cMStopProg c ++ rest) w := by
  refine .reg nofun <| .pinSet <| .pinSet <| .wait <| .pinSet <| .wait <| .reg nofun <| .of_eq h ?_
  simp only [View.write, View.outBit, View.pass, RegOp.eff, View.ended, stopWave, PerPin.set, PerPin.get, View.mk.injEq, true_and,
    and_true, PinRegs.withLat_withLat, wr, List.cons_append, List.nil_append, List.reverse_cons, List.reverse_nil, List.map_cons,
    List.map_nil]
  omega

/-! ## The commands one by one -/

theorem gateI2cMaster_of {s : State} (h : s.i2c.role = .master) : gateI2cMaster s = true := (gateI2cMaster_iff s).mpr h

/-- A program that is one piece. -/
theorem Ends.all {prog : List Micro} (h : Ends a K (prog ++ []) w) : Ends a K prog w := by rwa [List.append_nil] at h

/-- Settles O37. -/
theorem i2cMStart : Obligations.I2cMStart := by
  unfold Obligations.I2cMStart
  intro s hs hm
  obtain ⟨t, ht, w, rfl, hd⟩ := exec_ends .i2cMStart (fun w => w = (s.taken .ok).begun s.cfg.i2cTEdge) rfl hs (gateI2cMaster_of hm) rfl
    (.all (.start (.done rfl)))
  refine ⟨t, ht, hd.words fun _ => ?_, hd.writes, hd.now, hd.i2c, hd.spi, hd.uart, hd.like.pins .sda, hd.like.pins .scl,
    hd.pinsKeptBut fun q hq => ?_, hd.flagsKeptBut fun _ _ => rfl⟩
  · rfl
  · exact PerPin.get_eq_of_rest (by rfl) q hq

/-- Settles O41. -/
theorem i2cMStop : Obligations.I2cMStop := by
  unfold Obligations.I2cMStop
  intro s hs hm
  obtain ⟨t, ht, w, rfl, hd⟩ := exec_ends .i2cMStop (fun w => w = (s.taken .ok).ended s.cfg.i2cTEdge) rfl hs (gateI2cMaster_of hm) rfl
    (.all (.stop (.done rfl)))
  refine ⟨t, ht, hd.words fun _ => ?_, hd.writes, hd.now, hd.i2c, hd.spi, hd.uart, hd.like.pins .sda, hd.like.pins .scl,
    hd.pinsKeptBut fun q hq => ?_, hd.flagsKeptBut fun _ _ => rfl⟩
  · rfl
  · exact PerPin.get_eq_of_rest (by rfl) q hq

/-- What the platform answered is something it can. -/
theorem State.platformSays_one {s : State} {ok : Bool} (h : ∀ v, s.env.cfgOutcomes.head? = some v → ok = v) : s.platformSays [ok] := by
  unfold State.platformSays
  cases hl : s.env.cfgOutcomes with
  | nil => rfl
  | cons b l => simp [h b (by simp [hl])]

theorem State.platformSays_two {s : State} {ok1 ok2 : Bool} (h1 : ∀ v, s.env.cfgOutcomes.head? = some v → ok1 = v)
    (h2 : ∀ v, s.env.cfgOutcomes.tail.head? = some v → ok2 = v) : s.platformSays [ok1, ok2] := by
  unfold State.platformSays
  match hl : s.env.cfgOutcomes with
  | [] => rfl
  | [b] => simp [h1 b (by simp [hl])]
  | b :: b' :: l => simp [h1 b (by simp [hl]), h2 b' (by simp [hl])]

/-- Settles O38. -/
theorem i2cMWrite : Obligations.I2cMWrite := by
  unfold Obligations.I2cMWrite
  intro x s hs hm
  obtain ⟨t, ht, w, ⟨ok, hok, rfl⟩, hd⟩ := exec_ends (.i2cMWrite x)
    (fun w => ∃ ok, s.platformSays [ok] ∧ w = (s.taken .ok).wroteByte s.cfg.i2cTEdge x ok) rfl hs (gateI2cMaster_of hm) rfl
    (.all (.writeByte fun ok hok => .done ⟨ok, State.platformSays_one hok, rfl⟩))
  refine ⟨t, ok, ht, hok, hd.words fun _ => ?_, hd.writes, ?_, hd.now, hd.i2c, hd.spi, hd.uart, hd.like.pins .sda, hd.like.pins .scl,
    hd.pinsKeptBut fun q hq => ?_, hd.flagsKeptBut fun _ _ => rfl⟩
  · rfl
  · rw [Did, hd.acts, List.reverse_append]
    rfl
  · exact PerPin.get_eq_of_rest (by rfl) q hq

/-- Settles O39. -/
theorem i2cMAcks : Obligations.I2cMAcks := by
  unfold Obligations.I2cMAcks
  intro s hs hm
  obtain ⟨t, ht, w, ⟨b, ok, hok, rfl⟩, hd⟩ := exec_ends .i2cMAcks
    (fun w => ∃ b ok, s.platformSays [ok] ∧ w = (s.taken .i2cAck).acked s.cfg.i2cTEdge b ok) rfl hs (gateI2cMaster_of hm) rfl
    (.all (.acks fun b ok _ hok => .done ⟨b, ok, State.platformSays_one hok, rfl⟩))
  refine ⟨t, b, ok, ht, hok, hd.words fun _ => ?_, hd.samples .sda, hd.acts, hd.now, hd.i2c, hd.spi, hd.uart, hd.like.pins .sda,
    hd.like.pins .scl, hd.pinsKeptBut fun q hq => ?_, hd.flagsKeptBut fun _ _ => rfl⟩
  · show [resultWord statusOk (bitByte !b)] = _
    rw [resultWord_ok]
    cases b <;> rfl
  · exact PerPin.get_eq_of_rest (by rfl) q hq

/-- Settles O40. -/
theorem i2cMRead : Obligations.I2cMRead := by
  unfold Obligations.I2cMRead
  intro ack s hs hm
  obtain ⟨t, ht, w, ⟨v, ok1, ok2, hok, rfl⟩, hd⟩ := exec_ends (.i2cMRead ack)
    (fun w => ∃ v ok1 ok2, s.platformSays [ok1, ok2] ∧ w = (s.taken .i2cShift).readByte s.cfg.i2cTEdge ack v ok1 ok2) rfl hs
    (gateI2cMaster_of hm) rfl
    (.all (.readByte fun v ok1 ok2 _ h1 h2 => .done ⟨v, ok1, ok2, State.platformSays_two h1 h2, rfl⟩))
  refine ⟨t, v, ok1, ok2, ht, hok, hd.words fun _ => ?_, hd.samples .sda, hd.writes, hd.now, hd.i2c, hd.spi, hd.uart,
    hd.like.pins .sda, hd.like.pins .scl, hd.pinsKeptBut fun q hq => ?_, hd.flagsKeptBut fun _ _ => rfl⟩
  · show [resultWord statusOk v] = okWords v
    rw [resultWord_ok]
  · exact PerPin.get_eq_of_rest (by rfl) q hq

end Sys2Proof.Machine
end

section
/-! The whole transfers of the I2C master: `I2C_M_XFER` and `I2C_M_RDN`. -/

namespace Sys2Proof.Machine

/-- The registers of `SDA` when the platform lets the master release it: an input pulled down. -/
def PinRegs.released (r : PinRegs) : PinRegs := r.withCfg true .input .down .none

theorem lineOf_released (r r' : PinRegs) (e : Ext) : lineOf r.released e = lineOf r'.released e := by cases e <;> rfl

/-- What a released line reads as does not depend on the other fields of its pin. -/
theorem reads_released {a : Around} {r r' : PinRegs} {b : Bool} (h : a.reads .sda r.released b) : a.reads .sda r'.released b :=
  fun hs v hv => h hs v (by rw [lineOf_released r r', hv])

/-- The answers of a platform that lets the next `n` configurations succeed. -/
theorem State.cfgSucceeds.getElem? {s : State} {n : Nat} (h : s.cfgSucceeds n) {k : Nat} (hk : k < n) :
    s.env.cfgOutcomes[k]? = some true := by
  obtain ⟨l, hl⟩ := State.cfgSucceeds_split h
  rw [hl, List.getElem?_append_left (by simpa using hk), List.getElem?_replicate, if_pos hk]

/-! ## Bytes on the wire -/

namespace View

/-- After a wire byte of `I2C_M_XFER` and its acknowledgment clock, which reads `b`. -/
def sent (D : Nat) (x : Byte) (ok1 b ok2 : Bool) (w : View) : View :=
  { w with
    i2c := { w.i2c with shift := x, bitcnt := 0, mState := .data, ack := !b }
    tmp := b
    out := w.out ++ [bitByte !b]
    now := w.now + 18 * D
    answers := w.answers.tail.tail
    pins := { w.pins with
      sda := ((w.pins.sda.withLat (x.getLsbD 0)).withCfg ok1 .input .down .none).withCfg ok2 .output .none .none
      scl := w.pins.scl.withLat false }
    writes := (writeWave D w.now x ++ pulseWave D (w.now + 16 * D)).reverse ++ w.writes
    acts := (((w.wroteByte D x ok1).acked D b ok2)).acts
    samples := { w.samples with sda := (w.now + 17 * D, b) :: w.samples.sda } }

/-- After a byte of `I2C_M_RDN`. -/
def got (D : Nat) (ack : Bool) (v : Byte) (ok1 ok2 : Bool) (w : View) : View :=
  { w.readByte D ack v ok1 ok2 with out := w.out ++ [v] }

end View

variable {a : Around} {K : View → Prop} {w : View} {rest : List Micro}

theorem Ends.xferByte {c : Config.Params} {x : Byte}
    (h : ∀ ok1 b ok2, (∀ v, w.answers.head? = some v → ok1 = v) → (∀ v, w.answers.tail.head? = some v → ok2 = v) →
      (ok1 = true → a.reads .sda w.pins.sda.released b) → Ends a K rest (w.sent c.i2cTEdge x ok1 b ok2)) :
    Ends a K (i2cMXferByte c x ++ rest) w := by
  unfold i2cMXferByte
  rw [List.append_assoc, List.append_assoc]
  refine .writeByte fun ok1 h1 => .acks fun b ok2 hb h2 => .reg nofun <| .of_eq (h ok1 b ok2 h1 h2 ?_) ?_
  · rintro rfl
    exact reads_released hb
  · simp only [RegOp.eff, View.wroteByte, View.acked, View.sent, View.mk.injEq, true_and, and_true, List.reverse_append, List.append_assoc,
      PerPin.mk.injEq, List.cons.injEq, Prod.mk.injEq, PinRegs.withLat_withLat]
    omega

/-! ## `I2C_M_XFER` -/

/-- From the view `w` the bytes of `xs` went onto the wire as long as each was acknowledged; `acks` are the answers. -/
inductive Xfer (a : Around) (D : Nat) : View → List Byte → List Bool → View → Prop
  | last {w : View} {x : Byte} {ok1 b ok2 : Bool} (h1 : ∀ v, w.answers.head? = some v → ok1 = v)
      (h2 : ∀ v, w.answers.tail.head? = some v → ok2 = v) (hb : ok1 = true → a.reads .sda w.pins.sda.released b) :
      Xfer a D w [x] [!b] (w.sent D x ok1 b ok2)
  | nack {w : View} {x : Byte} {xs : List Byte} {ok1 ok2 : Bool} (h1 : ∀ v, w.answers.head? = some v → ok1 = v)
      (h2 : ∀ v, w.answers.tail.head? = some v → ok2 = v) (hb : ok1 = true → a.reads .sda w.pins.sda.released true) :
      Xfer a D w (x :: xs) [false] (w.sent D x ok1 true ok2)
  | more {w u : View} {x y : Byte} {xs : List Byte} {acks : List Bool} {ok1 ok2 : Bool}
      (h1 : ∀ v, w.answers.head? = some v → ok1 = v) (h2 : ∀ v, w.answers.tail.head? = some v → ok2 = v)
      (hb : ok1 = true → a.reads .sda w.pins.sda.released false) (h : Xfer a D (w.sent D x ok1 false ok2) (y :: xs) acks u) :
      Xfer a D w (x :: y :: xs) (true :: acks) u

/-- What is left of `I2C_M_XFER` after its START, without the STOP. -/
def xferBytesProg (c : Config.Params) (x : Byte) (ys : List Byte) : List Micro :=
  i2cMXferByte c x ++ ys.flatMap fun y => onNackStop c ++ i2cMXferByte c y

theorem Ends.xferBytes {c : Config.Params} {x : Byte} {ys : List Byte}
    (h : ∀ acks u, Xfer a c.i2cTEdge w (x :: ys) acks u → K (u.ended c.i2cTEdge)) :
    Ends a K (xferBytesProg c x ys ++ i2cMStopProg c) w := by
  have hstop (u : View) (hu : K (u.ended c.i2cTEdge)) : Ends a K (i2cMStopProg c) u := .all (.stop (.done hu))
  induction ys generalizing x w with
  | nil =>
    unfold xferBytesProg
    rw [List.flatMap_nil, List.append_nil]
    exact .xferByte fun ok1 b ok2 h1 h2 hb => hstop _ (h _ _ (.last h1 h2 hb))
  | cons y ys ih =>
    have hprog : xferBytesProg c x (y :: ys) ++ i2cMStopProg c =
        i2cMXferByte c x ++ .nackKeep (i2cMStopProg c).length :: (xferBytesProg c y ys ++ i2cMStopProg c) := by
      simp [xferBytesProg, onNackStop]
    rw [hprog]
    refine .xferByte fun ok1 b ok2 h1 h2 hb => .nackKeep ?_
    cases b with
    | true =>
      have hdrop : (xferBytesProg c y ys ++ i2cMStopProg c).drop
          ((xferBytesProg c y ys ++ i2cMStopProg c).length - (i2cMStopProg c).length) = i2cMStopProg c := by simp
      have hack : (w.sent c.i2cTEdge x ok1 true ok2).i2c.ack = false := rfl
      rw [hack, hdrop]
      exact hstop _ (h _ _ (.nack h1 h2 hb))
    | false =>
      have hack : (w.sent c.i2cTEdge x ok1 false ok2).i2c.ack = true := rfl
      rw [hack]
      exact ih fun acks u hu => h _ _ (.more h1 h2 hb hu)

namespace Xfer

variable {D : Nat} {u : View} {xs : List Byte} {acks : List Bool}

/-- How many bytes went onto the wire, and which answers they got. -/
theorem acks_spec (h : Xfer a D w xs acks u) : 1 ≤ acks.length ∧ acks.length ≤ xs.length ∧ (∀ b ∈ acks.dropLast, b = true) ∧
    (acks.length < xs.length → acks.getLast? = some false) ∧ acks.getLast? = some u.i2c.ack := by
  induction h with
  | last h1 h2 hb => simp [View.sent]
  | nack h1 h2 hb => simp [View.sent]
  | @more w u x y xs acks ok1 ok2 h1 h2 hb h ih =>
    obtain ⟨hpos, hle, hdrop, hlast, hack⟩ := ih
    have hne : acks ≠ [] := by rintro rfl; simp at hpos
    refine ⟨by simp, by simpa using hle, ?_, fun hlt => ?_, ?_⟩
    · rw [List.dropLast_cons_of_ne_nil hne]
      rintro b (_ | ⟨_, hb⟩)
      · rfl
      · exact hdrop b hb
    · rw [List.getLast?_cons_of_ne_nil hne]
      exact hlast (by simpa using hlt)
    · rw [List.getLast?_cons_of_ne_nil hne]
      exact hack

/-- When the transfer's bytes are through. -/
theorem now (h : Xfer a D w xs acks u) : u.now = w.now + 18 * acks.length * D := by
  induction h with
  | last h1 h2 hb => simp [View.sent]
  | nack h1 h2 hb => simp [View.sent]
  | more h1 h2 hb h ih =>
    rw [ih]
    simp only [View.sent, List.length_cons]
    ring

theorem out (h : Xfer a D w xs acks u) : u.out = w.out ++ acks.map bitByte := by
  induction h with
  | last h1 h2 hb => rfl
  | nack h1 h2 hb => rfl
  | more h1 h2 hb h ih => rw [ih]; simp [View.sent]

theorem writes (h : Xfer a D w xs acks u) : u.writes = (xferWave D w.now (xs.take acks.length)).reverse ++ w.writes := by
  induction h with
  | last h1 h2 hb => simp [View.sent, xferWave]
  | nack h1 h2 hb => simp [View.sent, xferWave]
  | more h1 h2 hb h ih =>
    rw [ih]
    simp [View.sent, xferWave]

theorem samples (h : Xfer a D w xs acks u) : u.samples.sda =
    ((List.range acks.length).map fun k => (w.now + (18 * k + 17) * D, !(acks.getD k true))).reverse ++ w.samples.sda := by
  induction h with
  | last h1 h2 hb => simp [View.sent]
  | nack h1 h2 hb => simp [View.sent]
  | @more w u x y xs acks ok1 ok2 h1 h2 hb h ih =>
    have hshift (k : Nat) : w.now + 18 * D + (18 * k + 17) * D = w.now + (18 * (k + 1) + 17) * D := by ring
    rw [ih, List.length_cons, List.range_succ_eq_map]
    simp only [View.sent, hshift, List.map_cons, List.map_map, List.reverse_cons, List.append_assoc]
    simp [Function.comp_def]

/-- The rest of what the bytes leave: the last one in `I2C_SHIFT`, and everything a transfer does not touch. -/
theorem others (h : Xfer a D w xs acks u) : some u.i2c.shift = (xs.take acks.length).getLast? ∧ u.i2c.bitcnt = 0 ∧
    u.i2c.role = w.i2c.role ∧ u.i2c.sState = w.i2c.sState ∧ u.spi = w.spi ∧ u.uart = w.uart ∧ u.flag = w.flag ∧ u.ret = w.ret ∧
    u.pins.scl = w.pins.scl.withLat false ∧ (∀ q, q ∉ [Pin.sda, .scl] → u.pins.get q = w.pins.get q) ∧
    u.pins.sda.hnd = w.pins.sda.hnd := by
  have hhnd (r : PinRegs) (x ok1 ok2 : Bool) :
      (((r.withLat x).withCfg ok1 .input .down .none).withCfg ok2 .output .none .none).hnd = r.hnd := by cases ok1 <;> cases ok2 <;> rfl
  have hother (w : View) (x : Byte) (ok1 b ok2 : Bool) (q : Pin) (hq : q ∉ [Pin.sda, .scl]) :
      (w.sent D x ok1 b ok2).pins.get q = w.pins.get q := by
    exact PerPin.get_eq_of_rest (by rfl) q hq
  induction h with
  | last h1 h2 hb => exact ⟨rfl, rfl, rfl, rfl, rfl, rfl, rfl, rfl, rfl, hother _ _ _ _ _, hhnd _ _ _ _⟩
  | nack h1 h2 hb => exact ⟨by simp [View.sent], rfl, rfl, rfl, rfl, rfl, rfl, rfl, rfl, hother _ _ _ _ _, hhnd _ _ _ _⟩
  | @more w u x y xs acks ok1 ok2 h1 h2 hb h ih =>
    obtain ⟨hshift, hcnt, hrole, hsst, hspi, huart, hflag, hret, hscl, hpins, hh⟩ := ih
    have hpos := h.acks_spec.1
    refine ⟨?_, hcnt, hrole, hsst, hspi, huart, hflag, hret, hscl, fun q hq => (hpins q hq).trans (hother _ _ _ _ _ q hq),
      hh.trans (hhnd _ _ _ _)⟩
    have hne : (y :: xs).take acks.length ≠ [] := by rw [Ne, List.take_eq_nil_iff]; simp; rintro rfl; simp at hpos
    rw [hshift, List.length_cons, List.take_succ_cons, List.getLast?_cons_of_ne_nil hne]

/-- Every configuration succeeding, `SDA` is an output again. -/
theorem sda_output (h : Xfer a D w xs acks u) (ha : ∀ k, k < 2 * acks.length → w.answers[k]? = some true) :
    u.pins.sda.dir = .output ∧ u.pins.sda.pull = .none ∧ u.pins.sda.irq = .none := by
  have hsecond (v : View) (hv : v.answers[1]? = some true) : v.answers.tail.head? = some true := by
    rw [List.head?_eq_getElem?, List.getElem?_tail, hv]
  induction h with
  | last h1 h2 hb =>
    obtain rfl := h2 true (hsecond _ (ha 1 (by simp)))
    exact ⟨rfl, rfl, rfl⟩
  | nack h1 h2 hb =>
    obtain rfl := h2 true (hsecond _ (ha 1 (by simp)))
    exact ⟨rfl, rfl, rfl⟩
  | more h1 h2 hb h ih =>
    refine ih fun k hk => ?_
    have := ha (k + 2) (by simp; omega)
    simpa [View.sent] using this

end Xfer

theorem addressByte_eq (addr : Addr) (rw : Bool) : addressByte addr rw = BitVec.ofNat 8 (2 * addr.toNat + rw.toNat) := by
  have hall : ∀ (addr : Addr) (rw : Bool), addressByte addr rw = BitVec.ofNat 8 (2 * addr.toNat + rw.toNat) := by decide +kernel
  exact hall addr rw

theorem i2cMXferProg_eq (c : Config.Params) (addr : Addr) (ys : List Byte) :
    i2cMXferProg c addr ys = i2cMStartProg c ++ (xferBytesProg c (addressByte addr false) ys ++ i2cMStopProg c) := by
  simp [i2cMXferProg, xferBytesProg]

theorem valueWord_bitByte (b : Bool) : valueWord (bitByte b) = if b then 1 else 0 := by cases b <;> rfl

/-- A command's payload of at most 255 bytes. -/
theorem Instr.i2cMXfer_wf (addr : Addr) {ys : List Byte} (h : ys.length ≤ 255) : (Instr.i2cMXfer addr ys).wf = true :=
  decide_eq_true h

/-- A walk of `I2C_M_XFER` is a transfer between the START and the STOP. -/
theorem i2cMXfer_ends (addr : Addr) {ys : List Byte} {s : State} (hs : s.ready) (hm : s.i2c.role = .master) (hlen : ys.length ≤ 255) :
    ∃ t, exec (.i2cMXfer addr ys) s = .next t ∧ ∃ w, (∃ acks u, Xfer s.around s.cfg.i2cTEdge
      ((s.taken .gathered).begun s.cfg.i2cTEdge) (addressByte addr false :: ys) acks u ∧ w = u.ended s.cfg.i2cTEdge) ∧
      Done (.i2cMXfer addr ys) s w t :=
  exec_ends (.i2cMXfer addr ys) _ rfl hs (gateI2cMaster_of hm) (Instr.i2cMXfer_wf addr hlen)
    (by rw [i2cMXferProg_eq]; exact .start (.xferBytes fun acks u hu => ⟨acks, u, hu, rfl⟩))

/-- The result words of a transfer are the answers. -/
theorem View.words_gathered {w : View} {acks : List Bool} (hr : w.ret = .gathered) (ho : w.out = acks.map bitByte) (v : Byte) :
    w.words v = (if acks.length < 256 then BitVec.ofNat 8 acks.length else v).setWidth 32 ::
      acks.map (fun a : Bool => if a then 1 else 0) := by
  have hmap : (acks.map bitByte).map valueWord = acks.map (fun a : Bool => if a then (1 : Word) else 0) := by
    rw [List.map_map]
    exact List.map_congr_left fun b _ => valueWord_bitByte b
  simp only [View.words, hr, ho, List.length_map, hmap, resultWord_ok]

/-- Settles O42. -/
theorem i2cMXfer : Obligations.I2cMXfer := by
  unfold Obligations.I2cMXfer
  intro addr ys s hs hm hlen
  obtain ⟨t, ht, w, ⟨acks, u, hx, rfl⟩, hd⟩ := i2cMXfer_ends addr hs hm hlen
  obtain ⟨hpos, hle, hdrop, hlast, hack⟩ := hx.acks_spec
  obtain ⟨hshift, hcnt, hrole, hsst, hspi, huart, hflag, hret, hscl, hpins, hhnd⟩ := hx.others
  obtain ⟨v, hwords⟩ := hd.returned
  have hout : (u.ended s.cfg.i2cTEdge).out = acks.map bitByte := hx.out
  have hret' : (u.ended s.cfg.i2cTEdge).ret = .gathered := hret
  rw [View.words_gathered hret' hout] at hwords
  have haddr : addressByte addr false = BitVec.ofNat 8 (2 * addr.toNat) := addressByte_eq addr false
  have hnow : u.now = s.env.now + 3 * s.cfg.i2cTEdge + 18 * acks.length * s.cfg.i2cTEdge := hx.now
  have hwrites := hx.writes
  have hsamples := hx.samples
  rw [haddr] at hshift hwrites
  have hsda : handlerKept (s.pins.get .sda) (t.pins.get .sda) := by
    obtain ⟨-, -, -, -, hk⟩ := hd.like.pins .sda
    have hu : ((u.ended s.cfg.i2cTEdge).pins.get .sda).hnd = (s.pins.get .sda).hnd := hhnd
    unfold handlerKept at hk ⊢
    rwa [hu] at hk
  obtain ⟨hdir, hpull, hirq, hlat, -⟩ := hd.like.pins .sda
  have hscl' : (u.ended s.cfg.i2cTEdge).pins.get .scl = (s.pins.get .scl).withLat true :=
    (congrArg (fun r : PinRegs => r.withLat true) hscl).trans rfl
  have hflags : (u.ended s.cfg.i2cTEdge).flag = s.flag := hflag
  refine ⟨t, acks, _, ht, hwords, fun h => if_pos (by omega), hpos, hle, hdrop, fun h => hlast (Nat.lt_succ_of_le h), ?_, ?_, ?_,
    congrArg I2c.mState hd.i2c, ?_, ?_, hd.spi.trans hspi, hd.uart.trans huart, ?_, ?_, ?_, hlat, ?_, fun hc => ?_, hsda,
    hd.pinsKeptBut fun q hq => ?_, hd.flagsKeptBut fun m _ => by rw [hflags]⟩
  · have hstop : s.env.now + 3 * s.cfg.i2cTEdge + 18 * acks.length * s.cfg.i2cTEdge =
        s.env.now + (18 * acks.length + 3) * s.cfg.i2cTEdge := by ring
    rw [Wrote, hd.writes]
    simp only [View.ended, hwrites, hnow, hstop]
    simp [View.begun, State.taken, State.view]
  · rw [Sampled, hd.samples]
    refine hsamples.trans ?_
    have htime (k : Nat) : s.env.now + 3 * s.cfg.i2cTEdge + (18 * k + 17) * s.cfg.i2cTEdge =
        s.env.now + (18 * k + 20) * s.cfg.i2cTEdge := by ring
    simp only [View.begun, State.taken, State.view, htime]
    rfl
  · rw [hd.now]
    simp only [View.ended, hnow]
    ring
  · rw [hd.i2c]
    exact hrole.trans hm
  · rw [hd.i2c]
    exact hack.symm
  · rw [hd.i2c]
    exact hshift
  · rw [hd.i2c]
    exact hcnt
  · rw [hd.i2c]
    exact hsst
  · rw [← hscl']
    exact hd.like.pins .scl
  · obtain ⟨hd', hp', hi'⟩ := hx.sda_output fun k hk => hc.getElem? (by simp at hle; omega)
    exact ⟨hdir.trans hd', hpull.trans hp', hirq.trans hi'⟩
  · refine Eq.trans ?_ ((hpins q hq).trans ?_) <;> exact PerPin.get_eq_of_rest (by rfl) q hq

/-! ## `I2C_M_RDN` -/

/-- The bytes of `I2C_M_RDN`, counted down. -/
def rdnBytesProg (c : Config.Params) : Nat → List Micro
  | 0 => []
  | n + 1 => i2cMRdnByte c (decide (n ≠ 0)) ++ rdnBytesProg c n

theorem flatMap_i2cMRdnByte (c : Config.Params) (n : Nat) :
    (List.range n).flatMap (fun k => i2cMRdnByte c (decide (k + 1 < n))) = rdnBytesProg c n := by
  induction n with
  | zero => rfl
  | succ n ih =>
    rw [List.range_succ_eq_map, List.flatMap_cons, List.flatMap_map, rdnBytesProg, ← ih]
    simp [Nat.pos_iff_ne_zero]

/-- From the view `w` the bytes `vs` were read, `n` of them. -/
inductive Rdn (a : Around) (D : Nat) : View → Nat → List Byte → View → Prop
  | none {w : View} : Rdn a D w 0 [] w
  | byte {w u : View} {n : Nat} {v : Byte} {vs : List Byte} {ok1 ok2 : Bool} (h1 : ∀ b, w.answers.head? = some b → ok1 = b)
      (h2 : ∀ b, w.answers.tail.head? = some b → ok2 = b)
      (hv : ok1 = true → ∀ i, a.reads .sda w.pins.sda.released (bitOf v i))
      (h : Rdn a D (w.got D (decide (n ≠ 0)) v ok1 ok2) n vs u) : Rdn a D w (n + 1) (v :: vs) u

theorem Ends.rdnByte {c : Config.Params} {ack : Bool}
    (h : ∀ v ok1 ok2, (∀ b, w.answers.head? = some b → ok1 = b) → (∀ b, w.answers.tail.head? = some b → ok2 = b) →
      (ok1 = true → ∀ i, a.reads .sda w.pins.sda.released (bitOf v i)) → Ends a K rest (w.got c.i2cTEdge ack v ok1 ok2)) :
    Ends a K (i2cMRdnByte c ack ++ rest) w := by
  unfold i2cMRdnByte
  rw [List.append_assoc]
  refine .readByte fun v ok1 ok2 hv h1 h2 => .reg nofun (h v ok1 ok2 h1 h2 ?_)
  rintro rfl
  exact hv

theorem Ends.rdnBytes {c : Config.Params} {n : Nat} (h : ∀ vs u, Rdn a c.i2cTEdge w n vs u → Ends a K rest u) :
    Ends a K (rdnBytesProg c n ++ rest) w := by
  induction n generalizing w with
  | zero => exact h _ _ .none
  | succ n ih =>
    unfold rdnBytesProg
    rw [List.append_assoc]
    exact .rdnByte fun v ok1 ok2 h1 h2 hv => ih fun vs u hu => h _ _ (.byte h1 h2 hv hu)

namespace Rdn

variable {D n : Nat} {u : View} {vs : List Byte}

theorem length (h : Rdn a D w n vs u) : vs.length = n := by
  induction h with
  | none => rfl
  | byte h1 h2 hv h ih => simp [ih]

theorem now (h : Rdn a D w n vs u) : u.now = w.now + 18 * n * D := by
  induction h with
  | none => simp
  | byte h1 h2 hv h ih =>
    rw [ih]
    simp only [View.got, View.readByte]
    ring

theorem out (h : Rdn a D w n vs u) : u.out = w.out ++ vs := by
  induction h with
  | none => simp
  | byte h1 h2 hv h ih => rw [ih]; simp [View.got]

theorem writes (h : Rdn a D w n vs u) : u.writes = (rdnWave D w.now n).reverse ++ w.writes := by
  induction h with
  | none => rfl
  | byte h1 h2 hv h ih => rw [ih]; simp [View.got, View.readByte, rdnWave]

theorem samples (h : Rdn a D w n vs u) : u.samples.sda = (rdnSamples D w.now vs).reverse ++ w.samples.sda := by
  induction h with
  | none => rfl
  | byte h1 h2 hv h ih => rw [ih]; simp [View.got, View.readByte, rdnSamples]

/-- The rest of what the bytes leave: the last one in `I2C_SHIFT`, and everything a read does not touch. -/
theorem others (h : Rdn a D w n vs u) : u.i2c.shift = vs.getLast?.getD w.i2c.shift ∧ (w.i2c.bitcnt = 0 → u.i2c.bitcnt = 0) ∧
    u.i2c.ack = w.i2c.ack ∧ u.i2c.role = w.i2c.role ∧ u.i2c.sState = w.i2c.sState ∧ u.spi = w.spi ∧ u.uart = w.uart ∧
    u.flag = w.flag ∧ u.ret = w.ret ∧ u.pins.scl.withLat true = w.pins.scl.withLat true ∧
    (∀ q, q ∉ [Pin.sda, .scl] → u.pins.get q = w.pins.get q) ∧ u.pins.sda.hnd = w.pins.sda.hnd := by
  have hhnd (r : PinRegs) (ack ok1 ok2 : Bool) :
      (((r.withCfg ok1 .input .down .none).withCfg ok2 .output .none .none).withLat ack).hnd = r.hnd := by cases ok1 <;> cases ok2 <;> rfl
  have hother (w : View) (v : Byte) (ack ok1 ok2 : Bool) (q : Pin) (hq : q ∉ [Pin.sda, .scl]) :
      (w.got D ack v ok1 ok2).pins.get q = w.pins.get q := by
    exact PerPin.get_eq_of_rest (by rfl) q hq
  induction h with
  | none => exact ⟨rfl, id, rfl, rfl, rfl, rfl, rfl, rfl, rfl, rfl, fun _ _ => rfl, rfl⟩
  | @byte w u n v vs ok1 ok2 h1 h2 hv h ih =>
    obtain ⟨hshift, hcnt, hack, hrole, hsst, hspi, huart, hflag, hret, hscl, hpins, hh⟩ := ih
    refine ⟨?_, fun _ => hcnt rfl, hack, hrole, hsst, hspi, huart, hflag, hret, hscl,
      fun q hq => (hpins q hq).trans (hother _ _ _ _ _ q hq), hh.trans (hhnd _ _ _ _)⟩
    rw [hshift]
    cases vs <;> rfl

/-- Every configuration succeeding, `SDA` is an output again. -/
theorem sda_output (h : Rdn a D w n vs u) (ha : ∀ k, k < 2 * n → w.answers[k]? = some true)
    (hw : w.pins.sda.dir = .output ∧ w.pins.sda.pull = .none ∧ w.pins.sda.irq = .none) :
    u.pins.sda.dir = .output ∧ u.pins.sda.pull = .none ∧ u.pins.sda.irq = .none := by
  induction h with
  | none => exact hw
  | @byte w u n v vs ok1 ok2 h1 h2 hv h ih =>
    have hsecond : ok2 = true := h2 true (by rw [List.head?_eq_getElem?, List.getElem?_tail, ha 1 (by omega)])
    subst hsecond
    refine ih (fun k hk => ?_) ⟨rfl, rfl, rfl⟩
    have := ha (k + 2) (by omega)
    simpa [View.got, View.readByte] using this

end Rdn

/-- After the START of `I2C_M_RDN`, its address byte and the clock of its acknowledgment, which reads `b`. -/
def View.asked (D : Nat) (x : Byte) (ok1 b ok2 : Bool) (w : View) : View := ((w.begun D).wroteByte D x ok1).acked D b ok2

/-- From the view `w` a read of `n` bytes at address byte `x` came to `u`, having read `vs`; `b` is the answer to the address. -/
structure RdnRun (a : Around) (D : Nat) (x : Byte) (n : Nat) (w : View) (ok1 b ok2 : Bool) (vs : List Byte) (u : View) : Prop where
  first : ∀ v, w.answers.head? = some v → ok1 = v
  second : ∀ v, w.answers.tail.head? = some v → ok2 = v
  answer : ok1 = true → a.reads .sda w.pins.sda.released b
  bytes : Rdn a D (w.asked D x ok1 b ok2) (if b then 0 else n) vs u

theorem i2cMRdnProg_eq (c : Config.Params) (addr : Addr) (n : Nat) : i2cMRdnProg c addr n =
    i2cMStartProg c ++ (i2cMWriteProg c (addressByte addr true) ++ (i2cMAcksProg c ++
      .nackKeep (i2cMStopProg c).length :: (rdnBytesProg c n ++ i2cMStopProg c))) := by
  unfold i2cMRdnProg
  rw [flatMap_i2cMRdnByte]
  simp [onNackStop]

theorem Ends.rdn {c : Config.Params} {addr : Addr} {n : Nat}
    (h : ∀ ok1 b ok2 vs u, RdnRun a c.i2cTEdge (addressByte addr true) n w ok1 b ok2 vs u → K (u.ended c.i2cTEdge)) :
    Ends a K (i2cMRdnProg c addr n) w := by
  rw [i2cMRdnProg_eq]
  refine .start <| .writeByte fun ok1 h1 => .acks fun b ok2 hb h2 => .nackKeep ?_
  have hrun {vs : List Byte} {u : View} (hu : Rdn a c.i2cTEdge (w.asked c.i2cTEdge (addressByte addr true) ok1 b ok2) (if b then 0 else n) vs u) :
      Ends a K (i2cMStopProg c) u :=
    .all (.stop (.done (h ok1 b ok2 vs u ⟨h1, h2, by rintro rfl; exact reads_released hb, hu⟩)))
  cases b with
  | true =>
    have hdrop : (rdnBytesProg c n ++ i2cMStopProg c).drop ((rdnBytesProg c n ++ i2cMStopProg c).length - (i2cMStopProg c).length) =
        i2cMStopProg c := by simp
    have hack : (w.asked c.i2cTEdge (addressByte addr true) ok1 true ok2).i2c.ack = false := rfl
    show Ends a K (if (w.asked c.i2cTEdge (addressByte addr true) ok1 true ok2).i2c.ack then _ else _) _
    rw [hack, hdrop]
    exact hrun .none
  | false =>
    have hack : (w.asked c.i2cTEdge (addressByte addr true) ok1 false ok2).i2c.ack = true := rfl
    show Ends a K (if (w.asked c.i2cTEdge (addressByte addr true) ok1 false ok2).i2c.ack then _ else _) _
    rw [hack]
    exact .rdnBytes fun vs u hu => hrun hu

/-- A walk of `I2C_M_RDN`. -/
theorem i2cMRdn_ends (addr : Addr) (count : Byte) {s : State} (hs : s.ready) (hm : s.i2c.role = .master) :
    ∃ t, exec (.i2cMRdn addr count) s = .next t ∧ ∃ w, (∃ ok1 b ok2 vs u, RdnRun s.around s.cfg.i2cTEdge (addressByte addr true)
      count.toNat (s.taken .gathered) ok1 b ok2 vs u ∧ w = u.ended s.cfg.i2cTEdge) ∧ Done (.i2cMRdn addr count) s w t :=
  exec_ends (.i2cMRdn addr count) _ rfl hs (gateI2cMaster_of hm) rfl (.rdn fun ok1 b ok2 vs u hu => ⟨ok1, b, ok2, vs, u, hu, rfl⟩)

/-- The result words of a read are its bytes. -/
theorem View.words_bytes {w : View} {vs : List Byte} (hr : w.ret = .gathered) (ho : w.out = vs) (hl : vs.length < 256) (v : Byte) :
    w.words v = BitVec.ofNat 32 vs.length :: vs.map (fun v : Byte => v.setWidth 32) := by
  have hcount : (BitVec.ofNat 8 vs.length).setWidth 32 = BitVec.ofNat 32 vs.length := by
    apply BitVec.eq_of_toNat_eq
    simp
    omega
  simp only [View.words, hr, ho, hl, if_true, resultWord_ok, hcount, List.cons.injEq, true_and]
  rfl

/-- Settles O43. -/
theorem i2cMRdn : Obligations.I2cMRdn := by
  unfold Obligations.I2cMRdn
  intro addr count s hs hm
  obtain ⟨t, ht, w, ⟨ok1, b, ok2, vs, u, ⟨h1, h2, hb, hx⟩, rfl⟩, hd⟩ := i2cMRdn_ends addr count hs hm
  obtain ⟨hshift, hcnt, hack, hrole, hsst, hspi, huart, hflag, hret, hscl, hpins, hhnd⟩ := hx.others
  have hlen := hx.length
  have hlt : vs.length < 256 := by
    rw [hlen]
    split
    · decide
    · exact count.isLt
  have hout : (u.ended s.cfg.i2cTEdge).out = vs := hx.out
  have hret' : (u.ended s.cfg.i2cTEdge).ret = .gathered := hret
  have haddr : addressByte addr true = BitVec.ofNat 8 (2 * addr.toNat + 1) := addressByte_eq addr true
  have hnow := hx.now
  have hwrites := hx.writes
  have hsamples := hx.samples
  rw [← hlen] at hnow hwrites
  have hstart : (((s.taken .gathered).asked s.cfg.i2cTEdge (addressByte addr true) ok1 b ok2).now) = s.env.now + 21 * s.cfg.i2cTEdge := by
    simp only [View.asked, View.acked, View.wroteByte, View.begun, State.taken, State.view]
    ring
  rw [hstart] at hnow hwrites hsamples
  obtain ⟨hdir, hpull, hirq, hlat, hk⟩ := hd.like.pins .sda
  have hhnd' : ((u.ended s.cfg.i2cTEdge).pins.get .sda).hnd = (s.pins.get .sda).hnd := by
    refine (hhnd : u.pins.sda.hnd = _).trans ?_
    cases ok1 <;> cases ok2 <;> rfl
  have hscl' : (u.ended s.cfg.i2cTEdge).pins.get .scl = (s.pins.get .scl).withLat true := hscl
  have hflags : (u.ended s.cfg.i2cTEdge).flag = s.flag := hflag
  refine ⟨t, !b, vs, ht, hd.words fun v => View.words_bytes hret' hout hlt v, ?_, ?_, ?_, ?_, congrArg I2c.mState hd.i2c, ?_, ?_,
    hd.spi.trans hspi, hd.uart.trans huart, ?_, ?_, ?_, fun hc => ?_, hlat, ?_, ?_,
    hd.pinsKeptBut fun q hq => ?_, hd.flagsKeptBut fun m _ => by rw [hflags]⟩
  · rw [hlen]
    cases b <;> rfl
  · have hstop : s.env.now + 21 * s.cfg.i2cTEdge + 18 * vs.length * s.cfg.i2cTEdge =
        s.env.now + (18 * vs.length + 21) * s.cfg.i2cTEdge := by ring
    have hclock : s.env.now + 3 * s.cfg.i2cTEdge + 16 * s.cfg.i2cTEdge = s.env.now + 19 * s.cfg.i2cTEdge := by ring
    rw [Wrote, hd.writes]
    simp only [View.ended, hwrites, hnow, hstop]
    simp [View.asked, View.acked, View.wroteByte, View.begun, State.taken, State.view, xferWave, haddr]
  · rw [Sampled, hd.samples]
    refine hsamples.trans ?_
    have htime : s.env.now + 3 * s.cfg.i2cTEdge + 16 * s.cfg.i2cTEdge + s.cfg.i2cTEdge = s.env.now + 20 * s.cfg.i2cTEdge := by ring
    simp only [View.asked, View.acked, View.wroteByte, View.begun, State.taken, State.view, htime, List.reverse_cons, List.append_assoc,
      Bool.not_not]
    rfl
  · rw [hd.now]
    simp only [View.ended, hnow]
    ring
  · rw [hd.i2c]
    exact hrole.trans hm
  · rw [hd.i2c]
    exact hack
  · rw [hd.i2c, ← haddr]
    exact hshift
  · rw [hd.i2c]
    exact hcnt rfl
  · rw [hd.i2c]
    exact hsst
  · have hok2 : ok2 = true := h2 true (by
      rw [List.head?_eq_getElem?, List.getElem?_tail]
      exact hc.getElem? (by omega))
    subst hok2
    obtain ⟨hd', hp', hi'⟩ := hx.sda_output (fun k hk => by
      rw [← hlen] at hk
      have := hc.getElem? (show k + 2 < 2 * vs.length + 2 by omega)
      simpa [View.asked, View.acked, View.wroteByte, View.begun, State.taken, State.view] using this) ⟨rfl, rfl, rfl⟩
    exact ⟨hdir.trans hd', hpull.trans hp', hirq.trans hi'⟩
  · rw [← hscl']
    exact hd.like.pins .scl
  · unfold handlerKept at hk ⊢
    rwa [hhnd'] at hk
  · refine Eq.trans ?_ ((hpins q hq).trans ?_) <;> exact PerPin.get_eq_of_rest (by rfl) q hq

end Sys2Proof.Machine
end

section
/-! `AbsentReceiver`: the I2C master with nobody, or a held line, on the other side. -/

namespace Sys2Proof.Machine

variable {a : Around}

/-- A released line that nobody drives reads 0. -/
theorem Around.reads.released_z {r : PinRegs} {b : Bool} (h : a.reads .sda r.released b) (hs : a.still .sda)
    (he : a.ext.get .sda = .z) : b = false :=
  h hs false (by rw [he]; rfl)

/-- An input held high reads 1. -/
theorem Around.reads.held {r : PinRegs} {b : Bool} (h : a.reads .sda r b) (hs : a.still .sda) (hd : r.dir = .input)
    (he : a.ext.get .sda = .d1) : b = true :=
  h hs true (by rw [he]; unfold lineOf; rw [hd]; rfl)

theorem byte_eq_zero {v : Byte} (h : ∀ i, bitOf v i = false) : v = 0 :=
  byte_ext fun i => (h i).trans (by revert i; decide)

/-- Nobody on the wire: every byte is acknowledged. -/
theorem Xfer.absent {D : Nat} {w u : View} {xs : List Byte} {acks : List Bool} (h : Xfer a D w xs acks u) (hs : a.still .sda)
    (he : a.ext.get .sda = .z) (ha : ∀ k, k < 2 * xs.length → w.answers[k]? = some true) : acks = List.replicate xs.length true := by
  have hfirst (w : View) (xs : List Byte) (hne : xs ≠ []) (ha : ∀ k, k < 2 * xs.length → w.answers[k]? = some true) :
      w.answers.head? = some true := by
    rw [List.head?_eq_getElem?, ha 0 (by have := List.length_pos_iff.mpr hne; omega)]
  induction h with
  | @last w x ok1 b ok2 h1 h2 hb =>
    have := (hb (h1 true (hfirst w [x] (by simp) ha))).released_z hs he
    subst this
    rfl
  | @nack w x xs ok1 ok2 h1 h2 hb =>
    exact absurd ((hb (h1 true (hfirst w (x :: xs) (by simp) ha))).released_z hs he) (by simp)
  | @more w u x y xs acks ok1 ok2 h1 h2 hb h ih =>
    rw [ih fun k hk => ?_]
    · rfl
    · have := ha (k + 2) (by simp at hk ⊢; omega)
      simpa [View.sent] using this

/-- The line held high: the first byte is refused. -/
theorem Xfer.refused {D : Nat} {w u : View} {xs : List Byte} {acks : List Bool} (h : Xfer a D w xs acks u) (hs : a.still .sda)
    (he : a.ext.get .sda = .d1) (ha : w.answers.head? = some true) : acks = [false] := by
  cases h with
  | last h1 h2 hb =>
    have := (hb (h1 true ha)).held hs rfl he
    subst this
    rfl
  | nack h1 h2 hb => rfl
  | more h1 h2 hb h => exact absurd ((hb (h1 true ha)).held hs rfl he) (by simp)

/-- Nobody on the wire: every byte reads 0. -/
theorem Rdn.absent {D n : Nat} {w u : View} {vs : List Byte} (h : Rdn a D w n vs u) (hs : a.still .sda)
    (he : a.ext.get .sda = .z) (ha : ∀ k, k < 2 * n → w.answers[k]? = some true) : vs = List.replicate n 0 := by
  induction h with
  | none => rfl
  | @byte w u n v vs ok1 ok2 h1 h2 hv h ih =>
    have hok : ok1 = true := h1 true (by rw [List.head?_eq_getElem?, ha 0 (by omega)])
    rw [byte_eq_zero fun i => (hv hok i).released_z hs he, ih fun k hk => ?_]
    · rfl
    · have := ha (k + 2) (by omega)
      simpa [View.got, View.readByte] using this

/-- `I2C_M_ACKS` returns the answer its sample stands for. -/
theorem i2cMAcks_answer {s : State} (hs : s.ready) (hm : s.i2c.role = .master) :
    ∃ t b, exec .i2cMAcks s = .next t ∧ s.around.reads .sda (s.pins.get .sda) b ∧ Returned .i2cMAcks s t (okWords (bitByte !b)) ∧
      t.i2c.ack = !b := by
  obtain ⟨t, ht, w, ⟨b, ok, hb, rfl⟩, hd⟩ := exec_ends .i2cMAcks
    (fun w => ∃ b ok, s.around.reads .sda (s.pins.get .sda) b ∧ w = (s.taken .i2cAck).acked s.cfg.i2cTEdge b ok) rfl hs
    (gateI2cMaster_of hm) rfl (.all (.acks fun b ok hb _ => .done ⟨b, ok, hb, rfl⟩))
  exact ⟨t, b, ht, hb, hd.words fun _ => congrArg (· :: []) (resultWord_ok _), congrArg I2c.ack hd.i2c⟩

/-- `I2C_M_READ` of a line the platform lets it release returns what the line reads as. -/
theorem i2cMRead_bits {s : State} (hs : s.ready) (hm : s.i2c.role = .master) (ha : s.env.cfgOutcomes.head? = some true) (ack : Bool) :
    ∃ t v, exec (.i2cMRead ack) s = .next t ∧ (∀ i, s.around.reads .sda (s.pins.get .sda).released (bitOf v i)) ∧
      Returned (.i2cMRead ack) s t (okWords v) ∧ t.i2c.shift = v := by
  obtain ⟨t, ht, w, ⟨v, ok1, ok2, hv, rfl⟩, hd⟩ := exec_ends (.i2cMRead ack)
    (fun w => ∃ v ok1 ok2, (∀ i, s.around.reads .sda (s.pins.get .sda).released (bitOf v i)) ∧
      w = (s.taken .i2cShift).readByte s.cfg.i2cTEdge ack v ok1 ok2) rfl hs (gateI2cMaster_of hm) rfl
    (.all (.readByte fun v ok1 ok2 hv h1 _ => .done ⟨v, ok1, ok2, by
      obtain rfl := h1 true ha
      exact hv, rfl⟩))
  exact ⟨t, v, ht, hv, hd.words fun _ => congrArg (· :: []) (resultWord_ok _), congrArg I2c.shift hd.i2c⟩

/-- A transfer's result words are its answers. -/
theorem Xfer.returned {D : Nat} {addr : Addr} {xs ys : List Byte} {acks : List Bool} {s t : State} {u : View}
    (hx : Xfer a D ((s.taken .gathered).begun D) xs acks u) (hd : Done (.i2cMXfer addr ys) s (u.ended D) t) :
    ∃ v, Returned (.i2cMXfer addr ys) s t ((if acks.length < 256 then BitVec.ofNat 8 acks.length else v).setWidth 32 ::
      acks.map (fun a : Bool => if a then 1 else 0)) := by
  obtain ⟨-, -, -, -, -, -, -, hret, -⟩ := hx.others
  obtain ⟨v, hwords⟩ := hd.returned
  have hret' : (u.ended D).ret = .gathered := hret
  have hout : (u.ended D).out = acks.map bitByte := hx.out
  rw [View.words_gathered hret' hout] at hwords
  exact ⟨v, hwords⟩

/-- A read's result words are its bytes. -/
theorem RdnRun.returned {D n : Nat} {x : Byte} {addr : Addr} {count : Byte} {ok1 b ok2 : Bool} {vs : List Byte} {s t : State} {u : View}
    (hx : RdnRun a D x n (s.taken .gathered) ok1 b ok2 vs u) (hn : n < 256) (hd : Done (.i2cMRdn addr count) s (u.ended D) t) :
    Returned (.i2cMRdn addr count) s t (BitVec.ofNat 32 vs.length :: vs.map (fun v : Byte => v.setWidth 32)) := by
  obtain ⟨-, -, -, -, -, -, -, -, hret, -⟩ := hx.bytes.others
  have hret' : (u.ended D).ret = .gathered := hret
  have hout : (u.ended D).out = vs := hx.bytes.out
  have hlen := hx.bytes.length
  refine hd.words fun v => View.words_bytes hret' hout ?_ v
  rw [hlen]
  split <;> omega

theorem taken_answers (ret : Ret) (s : State) : (s.taken ret).answers = s.env.cfgOutcomes := rfl

/-- Settles O44. -/
theorem absentReceiver : Obligations.AbsentReceiver := by
  unfold Obligations.AbsentReceiver
  intro s hs hm hl
  have hstill : s.around.still .sda := hl
  refine ⟨fun hdir hpull he => ?_, fun hdir he => ?_, fun he ha ack => ?_, fun he addr ys hlen hc => ?_, fun he addr count hc => ?_,
    fun he ha addr ys count hlen => ⟨?_, ?_⟩⟩
  · obtain ⟨t, b, ht, hb, hret, hack⟩ := i2cMAcks_answer hs hm
    obtain rfl : b = false := hb hstill false (by unfold lineOf; rw [show s.around.ext.get .sda = .z from he, hdir, hpull]; rfl)
    exact ⟨t, ht, hret, hack⟩
  · obtain ⟨t, b, ht, hb, hret, hack⟩ := i2cMAcks_answer hs hm
    obtain rfl := hb.held hstill hdir he
    exact ⟨t, ht, hret, hack⟩
  · obtain ⟨t, v, ht, hv, hret, hshift⟩ := i2cMRead_bits hs hm ha ack
    obtain rfl := byte_eq_zero fun i => (hv i).released_z hstill he
    exact ⟨t, ht, hret, hshift⟩
  · obtain ⟨t, ht, w, ⟨acks, u, hx, rfl⟩, hd⟩ := i2cMXfer_ends addr hs hm hlen
    obtain ⟨v, hret⟩ := hx.returned hd
    obtain rfl := hx.absent hstill he fun k hk => hc.getElem? (by simp at hk; omega)
    refine ⟨t, _, ht, by simpa using hret, fun h => ?_⟩
    simp
    omega
  · obtain ⟨t, ht, w, ⟨ok1, b, ok2, vs, u, hx, rfl⟩, hd⟩ := i2cMRdn_ends addr count hs hm
    have hret := hx.returned count.isLt hd
    obtain rfl : b = false := (hx.answer (hx.first true (by
      rw [taken_answers, List.head?_eq_getElem?, hc.getElem? (by omega)]))).released_z hstill he
    obtain rfl := hx.bytes.absent hstill he fun k hk => by
      have := hc.getElem? (show k + 2 < 2 * count.toNat + 2 by simpa using hk)
      simpa [View.asked, View.acked, View.wroteByte, View.begun, State.taken, State.view] using this
    refine ⟨t, ht, ?_⟩
    have hcount : BitVec.ofNat 32 count.toNat = count.setWidth 32 := by
      apply BitVec.eq_of_toNat_eq
      simp
    simpa [hcount] using hret
  · obtain ⟨t, ht, w, ⟨acks, u, hx, rfl⟩, hd⟩ := i2cMXfer_ends addr hs hm hlen
    obtain ⟨v, hret⟩ := hx.returned hd
    obtain rfl := hx.refused hstill he ha
    exact ⟨t, ht, hret⟩
  · obtain ⟨t, ht, w, ⟨ok1, b, ok2, vs, u, hx, rfl⟩, hd⟩ := i2cMRdn_ends addr count hs hm
    have hret := hx.returned count.isLt hd
    obtain rfl : b = true := (hx.answer (hx.first true ha)).held hstill rfl he
    obtain rfl : vs = [] := List.length_eq_zero_iff.mp hx.bytes.length
    exact ⟨t, ht, hret⟩

end Sys2Proof.Machine
end

section
/-! The exchanges of the SPI master and the UART transmitter. -/

namespace Sys2Proof.Machine

variable {a : Around} {K : View → Prop} {w : View} {rest : List Micro}

/-! ## SPI master -/

/-- The pin writes of one bit of an exchange: set up on the leading edge, or before it. -/
def spiBitWave (on lead : Bool) (H t : Nat) (b : Bool) : List (Nat × Pin × Bool) :=
  if on then [(t, .sclk, lead), (t, .sdo, b), (t + H, .sclk, !lead)]
  else [(t, .sdo, b), (t + H, .sclk, lead), (t + 2 * H, .sclk, !lead)]

/-- The micro-operations of one bit of an exchange. -/
def spiMBit (on lead : Bool) (c : Config.Params) (i : Fin 8) : List Micro :=
  if on then spiMBitOn c lead i else spiMBitBefore c lead i

namespace View

/-- After one bit of an exchange, which reads `b`. -/
def xchgBit (on lead : Bool) (H : Nat) (w : View) (i : Fin 8) (b : Bool) : View :=
  { w with
    spi := { w.spi with shi := setBit w.spi.shi i b, bitcnt := w.spi.bitcnt - 1 }
    now := w.now + 2 * H
    pins := { w.pins with sclk := w.pins.sclk.withLat (!lead), sdo := w.pins.sdo.withLat (bitOf w.spi.sho i) }
    writes := (spiBitWave on lead H w.now (bitOf w.spi.sho i)).reverse ++ w.writes
    acts := ((spiBitWave on lead H w.now (bitOf w.spi.sho i)).map fun e => wr e.1 e.2.1 e.2.2).reverse ++ w.acts
    samples := { w.samples with sdi := (w.now + H, b) :: w.samples.sdi } }

/-- The pin writes of the eight bits of an exchange. -/
def xchgWave (on lead : Bool) (H t : Nat) (x : Byte) : List (Nat × Pin × Bool) :=
  (List.range 8).flatMap fun k => spiBitWave on lead H (t + 2 * k * H) (x.getLsbD (7 - k))

theorem foldl_xchgBit (on lead : Bool) (H : Nat) (v : Byte) (w : View) :
    msbFirst.foldl (fun w i => xchgBit on lead H w i (bitOf v i)) w =
    { w with
      spi := { w.spi with shi := v, bitcnt := w.spi.bitcnt - 8 }
      now := w.now + 16 * H
      pins := { w.pins with sclk := w.pins.sclk.withLat (!lead), sdo := w.pins.sdo.withLat (w.spi.sho.getLsbD 0) }
      writes := (xchgWave on lead H w.now w.spi.sho).reverse ++ w.writes
      acts := ((xchgWave on lead H w.now w.spi.sho).map fun e => wr e.1 e.2.1 e.2.2).reverse ++ w.acts
      samples := { w.samples with sdi := (msbSamples (2 * H) (w.now + H) v).reverse ++ w.samples.sdi } } := by
  have hshift := msbFirst_setBits w.spi.shi v
  simp only [msbFirst, List.foldl_cons, List.foldl_nil] at hshift
  have htime : ∀ k : Nat, w.now + k * H + 2 * H = w.now + (k + 2) * H := fun k => by ring
  have hfirst : w.now + 2 * H = w.now + (0 + 2) * H := by ring
  simp only [msbFirst, xchgBit, xchgWave, msbSamples, range8, hshift, List.foldl_cons, List.foldl_nil, hfirst, htime]
  simp [bitOf, eight_steps]
  omega

end View

theorem Ends.xchgBit (on lead : Bool) (c : Config.Params) (i : Fin 8) (rest : List Micro) (w : View)
    (h : ∀ b, a.reads .sdi w.pins.sdi b → Ends a K rest (w.xchgBit on lead c.spiTHalf i b)) :
    Ends a K (spiMBit on lead c i ++ rest) w := by
  cases on with
  | true =>
    refine .pinSet <| .pinSet <| .wait <| .pinSet <| .sample fun b hb => .wait <| .reg nofun <| .of_eq (h b hb) ?_
    simp only [View.write, View.outBit, View.pass, View.sample, View.store, RegOp.eff, View.xchgBit, spiBitWave, PerPin.set, PerPin.get,
      View.mk.injEq, true_and, and_true, PinRegs.withLat_withLat, wr, if_true, List.cons_append, List.nil_append, List.reverse_cons,
      List.reverse_nil, List.map_cons, List.map_nil]
    omega
  | false =>
    refine .pinSet <| .wait <| .pinSet <| .sample fun b hb => .wait <| .pinSet <| .reg nofun <| .of_eq (h b hb) ?_
    simp only [View.write, View.outBit, View.pass, View.sample, View.store, RegOp.eff, View.xchgBit, spiBitWave, PerPin.set, PerPin.get,
      View.mk.injEq, true_and, and_true, PinRegs.withLat_withLat, wr, Bool.false_eq_true, if_false, List.cons_append, List.nil_append,
      List.reverse_cons, List.reverse_nil, List.map_cons, List.map_nil, List.cons.injEq, Prod.mk.injEq]
    omega

/-- The exchange of mode `m`. -/
def spiMXchgProg (m : BitVec 2) (c : Config.Params) (x : Byte) : List Micro :=
  spiMBegin x ++ (msbFirst.flatMap (spiMBit (m.getLsbD 0) (!m.getLsbD 1) c) ++ if m = 0 then [] else spiMRelease)

theorem mode_cases (m : BitVec 2) : m = 0 ∨ m = 1 ∨ m = 2 ∨ m = 3 := by revert m; decide

theorem exec_spiXchg (m : BitVec 2) (x : Byte) (s : State) :
    exec (spiXchg m x) s = command (spiXchg m x) (gateSpiMaster m) (spiMXchgProg m s.cfg x) .spiShi s := by
  obtain rfl | rfl | rfl | rfl := mode_cases m <;> rfl

theorem spiXchg_wf (m : BitVec 2) (x : Byte) : (spiXchg m x).wf = true := by
  obtain rfl | rfl | rfl | rfl := mode_cases m <;> rfl

/-- After the exchange of mode `m`, which reads `v`. -/
def View.exchanged (m : BitVec 2) (H : Nat) (x v : Byte) (w : View) : View :=
  { w with
    spi := { w.spi with sho := x, shi := v, bitcnt := 0 }
    now := w.now + 16 * H
    pins := { w.pins with
      cs := w.pins.cs.withLat (decide (m ≠ 0)), sclk := w.pins.sclk.withLat (m.getLsbD 1), sdo := w.pins.sdo.withLat (x.getLsbD 0) }
    writes := (spiWave m H w.now x).reverse ++ w.writes
    acts := ((spiWave m H w.now x).map fun e => wr e.1 e.2.1 e.2.2).reverse ++ w.acts
    samples := { w.samples with sdi := (msbSamples (2 * H) (w.now + H) v).reverse ++ w.samples.sdi } }

theorem spiWave_eq (m : BitVec 2) (H t : Nat) (x : Byte) : spiWave m H t x =
    (t, .cs, false) :: (View.xchgWave (m.getLsbD 0) (!m.getLsbD 1) H t x ++ if m = 0 then [] else [(t + 16 * H, .cs, true)]) := by
  simp only [spiWave, View.xchgWave, spiBitWave, Bool.not_not, List.cons_append]

/-- The beginning of an exchange. -/
def View.selected (x : Byte) (w : View) : View := ((RegOp.spiLoad x).eff (fun _ => 0) w).write .cs false

/-- The end of an exchange. -/
theorem Ends.released {m : BitVec 2} {H : Nat} {x v : Byte} (h : Ends a K [] (w.exchanged m H x v)) :
    Ends a K (if m = 0 then [] else spiMRelease)
      (msbFirst.foldl (fun w i => View.xchgBit (m.getLsbD 0) (!m.getLsbD 1) H w i (bitOf v i)) (w.selected x)) := by
  rw [View.foldl_xchgBit]
  by_cases hm : m = 0
  · subst hm
    refine .of_eq h ?_
    simp [View.selected, View.exchanged, spiWave_eq, View.write, RegOp.eff, PerPin.set, PerPin.get, wr]
  · have hm' : ¬m = 0#2 := hm
    rw [if_neg hm]
    refine .pinSet <| .of_eq h ?_
    simp [View.selected, View.exchanged, spiWave_eq, View.write, View.outBit, RegOp.eff, PerPin.set, PerPin.get, wr, hm']

theorem Ends.exchange {c : Config.Params} {m : BitVec 2} {x : Byte} (h : ∀ v, Ends a K [] (w.exchanged m c.spiTHalf x v)) :
    Ends a K (spiMXchgProg m c x) w :=
  .reg nofun <| .pinSet <| .flatMap_bits (View.xchgBit (m.getLsbD 0) (!m.getLsbD 1) c.spiTHalf)
    (fun w b => a.reads .sdi w.pins.sdi b) (fun _ _ _ _ h => h) (Ends.xchgBit _ _ c) (by decide) fun v _ => .released (h v)

/-- Settles O53. -/
theorem spiExchange : Obligations.SpiExchange := by
  unfold Obligations.SpiExchange
  intro m x s hs hm hmode
  obtain ⟨t, ht, w, ⟨v, rfl⟩, hd⟩ := exec_ends (spiXchg m x) (fun w => ∃ v, w = (s.taken .spiShi).exchanged m s.cfg.spiTHalf x v)
    (exec_spiXchg m x s) hs ((gateSpiMaster_iff m s).mpr ⟨hm, hmode⟩) (spiXchg_wf m x) (.exchange fun v => .done ⟨v, rfl⟩)
  refine ⟨t, v, ht, hd.words fun _ => congrArg (· :: []) (resultWord_ok v), hd.writes, hd.samples .sdi, hd.now, hd.spi, hd.i2c, hd.uart,
    hd.like.pins .cs, hd.like.pins .sclk, hd.like.pins .sdo, hd.pinsKeptBut fun q hq => ?_, hd.flagsKeptBut fun _ _ => rfl⟩
  exact PerPin.get_eq_of_rest (by rfl) q hq

/-! ## UART transmitter -/

namespace View

/-- After one data bit of `UART_TX_BYTE`. -/
def txBit (B : Nat) (w : View) (i : Fin 8) : View :=
  { w with
    uart := { w.uart with bitcnt := w.uart.bitcnt - 1 }
    now := w.now + B
    pins := { w.pins with tx := w.pins.tx.withLat (bitOf w.uart.txsh i) }
    writes := (w.now, .tx, bitOf w.uart.txsh i) :: w.writes
    acts := wr w.now .tx (bitOf w.uart.txsh i) :: w.acts }

/-- The pin writes of the eight data bits of a frame. -/
def txWave (B t : Nat) (x : Byte) : List (Nat × Pin × Bool) := (List.range 8).map fun k => (t + k * B, .tx, x.getLsbD k)

theorem foldl_txBit (B : Nat) (w : View) : lsbFirst.foldl (txBit B) w =
    { w with
      uart := { w.uart with bitcnt := w.uart.bitcnt - 8 }
      now := w.now + 8 * B
      pins := { w.pins with tx := w.pins.tx.withLat (w.uart.txsh.getLsbD 7) }
      writes := (txWave B w.now w.uart.txsh).reverse ++ w.writes
      acts := ((txWave B w.now w.uart.txsh).map fun e => wr e.1 e.2.1 e.2.2).reverse ++ w.acts } := by
  simp [lsbFirst, txBit, txWave, range8, wr, bitOf, eight_steps]
  omega

/-- After `UART_TX_BYTE x`. -/
def txByte (B : Nat) (w : View) (x : Byte) : View :=
  { w with
    uart := { w.uart with txsh := x, bitcnt := 0 }
    now := w.now + 10 * B
    pins := { w.pins with tx := w.pins.tx.withLat true }
    writes := (uartWave B w.now x).reverse ++ w.writes
    acts := ((uartWave B w.now x).map fun e => wr e.1 e.2.1 e.2.2).reverse ++ w.acts }

end View

theorem Ends.txBit (c : Config.Params) (i : Fin 8) (rest : List Micro) (w : View) (h : Ends a K rest (w.txBit c.uartTBit i)) :
    Ends a K (uartTxBit c i ++ rest) w :=
  .pinSet <| .wait <| .reg nofun <| h

theorem Ends.txByte (c : Config.Params) (x : Byte) (rest : List Micro) (w : View) (h : Ends a K rest (w.txByte c.uartTBit x)) :
    Ends a K (uartTxByteProg c x ++ rest) w := by
  unfold uartTxByteProg
  rw [List.append_assoc, List.append_assoc]
  refine .reg nofun <| .pinSet <| .wait <| .flatMap (Ends.txBit c) lsbFirst ?_
  rw [View.foldl_txBit]
  refine .pinSet <| .wait <| .of_eq h ?_
  simp [View.txByte, View.txWave, uartWave, View.write, View.outBit, View.pass, RegOp.eff, PerPin.set, PerPin.get, wr, View.range8]
  omega

/-- Settles O56. -/
theorem uartTxByte : Obligations.UartTxByte := by
  unfold Obligations.UartTxByte
  intro x s hs hrdy
  obtain ⟨t, ht, w, rfl, hd⟩ := exec_ends (.uartTxByte x) (fun w => w = (s.taken .ok).txByte s.cfg.uartTBit x) rfl hs hrdy rfl
    (.all (.txByte _ x _ _ (.done rfl)))
  refine ⟨t, ht, hd.words fun _ => rfl, hd.writes, hd.now, hd.uart, hd.i2c, hd.spi, hd.like.pins .tx, hd.pinsKeptBut fun q hq => ?_,
    hd.flagsKeptBut fun _ _ => rfl⟩
  exact PerPin.get_eq_of_rest (by rfl) q hq

/-- The transmitter after frames of which `last` was the last. -/
def Uart.sent (u : Uart) : Option Byte → Uart
  | none => u
  | some y => { u with txsh := y, bitcnt := 0 }

theorem Uart.sent_sent (u : Uart) (y : Byte) (ys : List Byte) :
    Uart.sent { u with txsh := y, bitcnt := 0 } ys.getLast? = u.sent (y :: ys).getLast? := by
  cases ys with
  | nil => rfl
  | cons z zs =>
    rw [List.getLast?_cons_cons]
    cases h : (z :: zs).getLast? with
    | none => simp at h
    | some y => rfl

/-- Frames sent back to back. -/
theorem View.foldl_txByte (B : Nat) (ys : List Byte) (w : View) : ys.foldl (View.txByte B) w =
    { w with
      uart := w.uart.sent ys.getLast?
      now := w.now + 10 * ys.length * B
      pins := { w.pins with tx := if ys = [] then w.pins.tx else w.pins.tx.withLat true }
      writes := (uartSendWave B w.now ys).reverse ++ w.writes
      acts := ((uartSendWave B w.now ys).map fun e => wr e.1 e.2.1 e.2.2).reverse ++ w.acts } := by
  induction ys generalizing w with
  | nil => simp [uartSendWave, Uart.sent]
  | cons y ys ih =>
    rw [List.foldl_cons, ih]
    simp only [View.txByte, uartSendWave, List.length_cons, View.mk.injEq, true_and, List.reverse_append, List.map_append,
      List.append_assoc, PerPin.mk.injEq, and_true, Uart.sent_sent]
    exact ⟨by simp, by ring⟩

/-- Settles O57. -/
theorem uartSend : Obligations.UartSend := by
  unfold Obligations.UartSend
  intro ys s hs hrdy hlen
  have hwf : (Instr.uartSend ys).wf = true := decide_eq_true hlen
  obtain ⟨t, ht, w, rfl, hd⟩ := exec_ends (.uartSend ys) (fun w => w = ys.foldl (View.txByte s.cfg.uartTBit) (s.taken .ok)) rfl hs hrdy hwf
    (.all (.flatMap (Ends.txByte s.cfg) ys (.done rfl)))
  rw [View.foldl_txByte] at hd
  refine ⟨t, ht, hd.words fun _ => rfl, hd.writes, hd.now, hd.uart.trans ?_, hd.i2c, hd.spi, hd.like.pins .tx,
    hd.pinsKeptBut fun q hq => ?_, hd.flagsKeptBut fun _ _ => rfl⟩
  · show (s.taken .ok).uart.sent ys.getLast? = _
    cases ys.getLast? <;> rfl
  · exact PerPin.get_eq_of_rest (by rfl) q hq

end Sys2Proof.Machine
end

section
/-! What the last micro-operation of a command leaves, and the commands of the I2C slave that find their event pending. -/

namespace Sys2Proof.Machine

/-! ## The last micro-operation -/

/-- `o` does what `op` does. -/
def Micro.same (o op : Micro) : Prop := o.goesOn = true ∧ (∀ n, o ≠ .wait n) ∧ ∀ s : State, o.run s = op.run s

/-- What pins, flags and the sequencer's acts are after micro-operation `op` has run last. -/
def LastRan (op : Micro) (s : State) : Prop :=
  ∃ v : State, (op.run v).seq.pos = [] ∧ s.pins = (op.run v).pins ∧ s.flag = (op.run v).flag ∧
    pinActs s.env.trace = pinActs (op.run v).env.trace

/-- The command is yet to come to its last micro-operation, or has returned after it, or has failed. -/
def Lasts (op : Micro) (s : State) : Prop :=
  (s.seq.busy = true ∧ ∃ pre o, s.seq.pos = pre ++ [o] ∧ (∀ x ∈ pre, x.goesOn = true) ∧ o.same op) ∨
  (s.seq.busy = false ∧ (s.seq.ret = .cfgFail ∨ LastRan op s))

/-- A micro-operation that ends or is to run again. -/
structure Micro.Final (op : Micro) : Prop where
  same : op.same op
  run : ∀ v : State, v.seq.pos = [] → (op.run v).seq.ret = .cfgFail ∧ (op.run v).seq.pos = [] ∨ (op.run v).seq.pos = [] ∨
    ∃ o, (op.run v).seq.pos = [o] ∧ o.same op

variable {op : Micro}

theorem Lasts.congr {s t : State} (h : Lasts op s) (hq : t.seq = s.seq) (hb : s.seq.busy = true) : Lasts op t := by
  obtain ⟨-, hpos⟩ | ⟨hidle, -⟩ := h
  · exact .inl (by rw [hq]; exact ⟨hb, hpos⟩)
  · exact absurd hb (by simp [hidle])

theorem settle_idle {u : State} (hb : u.seq.busy = true) (hp : u.seq.pos = []) : u.settle.seq.busy = false ∧
    u.settle.seq.ret = u.seq.ret ∧ u.settle.pins = u.pins ∧ u.settle.flag = u.flag ∧
    pinActs u.settle.env.trace = pinActs u.env.trace := by
  rw [State.settle_nil u hb hp]
  exact ⟨rfl, rfl, rfl, rfl, rfl⟩

theorem Lasts.seqStep (hop : op.Final) {s : State} (h : Lasts op s) (hb : s.seq.busy = true) : Lasts op s.seqStep := by
  obtain ⟨-, pre, o, hpos, hpre, ho⟩ | ⟨hidle, -⟩ := h
  swap
  · exact absurd hb (by simp [hidle])
  have hbusy (x : Micro) (l : List Micro) : (x.run (s.setPos l)).seq.busy = true := (Micro.run_wait x _).1.trans hb
  have hdone {u : State} (hub : u.seq.busy = true) (hup : u.seq.pos = []) (hr : u.seq.ret = .cfgFail ∨ LastRan op u) :
      Lasts op u.settle := by
    obtain ⟨h1, h2, h3, h4, h5⟩ := settle_idle hub hup
    refine .inr ⟨h1, hr.imp (fun hr => h2.trans hr) ?_⟩
    rintro ⟨v, hv, h6, h7, h8⟩
    exact ⟨v, hv, h3.trans h6, h4.trans h7, h5.trans h8⟩
  have hmore (pre : List Micro) {u : State} (hub : u.seq.busy = true) {o : Micro} (hup : u.seq.pos = pre ++ [o])
      (hpre : ∀ x ∈ pre, x.goesOn = true) (ho : o.same op) : Lasts op u.settle := by
    rw [State.settle_busy u (by rw [hup]; simp)]
    exact .inl ⟨hub, pre, o, hup, hpre, ho⟩
  unfold State.seqStep
  rw [hpos]
  cases pre with
  | nil =>
    show Lasts op (o.run (s.setPos [])).settle
    have hrun := ho.2.2 (s.setPos [])
    obtain ⟨hf, hp⟩ | hp | ⟨o', hp, ho'⟩ := hop.run (s.setPos []) rfl
    · exact hdone (hbusy o _) (by rw [hrun]; exact hp) (.inl (by rw [hrun]; exact hf))
    · exact hdone (hbusy o _) (by rw [hrun]; exact hp) (.inr ⟨s.setPos [], hp, by rw [hrun], by rw [hrun], by rw [hrun]⟩)
    · exact hmore [] (hbusy o _) (by rw [hrun]; exact hp) nofun ho'
  | cons x pre =>
    show Lasts op (x.run (s.setPos (pre ++ [o]))).settle
    have hpre' : ∀ y ∈ pre, y.goesOn = true := fun y hy => hpre y (List.mem_cons_of_mem _ hy)
    obtain ⟨hf, hp⟩ | hp | ⟨x', hx', -, hp⟩ := Micro.run_goesOn (hpre x List.mem_cons_self) (s.setPos (pre ++ [o]))
    · exact hdone (hbusy x _) hp (.inl hf)
    · exact hmore pre (hbusy x _) hp hpre' ho
    · refine hmore (x' :: pre) (hbusy x _) hp ?_ ho
      rintro y (_ | ⟨_, hy⟩)
      · exact hx'
      · exact hpre' y hy

theorem Lasts.elapse {s : State} (h : Lasts op s) (d : Nat) (hb : s.seq.busy = true) (hok : s.seqOk) (hw : s.seq.waitRem ≠ 0) :
    Lasts op (s.elapse d) := by
  obtain ⟨-, pre, o, hpos, hpre, ho⟩ | ⟨hidle, -⟩ := h
  swap
  · exact absurd hb (by simp [hidle])
  obtain ⟨n, rest, hp, -⟩ := hok.2.2 hw
  unfold State.elapse
  simp only
  split
  · cases pre with
    | nil => exact absurd (by simpa [hpos] using hp) fun h : o = .wait n ∧ _ => ho.2.1 n h.1
    | cons x pre =>
      rw [State.settle_busy _ (by simp [hpos])]
      exact .inl ⟨hb, pre, o, by simp [hpos], fun y hy => hpre y (List.mem_cons_of_mem _ hy), ho⟩
  · exact .inl ⟨hb, pre, o, hpos, hpre, ho⟩

/-- What the sequencer's steps, waits, edges and time keep while a command runs, a run keeps. -/
theorem runPlan_keeps_busy {P : State → Prop} (hplan : ∀ s as, P s → P (s.setPlan as))
    (hstep : ∀ s, s.seq.busy = true → s.seq.waitRem = 0 → P s → P s.seqStep)
    (helapse : ∀ s d, s.seq.busy = true → s.seq.waitRem ≠ 0 → P s → P (s.elapse d))
    (htime : ∀ s d, s.seq.busy = true → P s → P (s.addTime d))
    (hdrive : ∀ s p e, s.seq.busy = true → P s → P (s.driveExt p e)) {plan : List EnvAct} (hr : noReset plan) {s : State} (hs : P s) :
    P (runPlan plan s) := by
  refine runPlan_keeps hplan (fun s hb h => ?_) plan s (fun act hact s hb h => ?_) hs
  · unfold State.advance
    split
    · next h0 => exact hstep s hb h0 h
    · next h0 => exact helapse s _ hb h0 h
  · cases act with
    | turn =>
      simp only [EnvAct.apply, hb, Bool.true_and, decide_eq_true_eq]
      split
      · next h0 => exact hstep s hb h0 h
      · exact h
    | drive p e => exact hdrive s p e hb h
    | pass d =>
      simp only [EnvAct.apply, State.passTime, hb, if_true]
      split
      · split
        · exact htime s d hb h
        · exact h
      · next h0 => exact helapse s d hb h0 h
    | reset => exact absurd hact hr

theorem Lasts.runPlan (hop : op.Final) {plan : List EnvAct} (hr : noReset plan) {s : State} (h : Lasts op s) (hok : s.seqOk) :
    Lasts op (runPlan plan s) := by
  have hset (s : State) (as : List EnvAct) (h : Lasts op s) : Lasts op (s.setPlan as) := h
  have hkeep := State.seqOk_keptByRun
  exact (@runPlan_keeps_busy (fun s => Lasts op s ∧ s.seqOk) (fun s as h => ⟨hset s as h.1, hkeep.setPlan s as h.2⟩)
    (fun s hb h0 h => ⟨h.1.seqStep hop hb, hkeep.seqStep s hb h0 h.2⟩)
    (fun s d hb h0 h => ⟨h.1.elapse d hb h.2 h0, hkeep.elapse s d hb h0 h.2⟩)
    (fun s d hb h => ⟨h.1.congr rfl hb, hkeep.addTime s d h.2⟩)
    (fun s p e hb h => ⟨h.1.congr (s.driveExt_seq p e) hb, hkeep.driveExt s p e h.2⟩) _ hr _ ⟨h, hok⟩).1

/-- What a command's last micro-operation leaves, under every plan without a reset. -/
theorem exec_last (hop : op.Final) (pre : List Micro) {i : Instr} {gate : State → Bool} {ret : Ret} {s t : State} {w : View}
    (he : exec i s = command i gate (pre ++ [op]) ret s) (hs : s.ready) (hg : gate s = true) (hw : i.wf = true)
    (hpre : ∀ o ∈ pre, o.goesOn = true) (ht : exec i s = .next t) (hd : Done i s w t) (hret : w.ret ≠ .cfgFail) : LastRan op t := by
  obtain ⟨hidle, hreset⟩ := hs
  have hrun : t = (s.accept i (pre ++ [op]) ret).runOn := by
    rw [he, command_accepted i gate _ ret s hidle hg hw] at ht
    exact (Host.Outcome.next.inj ht).symm
  have hpos : (s.accept i (pre ++ [op]) ret).seq.pos = pre ++ [op] := by rw [State.accept, State.settle_pos]
  have hbusy : (s.accept i (pre ++ [op]) ret).seq.busy = true := by
    rw [State.accept, State.settle_busy _ (by simp)]
  have hlast : Lasts op t := by
    rw [hrun, State.runOn, State.accept_plan]
    exact Lasts.runPlan hop hreset (.inl ⟨hbusy, pre, op, hpos, hpre, hop.same⟩)
      (State.seqOk_congr (State.seqOk_accept i _ ret s) rfl)
  obtain ⟨hb, -⟩ | ⟨-, hf | hl⟩ := hlast
  · exact absurd hb (by simp [hd.busy])
  · have hr : w.ret = t.seq.ret := by rw [hd.like.seen]; rfl
    exact absurd (hr.trans hf) hret
  · exact hl

/-! ## `MBX_WAITCLR` -/

theorem Micro.final_flagClear (m : Mbx) : (Micro.spin (.flagClear m) false).Final where
  same := ⟨rfl, nofun, fun _ => rfl⟩
  run v hv := by
    cases hm : v.flag.get m with
    | true => exact .inr (.inl (by simp [Micro.run, SpinCond.eval, hm, hv]))
    | false =>
      refine .inr (.inr ⟨.spin (.flagClear m) true, ?_, rfl, nofun, fun _ => rfl⟩)
      simp [Micro.run, SpinCond.eval, hm, hv]

/-- A wait that consumes an event leaves the flag 0. -/
theorem LastRan.flagClear {m : Mbx} {s : State} (h : LastRan (.spin (.flagClear m) false) s) : s.flag.get m = false := by
  obtain ⟨v, hpos, -, hflag, -⟩ := h
  rw [hflag]
  cases hm : v.flag.get m with
  | true => simp [Micro.run, SpinCond.eval, hm]
  | false => simp [Micro.run, SpinCond.eval, hm] at hpos

/-- Settles O27. -/
theorem mbxWaitclr : Obligations.MbxWaitclr := by
  unfold Obligations.MbxWaitclr
  intro m s hs hm
  obtain ⟨t, ht, w, rfl, hd⟩ := exec_ends (.mbxWaitclr m) (fun w => w = (s.taken .ok).clear m) rfl hs rfl rfl (.flagClear hm (.done rfl))
  have hlast := exec_last (Micro.final_flagClear m) [] rfl hs rfl rfl nofun ht hd nofun
  refine ⟨t, ht, hd.words fun _ => rfl, hlast.flagClear, hd.flagsKeptBut fun k hk => ?_, hd.pinsKeptBut fun _ _ => rfl,
    ⟨hd.i2c, hd.spi, hd.uart⟩, hd.now, hd.acts⟩
  exact PerMbx.get_set_ne _ _ (by simpa using hk)

/-! ## A wait that never ends -/

/-- A step that moves a pin leaves the flags of the mailboxes its handler does not signal. -/
theorem Moved.flag_other {p : Pin} {r : PinRegs} {e : Ext} {s t : State} (h : Moved p r e s t) {m : Mbx}
    (hm : ∀ k, r.hnd = some k → k.mbx ≠ m) : t.flag.get m = s.flag.get m := by
  have hsilent {P : PerPin PinRegs} (h : handlerSilent P s.flag t) : t.flag.get m = s.flag.get m := by rw [h.2]
  unfold Moved at h
  dsimp only at h
  split at h
  · exact hsilent h
  · next k hk =>
    have hran {P : PerPin PinRegs} (h : handlerRan p k P s.flag t) : t.flag.get m = s.flag.get m := by
      rw [h.1, PerMbx.get_set_ne _ _ (fun he => hm k hk he.symm)]
    obtain ⟨hyes, hmaybe, hno⟩ := h
    by_cases h1 : edgeIs r.irq (lineOf (s.pins.get p) (s.env.ext.get p)) (lineOf r e)
    · exact hran (hyes h1)
    · by_cases h2 : edgeMaybe r.irq (lineOf (s.pins.get p) (s.env.ext.get p)) (lineOf r e)
      · exact (hmaybe h2).elim hran hsilent
      · exact hsilent (hno h1 h2)

/-- The block hangs in `MBX_WAITCLR m`, presented in `s0`. -/
structure Hangs (m : Mbx) (s0 s : State) : Prop where
  busy : s.seq.busy = true
  pos : ∃ again, s.seq.pos = [.spin (.flagClear m) again]
  waitRem : s.seq.waitRem = 0
  flag : s.flag.get m = false
  unheard : ∀ p h, (s.pins.get p).hnd = some h → h.mbx ≠ m
  pins : pinsKeptBut [] s0 s
  engines : enginesSame s0 s
  plan : s.env.plan = []
  res : s.env.res = s0.env.res
  cp : s.env.cp = s0.env.cp
  stream : s.env.stream = s0.env.stream
  cfg : s.cfg = s0.cfg

namespace Hangs

variable {m : Mbx} {s0 s : State}

/-- The wait looks at the flag again and goes on. -/
theorem eval (h : Hangs m s0 s) : (SpinCond.flagClear m).eval (s.setPos []) = (false, s.setPos []) := by
  simp [SpinCond.eval, h.flag]

/-- Where the wait stands after it has looked at the flag once more. -/
theorem again (h : Hangs m s0 s) : Hangs m s0 (s.setPos [.spin (.flagClear m) true]) :=
  ⟨h.busy, ⟨true, rfl⟩, h.waitRem, h.flag, h.unheard, h.pins, h.engines, h.plan, h.res, h.cp, h.stream, h.cfg⟩

theorem seqStep (h : Hangs m s0 s) : s.seqStep = s.setPos [.spin (.flagClear m) true] := by
  obtain ⟨again, hpos⟩ := h.pos
  have hrun : (Micro.spin (.flagClear m) again).run (s.setPos []) = s.setPos [.spin (.flagClear m) true] := by
    simp only [Micro.run, h.eval]
    rfl
  unfold State.seqStep
  rw [hpos]
  show ((Micro.spin (.flagClear m) again).run (s.setPos [])).settle = _
  rw [hrun, State.settle_busy _ (by simp)]

theorem drain (h : Hangs m s0 s) (n : Nat) : drain (n + 1) s = s.setPos [.spin (.flagClear m) true] := by
  have hadv : s.advance = s.setPos [.spin (.flagClear m) true] := by rw [State.advance, if_pos h.waitRem, h.seqStep]
  rw [Machine.drain, if_pos h.busy, hadv, if_pos (by simp [State.spinning])]

theorem driveExt (h : Hangs m s0 s) (p : Pin) (e : Ext) : Hangs m s0 (s.driveExt p e) := by
  have he := State.driveExt_edgeOnly p e s
  have hpins (q : Pin) := State.driveExt_pins p q e s
  refine ⟨by rw [he.seq, h.busy], by rw [he.seq]; exact h.pos, by rw [he.seq, h.waitRem], ?_, fun q k hk => ?_,
    fun q hq => (h.pins q hq).trans (hpins q), ?_, he.plan.trans h.plan, he.res.trans h.res, he.cp.trans h.cp,
    he.stream.trans h.stream, he.cfg.trans h.cfg⟩
  · rw [(driveExt_moved p e s).flag_other (h.unheard p), h.flag]
  · obtain ⟨-, -, -, -, hh | ⟨hn, -⟩⟩ := hpins q
    · exact h.unheard q k (hh.symm.trans hk)
    · rw [hn] at hk; cases hk
  · obtain ⟨h1, h2, h3⟩ := h.engines
    exact ⟨he.i2c.trans h1, he.spi.trans h2, he.uart.trans h3⟩

theorem act (h : Hangs m s0 s) {act : EnvAct} (hr : act ≠ .reset) : Hangs m s0 (act.apply s) := by
  cases act with
  | turn =>
    simp only [EnvAct.apply, h.busy, h.waitRem, Bool.true_and, decide_true, if_true]
    rw [h.seqStep]
    exact h.again
  | drive p e => exact h.driveExt p e
  | pass d =>
    simp only [EnvAct.apply, State.passTime, h.busy, h.waitRem, if_true]
    split
    · exact ⟨h.busy, h.pos, h.waitRem, h.flag, h.unheard, h.pins, h.engines, h.plan, h.res, h.cp, h.stream, h.cfg⟩
    · exact h
  | reset => exact absurd rfl hr

theorem runPlan {plan : List EnvAct} (h : Hangs m s0 s) (hr : noReset plan) :
    Hangs m s0 (runPlan plan s) ∧ (Machine.runPlan plan s).seq.pos = [.spin (.flagClear m) true] := by
  induction plan generalizing s with
  | nil =>
    rw [Machine.runPlan, State.drainFuel, h.drain]
    exact ⟨h.again, rfl⟩
  | cons act plan ih =>
    rw [Machine.runPlan, if_pos h.busy]
    refine ih (h.act ?_) fun hm => hr (List.mem_cons_of_mem _ hm)
    rintro rfl
    exact hr List.mem_cons_self

end Hangs

/-- Settles O28. -/
theorem waitHangs : Obligations.WaitHangs := by
  unfold Obligations.WaitHangs
  intro m s hs hf hh
  have hstart : Hangs m s ((s.accept (.mbxWaitclr m) [.spin (.flagClear m) false] .ok).setPlan []) :=
    ⟨rfl, ⟨false, rfl⟩, rfl, hf, hh, fun _ _ => pinKept.refl _, ⟨rfl, rfl, rfl⟩, rfl, rfl, rfl, rfl, rfl⟩
  obtain ⟨h, hpos⟩ := hstart.runPlan hs.2
  refine ⟨_, exec_ungated rfl rfl hs.1, ?_⟩
  rw [State.runOn, State.accept_plan]
  refine ⟨⟨h.busy, h.res, h.cp, h.stream, h.cfg⟩, h.flag, h.engines, h.pins, h.plan, ?_⟩
  generalize runPlan s.env.plan ((s.accept (.mbxWaitclr m) [.spin (.flagClear m) false] .ok).setPlan []) = t at h hpos
  have hplan : t.setPlan [] = t := by
    unfold State.setPlan
    rw [← h.plan]
  have hsame : t.setPos [.spin (.flagClear m) true] = t := by
    unfold State.setPos
    rw [← hpos]
  rw [stepRunsTheCommand.2 t h.busy, State.runOn, hplan, h.plan, Machine.runPlan, State.drainFuel, h.drain, hsame]

/-! ## `I2C_S_ACK` -/

/-- After `I2C_S_ACK`, the platform having answered `ok1` and `ok2`. -/
def View.slaveAck (hold : Nat) (ok1 ok2 : Bool) (w : View) : View :=
  (((((RegOp.sState .sendAck).eff (fun _ => 0) w).config .sda .output .none .none ok1).write .sda false).clear .mI2c |>.pass hold).config
    .sda .input .none .none ok2

/-- Settles O48. -/
theorem i2cSAck : Obligations.I2cSAck := by
  unfold Obligations.I2cSAck
  intro s hs hm hf
  obtain ⟨t, ht, w, ⟨ok1, ok2, hok, hw⟩, hd⟩ := exec_ends .i2cSAck (fun w => ∃ ok1 ok2, s.platformSays [ok1, ok2] ∧
    w = (s.taken .ok).slaveAck s.cfg.i2cTAckHold ok1 ok2) rfl hs ((gateI2cSlave_iff s).mpr hm) rfl
    (.reg nofun <| .pinCfg fun ok1 h1 => .pinSet <| .flag hf <| .mbxClear <| .wait <| .pinCfg fun ok2 h2 =>
      .done ⟨ok1, ok2, State.platformSays_two h1 h2, rfl⟩)
  simp only [View.slaveAck, View.write, View.config, View.clear, View.pass, RegOp.eff, State.taken, State.view, PerPin.set, PerPin.get] at hw
  subst hw
  have hflag (hq : s.quiet) : t.flag.get .mI2c = false :=
    (makes_flag_clear .mI2c [.wait s.cfg.i2cTAckHold, .pinCfg .sda .input .none .none .discarded] rfl).exec
      [.reg (.sState .sendAck), .pinCfg .sda .output .none .none .discarded, .pinSet .sda (.const false), .spin (.flag .mI2c) false]
      rfl hq ((gateI2cSlave_iff s).mpr hm) rfl (by simp [Micro.goesOn]) ht hd nofun
  refine ⟨t, ok1, ok2, ht, hok, hd.words fun _ => rfl, hd.acts, hd.now, hd.i2c, hd.spi, hd.uart, hd.like.pins .sda,
    hd.pinsKeptBut fun q hq => ?_, hd.flagsKeptBut fun k hk => ?_, hflag⟩
  · exact PerPin.get_eq_of_rest (by rfl) q hq
  · exact PerMbx.get_set_ne _ _ (by simpa using hk)

/-! ## `I2C_S_WSTART` -/

variable {a : Around} {K : View → Prop} {w : View} {rest : List Micro}

/-- A START is there already. -/
theorem Ends.startSeen (hm : w.flag.get .mI2c = true) (hs : a.still .scl) (hl : lineOf w.pins.scl (a.ext.get .scl) = .l1)
    (h : Ends a K rest (w.sample .scl true)) : Ends a K (.spin .startSeen false :: rest) w :=
  .step nofun (fun _ hx => ⟨rfl, hx.bit hs true hl, hm⟩) fun x hx => by
    have hbit : x.bit = true := hx.bit hs true hl
    rw [Micro.eff, hbit]
    exact h

/-- A spin-wait that finds its condition false, with nothing around it moving, goes on waiting. -/
theorem drain_stuck {c : SpinCond} {again : Bool} {s : State} (hb : s.seq.busy = true) (hw : s.seq.waitRem = 0)
    (hpos : s.seq.pos = .spin c again :: rest) (hc : (c.eval (s.setPos rest)).1 = false) (n : Nat) :
    drain (n + 1) s = (c.eval (s.setPos rest)).2.pushOp (.spin c true) := by
  have hrun : (Micro.spin c again).run (s.setPos rest) = (c.eval (s.setPos rest)).2.pushOp (.spin c true) := by
    simp only [Micro.run, hc, Bool.false_eq_true, if_false]
  have hadv : s.advance = (c.eval (s.setPos rest)).2.pushOp (.spin c true) := by
    rw [State.advance, if_pos hw, State.seqStep, hpos]
    show ((Micro.spin c again).run (s.setPos rest)).settle = _
    rw [hrun, State.settle_busy _ (by simp)]
  rw [drain, if_pos hb, hadv, if_pos (by simp [State.spinning])]

/-- Reading a line changes nothing but the draws and `TRACE`. -/
theorem State.afterRead_same (p : Pin) (s : State) : (s.afterRead p).cfg = s.cfg ∧ (s.afterRead p).pins = s.pins ∧
    (s.afterRead p).flag = s.flag ∧ (s.afterRead p).i2c = s.i2c ∧ (s.afterRead p).spi = s.spi ∧ (s.afterRead p).uart = s.uart ∧
    (s.afterRead p).env.now = s.env.now := by
  have he := s.dropX_edgeOnly
  unfold State.afterRead
  split
  · exact ⟨he.cfg, s.dropX_pins, s.dropX_flag, he.i2c, he.spi, he.uart, he.now⟩
  · exact ⟨rfl, rfl, rfl, rfl, rfl, rfl, rfl⟩

/-- `I2C_S_WSTART` of an idle block, about to look for a START. -/
def State.awaitingStart (s : State) : State :=
  { (s.started .i2cSWstart .ok).setPlan [] with
    i2c := { s.i2c with sState := .idleMonitor }
    seq := { (s.started .i2cSWstart .ok).seq with pos := i2cSWstartProg.tail } }

/-- Settles O46. -/
theorem i2cSWstart : Obligations.I2cSWstart := by
  unfold Obligations.I2cSWstart
  intro s hs hm
  refine ⟨fun hf hl hstill hc => ?_, fun hq hwait => ?_⟩
  · obtain ⟨l, hl'⟩ := State.cfgSucceeds_split hc
    have h1 : s.env.cfgOutcomes.head? = some true := by simp [hl']
    have h2 : s.env.cfgOutcomes.tail.head? = some true := by simp [hl']
    have h3 : s.env.cfgOutcomes.tail.tail.head? = some true := by simp [hl']
    obtain ⟨t, ht, w, hw, hd⟩ := exec_ends .i2cSWstart (fun w => w = _) rfl hs ((gateI2cSlave_iff s).mpr hm) rfl
      (.reg nofun <| .startSeen hf hstill hl <| .irqUnreg <| .pinCfg_ok _ h1 <| .pinCfg_ok _ h2 <| .irqReg_ok _ h3 <| .mbxClear <|
        .reg nofun <| .done rfl)
    simp only [View.config, View.register, View.unregister, View.sample, View.clear, RegOp.eff, State.taken, State.view, PerPin.set,
      PerPin.get, if_true] at hw
    subst hw
    have hflag (hq : s.quiet) : t.flag.get .mI2c = false :=
      (makes_flag_clear .mI2c [.reg (.sState .startDetected)] rfl).exec
        [.reg (.sState .idleMonitor), .spin .startSeen false, .irqUnreg .sda, .pinCfg .sda .input .none .none .discarded,
          .pinCfg .scl .input .none .rising .discarded, .irqReg .scl .mI2c false .discarded]
        rfl hq ((gateI2cSlave_iff s).mpr hm) rfl (by simp [Micro.goesOn]) ht hd nofun
    refine ⟨t, ht, hd.words fun _ => rfl, hd.acts, hd.i2c, hd.spi, hd.uart, (hd.like.pins .sda).eq_of_not_once nofun,
      (hd.like.pins .scl).eq_of_not_once ?_, hd.pinsKeptBut fun q hq => ?_, hd.flagsKeptBut fun k hk => ?_, hflag, hd.now⟩
    · rintro _ ⟨⟩; rfl
    · exact PerPin.get_eq_of_rest (by rfl) q hq
    · exact PerMbx.get_set_ne _ _ (by simpa using hk)
  · obtain ⟨hidle, hplan⟩ := hq
    have hexec := (rfl : exec .i2cSWstart s = command .i2cSWstart gateI2cSlave i2cSWstartProg .ok s).trans
      (command_accepted _ _ _ _ s hidle ((gateI2cSlave_iff s).mpr hm) rfl)
    have hrun : (s.accept .i2cSWstart i2cSWstartProg .ok).runOn = drain 17 s.awaitingStart := by
      rw [State.runOn, State.accept_plan, hplan]
      rfl
    have hfalse : (SpinCond.startSeen.eval (s.awaitingStart.setPos (i2cSWstartProg.drop 2))).1 = false := by
      obtain hf | hl := hwait
      · have hf' : s.awaitingStart.flag.get .mI2c = false := hf
        simp [SpinCond.eval, hf']
      · have hline : (s.awaitingStart.setPos (i2cSWstartProg.drop 2)).line .scl = .l0 := by rw [State.line_eq]; exact hl
        simp [SpinCond.eval, State.readLevel, hline]
    rw [hrun, drain_stuck rfl rfl rfl hfalse] at hexec
    have hread := State.afterRead_ran .scl (Like.refl (s.awaitingStart.setPos (i2cSWstartProg.drop 2)))
    obtain ⟨hcfg, hpins, hflag, hi2c, hspi, huart, hnow⟩ :=
      State.afterRead_same .scl (s.awaitingStart.setPos (i2cSWstartProg.drop 2))
    exact ⟨_, hexec, ⟨hread.busy, hread.res, hread.cp, hread.stream, hcfg⟩, hpins, hflag, hi2c, hspi, huart, hnow⟩

/-! ## `I2C_S_WSTOP` with the clock low -/

/-- A pass that finds the clock low ends the loop. -/
theorem Ends.stopPass_low {k : Nat} (hs : a.still .scl) (hl : lineOf w.pins.scl (a.ext.get .scl) = .l0)
    (h : Ends a K (rest.drop k) { w.sample .scl false with tmp := false }) : Ends a K (.stopPass k false :: rest) w := by
  have hbit {x : Input} (hx : a.allows w (.stopPass k false) x) : x.bit = false := hx.bit hs false hl
  refine .step nofun (fun x hx => ⟨rfl, by simp [hbit hx]⟩) fun x hx => ?_
  rw [Micro.eff, Micro.next, hbit hx]
  exact h

/-- While a quiet block runs `I2C_S_WSTOP`: it is yet to clear the mailbox, or the mailbox is clear and stays so. -/
def StopWatch (s : State) : Prop :=
  (s.seq.ret = .cfgFail ∧ s.seq.pos = []) ∨
  (∃ pre, s.seq.pos = pre ++ .mbxClear .mI2c :: .stopPass i2cSStopSeen.length false :: i2cSStopSeen ∧ ∀ o ∈ pre, o.goesOn = true) ∨
  (s.flag.get .mI2c = false ∧ (s.seq.pos = [] ∨ ∃ again, s.seq.pos = .stopPass i2cSStopSeen.length again :: i2cSStopSeen))

theorem StopWatch.settle {s : State} (h : StopWatch s) : StopWatch s.settle := by
  have hp : s.settle.seq.pos = s.seq.pos := State.settle_pos s
  unfold StopWatch
  rw [hp]
  unfold State.settle
  split <;> exact h

theorem StopWatch.stopPass {s : State} (hf : s.flag.get .mI2c = false) (again : Bool) :
    StopWatch ((Micro.stopPass i2cSStopSeen.length again).run (s.setPos i2cSStopSeen)) := by
  obtain ⟨-, -, hflag, -⟩ := State.afterRead_same .scl (s.setPos i2cSStopSeen)
  have hf' : ((s.setPos i2cSStopSeen).afterRead .scl).flag.get .mI2c = false := by rw [hflag]; exact hf
  have hs : (s.setPos i2cSStopSeen).flag.get .mI2c = false := hf
  simp only [Micro.run, hs]
  refine .inr (.inr ?_)
  split
  · exact ⟨hf', .inr ⟨true, by simp⟩⟩
  · exact ⟨hf', .inl (by simp)⟩

theorem StopWatch.seqStep {s : State} (h : StopWatch s) : StopWatch s.seqStep := by
  unfold State.seqStep
  split
  · exact h.settle
  · next o rest hpos =>
    refine StopWatch.settle ?_
    obtain ⟨-, hnil⟩ | ⟨pre, hpre, hgo⟩ | ⟨hf, hnil | ⟨again, hp⟩⟩ := h
    · simp [hnil] at hpos
    · rw [hpre] at hpos
      cases pre with
      | nil =>
        obtain ⟨rfl, rfl⟩ := by simpa using hpos
        exact .inr (.inr ⟨by simp [Micro.run], .inr ⟨false, rfl⟩⟩)
      | cons x pre =>
        obtain ⟨rfl, rfl⟩ := by simpa using hpos
        have hgo' : ∀ o ∈ pre, o.goesOn = true := fun o ho => hgo o (List.mem_cons_of_mem _ ho)
        obtain hfail | hp | ⟨o', ho', -, hp⟩ := Micro.run_goesOn (hgo x List.mem_cons_self)
          (s.setPos (pre ++ .mbxClear .mI2c :: .stopPass i2cSStopSeen.length false :: i2cSStopSeen))
        · exact .inl hfail
        · exact .inr (.inl ⟨pre, hp, hgo'⟩)
        · exact .inr (.inl ⟨o' :: pre, hp, List.forall_mem_cons.mpr ⟨ho', hgo'⟩⟩)
    · simp [hnil] at hpos
    · rw [hp] at hpos
      obtain ⟨rfl, rfl⟩ := by simpa using hpos
      exact .stopPass hf again

theorem StopWatch.elapse {s : State} (h : StopWatch s) (d : Nat) (hok : s.seqOk) (hw : s.seq.waitRem ≠ 0) :
    StopWatch (s.elapse d) := by
  obtain ⟨n, rest, hpos, -⟩ := hok.2.2 hw
  unfold State.elapse
  simp only
  split
  · refine StopWatch.settle ?_
    obtain ⟨-, hnil⟩ | ⟨pre, hpre, hgo⟩ | ⟨-, hnil | ⟨again, hp⟩⟩ := h
    · simp [hnil] at hpos
    · cases pre with
      | nil => simp [hpre] at hpos
      | cons x pre => exact .inr (.inl ⟨pre, by simp [hpre], fun o ho => hgo o (List.mem_cons_of_mem _ ho)⟩)
    · simp [hnil] at hpos
    · simp [hp] at hpos
  · exact h

/-- Settles O50. -/
theorem i2cSWstopNoStop : Obligations.I2cSWstopNoStop := by
  unfold Obligations.I2cSWstopNoStop
  intro s hs hm hdir he hstill hc
  obtain ⟨l, hl⟩ := State.cfgSucceeds_split hc
  have h1 : s.env.cfgOutcomes.head? = some true := by simp [hl]
  have h2 : s.env.cfgOutcomes.tail.head? = some true := by simp [hl]
  have h3 : s.env.cfgOutcomes.tail.tail.head? = some true := by simp [hl]
  have hlow (r : PinRegs) : lineOf (r.withCfg true .input .none .none) (s.around.ext.get .scl) = .l0 := by
    rw [show s.around.ext.get .scl = .d0 from he]; rfl
  have hgate : gateI2cSlave s = true := (gateI2cSlave_iff s).mpr hm
  obtain ⟨t, ht, w, hw, hd⟩ := exec_ends .i2cSWstop (fun w => w = _) rfl hs hgate rfl
    (.reg nofun <| .irqUnreg <| .pinCfg_ok _ h1 <| .pinCfg_ok _ h2 <| .irqReg_ok _ h3 <| .mbxClear <|
      .stopPass_low hstill (hlow _) <| .done rfl)
  simp only [View.config, View.register, View.unregister, View.sample, View.clear, RegOp.eff, State.taken, State.view, PerPin.set,
    PerPin.get, if_true] at hw
  subst hw
  have hflag (hq : s.quiet) : t.flag.get .mI2c = false := by
    obtain ⟨hidle, hplan⟩ := hq
    have hrun : t = (s.accept .i2cSWstop i2cSWstopProg .bit).runOn :=
      (Host.Outcome.next.inj (((command_accepted _ _ _ _ s hidle hgate rfl).symm.trans rfl).trans ht)).symm
    have hkeep : StopWatch t ∧ t.seqOk := by
      rw [hrun, State.runOn, State.accept_plan, hplan]
      refine @drain_keeps (fun u => StopWatch u ∧ u.seqOk) (fun u hb hu => ⟨?_, State.seqOk_keptByRun.advance u hb hu.2⟩) _ _ ⟨?_, ?_⟩
      · unfold State.advance
        split
        · exact hu.1.seqStep
        · next hw => exact hu.1.elapse _ hu.2 hw
      · exact .inr (.inl ⟨i2cSWstopProg.take 5, rfl, by simp [i2cSWstopProg, Micro.goesOn]⟩)
      · exact State.seqOk_congr (State.seqOk_accept .i2cSWstop i2cSWstopProg .bit s) rfl
    obtain ⟨hfail, -⟩ | ⟨pre, hp, -⟩ | ⟨hf, -⟩ := hkeep.1
    · exact absurd ((congrArg View.ret hd.like.seen).trans hfail) nofun
    · exact absurd (hp.symm.trans hd.pos) (by simp)
    · exact hf
  refine ⟨t, ht, hd.words fun _ => congrArg (· :: []) (resultWord_ok _), hd.acts, hd.i2c, hd.spi, hd.uart,
    (hd.like.pins .scl).eq_of_not_once nofun, (hd.like.pins .sda).eq_of_not_once ?_, hd.pinsKeptBut fun q hq => ?_, hd.flagsKeptBut fun k hk => ?_, hflag, hd.now⟩
  · rintro _ ⟨⟩; rfl
  · exact PerPin.get_eq_of_rest (by rfl) q hq
  · exact PerMbx.get_set_ne _ _ (by simpa using hk)

end Sys2Proof.Machine
end

section
/-! One frame of the UART receiver. -/

namespace Sys2Proof.Machine

variable {a : Around} {K : View → Prop} {w : View} {rest : List Micro}

namespace View

/-- After one data bit of `UART_RX_FRAME`, which reads `b`. -/
def rxBit (B : Nat) (w : View) (i : Fin 8) (b : Bool) : View :=
  { w with
    uart := { w.uart with rxsh := setBit w.uart.rxsh i b, bitcnt := w.uart.bitcnt - 1 }
    now := w.now + B
    samples := { w.samples with rx := (w.now + B, b) :: w.samples.rx } }

theorem foldl_rxBit (B : Nat) (v : Byte) (w : View) : lsbFirst.foldl (fun w i => rxBit B w i (bitOf v i)) w =
    { w with
      uart := { w.uart with rxsh := v, bitcnt := w.uart.bitcnt - 8 }
      now := w.now + 8 * B
      samples := { w.samples with rx := (lsbSamples B (w.now + B) v).reverse ++ w.samples.rx } } := by
  have hshift := lsbFirst_setBits w.uart.rxsh v
  simp only [lsbFirst, List.foldl_cons, List.foldl_nil] at hshift
  simp [lsbFirst, rxBit, lsbSamples, range8, eight_steps, hshift]
  simp [bitOf]
  omega

/-- When the stop bit has been sampled: `v` came in, and the stop bit reads `stop`. -/
def heard (B Hb : Nat) (v : Byte) (stop : Bool) (w : View) : View :=
  { w with
    uart := { w.uart with rxsh := v, bitcnt := 0 }
    tmp := stop
    now := w.now + Hb + 9 * B
    flag := w.flag.set .mUart false
    samples := { w.samples with
      rx := (w.now + Hb + 9 * B, stop) :: (lsbSamples B (w.now + Hb + B) v).reverse ++ w.samples.rx } }

/-- After the frame, `free` being the bytes of the entries nothing has written and `ok` the platform's answer to the re-arming. -/
def framed (B Hb : Nat) (v : Byte) (stop : Bool) (free : Nat → Byte) (ok : Bool) (w : View) : View :=
  (RegOp.rxStop.eff free (w.heard B Hb v stop)).register .rx .mUart true ok

end View

theorem Ends.rxBit (c : Config.Params) (i : Fin 8) (rest : List Micro) (w : View)
    (h : ∀ b, a.reads .rx w.pins.rx b → Ends a K rest (w.rxBit c.uartTBit i b)) : Ends a K (uartRxBit c i ++ rest) w :=
  .wait <| .sample fun b hb => .reg nofun <| h b hb

theorem Ends.rxFrame {c : Config.Params} (hm : w.flag.get .mUart = true)
    (h : ∀ v stop free ok, (∀ b, w.answers.head? = some b → ok = b) →
      Ends a K rest (w.framed c.uartTBit c.uartTHalf v stop free ok)) : Ends a K (uartRxFrameProg c ++ rest) w := by
  unfold uartRxFrameProg
  rw [List.append_assoc, List.append_assoc]
  refine .flagClear hm <| .wait <| .reg nofun <| .flatMap_bits (View.rxBit c.uartTBit) (fun w b => a.reads .rx w.pins.rx b)
    (fun _ _ _ _ h => h) (Ends.rxBit c) (by decide) fun v _ => ?_
  rw [View.foldl_rxBit]
  refine .wait <| .sample fun stop _ => .rxStop fun free => .irqReg fun ok hok => .of_eq (h v stop free ok hok) ?_
  refine congrArg (fun w : View => (RegOp.rxStop.eff free w).register .rx .mUart true ok) ?_
  simp only [View.heard, View.clear, View.pass, View.sample, View.store, RegOp.eff, PerPin.set, PerPin.get, View.mk.injEq, true_and,
    and_true, BitVec.sub_self, PerPin.mk.injEq, List.cons_append, List.cons.injEq, Prod.mk.injEq]
  simp
  omega

/-! ## The buffer -/

/-- From `u` to `u'` the receiver took the byte `v` with the stop bit `stop`, the buffer having `cap` entries. -/
structure Uart.Took (cap : Nat) (v : Byte) (stop : Bool) (u u' : Uart) : Prop where
  others : ∀ j, j ≠ u.rxIdx → Memory.read? u'.rxBuf j = Memory.read? u.rxBuf j
  entry : Memory.read? u'.rxBuf u.rxIdx = if stop then some v else Memory.read? u.rxBuf u.rxIdx
  index : u'.rxIdx = if stop = true ∧ u.rxIdx + 1 < cap then u.rxIdx + 1 else 0
  rxsh : u'.rxsh = v
  bitcnt : u'.bitcnt = 0
  txsh : u'.txsh = u.txsh
  txRdy : u'.txRdy = u.txRdy
  rxRdy : u'.rxRdy = u.rxRdy

theorem View.framed_took (B Hb : Nat) (v : Byte) (stop : Bool) (free : Nat → Byte) (ok : Bool) (h : w.uart.rxIdx < w.cfg.rxCap) :
    Uart.Took w.cfg.rxCap v stop w.uart (w.framed B Hb v stop free ok).uart := by
  have hu : (w.framed B Hb v stop free ok).uart = (w.heard B Hb v stop).rxUart := rfl
  have hcap : (w.heard B Hb v stop).cfg = w.cfg := rfl
  have hidx : (w.heard B Hb v stop).uart.rxIdx = w.uart.rxIdx := rfl
  rw [hu]
  unfold View.rxUart
  rw [hcap, hidx, if_pos h]
  cases stop with
  | true =>
    refine ⟨fun j hj => Memory.read_write_other _ _ hj, Memory.read_write_same _ _ _, ?_, rfl, rfl, rfl, rfl, rfl⟩
    show (if w.uart.rxIdx + 1 = w.cfg.rxCap then 0 else w.uart.rxIdx + 1) = _
    split
    · next heq => rw [if_neg (by omega)]
    · next hne => rw [if_pos ⟨rfl, by omega⟩]
  | false => exact ⟨fun _ _ => rfl, rfl, rfl, rfl, rfl, rfl, rfl, rfl⟩

/-- The flush report of a full buffer is what it holds. -/
theorem View.framed_report (B Hb : Nat) (v : Byte) (stop : Bool) (free : Nat → Byte) (ok : Bool) (h : w.uart.rxIdx < w.cfg.rxCap)
    (hf : ∀ j, j < w.uart.rxIdx → (Memory.read? w.uart.rxBuf j).isSome = true) :
    ∃ bs, (w.framed B Hb v stop free ok).reports = bs.reverse ++ w.reports ∧
      if stop = true ∧ w.uart.rxIdx + 1 = w.cfg.rxCap ∧ w.cfg.rxPolicy = .flush then
        bs.length = w.cfg.rxCap ∧ ∀ j, j < w.cfg.rxCap → Memory.read? (w.framed B Hb v stop free ok).uart.rxBuf j = bs[j]?
      else bs = [] := by
  have htook := View.framed_took B Hb v stop free ok h
  refine ⟨(w.heard B Hb v stop).rxReport free, rfl, ?_⟩
  unfold View.rxReport
  show if stop = true ∧ w.uart.rxIdx + 1 = w.cfg.rxCap ∧ w.cfg.rxPolicy = .flush then _ else _
  split
  · next hfull =>
    have hcond : (w.heard B Hb v stop).tmp = true ∧ (w.heard B Hb v stop).uart.rxIdx + 1 = (w.heard B Hb v stop).cfg.rxCap ∧
      (w.heard B Hb v stop).cfg.rxPolicy = .flush := hfull
    obtain ⟨rfl, hidx, -⟩ := hfull
    rw [if_pos hcond]
    refine ⟨by simp; rfl, fun j hj => ?_⟩
    have hsome : (Memory.read? (w.framed B Hb v true free ok).uart.rxBuf j).isSome = true := by
      by_cases hj' : j = w.uart.rxIdx
      · rw [hj', htook.entry]; rfl
      · rw [htook.others j hj']; exact hf j (by omega)
    obtain ⟨b, hb⟩ := Option.isSome_iff_exists.mp hsome
    have hb' : Memory.read? (w.heard B Hb v true).rxUart.rxBuf j = some b := hb
    have hj' : j < (w.heard B Hb v true).cfg.rxCap := hj
    rw [hb, List.getElem?_map, List.getElem?_range hj', Option.map_some, hb']
    rfl
  · next hfull =>
    have hcond : ¬((w.heard B Hb v stop).tmp = true ∧ (w.heard B Hb v stop).uart.rxIdx + 1 = (w.heard B Hb v stop).cfg.rxCap ∧
      (w.heard B Hb v stop).cfg.rxPolicy = .flush) := hfull
    rw [if_neg hcond]

/-! ## The re-arming -/

theorem Micro.irqReg_run_pos (p : Pin) (m : Mbx) (os : Bool) (v : State) :
    ((Micro.irqReg p m os .discarded).run v).seq.pos = v.seq.pos := by
  simp only [Micro.run, State.irqReg]
  split <;> simp [State.onConfigFailure]

theorem Micro.final_irqReg (p : Pin) (m : Mbx) (os : Bool) : (Micro.irqReg p m os .discarded).Final where
  same := ⟨rfl, nofun, fun _ => rfl⟩
  run v hv := .inr (.inl (by rw [Micro.irqReg_run_pos, hv]))

/-- A re-arming that ends a command and succeeds leaves its handler in place. -/
theorem LastRan.irqReg {p : Pin} {m : Mbx} {os : Bool} {s : State} (h : LastRan (.irqReg p m os .discarded) s) {n : Nat}
    {l : List (Nat × Event)} (ha : pinActs s.env.trace = (n, .handlerReg p m os true) :: l) :
    (s.pins.get p).hnd = some { mbx := m, once := os } := by
  obtain ⟨v, -, hpins, -, hacts⟩ := h
  have hran := Micro.irqReg_ran p m os .discarded (Like.refl v) (rfl : (⟨false, v.cfgAnswer, fun _ => 0⟩ : Input).ok = v.cfgAnswer)
  have hv := congrArg View.acts hran.like.seen
  have hok : v.cfgAnswer = true := by
    have h1 : pinActs ((Micro.irqReg p m os .discarded).run v).env.trace = (v.env.now, .handlerReg p m os v.cfgAnswer) :: pinActs v.env.trace := by
      refine (hv.symm.trans ?_)
      cases hans : v.cfgAnswer <;> rfl
    rw [hacts, h1] at ha
    have hev := congrArg Prod.snd (List.cons.inj ha).1
    simpa using hev
  rw [hpins]
  simp only [Micro.run, State.irqReg, hok]
  simp

/-- Settles O58. -/
theorem uartRxFrame : Obligations.UartRxFrame := by
  unfold Obligations.UartRxFrame
  intro s hs hinv hrdy hf
  obtain ⟨-, ⟨-, -, hfill, hidx⟩, -⟩ := hinv
  obtain ⟨t, ht, w, ⟨v, stop, free, ok, hok, rfl⟩, hd⟩ := exec_ends .uartRxFrame (fun w => ∃ v stop free ok, s.platformSays [ok] ∧
    w = (s.taken .ok).framed s.cfg.uartTBit s.cfg.uartTHalf v stop free ok) rfl hs hrdy rfl
    (.all (.rxFrame hf fun v stop free ok hok => .done ⟨v, stop, free, ok, State.platformSays_one hok, rfl⟩))
  have htook : Uart.Took s.cfg.rxCap v stop s.uart t.uart := by
    rw [hd.uart]
    exact @View.framed_took (s.taken .ok) s.cfg.uartTBit s.cfg.uartTHalf v stop free ok hidx
  obtain ⟨bs, hbs, hreport⟩ := @View.framed_report (s.taken .ok) s.cfg.uartTBit s.cfg.uartTHalf v stop free ok hidx hfill
  rw [← hd.uart] at hreport
  have hpin (q : Pin) : ((s.taken .ok).framed s.cfg.uartTBit s.cfg.uartTHalf v stop free ok).pins.get q =
      if q = .rx ∧ ok = true then (s.pins.get .rx).withHnd (some { mbx := .mUart, once := true }) else s.pins.get q := by
    cases ok <;> cases q <;> rfl
  have hlast := exec_last (Micro.final_irqReg .rx .mUart true) ((uartRxFrameProg s.cfg).dropLast) rfl hs hrdy rfl (by
    simp [uartRxFrameProg, lsbFirst, uartRxBit, Micro.goesOn]) ht hd nofun
  refine ⟨t, v, stop, ok, ht, hok, hd.words fun _ => rfl, ?_, hd.now, htook.rxsh, htook.bitcnt, htook.txsh, htook.txRdy, htook.rxRdy,
    htook.others, htook.entry, htook.index, ⟨bs, hd.reports.trans hbs, hreport⟩, ?_, ?_, hd.i2c, hd.spi,
    hd.pinsKeptBut fun q hq => ?_, hd.flagsKeptBut fun k hk => ?_, hd.writes, hd.notes⟩
  · rw [Sampled, hd.samples, List.reverse_append]
    rfl
  · have hk := hd.like.pins .rx
    rw [hpin] at hk
    cases ok <;> exact hk
  · rintro rfl
    exact hlast.irqReg hd.acts
  · rw [hpin, if_neg (by simp at hq; simp [hq])]
  · exact PerMbx.get_set_ne _ _ (by simpa using hk)

end Sys2Proof.Machine
end

section
/-! A command against a peer: the acts of the plan and the micro-operations of the command interleave in a known way. `Plays C as pos e w`
says that from every state like the view `w`, the lines driven with `e`, with `pos` left to run and the acts `as` to come, the run ends
where `C` holds. One rule for each act. -/

namespace Sys2Proof.Machine

/-! ## What is known exactly -/

/-- Edges have done nothing to the pins of `P` and the flags of `M` that the view does not say. -/
structure Known (P : Pin → Prop) (M : Mbx → Prop) (w : View) (s : State) : Prop where
  pins : ∀ q, P q → s.pins.get q = w.pins.get q
  flags : ∀ m, M m → s.flag.get m = w.flag.get m

/-- The step from the registers `r` under the drive `e` to `r'` under `e'` is no edge the pin is armed for, or finds no handler. -/
def Silent (r : PinRegs) (e : Ext) (r' : PinRegs) (e' : Ext) : Prop :=
  r'.hnd = none ∨ edgeMatch r'.irq (lineOf r e) (lineOf r' e') = .no

variable {P : Pin → Prop} {M : Mbx → Prop} {w : View} {s : State}

/-- A step of a pin that is silent for the view is silent for a state like it. -/
theorem Moved.silent {p : Pin} {r r' : PinRegs} {e : Ext} {t : State} (h : Moved p r e s t) (hw : pinKept (w.pins.get p) (s.pins.get p))
    (hr : pinKept r' r) (hs : Silent (w.pins.get p) (s.env.ext.get p) r' e) : t.pins = s.pins.set p r ∧ t.flag = s.flag := by
  have hline {a b : PinRegs} (h : pinKept a b) (e : Ext) : lineOf b e = lineOf a e := by
    obtain ⟨hdir, hpull, -, hlat, -⟩ := h
    unfold lineOf
    rw [hdir, hpull, hlat]
  obtain ⟨-, -, hirq, -, hhnd⟩ := id hr
  unfold Moved at h
  dsimp only at h
  rw [hline hw, hline hr, hirq] at h
  obtain hn | hno := hs
  · have hnone : r.hnd = none := by
      obtain hh | ⟨hh, -⟩ := hhnd
      · rw [hh, hn]
      · exact hh
    rw [hnone] at h
    exact h
  · split at h
    · exact h
    · refine h.2.2 (fun hyes => ?_) fun hmaybe => ?_
      · rw [(edgeMatch_yes _ _ _).mpr hyes] at hno; cases hno
      · rw [(edgeMatch_free _ _ _).mpr hmaybe] at hno; cases hno

/-- Something is known exactly of a step of pin `p`. -/
def Watched (P : Pin → Prop) (M : Mbx → Prop) (p : Pin) : Prop := P p ∨ ∃ m, M m

/-- A micro-operation that moves a pin makes no edge, as far as something is known exactly. -/
def Micro.silent (P : Pin → Prop) (M : Mbx → Prop) (e : PerPin Ext) (w : View) : Micro → Prop
  | .pinSet p v => Watched P M p → Silent (w.pins.get p) (e.get p) ((w.pins.get p).withLat (w.outBit v)) (e.get p)
  | .pinCfg p d pl ir _ => Watched P M p → Silent (w.pins.get p) (e.get p) ((w.pins.get p).withCfg true d pl ir) (e.get p)
  | _ => True

/-- What happens to the pins and the flags, seen from the view. -/
theorem Known.of_eq {v : View} {t : State} (h : Known P M w s) (p : Pin) (f : PinRegs → PinRegs)
    (hv : v.pins = w.pins.set p (f (w.pins.get p)) ∧ v.flag = w.flag)
    (ht : t.pins = s.pins.set p (f (s.pins.get p)) ∧ t.flag = s.flag) : Known P M v t := by
  obtain ⟨hvp, hvf⟩ := hv
  obtain ⟨htp, htf⟩ := ht
  refine ⟨fun q hq => ?_, fun m hm => by rw [htf, hvf, h.flags m hm]⟩
  rw [htp, hvp, PerPin.get_set, PerPin.get_set]
  split
  · next hqp => rw [← hqp, h.pins q hq]
  · exact h.pins q hq

theorem Known.congr {v : View} {t : State} (h : Known P M w s) (hv : v.pins = w.pins ∧ v.flag = w.flag)
    (ht : t.pins = s.pins ∧ t.flag = s.flag) : Known P M v t :=
  ⟨fun q hq => by rw [ht.1, hv.1, h.pins q hq], fun m hm => by rw [ht.2, hv.2, h.flags m hm]⟩

/-- A step that moves a pin leaves the others. -/
theorem Moved.other {p q : Pin} {r : PinRegs} {e : Ext} {t : State} (h : Moved p r e s t) (hq : q ≠ p) :
    t.pins.get q = s.pins.get q := by
  have hsilent (h : handlerSilent (s.pins.set p r) s.flag t) : t.pins.get q = s.pins.get q := by rw [h.1, PerPin.get_set_ne _ _ hq]
  unfold Moved at h
  dsimp only at h
  split at h
  · exact hsilent h
  · next k hk =>
    have hran (h : handlerRan p k (s.pins.set p r) s.flag t) : t.pins.get q = s.pins.get q := by
      rw [h.2]
      split <;> simp [PerPin.get_set_ne _ _ hq]
    obtain ⟨hyes, hmaybe, hno⟩ := h
    by_cases h1 : edgeIs r.irq (lineOf (s.pins.get p) (s.env.ext.get p)) (lineOf r e)
    · exact hran (hyes h1)
    · by_cases h2 : edgeMaybe r.irq (lineOf (s.pins.get p) (s.env.ext.get p)) (lineOf r e)
      · exact (hmaybe h2).elim hran hsilent
      · exact hsilent (hno h1 h2)

/-- A pin's registers replaced, silently. -/
theorem Known.move {v : View} {t : State} (h : Known P M w s) (hl : Like w s) (p : Pin) (f : PinRegs → PinRegs)
    (hf : ∀ a b, pinKept a b → pinKept (f a) (f b)) (hmoved : Moved p (f (s.pins.get p)) (s.env.ext.get p) s t)
    (hs : Watched P M p → Silent (w.pins.get p) (s.env.ext.get p) (f (w.pins.get p)) (s.env.ext.get p))
    (hv : v.pins = w.pins.set p (f (w.pins.get p)) ∧ v.flag = w.flag) : Known P M v t := by
  by_cases hw : Watched P M p
  · exact h.of_eq p f hv (hmoved.silent (hl.pins p) (hf _ _ (hl.pins p)) (hs hw))
  · refine ⟨fun q hq => ?_, fun m hm => absurd (.inr ⟨m, hm⟩) hw⟩
    have hne : q ≠ p := by rintro rfl; exact hw (.inl hq)
    rw [hmoved.other hne, hv.1, PerPin.get_set_ne _ _ hne, h.pins q hq]

/-- What is known exactly stays so. -/
theorem Known.run (op : Micro) (hk : Known P M w s) (hl : Like w s) {x : Input} (hbit : x.bit = s.readLevel op.reads)
    (hok : x.ok = s.cfgAnswer) (hw : ∀ n, op ≠ .wait n) (hr : op.ready w x.bit) (hs : op.silent P M s.env.ext w) :
    Known P M (op.eff x w) (op.run s) := by
  have hread (p : Pin) : (s.afterRead p).pins = s.pins ∧ (s.afterRead p).flag = s.flag := by
    obtain ⟨-, hp, hf, -⟩ := s.afterRead_same p
    exact ⟨hp, hf⟩
  have hstored (d : Dest) (b : Bool) (v : View) (t : State) : (v.store b d).pins = v.pins ∧ (v.store b d).flag = v.flag ∧
      (d.store b t).pins = t.pins ∧ (d.store b t).flag = t.flag := by cases d <;> exact ⟨rfl, rfl, rfl, rfl⟩
  have hclear (m : Mbx) : Known P M (w.clear m) (s.clearFlag m) := by
    refine ⟨hk.pins, fun k hkm => ?_⟩
    simp only [View.clear, State.clearFlag_flag, PerMbx.get_set, hk.flags k hkm]
  cases op with
  | reg r =>
    have hv : (r.eff x.free w).pins = w.pins ∧ (r.eff x.free w).flag = w.flag := by
      cases r <;> first | exact ⟨rfl, rfl⟩ | (simp only [RegOp.eff]; split <;> exact ⟨rfl, rfl⟩)
    exact hk.congr hv (Within.reg_pins r s)
  | pinSet p v =>
    have hmoved : Moved p ((s.pins.get p).withLat (w.outBit v)) (s.env.ext.get p) s (s.pinSet p (w.outBit v)) := movePin_moved rfl rfl rfl
    rw [Micro.run, hl.outBit]
    exact hk.move hl p (fun r => r.withLat (w.outBit v)) (fun _ _ h => h.withLat _) hmoved hs ⟨rfl, rfl⟩
  | pinCfg p d pl ir use =>
    have hv : (Micro.eff x w (.pinCfg p d pl ir use)).pins = w.pins.set p ((w.pins.get p).withCfg x.ok d pl ir) ∧
        (Micro.eff x w (.pinCfg p d pl ir use)).flag = w.flag := by
      simp only [Micro.eff]; split <;> exact ⟨rfl, rfl⟩
    rw [hok] at hv
    rw [Micro.run]
    cases hans : s.cfgAnswer with
    | true =>
      rw [hans] at hv
      exact hk.move hl p (fun r => r.withCfg true d pl ir) (fun _ _ h => h.withCfg _ _ _ _)
        (State.pinCfg_succeeds p d pl ir use hans).2.2 hs hv
    | false =>
      obtain ⟨-, -, hpins, hflag⟩ := State.pinCfg_fails p d pl ir use hans
      have hsame (r : PinRegs) : r.withCfg false d pl ir = r := rfl
      rw [hans, hsame, PerPin.set_get] at hv
      exact hk.congr hv ⟨hpins, hflag⟩
  | sample p d =>
    obtain ⟨h1, h2, h3, h4⟩ := hstored d x.bit (w.sample p x.bit) (s.afterRead p)
    obtain ⟨-, -, h5, h6⟩ := hstored d (s.readLevel p) (w.sample p x.bit) (s.afterRead p)
    exact hk.congr ⟨h1, h2⟩ ⟨h5.trans (hread p).1, h6.trans (hread p).2⟩
  | irqReg p m os use =>
    simp only [Micro.run, Micro.eff, State.irqReg, View.register, hok]
    cases hans : s.cfgAnswer with
    | true => exact hk.of_eq p (fun r => r.withHnd (some { mbx := m, once := os })) ⟨by simp, by simp⟩ ⟨by simp [PinRegs.withHnd], by simp⟩
    | false => cases use <;> exact hk.congr ⟨by simp, by simp⟩ ⟨by simp [State.onConfigFailure], by simp [State.onConfigFailure]⟩
  | irqUnreg p => exact hk.of_eq p (fun r => r.withHnd none) ⟨rfl, rfl⟩ ⟨rfl, rfl⟩
  | wait n => exact absurd rfl (hw n)
  | mbxTest m => exact hr.elim
  | mbxClear m => exact hclear m
  | spin c a =>
    cases c with
    | flag m =>
      have hm : s.flag.get m = true := hl.flags m hr.2
      simp only [Micro.run, SpinCond.eval, hm, if_true]
      exact hk
    | flagClear m =>
      have hm : s.flag.get m = true := hl.flags m hr.2
      simp only [Micro.run, SpinCond.eval, hm, if_true]
      exact hclear m
    | level p v =>
      have hv : s.readLevel p = v := hbit.symm.trans hr.2
      simp only [Micro.run, SpinCond.eval, hv, beq_self_eq_true, if_true]
      exact hk.congr ⟨rfl, rfl⟩ (hread p)
    | startSeen =>
      have hv : s.readLevel .scl = true := hbit.symm.trans hr.2.1
      have hm : s.flag.get .mI2c = true := hl.flags _ hr.2.2
      simp only [Micro.run, SpinCond.eval, hv, hm, Bool.and_self, if_true]
      exact hk.congr ⟨rfl, rfl⟩ (hread .scl)
  | stopPass k a =>
    simp only [Micro.run]
    split
    · split <;> exact hk.congr ⟨rfl, rfl⟩ (hread .scl)
    · exact hk.congr ⟨rfl, rfl⟩ (hread .scl)
  | nackKeep k =>
    simp only [Micro.run]
    split <;> exact hk.congr ⟨rfl, rfl⟩ ⟨rfl, rfl⟩
  | rxAgain => exact hk.congr ⟨rfl, rfl⟩ ⟨rfl, rfl⟩

end Sys2Proof.Machine
end

section
/-! The rules of `Plays`, one for each act of a plan. -/

namespace Sys2Proof.Machine

variable {P : Pin → Prop} {M : Mbx → Prop} {i : Instr} {s0 : State} {e : PerPin Ext} {w : View}

theorem State.settle_pins (s : State) : s.settle.pins = s.pins ∧ s.settle.flag = s.flag := by
  unfold State.settle; split <;> exact ⟨rfl, rfl⟩

/-- All lines are left alone but for the acts that come next. -/
def drivenWith (e : PerPin Ext) : Around := { still := fun _ => True, ext := e }

/-- The next micro-operation, and what is known exactly after it. -/
theorem Busy.seqStep_known {op : Micro} {rest : List Micro} {s : State} (h : Busy i s0 e w 0 (op :: rest) s) (hk : Known P M w s)
    (hw : ∀ n, op ≠ .wait n) (hs : op.silent P M e w) (hr : ∀ x, (drivenWith e).allows w op x → op.ready w x.bit) :
    ∃ x, (drivenWith e).allows w op x ∧ At i s0 e (op.eff x w) (op.next x w rest) s.seqStep ∧ Known P M (op.eff x w) s.seqStep := by
  have hadm {x : Input} (hbit : x.bit = s.readLevel op.reads) (hok : x.ok = s.cfgAnswer) : (drivenWith e).allows w op x :=
    have he : ∀ p, (drivenWith e).still p → e.get p = (drivenWith e).ext.get p := fun _ _ => rfl
    h.allows he hbit hok
  have hready : op.ready w (s.readLevel op.reads) := hr ⟨s.readLevel op.reads, s.cfgAnswer, fun _ => 0⟩ (hadm rfl rfl)
  obtain ⟨x, hbit, hok, hat⟩ := h.seqStep hw hready
  refine ⟨x, hadm hbit hok, hat, ?_⟩
  have hlike : Like w (s.setPos rest) := ⟨h.like.seen, h.like.pins, h.like.flags⟩
  have hknown : Known P M w (s.setPos rest) := hk.congr ⟨rfl, rfl⟩ ⟨rfl, rfl⟩
  have hstep : s.seqStep = (op.run (s.setPos rest)).settle := by rw [State.seqStep, h.pos]
  have hext : (s.setPos rest).env.ext = e := h.ext
  rw [hstep]
  exact (hknown.run op hlike hbit hok hw (hbit ▸ hready) (hext ▸ hs)).congr ⟨rfl, rfl⟩ (State.settle_pins _)

/-- The handler `k` of pin `p` has run. -/
def View.fire (p : Pin) (k : Handler) (w : View) : View :=
  { w with flag := w.flag.set k.mbx true, pins := if k.once then w.pins.set p ((w.pins.get p).withHnd none) else w.pins }

/-- From every state like the view `w`, the lines driven with `e`, with `r` microseconds left of a wait and then `pos`, the acts `as` to
come, the run ends where `C` holds; `P` and `M` are the pins and flags known exactly. -/
def Plays (i : Instr) (s0 : State) (C : State → Prop) (P : Pin → Prop) (M : Mbx → Prop) (as : List EnvAct) (pos : List Micro)
    (e : PerPin Ext) (w : View) (r : Nat) : Prop :=
  ∀ s, Waits i s0 e w r pos s → Known P M w s → C (runPlan as s)

namespace Plays

variable {C : State → Prop} {as : List EnvAct} {pos rest : List Micro} {r : Nat}

theorem of_eq {v : View} (h : Plays i s0 C P M as pos e v r) (hv : w = v) : Plays i s0 C P M as pos e w r := hv ▸ h

/-- The plan is over and the command has returned. -/
theorem done (h : ∀ t, Done i s0 w t → Known P M w t → C t) : Plays i s0 C P M [] [] e w 0 := by
  intro s hs hk
  have hd : Done i s0 w s := hs
  rw [runPlan, drain_idle _ _ hd.busy]
  exact h s hd hk

/-- The environment leaves the lines alone from here, and the command returns by itself. -/
theorem ends {K : View → Prop} (hr : noReset as) (hl : ∀ p v, EnvAct.drive p v ∉ as) (hK : ∀ t v, K v → Done i s0 v t → C t)
    (h : Ends (drivenWith e) K pos w) : Plays i s0 C P M as pos e w 0 := by
  intro s hs _
  have hwalk : OnWalk i s0 (drivenWith e) K s := .of_at (fun _ _ => rfl) hs h
  obtain ⟨v, hv, hd⟩ := hwalk.runPlan hr fun p v hm => absurd hm (hl p v)
  exact hK _ v hv hd

/-- A turn of the sequencer. -/
theorem turn {op : Micro} (hw : ∀ n, op ≠ .wait n) (hs : op.silent P M e w)
    (hr : ∀ x, (drivenWith e).allows w op x → op.ready w x.bit)
    (h : ∀ x, (drivenWith e).allows w op x → Plays i s0 C P M as (op.next x w rest) e (op.eff x w) 0) :
    Plays i s0 C P M (.turn :: as) (op :: rest) e w 0 := by
  intro s hb hk
  have hbusy : Busy i s0 e w 0 (op :: rest) s := hb
  obtain ⟨x, hx, hat, hknown⟩ := hbusy.seqStep_known hk hw hs hr
  have hact : EnvAct.turn.apply s = s.seqStep := by simp [EnvAct.apply, hbusy.busy, hbusy.waitRem]
  rw [runPlan, if_pos hbusy.busy, hact]
  exact h x hx _ hat hknown

/-- A turn begins a wait. -/
theorem wait {n : Nat} (h : Plays i s0 C P M as rest e w n) : Plays i s0 C P M (.turn :: as) (.wait n :: rest) e w 0 := by
  intro s hb hk
  have hbusy : Busy i s0 e w 0 (.wait n :: rest) s := hb
  have hact : EnvAct.turn.apply s = s.seqStep := by simp [EnvAct.apply, hbusy.busy, hbusy.waitRem]
  have hstep : s.seqStep = ((Micro.wait n).run (s.setPos rest)).settle := by rw [State.seqStep, hbusy.pos]
  rw [runPlan, if_pos hbusy.busy, hact]
  refine h _ hbusy.wait (hk.congr ⟨rfl, rfl⟩ ?_)
  obtain ⟨hp, hf⟩ := State.settle_pins ((Micro.wait n).run (s.setPos rest))
  have hrun : ((Micro.wait n).run (s.setPos rest)).pins = s.pins ∧ ((Micro.wait n).run (s.setPos rest)).flag = s.flag := by
    simp only [Micro.run]; split <;> exact ⟨rfl, rfl⟩
  rw [hstep, hp, hf]
  exact hrun

/-- A command that is not over is busy. -/
theorem busy_of_waits {s : State} (h : Waits i s0 e w r pos s) (hpos : pos ≠ []) : s.seq.busy = true := by
  cases r with
  | zero =>
    cases pos with
    | nil => exact absurd rfl hpos
    | cons op rest => exact Busy.busy h
  | succ r =>
    obtain ⟨n, h⟩ := h
    exact h.busy

/-- Time passes in a wait. -/
theorem pass {d : Nat} (hpos : pos ≠ []) (h0 : r = 0 → d = 0) (h : Plays i s0 C P M as pos e (w.pass (min d r)) (r - d)) :
    Plays i s0 C P M (.pass d :: as) pos e w r := by
  intro s hb hk
  have hbusy := busy_of_waits hb hpos
  rw [runPlan, if_pos hbusy]
  cases r with
  | zero =>
    obtain rfl := h0 rfl
    have hrem : s.seq.waitRem = 0 := by
      cases pos with
      | nil => exact absurd rfl hpos
      | cons op rest => exact Busy.waitRem hb
    have hact : (EnvAct.pass 0).apply s = s := by
      simp only [EnvAct.apply, State.passTime, hbusy, hrem, if_true]
      split <;> rfl
    rw [hact]
    exact h s hb hk
  | succ r =>
    obtain ⟨n, hb⟩ := hb
    have hact : (EnvAct.pass d).apply s = s.elapse d := by simp [EnvAct.apply, State.passTime, hbusy, hb.waitRem]
    rw [hact]
    refine h _ (hb.elapse d) (hk.congr ⟨rfl, rfl⟩ ?_)
    unfold State.elapse
    simp only
    split
    · exact State.settle_pins _
    · exact ⟨rfl, rfl⟩

/-- A wait passes as a whole. -/
theorem passAll (hpos : pos ≠ []) (h : Plays i s0 C P M as pos e (w.pass r) 0) : Plays i s0 C P M (.pass r :: as) pos e w r := by
  refine pass hpos id ?_
  rwa [Nat.min_self, Nat.sub_self]

theorem waits_drive {s : State} (h : Waits i s0 e w r pos s) (hpos : pos ≠ []) (p : Pin) (v : Ext) :
    Waits i s0 (e.set p v) w r pos (s.driveExt p v) := by
  cases r with
  | zero =>
    cases pos with
    | nil => exact absurd rfl hpos
    | cons op rest => exact Busy.drive h p v
  | succ r =>
    obtain ⟨n, h⟩ := h
    exact ⟨n, h.drive p v⟩

theorem waits_like {s : State} (h : Waits i s0 e w r pos s) (hpos : pos ≠ []) : Like w s ∧ s.env.ext = e := by
  cases r with
  | zero =>
    cases pos with
    | nil => exact absurd rfl hpos
    | cons op rest => exact ⟨Busy.like h, Busy.ext h⟩
  | succ r =>
    obtain ⟨n, h⟩ := h
    exact ⟨h.like, h.ext⟩

/-- The environment moves a line, and no edge is seen. -/
theorem drive {p : Pin} {v : Ext} (hpos : pos ≠ []) (hs : Watched P M p → Silent (w.pins.get p) (e.get p) (w.pins.get p) v)
    (h : Plays i s0 C P M as pos (e.set p v) w r) : Plays i s0 C P M (.drive p v :: as) pos e w r := by
  intro s hb hk
  obtain ⟨hlike, hext⟩ := waits_like hb hpos
  rw [runPlan, if_pos (busy_of_waits hb hpos)]
  refine h _ (waits_drive hb hpos p v) ?_
  have hmoved := driveExt_moved p v s
  by_cases hw : Watched P M p
  · have hs := hs hw
    rw [← hext] at hs
    obtain ⟨hp, hf⟩ := hmoved.silent (hlike.pins p) (hlike.pins p) hs
    exact hk.congr ⟨rfl, rfl⟩ ⟨hp.trans (PerPin.set_get _ _), hf⟩
  · refine ⟨fun q hq => ?_, fun m hm => absurd (.inr ⟨m, hm⟩) hw⟩
    have hne : q ≠ p := by rintro rfl; exact hw (.inl hq)
    exact (hmoved.other hne).trans (hk.pins q hq)

/-- A place in a run of which more is known. -/
theorem waits_of_like {v : View} {s : State} (h : Waits i s0 e w r pos s) (hpos : pos ≠ []) (hv : Like v s) : Waits i s0 e v r pos s := by
  have hbusy {r : Nat} {pos : List Micro} (h : Busy i s0 e w r pos s) : Busy i s0 e v r pos s :=
    ⟨hv, h.pos, h.busy, h.waitRem, h.cmd, h.ext, h.cfg, h.stream, h.cp, h.res⟩
  cases r with
  | zero =>
    cases pos with
    | nil => exact absurd rfl hpos
    | cons op rest => exact hbusy h
  | succ r =>
    obtain ⟨n, h⟩ := h
    exact ⟨n, hbusy h⟩

/-- The environment moves a line, and the pin's handler `k` sees the edge it is armed for. -/
theorem fires {p : Pin} {v : Ext} {k : Handler} (hpos : pos ≠ []) (hh : (w.pins.get p).hnd = some k) (hkeep : P p ∨ k.once = false)
    (hedge : edgeIs (w.pins.get p).irq (lineOf (w.pins.get p) (e.get p)) (lineOf (w.pins.get p) v))
    (h : Plays i s0 C P M as pos (e.set p v) (w.fire p k) r) : Plays i s0 C P M (.drive p v :: as) pos e w r := by
  intro s hb hk
  obtain ⟨hlike, hext⟩ := waits_like hb hpos
  have hpin : s.pins.get p = w.pins.get p := by
    obtain hp | ho := hkeep
    · exact hk.pins p hp
    · refine (hlike.pins p).eq_of_not_once fun k' hk' => ?_
      obtain rfl := Option.some.inj (hh.symm.trans hk')
      exact ho
  obtain ⟨hflag, hpins⟩ : handlerRan p k s.pins s.flag (s.driveExt p v) := by
    have hmoved := driveExt_moved p v s
    unfold Moved at hmoved
    dsimp only at hmoved
    rw [hpin, hh, ← hpin, PerPin.set_get] at hmoved
    exact hmoved.1 (by rw [hpin, hext]; exact hedge)
  have hwaits := waits_drive hb hpos p v
  have hpins' (q : Pin) : (s.driveExt p v).pins.get q = if k.once = true ∧ q = p then (w.pins.get p).withHnd none else s.pins.get q := by
    rw [hpins]
    cases k.once with
    | false => simp
    | true => simp only [if_true, true_and, PerPin.get_set, hpin]
  have hfire (q : Pin) : (w.fire p k).pins.get q = if k.once = true ∧ q = p then (w.pins.get p).withHnd none else w.pins.get q := by
    unfold View.fire
    cases k.once with
    | false => simp
    | true => simp only [if_true, true_and, PerPin.get_set]
  have hlike' : Like (w.fire p k) (s.driveExt p v) := by
    refine ⟨?_, fun q => ?_, fun m hm => ?_⟩
    · obtain ⟨hl, -⟩ := waits_like hwaits hpos
      rw [View.fire, hl.seen]
    · rw [hpins', hfire]
      split
      · exact pinKept.refl _
      · exact hlike.pins q
    · rw [hflag, PerMbx.get_set]
      simp only [View.fire, PerMbx.get_set] at hm
      split
      · rfl
      · next hne => rw [if_neg hne] at hm; exact hlike.flags m hm
  rw [runPlan, if_pos (busy_of_waits hb hpos)]
  refine h _ (waits_of_like hwaits hpos hlike') ⟨fun q hq => ?_, fun m hm => ?_⟩
  · show (s.driveExt p v).pins.get q = _
    rw [hpins', hfire, hk.pins q hq]
  · show (s.driveExt p v).flag.get m = _
    rw [hflag, View.fire, PerMbx.get_set, PerMbx.get_set, hk.flags m hm]

/-! ## One rule for each micro-operation -/

theorem reg {o : RegOp} (ho : o ≠ .rxStop) (h : Plays i s0 C P M as rest e (o.eff (fun _ => 0) w) 0) :
    Plays i s0 C P M (.turn :: as) (.reg o :: rest) e w 0 := by
  refine turn nofun trivial (fun _ _ => trivial) fun x _ => ?_
  have heff : o.eff x.free w = o.eff (fun _ => 0) w := by
    cases o with
    | rxStop => exact absurd rfl ho
    | _ => rfl
  show Plays i s0 C P M as rest e (o.eff x.free w) 0
  rwa [heff]

theorem rxStop (h : ∀ free, Plays i s0 C P M as rest e (RegOp.rxStop.eff free w) 0) :
    Plays i s0 C P M (.turn :: as) (.reg .rxStop :: rest) e w 0 :=
  turn nofun trivial (fun _ _ => trivial) fun x _ => h x.free

theorem pinSet {p : Pin} {v : OutBit}
    (hs : Watched P M p → Silent (w.pins.get p) (e.get p) ((w.pins.get p).withLat (w.outBit v)) (e.get p))
    (h : Plays i s0 C P M as rest e (w.write p (w.outBit v)) 0) : Plays i s0 C P M (.turn :: as) (.pinSet p v :: rest) e w 0 :=
  turn nofun hs (fun _ _ => trivial) fun _ _ => h

theorem mbxClear {m : Mbx} (h : Plays i s0 C P M as rest e (w.clear m) 0) : Plays i s0 C P M (.turn :: as) (.mbxClear m :: rest) e w 0 :=
  turn nofun trivial (fun _ _ => trivial) fun _ _ => h

/-- A cleared flag is known exactly. -/
theorem mbxClear_known {m : Mbx} (h : Plays i s0 C P (fun k => M k ∨ k = m) as rest e (w.clear m) 0) :
    Plays i s0 C P M (.turn :: as) (.mbxClear m :: rest) e w 0 := by
  intro s hb hk
  have hbusy : Busy i s0 e w 0 (.mbxClear m :: rest) s := hb
  obtain ⟨x, -, hat, hknown⟩ := hbusy.seqStep_known hk nofun trivial fun _ _ => trivial
  have hact : EnvAct.turn.apply s = s.seqStep := by simp [EnvAct.apply, hbusy.busy, hbusy.waitRem]
  have hflag : s.seqStep.flag.get m = false := by
    rw [State.seqStep, hbusy.pos]
    show ((Micro.mbxClear m).run (s.setPos rest)).settle.flag.get m = false
    rw [(State.settle_pins _).2]
    simp [Micro.run]
  rw [runPlan, if_pos hbusy.busy, hact]
  refine h _ hat ⟨hknown.pins, ?_⟩
  rintro k (hkm | rfl)
  · exact hknown.flags k hkm
  · rw [hflag]
    exact (PerMbx.get_set_same _ _ _).symm

theorem irqUnreg {p : Pin} (h : Plays i s0 C P M as rest e (w.unregister p) 0) :
    Plays i s0 C P M (.turn :: as) (.irqUnreg p :: rest) e w 0 :=
  turn nofun trivial (fun _ _ => trivial) fun _ _ => h

/-- A configuration that the platform lets succeed. -/
theorem pinCfg {p : Pin} {d : Dir} {pl : Pull} {ir : Irq} (ha : w.answers.head? = some true)
    (hs : Watched P M p → Silent (w.pins.get p) (e.get p) ((w.pins.get p).withCfg true d pl ir) (e.get p))
    (h : Plays i s0 C P M as rest e (w.config p d pl ir true) 0) :
    Plays i s0 C P M (.turn :: as) (.pinCfg p d pl ir .discarded :: rest) e w 0 := by
  refine turn nofun hs (fun _ _ => trivial) fun x hx => ?_
  have hok : x.ok = true := hx.ok true ha
  simpa [Micro.next, Micro.eff, hok] using h

/-- A configuration of which the platform's answer is not known. -/
theorem pinCfg_any {p : Pin} {d : Dir} {pl : Pull} {ir : Irq}
    (hs : Watched P M p → Silent (w.pins.get p) (e.get p) ((w.pins.get p).withCfg true d pl ir) (e.get p))
    (h : ∀ ok, (∀ v, w.answers.head? = some v → ok = v) → Plays i s0 C P M as rest e (w.config p d pl ir ok) 0) :
    Plays i s0 C P M (.turn :: as) (.pinCfg p d pl ir .discarded :: rest) e w 0 := by
  refine turn nofun hs (fun _ _ => trivial) fun x hx => ?_
  simpa [Micro.next, Micro.eff] using h x.ok hx.ok

theorem irqReg {p : Pin} {m : Mbx} {os : Bool} (ha : w.answers.head? = some true)
    (h : Plays i s0 C P M as rest e (w.register p m os true) 0) :
    Plays i s0 C P M (.turn :: as) (.irqReg p m os .discarded :: rest) e w 0 := by
  refine turn nofun trivial (fun _ _ => trivial) fun x hx => ?_
  have hok : x.ok = true := hx.ok true ha
  simpa [Micro.next, Micro.eff, hok] using h

/-- A sample of a line that has a level. -/
theorem sample {p : Pin} {d : Dest} (b : Bool) (hb : lineOf (w.pins.get p) (e.get p) = .ofBit b)
    (h : Plays i s0 C P M as rest e ((w.sample p b).store b d) 0) : Plays i s0 C P M (.turn :: as) (.sample p d :: rest) e w 0 := by
  refine turn nofun trivial (fun _ _ => trivial) fun x hx => ?_
  have hbit : x.bit = b := hx.bit trivial b hb
  simpa [Micro.next, Micro.eff, hbit] using h

theorem flag {m : Mbx} (hm : w.flag.get m = true) (h : Plays i s0 C P M as rest e w 0) :
    Plays i s0 C P M (.turn :: as) (.spin (.flag m) false :: rest) e w 0 :=
  turn nofun trivial (fun _ _ => ⟨rfl, hm⟩) fun _ _ => h

theorem flagClear {m : Mbx} (hm : w.flag.get m = true) (h : Plays i s0 C P M as rest e (w.clear m) 0) :
    Plays i s0 C P M (.turn :: as) (.spin (.flagClear m) false :: rest) e w 0 :=
  turn nofun trivial (fun _ _ => ⟨rfl, hm⟩) fun _ _ => h

/-- The wait for a level that the line has. -/
theorem level {p : Pin} {v : Bool} (hv : lineOf (w.pins.get p) (e.get p) = .ofBit v)
    (h : Plays i s0 C P M as rest e (w.sample p v) 0) : Plays i s0 C P M (.turn :: as) (.spin (.level p v) false :: rest) e w 0 := by
  have hbit {x : Input} (hx : (drivenWith e).allows w (.spin (.level p v) false) x) : x.bit = v := hx.bit trivial v hv
  refine turn nofun trivial (fun x hx => ⟨rfl, hbit hx⟩) fun x hx => ?_
  simpa [Micro.next, Micro.eff, hbit hx] using h

theorem startSeen (hm : w.flag.get .mI2c = true) (hl : lineOf w.pins.scl e.scl = .l1)
    (h : Plays i s0 C P M as rest e (w.sample .scl true) 0) : Plays i s0 C P M (.turn :: as) (.spin .startSeen false :: rest) e w 0 := by
  have hbit {x : Input} (hx : (drivenWith e).allows w (.spin .startSeen false) x) : x.bit = true := hx.bit trivial true hl
  refine turn nofun trivial (fun x hx => ⟨rfl, hbit hx, hm⟩) fun x hx => ?_
  simpa [Micro.next, Micro.eff, hbit hx] using h

theorem stopPass {k : Nat} (b : Bool) (hl : lineOf w.pins.scl e.scl = .ofBit b) (hm : b = true → w.flag.get .mI2c = true)
    (h : Plays i s0 C P M as (if b then rest else rest.drop k) e { w.sample .scl b with tmp := b } 0) :
    Plays i s0 C P M (.turn :: as) (.stopPass k false :: rest) e w 0 := by
  have hbit {x : Input} (hx : (drivenWith e).allows w (.stopPass k false) x) : x.bit = b := hx.bit trivial b hl
  refine turn nofun trivial (fun x hx => ⟨rfl, by rw [hbit hx]; exact hm⟩) fun x hx => ?_
  simpa [Micro.next, Micro.eff, hbit hx] using h

theorem nackKeep {k : Nat} (h : Plays i s0 C P M as (if w.i2c.ack then rest else rest.drop (rest.length - k)) e w 0) :
    Plays i s0 C P M (.turn :: as) (.nackKeep k :: rest) e w 0 :=
  turn nofun trivial (fun _ _ => trivial) fun _ _ => h

/-- A program and a plan made of one piece for each element of a list. -/
theorem flatMap {α : Type} {g : α → List Micro} {pl : α → List EnvAct} (f : View → α → View) (J : PerPin Ext → View → Prop)
    (hstep : ∀ x as rest e w, J e w → ∃ e', J e' (f w x) ∧
      (Plays i s0 C P M as rest e' (f w x) 0 → Plays i s0 C P M (pl x ++ as) (g x ++ rest) e w 0))
    (l : List α) (hJ : J e w) (h : ∀ e', J e' (l.foldl f w) → Plays i s0 C P M as rest e' (l.foldl f w) 0) :
    Plays i s0 C P M (l.flatMap pl ++ as) (l.flatMap g ++ rest) e w 0 := by
  induction l generalizing e w with
  | nil => exact h e hJ
  | cons x l ih =>
    obtain ⟨e', hJ', hx⟩ := hstep x (l.flatMap pl ++ as) (l.flatMap g ++ rest) e w hJ
    rw [List.flatMap_cons, List.flatMap_cons, List.append_assoc, List.append_assoc]
    exact hx (ih hJ' h)

end Plays

/-- A command presented to an idle block whose peer's plan plays along. -/
theorem exec_plays (i : Instr) (C : State → Prop) {gate : State → Bool} {prog : List Micro} {ret : Ret} {s : State}
    (he : exec i s = command i gate prog ret s) (hidle : s.seq.busy = false) (hg : gate s = true) (hw : i.wf = true)
    (h : Plays i s C P M s.env.plan prog s.env.ext (s.taken ret) 0) : ∃ t, exec i s = .next t ∧ C t := by
  refine ⟨_, he.trans (command_accepted i gate prog ret s hidle hg hw), ?_⟩
  rw [State.runOn, State.accept_plan]
  refine h _ (accept_at i prog ret s) ⟨fun q _ => ?_, fun m _ => ?_⟩
  · show (s.accept i prog ret).pins.get q = _
    rw [State.accept, (State.settle_pins _).1]
    rfl
  · show (s.accept i prog ret).flag.get m = _
    rw [State.accept, (State.settle_pins _).2]
    rfl

end Sys2Proof.Machine
end

section
/-! The SPI master against its peer, and the SPI slave against its master. -/

namespace Sys2Proof.Machine

variable {i : Instr} {s0 : State} {C : State → Prop} {e : PerPin Ext} {w : View} {as : List EnvAct} {rest : List Micro}

/-- Nothing is known exactly. -/
abbrev noPin : Pin → Prop := fun _ => False

abbrev noMbx : Mbx → Prop := fun _ => False

theorem not_watched {p : Pin} {Q : Prop} (h : Watched noPin noMbx p) : Q := by
  obtain h | ⟨_, h⟩ := h <;> exact h.elim

/-! ## `SPI_M_XCHG` -/

/-- The peer's acts for one bit of an exchange. -/
def spiPeerBit (on : Bool) (H : Nat) (v : Bool) : List EnvAct :=
  drives .sdi v ++ turns (if on then 3 else 2) ++ passes H ++ turns 3 ++ passes H ++ turns (if on then 1 else 2)

theorem spiPeer_eq (m : BitVec 2) (H : Nat) (b : Byte) :
    spiPeer m H b = turns 2 ++ (msbFirst.flatMap (fun i => spiPeerBit (m.getLsbD 0) H (bitOf b i)) ++ []) := by
  rw [List.append_nil]
  rfl

theorem lineOf_input {r : PinRegs} (h : r.dir = .input) (b : Bool) : lineOf r (Ext.ofBit b) = .ofBit b := by
  unfold lineOf
  rw [h]
  cases b <;> rfl

theorem Plays.xchgBit (on lead : Bool) (c : Config.Params) (j : Fin 8) (b : Bool) (hin : w.pins.sdi.dir = .input)
    (h : Plays i s0 C noPin noMbx as rest (e.set .sdi (Ext.ofBit b)) (w.xchgBit on lead c.spiTHalf j b) 0) :
    Plays i s0 C noPin noMbx (spiPeerBit on c.spiTHalf b ++ as) (spiMBit on lead c j ++ rest) e w 0 := by
  have hline : lineOf (w.pins.get .sdi) ((e.set .sdi (Ext.ofBit b)).get .sdi) = .ofBit b := by
    rw [PerPin.get_set_same]; exact lineOf_input hin b
  cases on with
  | true =>
    refine .drive (by simp [spiMBit, spiMBitOn]) not_watched <| .pinSet not_watched <| .pinSet not_watched <| .wait <|
      .passAll (by simp) <| .pinSet not_watched <| .sample b hline <| .wait <| .passAll (by simp) <| .reg nofun <| .of_eq h ?_
    simp only [View.write, View.outBit, View.pass, View.sample, View.store, RegOp.eff, View.xchgBit, spiBitWave, PerPin.set, PerPin.get,
      View.mk.injEq, true_and, and_true, PinRegs.withLat_withLat, wr, if_true, List.cons_append, List.nil_append, List.reverse_cons,
      List.reverse_nil, List.map_cons, List.map_nil]
    omega
  | false =>
    refine .drive (by simp [spiMBit, spiMBitBefore]) not_watched <| .pinSet not_watched <| .wait <| .passAll (by simp) <|
      .pinSet not_watched <| .sample b hline <| .wait <| .passAll (by simp) <| .pinSet not_watched <| .reg nofun <| .of_eq h ?_
    simp only [View.write, View.outBit, View.pass, View.sample, View.store, RegOp.eff, View.xchgBit, spiBitWave, PerPin.set, PerPin.get,
      View.mk.injEq, true_and, and_true, PinRegs.withLat_withLat, wr, Bool.false_eq_true, if_false, List.cons_append, List.nil_append,
      List.reverse_cons, List.reverse_nil, List.map_cons, List.map_nil, List.cons.injEq, Prod.mk.injEq]
    omega

/-- Settles O54: bit by bit the peer puts its bit on the line before the exchange samples it. -/
theorem spiExchangeReadsPeer : Obligations.SpiExchangeReadsPeer := by
  unfold Obligations.SpiExchangeReadsPeer
  intro m x b s hidle hplan hm hmode hin
  have hplay : Plays (spiXchg m x) s (Done (spiXchg m x) s ((s.taken .spiShi).exchanged m s.cfg.spiTHalf x b)) noPin noMbx s.env.plan
      (spiMXchgProg m s.cfg x) s.env.ext (s.taken .spiShi) 0 := by
    rw [hplan, spiPeer_eq]
    exact .reg nofun <| .pinSet not_watched <| .flatMap (fun w j => w.xchgBit (m.getLsbD 0) (!m.getLsbD 1) s.cfg.spiTHalf j (bitOf b j))
      (fun _ w => w.pins.sdi.dir = .input) (fun j _ _ _ _ hw => ⟨_, hw, .xchgBit _ _ _ j (bitOf b j) hw⟩) msbFirst hin fun _ _ =>
      .ends List.not_mem_nil (fun _ _ => List.not_mem_nil) (fun t v (hv : v = (s.taken .spiShi).exchanged m s.cfg.spiTHalf x b) hd => hv ▸ hd) (.released (.done rfl))
  obtain ⟨t, ht, hd⟩ := exec_plays _ _ (exec_spiXchg m x s) hidle ((gateSpiMaster_iff m s).mpr ⟨hm, hmode⟩) (spiXchg_wf m x) hplay
  exact ⟨t, ht, hd.words fun _ => congrArg (· :: []) (resultWord_ok b), congrArg Spi.shi hd.spi, hd.now⟩

/-! ## `SPI_S_RESP` -/

/-- The micro-operations of one bit of a response: set up on the leading edge, or before it. -/
def spiSBit (on lead : Bool) (j : Fin 8) : List Micro := if on then spiSBitOn lead j else spiSBitBefore lead j

/-- The response of mode `m`. -/
def spiSRespProg (m : BitVec 2) (x : Byte) : List Micro :=
  spiSBegin x ++ (msbFirst.flatMap (spiSBit (m.getLsbD 0) (!m.getLsbD 1)) ++ spiSDeselect)

theorem exec_spiResp (m : BitVec 2) (x : Byte) (s : State) :
    exec (spiResp m x) s = command (spiResp m x) (gateSpiSlave m) (spiSRespProg m x) .spiShi s := by
  obtain rfl | rfl | rfl | rfl := mode_cases m <;> rfl

theorem spiResp_wf (m : BitVec 2) (x : Byte) : (spiResp m x).wf = true := by
  obtain rfl | rfl | rfl | rfl := mode_cases m <;> rfl

/-- The master's acts for one bit of a response. -/
def spiClockBit (on lead v : Bool) : List EnvAct :=
  if on then drives .sclk lead ++ turns 2 ++ drives .sdi v ++ drives .sclk (!lead) ++ turns 3
  else turns 1 ++ drives .sdi v ++ drives .sclk lead ++ turns 2 ++ drives .sclk (!lead) ++ turns 2

theorem spiClocker_eq (m : BitVec 2) (b : Byte) : spiClocker m b = turns 1 ++ (drives .cs true ++ (drives .cs false ++ (turns 1 ++
    (msbFirst.flatMap (fun i => spiClockBit (m.getLsbD 0) (!m.getLsbD 1) (bitOf b i)) ++ turns 1)))) := by
  simp only [spiClocker, spiClockBit, Bool.not_not, List.append_assoc]
  rfl

namespace View

/-- After one bit of a response, which reads `b`. -/
def respBit (lead : Bool) (w : View) (j : Fin 8) (b : Bool) : View :=
  { w with
    spi := { w.spi with shi := setBit w.spi.shi j b, bitcnt := w.spi.bitcnt - 1 }
    pins := { w.pins with sdo := w.pins.sdo.withLat (bitOf w.spi.sho j) }
    writes := (w.now, .sdo, bitOf w.spi.sho j) :: w.writes
    acts := wr w.now .sdo (bitOf w.spi.sho j) :: w.acts
    samples := { w.samples with
      sdi := (w.now, b) :: w.samples.sdi, sclk := (w.now, !lead) :: (w.now, lead) :: w.samples.sclk } }

theorem foldl_respBit (lead : Bool) (v : Byte) (w : View) :
    msbFirst.foldl (fun w j => respBit lead w j (bitOf v j)) w =
    { w with
      spi := { w.spi with shi := v, bitcnt := w.spi.bitcnt - 8 }
      pins := { w.pins with sdo := w.pins.sdo.withLat (w.spi.sho.getLsbD 0) }
      writes := ((List.range 8).map fun k => (w.now, .sdo, w.spi.sho.getLsbD (7 - k))).reverse ++ w.writes
      acts := ((List.range 8).map fun k => wr w.now .sdo (w.spi.sho.getLsbD (7 - k))).reverse ++ w.acts
      samples := { w.samples with
        sdi := (msbSamples 0 w.now v).reverse ++ w.samples.sdi
        sclk := ((List.range 8).flatMap fun _ => [(w.now, lead), (w.now, !lead)]).reverse ++ w.samples.sclk } } := by
  have hshift := msbFirst_setBits w.spi.shi v
  simp only [msbFirst, List.foldl_cons, List.foldl_nil] at hshift
  simp only [msbFirst, respBit, msbSamples, range8, hshift, List.foldl_cons, List.foldl_nil]
  simp [bitOf, eight_steps]

end View

theorem Plays.respBit (on lead : Bool) (j : Fin 8) (b : Bool) (hin : w.pins.sdi.dir = .input) (hck : w.pins.sclk.dir = .input) :
    ∃ e', Plays i s0 C noPin noMbx as rest e' (w.respBit lead j b) 0 →
      Plays i s0 C noPin noMbx (spiClockBit on lead b ++ as) (spiSBit on lead j ++ rest) e w 0 := by
  have hline {p : Pin} (e : PerPin Ext) (v : Bool) {r : PinRegs} (h : r.dir = .input) : lineOf r ((e.set p (Ext.ofBit v)).get p) = .ofBit v := by
    rw [PerPin.get_set_same]; exact lineOf_input h v
  cases on with
  | true =>
    refine ⟨_, fun h => .drive (by simp [spiSBit, spiSBitOn]) not_watched <| .level (hline _ lead hck) <| .pinSet not_watched <|
      .drive (by simp) not_watched <| .drive (by simp) not_watched <| .level (hline _ (!lead) hck) <|
      .sample b ?_ <| .reg nofun <| .of_eq h ?_⟩
    · rw [PerPin.get_set_ne _ _ (by decide)]
      exact hline _ b hin
    · simp only [View.write, View.outBit, View.sample, View.store, RegOp.eff, View.respBit, PerPin.set, PerPin.get, wr]
  | false =>
    refine ⟨_, fun h => .pinSet not_watched <| .drive (by simp) not_watched <| .drive (by simp) not_watched <|
      .level (hline _ lead hck) <| .sample b ?_ <| .drive (by simp) not_watched <| .level (hline _ (!lead) hck) <|
      .reg nofun <| .of_eq h ?_⟩
    · rw [PerPin.get_set_ne _ _ (by decide)]
      exact hline _ b hin
    · simp only [View.write, View.outBit, View.sample, View.store, RegOp.eff, View.respBit, PerPin.set, PerPin.get, wr]

/-- The view at the end of a response that reads `b`. -/
def View.responded (m : BitVec 2) (x b : Byte) (w : View) : View :=
  (msbFirst.foldl (fun w j => View.respBit (!m.getLsbD 1) w j (bitOf b j))
    (((RegOp.spiLoad x).eff (fun _ => 0) w).fire .cs { mbx := .mSpi, once := false })).clear .mSpi

/-- Settles O55: each edge the master makes is there when the response looks for it, and the mailbox is cleared last. -/
theorem spiResponse : Obligations.SpiResponse := by
  unfold Obligations.SpiResponse
  intro m x b s hidle hplan hm hmode hck hin hcs hirq hhnd
  have hgate : gateSpiSlave m s = true := (gateSpiSlave_iff m s).mpr ⟨hm, hmode⟩
  have hplay : Plays (spiResp m x) s (fun t => Done (spiResp m x) s ((s.taken .spiShi).responded m x b) t ∧ t.flag.get .mSpi = false)
      noPin noMbx s.env.plan (spiSRespProg m x) s.env.ext (s.taken .spiShi) 0 := by
    have hfires (e : PerPin Ext) : edgeIs (s.pins.get .cs).irq (lineOf (s.pins.get .cs) ((e.set .cs (Ext.ofBit true)).get .cs))
        (lineOf (s.pins.get .cs) (Ext.ofBit false)) := by
      rw [PerPin.get_set_same, lineOf_input hcs, lineOf_input hcs, hirq]
      exact .inl ⟨rfl, rfl, rfl⟩
    rw [hplan, spiClocker_eq]
    exact .reg nofun <| .drive (by simp) not_watched <| .fires (by simp) hhnd (.inr rfl) (hfires _) <| .flag rfl <|
      .flatMap (fun w j => w.respBit (!m.getLsbD 1) j (bitOf b j))
        (fun _ w => w.pins.sdi.dir = .input ∧ w.pins.sclk.dir = .input)
        (fun j _ _ _ _ hw => by
          obtain ⟨e', h⟩ := Plays.respBit (m.getLsbD 0) (!m.getLsbD 1) j (bitOf b j) hw.1 hw.2
          exact ⟨e', hw, h⟩) msbFirst ⟨hin, hck⟩ fun _ _ =>
      .mbxClear_known <| .done fun t hd hk => ⟨hd, hk.flags .mSpi (.inr rfl)⟩
  obtain ⟨t, ht, hd, hflag⟩ := exec_plays _ _ (exec_spiResp m x s) hidle hgate (spiResp_wf m x) hplay
  unfold View.responded at hd
  rw [View.foldl_respBit] at hd
  refine ⟨t, ht, hd.words fun _ => congrArg (· :: []) (resultWord_ok b), hd.writes, hd.samples .sdi, hflag, hd.spi.trans ?_, hd.i2c,
    hd.uart, hd.like.pins .sdo, hd.pinsKeptBut fun q hq => ?_, hd.flagsKeptBut fun k hk => ?_, hd.now⟩
  · simp only [View.clear, View.fire, RegOp.eff, BitVec.sub_self]
    rfl
  · exact PerPin.get_eq_of_rest (by rfl) q hq
  · exact PerMbx.get_eq_of_rest (by rfl) k hk

end Sys2Proof.Machine
end

section
/-! The I2C slave against its master. -/

namespace Sys2Proof.Machine

variable {i : Instr} {s0 : State} {C : State → Prop} {e : PerPin Ext} {w : View} {as : List EnvAct} {rest : List Micro}

/-- Everything is known exactly. -/
abbrev everyPin : Pin → Prop := fun _ => True

abbrev everyMbx : Mbx → Prop := fun _ => True

/-- A pin armed for rising edges sees none when its line is driven low. -/
theorem Silent.of_rising_low {r : PinRegs} (hd : r.dir = .input) (hi : r.irq = .rising) (e : Ext) : Silent r e r (Ext.ofBit false) := by
  refine .inr ?_
  rw [lineOf_input hd, hi]
  cases lineOf r e <;> rfl

/-- A pin armed for rising edges sees one when its line is driven from low to high. -/
theorem edgeIs_rising {r : PinRegs} (hd : r.dir = .input) (hi : r.irq = .rising) :
    edgeIs r.irq (lineOf r (Ext.ofBit false)) (lineOf r (Ext.ofBit true)) := by
  rw [lineOf_input hd, lineOf_input hd, hi]
  exact .inr ⟨rfl, rfl, rfl⟩

/-- A flag set and cleared is as before. -/
theorem PerMbx.set_clear {f : PerMbx Bool} {m : Mbx} (h : f.get m = false) : (f.set m true).set m false = f := by
  refine PerMbx.ext_get fun k => ?_
  rw [PerMbx.get_set, PerMbx.get_set]
  split
  · next hk => rw [hk, h]
  · rfl

/-! ## `I2C_S_RECV` -/

/-- The slave is set to take bits: the clock armed for its rising edge, the data line without a handler, the mailbox clear. -/
structure Clocked (w : View) : Prop where
  dir : w.pins.scl.dir = .input
  irq : w.pins.scl.irq = .rising
  hnd : w.pins.scl.hnd = some { mbx := .mI2c, once := false }
  flag : w.flag.get .mI2c = false

namespace View

/-- After one bit of `I2C_S_RECV`, which reads `b`. -/
def recvBit (w : View) (j : Fin 8) (b : Bool) : View :=
  { w with
    i2c := { w.i2c with shift := setBit w.i2c.shift j b, bitcnt := w.i2c.bitcnt - 1 }
    samples := { w.samples with sda := (w.now, b) :: w.samples.sda } }

theorem foldl_recvBit (v : Byte) (w : View) : msbFirst.foldl (fun w j => recvBit w j (bitOf v j)) w =
    { w with
      i2c := { w.i2c with shift := v, bitcnt := w.i2c.bitcnt - 8 }
      samples := { w.samples with sda := (msbSamples 0 w.now v).reverse ++ w.samples.sda } } := by
  have hshift := msbFirst_setBits w.i2c.shift v
  simp only [msbFirst, List.foldl_cons, List.foldl_nil] at hshift
  simp only [msbFirst, recvBit, msbSamples, range8, hshift, List.foldl_cons, List.foldl_nil]
  simp [bitOf, eight_steps]

/-- After `I2C_S_RECV` of the byte `v`. -/
def recvByte (v : Byte) (w : View) : View :=
  { w with
    i2c := { w.i2c with shift := v, bitcnt := 0, sState := .receiveByte }
    samples := { w.samples with sda := (msbSamples 0 w.now v).reverse ++ w.samples.sda } }

end View

/-- The master's acts for one bit of `I2C_S_RECV`. -/
def i2cClockBit (v : Bool) : List EnvAct := drives .scl false ++ drives .sda v ++ drives .scl true ++ turns 4

theorem i2cClocker_eq (v : Byte) : i2cClocker v = turns 2 ++ msbFirst.flatMap fun j => i2cClockBit (bitOf v j) := rfl

theorem Plays.recvBit (j : Fin 8) (b : Bool) (hc : Clocked w) (hd : w.pins.sda.dir = .input) (hh : w.pins.sda.hnd = none) :
    ∃ e', Plays i s0 C everyPin everyMbx as rest e' (w.recvBit j b) 0 →
      Plays i s0 C everyPin everyMbx (i2cClockBit b ++ as) (i2cSRecvBit j ++ rest) e w 0 := by
  refine ⟨((e.set .scl (Ext.ofBit false)).set .sda (Ext.ofBit b)).set .scl (Ext.ofBit true), fun h =>
    .drive (by simp [i2cSRecvBit]) (fun _ => .of_rising_low hc.dir hc.irq _) <| .drive (by simp [i2cSRecvBit]) (fun _ => .inl hh) <|
    .fires (by simp [i2cSRecvBit]) hc.hnd (.inl trivial) (edgeIs_rising hc.dir hc.irq) <| .flag rfl <|
    .sample b (lineOf_input hd b) <| .mbxClear <| .reg nofun <| .of_eq h ?_⟩
  simp only [View.fire, View.sample, View.store, View.clear, RegOp.eff, View.recvBit, PerPin.set, PerPin.get, PerMbx.set_clear hc.flag,
    Bool.false_eq_true, if_false]

theorem Plays.recvByte {v : Byte} (hc : Clocked w) (hd : w.pins.sda.dir = .input) (hh : w.pins.sda.hnd = none)
    (h : ∀ e', Plays i s0 C everyPin everyMbx as rest e' (w.recvByte v) 0) :
    Plays i s0 C everyPin everyMbx (i2cClocker v ++ as) (i2cSRecvProg ++ rest) e w 0 := by
  rw [i2cClocker_eq, List.append_assoc]
  refine .reg nofun <| .reg nofun <| .flatMap (fun w j => w.recvBit j (bitOf v j))
    (fun _ w => Clocked w ∧ w.pins.sda.dir = .input ∧ w.pins.sda.hnd = none) (fun j _ _ _ w hw => ?_) msbFirst
    ⟨⟨hc.dir, hc.irq, hc.hnd, hc.flag⟩, hd, hh⟩ fun e' _ => .of_eq (h e') ?_
  · obtain ⟨e', h⟩ := Plays.recvBit j (bitOf v j) hw.1 hw.2.1 hw.2.2
    exact ⟨e', ⟨⟨hw.1.dir, hw.1.irq, hw.1.hnd, hw.1.flag⟩, hw.2⟩, h⟩
  · rw [View.foldl_recvBit]
    simp only [RegOp.eff, View.recvByte, BitVec.sub_self]
    rfl

/-- Settles O47. -/
theorem i2cSRecv : Obligations.I2cSRecv := by
  unfold Obligations.I2cSRecv
  intro v s hidle hplan hm hdir hirq hhnd hd hh hf
  have hplay : Plays .i2cSRecv s (fun t => Done .i2cSRecv s ((s.taken .i2cShift).recvByte v) t ∧ t.pins = s.pins ∧ t.flag = s.flag)
      everyPin everyMbx s.env.plan i2cSRecvProg s.env.ext (s.taken .i2cShift) 0 := by
    rw [hplan, ← List.append_nil (i2cClocker v), ← List.append_nil i2cSRecvProg]
    exact .recvByte ⟨hdir, hirq, hhnd, hf⟩ hd hh fun e' => .done fun t hdone hk =>
      ⟨hdone, PerPin.ext_get fun q => hk.pins q trivial, PerMbx.ext_get fun m => hk.flags m trivial⟩
  obtain ⟨t, ht, hd, hp, hf⟩ := exec_plays _ _ rfl hidle ((gateI2cSlave_iff s).mpr hm) rfl hplay
  exact ⟨t, ht, hd.words fun _ => congrArg (· :: []) (resultWord_ok v), hd.samples .sda, hd.i2c, hd.spi, hd.uart, hp, hf, hd.now, hd.acts⟩

/-! ## `I2C_S_WSTOP` against a master that makes a STOP -/

/-- Settles O51. -/
theorem i2cSWstopStop : Obligations.I2cSWstopStop := by
  unfold Obligations.I2cSWstopStop
  intro s hidle hplan hm hck hd hc
  obtain ⟨l, hl⟩ := State.cfgSucceeds_split hc
  have h1 : s.env.cfgOutcomes.head? = some true := by simp [hl]
  have h2 : s.env.cfgOutcomes.tail.head? = some true := by simp [hl]
  have h3 : s.env.cfgOutcomes.tail.tail.head? = some true := by simp [hl]
  have h4 : s.env.cfgOutcomes.tail.tail.tail.head? = some true := by simp [hl]
  have h5 : s.env.cfgOutcomes.tail.tail.tail.tail.head? = some true := by simp [hl]
  obtain ⟨t, ht, w, hw, hd, hf⟩ := exec_plays .i2cSWstop
    (fun t => ∃ w, w = _ ∧ Done .i2cSWstop s w t ∧ t.flag.get .mI2c = false) rfl hidle ((gateI2cSlave_iff s).mpr hm) rfl (by
      rw [hplan]
      exact .drive (by simp [i2cSWstopProg]) not_watched <| .drive (by simp [i2cSWstopProg]) not_watched <|
        .reg nofun <| .irqUnreg <| .pinCfg h1 not_watched <| .pinCfg h2 not_watched <| .irqReg h3 <| .mbxClear <|
        .fires (by simp) rfl (.inr rfl) (.inr ⟨rfl, rfl, rfl⟩) <| .stopPass true rfl (fun _ => rfl) <|
        .pinCfg h4 not_watched <| .irqReg h5 <| .mbxClear_known <| .reg nofun <|
        .done fun t hd hk => ⟨_, rfl, hd, hk.flags .mI2c (.inr rfl)⟩)
  simp only [View.config, View.register, View.unregister, View.sample, View.clear, View.fire, RegOp.eff, State.taken, State.view, PerPin.set,
    PerPin.get, if_true, Bool.false_eq_true, if_false] at hw
  subst hw
  refine ⟨t, ht, hd.words fun _ => congrArg (· :: []) (resultWord_ok _), hd.i2c, hd.spi, hd.uart,
    (hd.like.pins .scl).eq_of_not_once nofun, (hd.like.pins .sda).eq_of_not_once ?_, hf, hd.pinsKeptBut fun q hq => ?_,
    hd.flagsKeptBut fun k hk => ?_, hd.now⟩
  · rintro _ ⟨⟩; rfl
  · exact PerPin.get_eq_of_rest (by rfl) q hq
  · exact PerMbx.get_eq_of_rest (by rfl) k hk

end Sys2Proof.Machine
end

section
/-! `I2C_S_SERVE` against a master that sends one frame. -/

namespace Sys2Proof.Machine

variable {i : Instr} {s0 : State} {C : State → Prop} {e : PerPin Ext} {w : View} {as : List EnvAct} {rest : List Micro}

namespace View

/-- After `I2C_S_WSTART` has seen a START, the platform letting it re-arm. -/
def startFound (w : View) : View :=
  { w with
    i2c := { w.i2c with sState := .startDetected }
    answers := w.answers.tail.tail.tail
    flag := w.flag.set .mI2c false
    pins := { w.pins with
      sda := (w.pins.sda.withHnd none).withCfg true .input .none .none
      scl := (w.pins.scl.withCfg true .input .none .rising).withHnd (some { mbx := .mI2c, once := false }) }
    acts := [rg w.now .scl .mI2c false true, cf w.now .scl .input .none .rising true, cf w.now .sda .input .none .none true,
      (w.now, .handlerUnreg .sda)] ++ w.acts
    samples := { w.samples with scl := (w.now, true) :: w.samples.scl } }

/-- After `I2C_S_WSTOP` has found the clock low, the platform letting it re-arm. -/
def stopMissed (w : View) : View :=
  { w with
    i2c := { w.i2c with sState := .stopMonitor }
    tmp := false
    answers := w.answers.tail.tail.tail
    flag := w.flag.set .mI2c false
    pins := { w.pins with
      sda := (w.pins.sda.withCfg true .input .none .rising).withHnd (some { mbx := .mI2c, once := false })
      scl := (w.pins.scl.withHnd none).withCfg true .input .none .none }
    acts := [rg w.now .sda .mI2c false true, cf w.now .sda .input .none .rising true, cf w.now .scl .input .none .none true,
      (w.now, .handlerUnreg .scl)] ++ w.acts
    samples := { w.samples with scl := (w.now, false) :: w.samples.scl } }

end View

theorem PerMbx.set_set (f : PerMbx Bool) (m : Mbx) (a b : Bool) : (f.set m a).set m b = f.set m b := by
  refine PerMbx.ext_get fun k => ?_
  simp only [PerMbx.get_set]
  split <;> rfl

/-- The slave waits for a START: the data line armed for its falling edge, the clock unarmed. -/
structure Listening (w : View) : Prop where
  clock : w.pins.scl.dir = .input
  unarmed : w.pins.scl.irq = .none
  dir : w.pins.sda.dir = .input
  irq : w.pins.sda.irq = .falling
  hnd : w.pins.sda.hnd = some { mbx := .mI2c, once := false }

theorem Plays.wstart (hw : Listening w) (h1 : w.answers.head? = some true) (h2 : w.answers.tail.head? = some true)
    (h3 : w.answers.tail.tail.head? = some true) (h : ∀ e', Plays i s0 C everyPin everyMbx as rest e' w.startFound 0) :
    Plays i s0 C everyPin everyMbx (i2cStarter ++ as) (i2cSWstartProg ++ rest) e w 0 := by
  have hrise : Silent w.pins.sda e.sda w.pins.sda (Ext.ofBit true) := by
    refine .inr ?_
    rw [lineOf_input hw.dir, hw.irq]
    cases lineOf w.pins.sda e.sda <;> rfl
  have hclock (e : Ext) : Silent w.pins.scl e w.pins.scl (Ext.ofBit true) := .inr (by rw [hw.unarmed]; rfl)
  have hfall : edgeIs w.pins.sda.irq (lineOf w.pins.sda (Ext.ofBit true)) (lineOf w.pins.sda (Ext.ofBit false)) := by
    rw [lineOf_input hw.dir, lineOf_input hw.dir, hw.irq]
    exact .inl ⟨rfl, rfl, rfl⟩
  have harm : Silent w.pins.scl (Ext.ofBit true) (w.pins.scl.withCfg true .input .none .rising) (Ext.ofBit true) := by
    refine .inr ?_
    rw [lineOf_input hw.clock, lineOf_input rfl]
    rfl
  refine .reg nofun <| .drive (by simp) (fun _ => hrise) <| .drive (by simp) (fun _ => hclock _) <|
    .fires (by simp) hw.hnd (.inl trivial) hfall <| .startSeen rfl (lineOf_input hw.clock true) <| .irqUnreg <|
    .pinCfg h1 (fun _ => .inl rfl) <| .pinCfg h2 (fun _ => harm) <| .irqReg h3 <| .mbxClear <| .reg nofun <| .of_eq (h _) ?_
  simp only [View.config, View.register, View.unregister, View.sample, View.clear, View.fire, RegOp.eff, View.startFound, PerPin.set,
    PerPin.get, if_true, Bool.false_eq_true, if_false, PerMbx.set_set, cf, rg, List.cons_append, List.nil_append]

theorem Plays.slaveAck {c : Config.Params} (hw : Clocked w) (hh : w.pins.sda.hnd = none)
    (h1 : w.answers.head? = some true) (h2 : w.answers.tail.head? = some true)
    (h : ∀ e', Plays i s0 C everyPin everyMbx as rest e' (w.slaveAck c.i2cTAckHold true true) 0) :
    Plays i s0 C everyPin everyMbx (i2cAckClocker c.i2cTAckHold ++ as) (i2cSAckProg c ++ rest) e w 0 := by
  refine .reg nofun <| .pinCfg h1 (fun _ => .inl hh) <| .pinSet (fun _ => .inl hh) <| .drive (by simp) (fun _ => .of_rising_low hw.dir hw.irq _) <|
    .drive (by simp) (fun _ => .inl hh) <| .fires (by simp) hw.hnd (.inl trivial) (edgeIs_rising hw.dir hw.irq) <| .flag rfl <|
    .mbxClear <| .wait <| .passAll (by simp) <| .pinCfg h2 (fun _ => .inl hh) <| .of_eq (h _) ?_
  simp only [View.config, View.write, View.outBit, View.clear, View.fire, View.pass, RegOp.eff, View.slaveAck, PerPin.set,
    PerPin.get, Bool.false_eq_true, if_false, PerMbx.set_set]

theorem Plays.wstop_low (h1 : w.answers.head? = some true) (h2 : w.answers.tail.head? = some true)
    (hh : w.pins.sda.hnd = none) (h3 : w.answers.tail.tail.head? = some true)
    (h : ∀ e', Plays i s0 C everyPin everyMbx [] [] e' w.stopMissed 0) :
    Plays i s0 C everyPin everyMbx (turns 6 ++ drives .scl false ++ turns 1) i2cSWstopProg e w 0 := by
  refine .reg nofun <| .irqUnreg <| .pinCfg h1 (fun _ => .inl rfl) <| .pinCfg h2 (fun _ => .inl hh) <| .irqReg h3 <| .mbxClear <|
    .drive (by simp) (fun _ => .inl rfl) <| .stopPass false (lineOf_input rfl false) nofun <| .of_eq (h _) ?_
  simp only [View.config, View.register, View.unregister, View.sample, View.clear, RegOp.eff, View.stopMissed, PerPin.set,
    PerPin.get, if_true, cf, rg, List.cons_append, List.nil_append]

theorem i2cFrame_eq (hold : Nat) (v : Byte) : i2cFrame hold v =
    i2cStarter ++ (i2cClocker v ++ (i2cAckClocker hold ++ (turns 2 ++ (turns 6 ++ drives .scl false ++ turns 1)))) := by
  simp only [i2cFrame, List.append_assoc]

theorem i2cSServeProg_eq (c : Config.Params) (lsa : Addr) : i2cSServeProg c lsa = i2cSWstartProg ++ (i2cSRecvProg ++ (i2cSAckProg c ++
    ([.reg (.sState .dispatch), .reg (.emitDispatch lsa)] ++ i2cSWstopProg))) := by
  simp only [i2cSServeProg, i2cSDispProg, List.append_assoc, List.cons_append, List.nil_append]

/-- After `I2C_S_SERVE` has handled a frame with the byte `v`. -/
def View.served (hold : Nat) (lsa : Addr) (v : Byte) (w : View) : View :=
  ((RegOp.emitDispatch lsa).eff (fun _ => 0) ((RegOp.sState .dispatch).eff (fun _ => 0)
    ((w.startFound.recvByte v).slaveAck hold true true))).stopMissed

theorem emitDispatch_eff (lsa : Addr) (free : Nat → Byte) (w : View) : (RegOp.emitDispatch lsa).eff free w =
    { w with notes := (if dispatchCode lsa w.i2c.shift = 0 then [] else [((dispatchCode lsa w.i2c.shift).setWidth 4, w.i2c.shift)]) ++
        w.notes } := by
  simp only [RegOp.eff]
  split <;> rfl

/-- The code of a dispatch, as a number. -/
theorem dispatchCode_ofNat (lsa : Addr) (v : Byte) : dispatchCode lsa v =
    BitVec.ofNat 8 (if v.toNat / 2 = lsa.toNat then (if v.toNat % 2 = 1 then 2 else 1) else 0) := by
  rw [dispatchCode_eq]
  split
  · split <;> rfl
  · rfl

/-- What `I2C_S_SERVE` says of a code that is 0, 1 or 2: its value word, and its notification unless it is 0. -/
theorem served_words {n : Nat} (hn : n ≤ 2) (v : Byte) : valueWord (BitVec.ofNat 8 n) = BitVec.ofNat 32 n ∧
    (if BitVec.ofNat 8 n = 0 then [] else [((BitVec.ofNat 8 n).setWidth 4, v)]) =
      (if n = 0 then [] else [(BitVec.ofNat 4 n, v)] : List (BitVec 4 × Byte)).reverse := by
  interval_cases n <;> exact ⟨rfl, rfl⟩

/-- Settles O52: the frame is a START, a byte, an acknowledgment and a look for a STOP, each against its part of the master's plan. -/
theorem i2cSServe : Obligations.I2cSServe := by
  unfold Obligations.I2cSServe
  intro lsa v s hidle hplan hm hck hun hd hirq hhnd hf hc
  obtain ⟨l, hl⟩ := State.cfgSucceeds_split hc
  have hplay : Plays (.i2cSServe lsa) s
      (fun t => Done (.i2cSServe lsa) s ((s.taken (.serve lsa)).served s.cfg.i2cTAckHold lsa v) t ∧ t.flag.get .mI2c = false)
      everyPin everyMbx s.env.plan (i2cSServeProg s.cfg lsa) s.env.ext (s.taken (.serve lsa)) 0 := by
    rw [hplan, i2cFrame_eq, i2cSServeProg_eq]
    refine .wstart ⟨hck, hun, hd, hirq, hhnd⟩ (congrArg List.head? hl) (congrArg (fun l => l.tail.head?) hl)
      (congrArg (fun l => l.tail.tail.head?) hl) fun _ => .recvByte ⟨rfl, rfl, rfl, rfl⟩ rfl rfl fun _ =>
      .slaveAck ⟨rfl, rfl, rfl, rfl⟩ rfl (congrArg (fun l => l.tail.tail.tail.head?) hl)
        (congrArg (fun l => l.tail.tail.tail.tail.head?) hl) fun _ => .reg nofun <| .reg nofun ?_
    rw [emitDispatch_eff]
    refine .wstop_low (congrArg (fun l => l.tail.tail.tail.tail.tail.head?) hl) (congrArg (fun l => l.tail.tail.tail.tail.tail.tail.head?) hl)
      rfl (congrArg (fun l => l.tail.tail.tail.tail.tail.tail.tail.head?) hl) fun _ => .done fun t hdone hk => ⟨?_, ?_⟩
    · rw [View.served, emitDispatch_eff]
      exact hdone
    · exact hk.flags .mI2c trivial
  obtain ⟨t, ht, hd, hflag⟩ := exec_plays _ _ rfl hidle ((gateI2cSlave_iff s).mpr hm) rfl hplay
  rw [View.served, emitDispatch_eff] at hd
  have hle : (if v.toNat / 2 = lsa.toNat then (if v.toNat % 2 = 1 then 2 else 1) else 0) ≤ 2 := by
    split
    · split <;> decide
    · decide
  obtain ⟨hword, hnote⟩ := served_words hle v
  rw [← dispatchCode_ofNat] at hword hnote
  refine ⟨t, _, ht, rfl, hd.words fun _ => ?_, hd.notes.trans ?_, hd.acts.trans ?_, (hd.like.pins .sda).eq_of_not_once ?_,
    (hd.like.pins .scl).eq_of_not_once nofun, hflag, hd.now, hd.i2c, hd.spi, hd.uart, hd.pinsKeptBut fun q hq => ?_,
    hd.flagsKeptBut fun k hk => ?_⟩
  · show [resultWord statusOk v, valueWord (dispatchCode lsa v), valueWord (bitByte false)] = _
    rw [resultWord_ok, hword]
    rfl
  · show (if dispatchCode lsa v = 0 then [] else [((dispatchCode lsa v).setWidth 4, v)]) ++ notifications s.env.trace = _
    rw [hnote]
  · rfl
  · rintro _ ⟨⟩; rfl
  · exact PerPin.get_eq_of_rest (by rfl) q hq
  · exact PerMbx.get_eq_of_rest (by rfl) k hk

end Sys2Proof.Machine
end

section
/-! The UART receiver against a peer that keeps exact bit times. -/

namespace Sys2Proof.Machine

variable {P : Pin → Prop} {M : Mbx → Prop} {i : Instr} {s0 : State} {C : State → Prop} {e : PerPin Ext} {w : View} {as : List EnvAct}
  {rest : List Micro}

/-- A line that changes at its bit's beginning, `Hb` before the end of the wait of length `B`. -/
theorem Plays.bitTime {B Hb : Nat} {p : Pin} {v : Bool} {pos : List Micro} (hpos : pos ≠ []) (hB : B ≠ 0) (hh : (w.pins.get p).hnd = none)
    (h : Plays i s0 C P M as pos (e.set p (Ext.ofBit v)) (w.pass B) 0) :
    Plays i s0 C P M (passes (B - Hb) ++ drives p v ++ passes Hb ++ as) pos e w B := by
  have hleft : B - (B - Hb) - Hb = 0 := by omega
  have htime : (w.pass (min (B - Hb) B)).pass (min Hb (B - (B - Hb))) = w.pass B := by
    rw [View.pass_pass]
    congr 1
    omega
  refine .pass hpos (by omega) <| .drive hpos (fun _ => .inl hh) <| .pass hpos (by omega) ?_
  rw [hleft]
  exact .of_eq h htime

/-- One data bit of a frame. -/
theorem Plays.rxBit {c : Config.Params} {j : Fin 8} {b : Bool} (hB : c.uartTBit ≠ 0) (hd : w.pins.rx.dir = .input)
    (hh : w.pins.rx.hnd = none) (h : Plays i s0 C P M as rest (e.set .rx (Ext.ofBit b)) (w.rxBit c.uartTBit j b) 0) :
    Plays i s0 C P M (uartPeerBit c.uartTBit c.uartTHalf b ++ turns 2 ++ as) (uartRxBit c j ++ rest) e w 0 := by
  unfold uartPeerBit
  simp only [List.append_assoc]
  refine .wait ?_
  simp only [← List.append_assoc]
  rw [List.append_assoc, List.append_assoc]
  exact .bitTime (by simp) hB hh <| .sample b (lineOf_input hd b) <| .reg nofun h

theorem uartPeer_eq (B Hb : Nat) (b : Byte) (stop : Bool) : uartPeer B Hb b stop =
    drives .rx true ++ (drives .rx false ++ (turns 2 ++ (passes Hb ++ (turns 1 ++
      (lsbFirst.flatMap (fun j => uartPeerBit B Hb (bitOf b j) ++ turns 2) ++
        (turns 1 ++ (passes (B - Hb) ++ drives .rx stop ++ passes Hb ++ turns 3))))))) := by
  simp only [uartPeer, uartPeerBit, List.append_assoc]
  rfl

/-- The one-shot handler of the receiver. -/
abbrev startHandler : Handler := { mbx := .mUart, once := true }

/-- The receiver waits for a start bit. -/
structure Armed (w : View) : Prop where
  dir : w.pins.rx.dir = .input
  irq : w.pins.rx.irq = .falling
  hnd : w.pins.rx.hnd = some startHandler
  flag : w.flag.get .mUart = false

/-- After a frame with the byte `b` and the stop bit `stop` from a peer, the re-arming having succeeded. -/
def View.peerFrame (B Hb : Nat) (b : Byte) (stop : Bool) (free : Nat → Byte) (w : View) : View :=
  (w.fire .rx startHandler).framed B Hb b stop free true

theorem Plays.rxFrame {c : Config.Params} {b : Byte} {stop : Bool} (hB : c.uartTBit ≠ 0) (hw : Armed w)
    (ha : w.answers.head? = some true)
    (h : ∀ e' free, Plays i s0 C everyPin everyMbx [] rest e' (w.peerFrame c.uartTBit c.uartTHalf b stop free) 0) :
    Plays i s0 C everyPin everyMbx (uartPeer c.uartTBit c.uartTHalf b stop) (uartRxFrameProg c ++ rest) e w 0 := by
  have hrise : Silent w.pins.rx e.rx w.pins.rx (Ext.ofBit true) := by
    refine .inr ?_
    rw [lineOf_input hw.dir, hw.irq]
    cases lineOf w.pins.rx e.rx <;> rfl
  have hfall : edgeIs w.pins.rx.irq (lineOf w.pins.rx (Ext.ofBit true)) (lineOf w.pins.rx (Ext.ofBit false)) := by
    rw [lineOf_input hw.dir, lineOf_input hw.dir, hw.irq]
    exact .inl ⟨rfl, rfl, rfl⟩
  have hend (e' : PerPin Ext) (v : View) (hd : v.pins.rx.dir = .input) (hh : v.pins.rx.hnd = none) (ha : v.answers.head? = some true)
      (h : ∀ e'' free, Plays i s0 C everyPin everyMbx [] rest e''
        ((RegOp.rxStop.eff free (((v.pass c.uartTBit).sample .rx stop).store stop .tmp)).register .rx .mUart true true) 0) :
      Plays i s0 C everyPin everyMbx (turns 1 ++ (passes (c.uartTBit - c.uartTHalf) ++ drives .rx stop ++ passes c.uartTHalf ++ turns 3))
        ([.wait c.uartTBit, .sample .rx .tmp, .reg .rxStop, .irqReg .rx .mUart true .discarded] ++ rest) e' v 0 :=
    .wait <| .bitTime (by simp) hB hh <| .sample stop (lineOf_input hd stop) <| .rxStop fun free => .irqReg ha (h _ free)
  rw [uartPeer_eq]
  unfold uartRxFrameProg
  rw [List.append_assoc, List.append_assoc]
  refine .drive (by simp) (fun _ => hrise) <| .fires (by simp) hw.hnd (.inl trivial) hfall <| .flagClear rfl <| .wait <|
    .passAll (by simp) <| .reg nofun <| .flatMap (fun v j => v.rxBit c.uartTBit j (bitOf b j))
      (fun _ v => v.pins.rx.dir = .input ∧ v.pins.rx.hnd = none) (fun j _ _ _ v hv => ⟨_, hv, .rxBit hB hv.1 hv.2⟩) lsbFirst
      ⟨hw.dir, rfl⟩ fun e' hv => hend e' _ hv.1 hv.2 ?_ fun e'' free => .of_eq (h e'' free) ?_
  · rw [View.foldl_rxBit]
    exact ha
  · rw [View.foldl_rxBit]
    refine congrArg (fun w : View => (RegOp.rxStop.eff free w).register .rx .mUart true true) ?_
    simp only [View.heard, View.clear, View.fire, View.pass, View.sample, View.store, RegOp.eff, PerPin.set, PerPin.get, View.mk.injEq, true_and,
      and_true, BitVec.sub_self, PerPin.mk.injEq, List.cons_append, List.cons.injEq, Prod.mk.injEq]
    simp
    omega

theorem uartTBit_ne_zero {s : State} (h : s.Inv) : s.cfg.uartTBit ≠ 0 := by
  obtain ⟨hwf, -⟩ := h
  simp only [Config.Params.wf, Bool.and_eq_true, decide_eq_true_eq] at hwf
  obtain ⟨⟨⟨⟨⟨-, hpos⟩, hmax⟩, -⟩, -⟩, -⟩ := hwf
  exact (Nat.div_pos hmax hpos).ne'

theorem View.peerFrame_took {B Hb : Nat} {b : Byte} {stop : Bool} {free : Nat → Byte} (h : w.uart.rxIdx < w.cfg.rxCap) :
    Uart.Took w.cfg.rxCap b stop w.uart (w.peerFrame B Hb b stop free).uart :=
  @View.framed_took (w.fire .rx startHandler) B Hb b stop free true h

/-- The re-arming puts back the handler that the start edge took away. -/
theorem View.peerFrame_rx {B Hb : Nat} {b : Byte} {stop : Bool} {free : Nat → Byte} (h : w.pins.rx.hnd = some startHandler) :
    (w.peerFrame B Hb b stop free).pins.rx = w.pins.rx := by
  have hback : (w.pins.rx.withHnd none).withHnd (some startHandler) = w.pins.rx := by rw [← h]; rfl
  exact hback

/-- Settles O59: the peer moves the line at each bit's beginning, half a bit before the receiver samples it. -/
theorem uartRxFrameReadsPeer : Obligations.UartRxFrameReadsPeer := by
  unfold Obligations.UartRxFrameReadsPeer
  intro b stop s hidle hinv hrdy hplan hdir hirq hhnd hflag hc
  have hidx : s.uart.rxIdx < s.cfg.rxCap := hinv.2.1.2.2.2
  obtain ⟨l, hl⟩ := State.cfgSucceeds_split hc
  have hplay : Plays .uartRxFrame s (fun t => ∃ free, Done .uartRxFrame s ((s.taken .ok).peerFrame s.cfg.uartTBit s.cfg.uartTHalf b stop free) t ∧
      t.flag.get .mUart = false ∧ t.pins.get .rx = s.pins.get .rx) everyPin everyMbx s.env.plan (uartRxFrameProg s.cfg) s.env.ext
      (s.taken .ok) 0 := by
    rw [hplan, ← List.append_nil (uartRxFrameProg s.cfg)]
    exact .rxFrame (uartTBit_ne_zero hinv) ⟨hdir, hirq, hhnd, hflag⟩ (congrArg List.head? hl) fun e' free =>
      .done fun t hd hk => ⟨free, hd, hk.flags .mUart trivial, (hk.pins .rx trivial).trans (View.peerFrame_rx hhnd)⟩
  obtain ⟨t, ht, free, hd, hf, hp⟩ := exec_plays _ _ rfl hidle hrdy rfl hplay
  have htook : Uart.Took s.cfg.rxCap b stop s.uart t.uart := by
    rw [hd.uart]
    exact @View.peerFrame_took (s.taken .ok) _ _ b stop free hidx
  refine ⟨t, ht, hd.words fun _ => rfl, htook.rxsh, ?_, htook.others, htook.entry, htook.index, hd.now, hf, hp⟩
  rw [Sampled, hd.samples, List.reverse_append]
  rfl

end Sys2Proof.Machine
end

section
/-! `UART_RX_LOOP`: it never returns, and between two frames the host reads what the last one left. -/

namespace Sys2Proof.Machine

variable {i : Instr} {s0 : State} {e : PerPin Ext} {w : View} {rest : List Micro}

/-! ## It never returns -/

/-- The micro-operations of `UART_RX_LOOP`: none of them ends the command. -/
def Micro.loops : Micro → Bool
  | .reg _ | .sample _ _ | .wait _ | .spin (.flagClear _) _ | .irqReg _ _ _ .discarded => true
  | _ => false

/-- The host's side of the block, which only a return changes. -/
def sameHost (s t : State) : Prop :=
  t.env.res = s.env.res ∧ t.env.cp = s.env.cp ∧ t.env.stream = s.env.stream ∧ t.cfg = s.cfg

theorem sameHost.trans {s t u : State} (h : sameHost s t) (k : sameHost t u) : sameHost s u := by
  obtain ⟨h1, h2, h3, h4⟩ := h
  obtain ⟨k1, k2, k3, k4⟩ := k
  exact ⟨k1.trans h1, k2.trans h2, k3.trans h3, k4.trans h4⟩

theorem EdgeOnly.sameHost {s t : State} (h : EdgeOnly s t) : sameHost s t := ⟨h.res, h.cp, h.stream, h.cfg⟩

theorem Micro.loops_run {op : Micro} (h : op.loops = true) (s : State) : sameHost s (op.run s) ∧
    ((op.run s).seq.pos = s.seq.pos ∨ ∃ o, o.loops = true ∧ (op.run s).seq.pos = o :: s.seq.pos) := by
  have hran {op : Micro} (hw : ∀ n, op ≠ .wait n) (hr : op.ready s.view (s.readLevel op.reads)) : sameHost s (op.run s) := by
    obtain ⟨x, -, -, hran⟩ := op.run_ran (Like.refl s) hw hr
    exact ⟨hran.res, hran.cp, hran.stream, (Forward.run op s).cfg⟩
  cases op with
  | reg r =>
    obtain ⟨-, hpos, -⟩ := RegOp.apply_seq r s
    exact ⟨hran nofun trivial, .inl hpos⟩
  | sample p d => exact ⟨hran nofun trivial, .inl (by cases d <;> simp [Micro.run, Dest.store])⟩
  | wait n =>
    simp only [Micro.run]
    split
    · exact ⟨⟨rfl, rfl, rfl, rfl⟩, .inl rfl⟩
    · exact ⟨⟨rfl, rfl, rfl, rfl⟩, .inr ⟨.wait n, rfl, rfl⟩⟩
  | spin c a =>
    cases c with
    | flagClear m =>
      cases hm : s.flag.get m with
      | true =>
        simp only [Micro.run, SpinCond.eval, hm, if_true]
        exact ⟨⟨rfl, rfl, rfl, rfl⟩, .inl rfl⟩
      | false =>
        simp only [Micro.run, SpinCond.eval, hm, Bool.false_eq_true, if_false]
        exact ⟨⟨rfl, rfl, rfl, rfl⟩, .inr ⟨_, rfl, rfl⟩⟩
    | _ => cases h
  | irqReg p m os use =>
    cases use with
    | discarded => exact ⟨hran nofun trivial, .inl (Micro.irqReg_run_pos p m os s)⟩
    | checked => cases h
  | _ => cases h

/-- The block runs `UART_RX_LOOP`, presented in `s0`. -/
structure Looping (s0 s : State) : Prop where
  busy : s.seq.busy = true
  pos : ∃ pre, s.seq.pos = pre ++ [.rxAgain] ∧ ∀ o ∈ pre, o.loops = true
  host : sameHost s0 s

/-- One pass of the loop, without the turn to the next. -/
theorem uartRxLoopProg_loops (c : Config.Params) :
    ∃ pre, uartRxLoopProg c = pre ++ [.rxAgain] ∧ ∀ o ∈ pre, o.loops = true :=
  ⟨uartRxFrameProg c ++ [.reg .emitFrameDone], by simp [uartRxLoopProg], by
    simp [uartRxFrameProg, lsbFirst, uartRxBit, Micro.loops]⟩

namespace Looping

variable {s : State}

theorem settled {t : State} (hb : t.seq.busy = true) (hp : ∃ pre, t.seq.pos = pre ++ [.rxAgain] ∧ ∀ o ∈ pre, o.loops = true)
    (hh : sameHost s0 t) : Looping s0 t.settle := by
  obtain ⟨pre, hpos, hpre⟩ := hp
  rw [State.settle_busy t (by rw [hpos]; simp)]
  exact ⟨hb, ⟨pre, hpos, hpre⟩, hh⟩

theorem seqStep (h : Looping s0 s) : Looping s0 s.seqStep := by
  obtain ⟨pre, hpos, hpre⟩ := h.pos
  unfold State.seqStep
  rw [hpos]
  cases pre with
  | nil =>
    obtain ⟨pre, hp, hloops⟩ := uartRxLoopProg_loops s.cfg
    have hrun : (Micro.rxAgain.run (s.setPos [])).seq.pos = uartRxLoopProg s.cfg := List.append_nil _
    exact settled h.busy ⟨pre, hrun.trans hp, hloops⟩ h.host
  | cons o pre =>
    have hpre' : ∀ x ∈ pre, x.loops = true := fun x hx => hpre x (List.mem_cons_of_mem _ hx)
    obtain ⟨hhost, hp⟩ := Micro.loops_run (hpre o List.mem_cons_self) (s.setPos (pre ++ [.rxAgain]))
    refine settled ((Micro.run_wait o _).1.trans h.busy) ?_ (h.host.trans hhost)
    obtain hp | ⟨o', ho', hp⟩ := hp
    · exact ⟨pre, hp, hpre'⟩
    · exact ⟨o' :: pre, hp, List.forall_mem_cons.mpr ⟨ho', hpre'⟩⟩

theorem elapse (h : Looping s0 s) (d : Nat) (hok : s.seqOk) (hw : s.seq.waitRem ≠ 0) : Looping s0 (s.elapse d) := by
  obtain ⟨pre, hpos, hpre⟩ := h.pos
  obtain ⟨n, rest, hp, -⟩ := hok.2.2 hw
  unfold State.elapse
  simp only
  split
  · cases pre with
    | nil => simp [hpos] at hp
    | cons o pre => exact settled h.busy ⟨pre, by simp [hpos], fun x hx => hpre x (List.mem_cons_of_mem _ hx)⟩ h.host
  · exact ⟨h.busy, ⟨pre, hpos, hpre⟩, h.host⟩

theorem runPlan {plan : List EnvAct} (h : Looping s0 s) (hok : s.seqOk) (hr : noReset plan) : Looping s0 (runPlan plan s) := by
  have hkeep := State.seqOk_keptByRun
  exact (@runPlan_keeps_busy (fun s => Looping s0 s ∧ s.seqOk)
    (fun s as h => ⟨⟨h.1.busy, h.1.pos, h.1.host⟩, hkeep.setPlan s as h.2⟩)
    (fun s hb h0 h => ⟨h.1.seqStep, hkeep.seqStep s hb h0 h.2⟩)
    (fun s d hb h0 h => ⟨h.1.elapse d h.2 h0, hkeep.elapse s d hb h0 h.2⟩)
    (fun s d _ h => ⟨⟨h.1.busy, h.1.pos, h.1.host⟩, hkeep.addTime s d h.2⟩)
    (fun s p e _ h => ⟨⟨by rw [State.driveExt_seq]; exact h.1.busy, by rw [State.driveExt_seq]; exact h.1.pos,
      h.1.host.trans (State.driveExt_edgeOnly p e s).sameHost⟩, hkeep.driveExt s p e h.2⟩) _ hr _ ⟨h, hok⟩).1

end Looping

/-- `UART_RX_LOOP` does not return, under any plan without a reset. -/
theorem uartRxLoop_runs {s : State} (hs : s.ready) (hrdy : s.uart.rxRdy = true) :
    ∃ t, exec .uartRxLoop s = .next t ∧ StillRuns s t := by
  refine ⟨_, (rfl : exec .uartRxLoop s = command .uartRxLoop gateUartRx (uartRxLoopProg s.cfg) .ok s).trans
    (command_accepted _ _ _ _ s hs.1 hrdy rfl), ?_⟩
  have hstart : Looping s ((s.accept .uartRxLoop (uartRxLoopProg s.cfg) .ok).setPlan []) := by
    have hset {t : State} (h : Looping s t) : Looping s (t.setPlan []) := ⟨h.busy, h.pos, h.host⟩
    exact hset (.settled rfl (uartRxLoopProg_loops s.cfg) ⟨rfl, rfl, rfl, rfl⟩)
  rw [State.runOn, State.accept_plan]
  obtain ⟨hb, -, hres, hcp, hstream, hcfg⟩ := hstart.runPlan (State.seqOk_congr (State.seqOk_accept .uartRxLoop _ .ok s) rfl) hs.2
  exact ⟨hb, hres, hcp, hstream, hcfg⟩

/-! ## Between two frames -/

theorem drain_step {s : State} (hb : s.seq.busy = true) (hw : s.seq.waitRem = 0) (hs : s.seqStep.spinning = false) (n : Nat) :
    drain (n + 1) s = drain n s.seqStep := by
  have hadv : s.advance = s.seqStep := by rw [State.advance, if_pos hw]
  rw [drain, if_pos hb, hadv, if_neg (by simp [hs])]

theorem Busy.setPos {pos : List Micro} {s : State} (h : Busy i s0 e w 0 pos s) (pos' : List Micro) :
    Busy i s0 e w 0 pos' (s.setPos pos') :=
  ⟨⟨h.like.seen, h.like.pins, h.like.flags⟩, rfl, h.busy, h.waitRem, h.cmd, h.ext, h.cfg, h.stream, h.cp, h.res⟩

/-- After a frame of `UART_RX_LOOP` the block notifies it and waits for the next start bit. -/
theorem loop_waits {P : Pin → Prop} {M : Mbx → Prop} {s : State} (h : Busy i s0 e w 0 [.reg .emitFrameDone, .rxAgain] s)
    (hk : Known P M w s) (hM : M .mUart) (hf : w.flag.get .mUart = false) :
    ∃ rest, Busy i s0 e { w with notes := (3, 0) :: w.notes } 0 (.spin (.flagClear .mUart) true :: rest) (runPlan [] s) ∧
      Known P M w (runPlan [] s) := by
  obtain ⟨x, -, h1, hk1⟩ := h.seqStep_known hk nofun trivial fun _ _ => trivial
  have hb1 : Busy i s0 e { w with notes := (3, 0) :: w.notes } 0 [.rxAgain] s.seqStep := h1
  obtain ⟨x', -, h2, hk2⟩ := hb1.seqStep_known (hk1.congr ⟨rfl, rfl⟩ ⟨rfl, rfl⟩) nofun trivial fun _ _ => trivial
  obtain ⟨rest, hb2⟩ : ∃ rest, Busy i s0 e { w with notes := (3, 0) :: w.notes } 0 (.spin (.flagClear .mUart) false :: rest)
    s.seqStep.seqStep := ⟨_, h2⟩
  have hflag : s.seqStep.seqStep.flag.get .mUart = false := (hk2.flags .mUart hM).trans hf
  have heval : (SpinCond.flagClear .mUart).eval (s.seqStep.seqStep.setPos rest) =
      (false, s.seqStep.seqStep.setPos rest) := by
    simp [SpinCond.eval, hflag]
  have hrun : runPlan [] s = s.seqStep.seqStep.setPos (.spin (.flagClear .mUart) true :: rest) := by
    have hfuel : s.drainFuel = 6 := by simp [State.drainFuel, h.pos]
    rw [runPlan, hfuel, drain_step h.busy h.waitRem (by simp [State.spinning, hb1.pos]),
      drain_step hb1.busy hb1.waitRem (by simp [State.spinning, hb2.pos]),
      drain_stuck hb2.busy hb2.waitRem hb2.pos (congrArg Prod.fst heval), heval]
    rfl
  rw [hrun]
  exact ⟨_, hb2.setPos _, hk2.congr ⟨rfl, rfl⟩ ⟨rfl, rfl⟩⟩

/-- Settles O60: the loop always has its next pass to run; a peer's frame is handled as `UART_RX_FRAME` handles it, and the loop then
hangs in its wait, where the host may read the buffer. -/
theorem uartRxLoop : Obligations.UartRxLoop := by
  unfold Obligations.UartRxLoop
  refine ⟨fun s hs hrdy => uartRxLoop_runs hs hrdy, fun b stop s hidle hinv hrdy hplan hdir hirq hhnd hflag hc => ?_⟩
  have hidx : s.uart.rxIdx < s.cfg.rxCap := hinv.2.1.2.2.2
  obtain ⟨l, hl⟩ := State.cfgSucceeds_split hc
  have hplay : Plays .uartRxLoop s
      (fun t => ∃ e' free rest, Busy .uartRxLoop s e'
          { (s.taken .ok).peerFrame s.cfg.uartTBit s.cfg.uartTHalf b stop free with
            notes := (3, 0) :: ((s.taken .ok).peerFrame s.cfg.uartTBit s.cfg.uartTHalf b stop free).notes } 0
          (.spin (.flagClear .mUart) true :: rest) t ∧ t.pins.get .rx = s.pins.get .rx)
      everyPin everyMbx s.env.plan (uartRxLoopProg s.cfg) s.env.ext (s.taken .ok) 0 := by
    rw [hplan]
    refine .rxFrame (uartTBit_ne_zero hinv) ⟨hdir, hirq, hhnd, hflag⟩ (congrArg List.head? hl) fun e' free t hb hk => ?_
    obtain ⟨rest, hbusy, hknown⟩ := loop_waits hb hk trivial rfl
    exact ⟨e', free, rest, hbusy, (hknown.pins .rx trivial).trans (View.peerFrame_rx hhnd)⟩
  obtain ⟨t, ht, e', free, rest, h, hp⟩ := exec_plays _ _ rfl hidle hrdy rfl hplay
  have hu : t.uart = ((s.taken .ok).peerFrame s.cfg.uartTBit s.cfg.uartTHalf b stop free).uart := (congrArg View.uart h.like.seen).symm
  have htook : Uart.Took s.cfg.rxCap b stop s.uart t.uart := by
    rw [hu]
    exact @View.peerFrame_took (s.taken .ok) _ _ b stop free hidx
  have hbetween : t.betweenFrames = true := by simp [State.betweenFrames, h.busy, h.cmd, h.pos]
  refine ⟨t, ht, ⟨h.busy, h.res, h.cp, h.stream, h.cfg⟩, htook.rxsh, (congrArg View.notes h.like.seen).symm,
    (congrArg View.now h.like.seen).symm, htook.others, htook.entry, htook.index, hp, State.hostRead_rxIdx t (.inr hbetween),
    fun j hj => State.hostRead_rxBuf t j (h.cfg ▸ hj) (.inr hbetween)⟩

end Sys2Proof.Machine
end

section
/-! The I2C master against its peer. -/

namespace Sys2Proof.Machine

variable {i : Instr} {s0 : State} {C : State → Prop} {e : PerPin Ext} {w : View} {as : List EnvAct} {rest : List Micro}

/-! ## The pieces of the master's programs -/

theorem Plays.start {c : Config.Params} (h : Plays i s0 C noPin noMbx as rest e (w.begun c.i2cTEdge) 0) :
    Plays i s0 C noPin noMbx (i2cStartTurns c.i2cTEdge ++ as) (i2cMStartProg c ++ rest) e w 0 := by
  unfold i2cStartTurns
  simp only [List.append_assoc]
  refine .reg nofun <| .pinSet not_watched <| .pinSet not_watched <| .wait <| .passAll (by simp) <| .pinSet not_watched <| .wait <|
    .passAll (by simp) <| .pinSet not_watched <| .wait <| .passAll (by simp) <| .reg nofun <| .of_eq h ?_
  simp only [View.write, View.outBit, View.pass, RegOp.eff, View.begun, startWave, PerPin.set, PerPin.get, View.mk.injEq, true_and,
    and_true, PinRegs.withLat_withLat, wr, List.cons_append, List.nil_append, List.reverse_cons, List.reverse_nil, List.map_cons,
    List.map_nil, List.cons.injEq, Prod.mk.injEq]
  omega

theorem Plays.writeBit (c : Config.Params) (j : Fin 8) (h : Plays i s0 C noPin noMbx as rest e (w.wroteBit c.i2cTEdge j) 0) :
    Plays i s0 C noPin noMbx (turns 3 ++ passes c.i2cTEdge ++ turns 2 ++ passes c.i2cTEdge ++ turns 1 ++ as) (i2cMWriteBit c j ++ rest) e w 0 := by
  refine .pinSet not_watched <| .pinSet not_watched <| .wait <| .passAll (by simp) <| .pinSet not_watched <| .wait <| .passAll (by simp) <|
    .reg nofun <| .of_eq h ?_
  simp only [View.write, View.outBit, View.pass, RegOp.eff, View.wroteBit, PerPin.set, PerPin.get, View.mk.injEq, true_and, and_true,
    PinRegs.withLat_withLat, wr, List.cons_append, List.nil_append]
  omega

theorem i2cWriteTurns_eq (D : Nat) (as : List EnvAct) : i2cWriteTurns D ++ as =
    turns 2 ++ (msbFirst.flatMap (fun _ => turns 3 ++ passes D ++ turns 2 ++ passes D ++ turns 1) ++ (turns 2 ++ as)) := by
  unfold i2cWriteTurns
  rw [List.append_assoc, List.append_assoc]
  rfl

theorem Plays.writeByte {c : Config.Params} {x : Byte} (ha : w.answers.head? = some true)
    (h : ∀ e', Plays i s0 C noPin noMbx as rest e' (w.wroteByte c.i2cTEdge x true) 0) :
    Plays i s0 C noPin noMbx (i2cWriteTurns c.i2cTEdge ++ as) (i2cMWriteProg c x ++ rest) e w 0 := by
  rw [i2cWriteTurns_eq]
  unfold i2cMWriteProg
  rw [List.append_assoc, List.append_assoc]
  refine .reg nofun <| .reg nofun <| .flatMap (View.wroteBit c.i2cTEdge) (fun _ _ => True)
    (fun j _ _ e _ _ => ⟨e, trivial, .writeBit c j⟩) msbFirst trivial fun e' _ => ?_
  rw [View.foldl_wroteBit, View.mStateWrite_eff]
  refine .pinCfg ha not_watched <| .reg nofun <| .of_eq (h e') ?_
  simp only [RegOp.eff, View.config, View.wroteByte, PerPin.set, PerPin.get, cf, BitVec.sub_self, List.cons_append]
  rfl

/-- The clock of an acknowledgment, the peer answering with `b` on the line. -/
theorem Plays.acks {c : Config.Params} {b : Bool} (ha : w.answers.head? = some true) (hd : w.pins.sda.dir = .input)
    (h : ∀ e', Plays i s0 C noPin noMbx as rest e' (w.acked c.i2cTEdge b true) 0) :
    Plays i s0 C noPin noMbx (i2cAckPeer c.i2cTEdge (!b) ++ as) (i2cMAcksProg c ++ rest) e w 0 := by
  have hline : lineOf w.pins.sda ((e.set .sda (Ext.ofBit (!!b))).get .sda) = .ofBit b := by
    rw [PerPin.get_set_same, Bool.not_not]
    exact lineOf_input hd b
  refine .drive (by simp [i2cMAcksProg]) not_watched <| .reg nofun <| .pinSet not_watched <| .wait <| .passAll (by simp) <|
    .sample b hline <| .pinSet not_watched <| .wait <| .passAll (by simp) <| .drive (by simp) not_watched <|
    .pinCfg ha not_watched <| .reg nofun <| .reg nofun <| .of_eq (h _) ?_
  simp only [View.write, View.outBit, View.pass, View.sample, View.store, View.config, RegOp.eff, View.acked, pulseWave, PerPin.set,
    PerPin.get, View.mk.injEq, true_and, and_true, PinRegs.withLat_withLat, wr, cf, List.cons_append, List.nil_append,
    List.reverse_cons, List.reverse_nil, List.cons.injEq, Prod.mk.injEq]
  omega

/-- The sender's acts for one bit of `I2C_M_READ`. -/
def i2cSendBit (D : Nat) (v : Bool) : List EnvAct := drives .sda v ++ turns 2 ++ passes D ++ turns 3 ++ passes D ++ turns 1

theorem i2cReadPeer_eq (D : Nat) (v : Byte) (as : List EnvAct) : i2cReadPeer D v ++ as =
    turns 3 ++ (msbFirst.flatMap (fun j => i2cSendBit D (bitOf v j)) ++
      ([.drive .sda .z] ++ turns 5 ++ passes D ++ turns 2 ++ passes D ++ turns 1 ++ as)) := by
  unfold i2cReadPeer
  simp only [List.append_assoc]
  rfl

theorem Plays.readBit {c : Config.Params} (j : Fin 8) (b : Bool) (hd : w.pins.sda.dir = .input)
    (h : Plays i s0 C noPin noMbx as rest (e.set .sda (Ext.ofBit b)) (w.readBit c.i2cTEdge j b) 0) :
    Plays i s0 C noPin noMbx (i2cSendBit c.i2cTEdge b ++ as) (i2cMReadBit c j ++ rest) e w 0 := by
  have hline : lineOf w.pins.sda ((e.set .sda (Ext.ofBit b)).get .sda) = .ofBit b := by
    rw [PerPin.get_set_same]
    exact lineOf_input hd b
  refine .drive (by simp [i2cMReadBit]) not_watched <| .pinSet not_watched <| .wait <| .passAll (by simp) <| .sample b hline <|
    .pinSet not_watched <| .wait <| .passAll (by simp) <| .reg nofun <| .of_eq h ?_
  simp only [View.write, View.outBit, View.pass, View.sample, View.store, RegOp.eff, View.readBit, pulseWave, PerPin.set, PerPin.get,
    View.mk.injEq, true_and, and_true, PinRegs.withLat_withLat, wr, List.cons_append, List.nil_append, List.reverse_cons,
    List.reverse_nil]
  omega

theorem Plays.readByte {c : Config.Params} {ack : Bool} {v : Byte} (ha : w.answers.head? = some true)
    (h : ∀ e' ok, (∀ b, w.answers.tail.head? = some b → ok = b) →
      Plays i s0 C noPin noMbx as rest e' (w.readByte c.i2cTEdge ack v true ok) 0) :
    Plays i s0 C noPin noMbx (i2cReadPeer c.i2cTEdge v ++ as) (i2cMReadProg c ack ++ rest) e w 0 := by
  rw [i2cReadPeer_eq]
  unfold i2cMReadProg
  rw [List.append_assoc, List.append_assoc]
  refine .reg nofun <| .pinCfg ha not_watched <| .reg nofun <| .flatMap (fun w j => w.readBit c.i2cTEdge j (bitOf v j))
    (fun _ w => w.pins.sda.dir = .input) (fun j _ _ _ _ hw => ⟨_, hw, .readBit j (bitOf v j) hw⟩) msbFirst rfl fun e' _ => ?_
  rw [View.foldl_readBit]
  refine .drive (by simp) not_watched <| .reg nofun <| .pinCfg_any not_watched fun ok hok => .pinSet not_watched <| .pinSet not_watched <|
    .wait <| .passAll (by simp) <| .pinSet not_watched <| .wait <| .passAll (by simp) <| .reg nofun <| .of_eq (h _ ok hok) ?_
  simp only [View.write, View.outBit, View.pass, View.config, RegOp.eff, View.readByte, readWave, pulseWave, PerPin.set, PerPin.get,
    View.mk.injEq, true_and, and_true, PinRegs.withLat_withLat, wr, cf, BitVec.sub_self, List.cons_append, List.nil_append,
    List.reverse_append, List.reverse_cons, List.reverse_nil, List.cons.injEq, Prod.mk.injEq, BitVec.ofNat_eq_ofNat]
  omega

/-! ## The transfers -/

/-- No line is left alone: what a transfer reads is what its peer put there. -/
def peerDriven : Around := { still := fun _ => False, ext := PerPin.all .z }

theorem peerDriven_reads (p : Pin) (r : PinRegs) (b : Bool) : peerDriven.reads p r b := False.elim

/-- The master's `n` coming configurations succeed. -/
def View.succeeds (w : View) (n : Nat) : Prop := ∀ k, k < n → w.answers[k]? = some true

theorem View.succeeds.head {n : Nat} (h : w.succeeds (n + 1)) : w.answers.head? = some true := by
  rw [List.head?_eq_getElem?]
  exact h 0 (Nat.succ_pos n)

theorem View.succeeds.tail {n : Nat} (h : w.succeeds (n + 1)) : ∀ k, k < n → w.answers.tail[k]? = some true := by
  intro k hk
  rw [List.getElem?_tail]
  exact h (k + 1) (Nat.succ_lt_succ hk)

theorem View.succeeds.second {n : Nat} (h : w.succeeds (n + 2)) : w.answers.tail.head? = some true := by
  rw [List.head?_eq_getElem?]
  exact h.tail 0 (Nat.succ_pos n)

/-- After two answers. -/
theorem View.succeeds.drop {n : Nat} (h : w.succeeds (n + 2)) {v : View} (hv : v.answers = w.answers.tail.tail) : v.succeeds n := by
  intro k hk
  rw [hv, List.getElem?_tail]
  exact h.tail (k + 1) (Nat.succ_lt_succ hk)

theorem known_answer {l : List Bool} (h : l.head? = some true) : ∀ v, l.head? = some v → true = v := fun _ hv =>
  Option.some.inj (h.symm.trans hv)

theorem Plays.rdnBytes {c : Config.Params} {vs : List Byte} (ha : w.succeeds (2 * vs.length))
    (h : ∀ e' u, Rdn peerDriven c.i2cTEdge w vs.length vs u → Plays i s0 C noPin noMbx as rest e' u 0) :
    Plays i s0 C noPin noMbx (vs.flatMap (fun v => i2cReadPeer c.i2cTEdge v ++ turns 1) ++ as) (rdnBytesProg c vs.length ++ rest) e w 0 := by
  induction vs generalizing e w with
  | nil => exact h e w .none
  | cons v vs ih =>
    have ha' : w.succeeds (2 * vs.length + 2) := ha
    rw [List.flatMap_cons, List.length_cons, rdnBytesProg, i2cMRdnByte, List.append_assoc, List.append_assoc, List.append_assoc,
      List.append_assoc]
    refine .readByte ha'.head fun e' ok hok => .reg nofun ?_
    obtain rfl := hok true ha'.second
    exact ih (ha'.drop rfl : View.succeeds (w.got c.i2cTEdge (decide (vs.length ≠ 0)) v true true) _) fun e' u hu => h e' u
      (.byte (known_answer ha'.head) (known_answer ha'.second) (fun _ _ => peerDriven_reads _ _ _) hu)

/-- The STOP that ends a transfer needs no peer. -/
theorem Plays.stop {c : Config.Params} (hr : noReset as) (hl : ∀ p v, EnvAct.drive p v ∉ as)
    (h : ∀ t, Done i s0 (w.ended c.i2cTEdge) t → C t) : Plays i s0 C noPin noMbx as (i2cMStopProg c) e w 0 :=
  .ends hr hl (fun t v (hv : v = w.ended c.i2cTEdge) hd => h t (hv ▸ hd)) (.all (.stop (.done rfl)))

theorem Plays.rdn {c : Config.Params} {addr : Addr} {vs : List Byte} (ha : w.succeeds (2 * vs.length + 2))
    (h : ∀ t u, RdnRun peerDriven c.i2cTEdge (addressByte addr true) vs.length w true false true vs u →
      Done i s0 (u.ended c.i2cTEdge) t → C t) :
    Plays i s0 C noPin noMbx (i2cRdnPeer c.i2cTEdge vs) (i2cMRdnProg c addr vs.length) e w 0 := by
  have hplan : i2cRdnPeer c.i2cTEdge vs = i2cStartTurns c.i2cTEdge ++ (i2cWriteTurns c.i2cTEdge ++ (i2cAckPeer c.i2cTEdge (!false) ++
      (turns 1 ++ (vs.flatMap (fun v => i2cReadPeer c.i2cTEdge v ++ turns 1) ++ [])))) := by
    simp only [i2cRdnPeer, List.append_assoc, List.append_nil, Bool.not_false]
  rw [hplan, i2cMRdnProg_eq]
  refine .start <| .writeByte ha.head fun _ => .acks ha.second rfl fun _ => .nackKeep ?_
  show Plays i s0 C noPin noMbx _ (rdnBytesProg c vs.length ++ i2cMStopProg c) _
    (w.asked c.i2cTEdge (addressByte addr true) true false true) 0
  exact .rdnBytes (ha.drop rfl) fun e' u hu => .stop List.not_mem_nil (fun _ _ => List.not_mem_nil) fun t hd =>
    h t u ⟨known_answer ha.head, known_answer ha.second, fun _ => peerDriven_reads _ _ _, hu⟩ hd

/-! ### `I2C_M_XFER` -/

/-- The answers of a receiver to a transfer of `n` wire bytes: ACK but for the last, and that a NACK where bytes are left. -/
structure AckList (acks : List Bool) (n : Nat) : Prop where
  pos : 1 ≤ acks.length
  le : acks.length ≤ n
  ones : ∀ a ∈ acks.dropLast, a = true
  cut : acks.length < n → acks.getLast? = some false

/-- After an ACK with answers left. -/
theorem AckList.tail {a b : Bool} {l : List Bool} {n : Nat} (h : AckList (a :: b :: l) (n + 1)) : AckList (b :: l) n :=
  ⟨Nat.succ_pos _, Nat.le_of_succ_le_succ h.le, fun x hx => h.ones x (List.mem_cons_of_mem a hx), fun hlt =>
    (List.getLast?_cons_cons ..).symm.trans (h.cut (Nat.succ_lt_succ hlt))⟩

/-- What is left of the peer's acts once the last answer stands. -/
theorem not_reset_turn : noReset (turns 1) := by
  intro h
  simp [turns] at h

theorem not_drive_turn {p : Pin} {v : Ext} : EnvAct.drive p v ∉ turns 1 := by simp [turns]

theorem Plays.xferByte {c : Config.Params} {x : Byte} {b : Bool} (h1 : w.answers.head? = some true) (h2 : w.answers.tail.head? = some true)
    (h : ∀ e', Plays i s0 C noPin noMbx as rest e' (w.sent c.i2cTEdge x true b true) 0) :
    Plays i s0 C noPin noMbx (i2cWriteTurns c.i2cTEdge ++ (i2cAckPeer c.i2cTEdge (!b) ++ (turns 1 ++ as))) (i2cMXferByte c x ++ rest) e w 0 := by
  unfold i2cMXferByte
  rw [List.append_assoc, List.append_assoc]
  refine .writeByte h1 fun _ => .acks h2 rfl fun _ => .reg nofun <| .of_eq (h _) ?_
  simp only [RegOp.eff, View.wroteByte, View.acked, View.sent, View.mk.injEq, true_and, and_true, List.reverse_append, List.append_assoc,
    PerPin.mk.injEq, List.cons.injEq, Prod.mk.injEq, PinRegs.withLat_withLat]
  omega

/-- A receiver's acts for one wire byte, before the turns that follow it. -/
theorem xferPeerByte_eq (D : Nat) (b : Bool) (l : List EnvAct) : i2cWriteTurns D ++ i2cAckPeer D b ++ turns 2 ++ l =
    i2cWriteTurns D ++ (i2cAckPeer D (!!b) ++ (turns 1 ++ (turns 1 ++ l))) := by
  simp only [List.append_assoc, Bool.not_not]
  rfl

theorem Plays.xferBytes {c : Config.Params} {x : Byte} {ys : List Byte} {acks : List Bool} (ha : w.succeeds (2 * acks.length))
    (hacks : AckList acks (ys.length + 1))
    (h : ∀ t u, Xfer peerDriven c.i2cTEdge w (x :: ys) acks u → Done i s0 (u.ended c.i2cTEdge) t → C t) :
    Plays i s0 C noPin noMbx (acks.flatMap fun a => i2cWriteTurns c.i2cTEdge ++ i2cAckPeer c.i2cTEdge a ++ turns 2)
      (xferBytesProg c x ys ++ i2cMStopProg c) e w 0 := by
  induction ys generalizing x acks e w with
  | nil =>
    obtain ⟨b, rfl⟩ : ∃ b, acks = [b] := List.length_eq_one_iff.mp (le_antisymm hacks.le hacks.pos)
    have ha : w.succeeds (0 + 2) := ha
    rw [List.flatMap_cons, xferPeerByte_eq, xferBytesProg, List.flatMap_nil, List.append_nil]
    refine .xferByte ha.head ha.second fun e' => .stop not_reset_turn (fun _ _ => not_drive_turn) fun t hd => h t _ ?_ hd
    have hx := @Xfer.last peerDriven c.i2cTEdge w x true (!b) true (known_answer ha.head) (known_answer ha.second) fun _ => peerDriven_reads _ _ _
    rwa [Bool.not_not] at hx
  | cons y ys ih =>
    have hprog : xferBytesProg c x (y :: ys) ++ i2cMStopProg c =
        i2cMXferByte c x ++ .nackKeep (i2cMStopProg c).length :: (xferBytesProg c y ys ++ i2cMStopProg c) := by
      simp [xferBytesProg, onNackStop]
    rw [hprog]
    obtain ⟨a, l, rfl⟩ := List.exists_cons_of_length_pos hacks.pos
    have ha' : w.succeeds (2 * l.length + 2) := ha
    rw [List.flatMap_cons, xferPeerByte_eq]
    refine .xferByte ha'.head ha'.second fun e' => .nackKeep ?_
    cases l with
    | nil =>
      obtain rfl : a = false := Option.some.inj (hacks.cut (by simp))
      have hdrop : (xferBytesProg c y ys ++ i2cMStopProg c).drop
          ((xferBytesProg c y ys ++ i2cMStopProg c).length - (i2cMStopProg c).length) = i2cMStopProg c := by simp
      have hack : (w.sent c.i2cTEdge x true true true).i2c.ack = false := rfl
      rw [Bool.not_false, hack, hdrop]
      exact .stop List.not_mem_nil (fun _ _ => List.not_mem_nil) fun t hd => h t _
        (.nack (known_answer ha'.head) (known_answer ha'.second) fun _ => peerDriven_reads _ _ _) hd
    | cons b l =>
      obtain rfl : a = true := hacks.ones a (by simp)
      have hack : (w.sent c.i2cTEdge x true false true).i2c.ack = true := rfl
      rw [Bool.not_true, hack]
      exact ih (ha'.drop rfl) hacks.tail fun t u hu => h t u
        (.more (known_answer ha'.head) (known_answer ha'.second) (fun _ => peerDriven_reads _ _ _) hu)

/-! ## The statement -/

/-- A read of a byte the sender puts on the line. -/
theorem i2cMRead_plays {s : State} (ack : Bool) (v : Byte) (hidle : s.seq.busy = false) (hm : s.i2c.role = .master)
    (hplan : s.env.plan = i2cReadPeer s.cfg.i2cTEdge v) (hc : s.env.cfgOutcomes.head? = some true) :
    ∃ t, exec (.i2cMRead ack) s = .next t ∧
      ∃ ok, Done (.i2cMRead ack) s ((s.taken .i2cShift).readByte s.cfg.i2cTEdge ack v true ok) t := by
  have hplay : Plays (.i2cMRead ack) s
      (fun t => ∃ ok, Done (.i2cMRead ack) s ((s.taken .i2cShift).readByte s.cfg.i2cTEdge ack v true ok) t) noPin noMbx s.env.plan
      (i2cMReadProg s.cfg ack) s.env.ext (s.taken .i2cShift) 0 := by
    rw [hplan, ← List.append_nil (i2cReadPeer _ _), ← List.append_nil (i2cMReadProg _ _)]
    exact .readByte hc fun _ ok _ => .done fun t hd _ => ⟨ok, hd⟩
  exact exec_plays _ _ rfl hidle (gateI2cMaster_of hm) rfl hplay

theorem i2cMRdn_plays {s : State} (addr : Addr) (vs : List Byte) (hlen : vs.length ≤ 255) (hidle : s.seq.busy = false)
    (hm : s.i2c.role = .master) (hplan : s.env.plan = i2cRdnPeer s.cfg.i2cTEdge vs) (hc : s.cfgSucceeds (2 * vs.length + 2)) :
    ∃ t, exec (.i2cMRdn addr (BitVec.ofNat 8 vs.length)) s = .next t ∧
      ∃ u, RdnRun peerDriven s.cfg.i2cTEdge (addressByte addr true) vs.length (s.taken .gathered) true false true vs u ∧
        Done (.i2cMRdn addr (BitVec.ofNat 8 vs.length)) s (u.ended s.cfg.i2cTEdge) t := by
  have hcount : (BitVec.ofNat 8 vs.length).toNat = vs.length := Nat.mod_eq_of_lt (Nat.lt_succ_of_le hlen)
  have hplay : Plays (.i2cMRdn addr (BitVec.ofNat 8 vs.length)) s
      (fun t => ∃ u, RdnRun peerDriven s.cfg.i2cTEdge (addressByte addr true) vs.length (s.taken .gathered) true false true vs u ∧
        Done (.i2cMRdn addr (BitVec.ofNat 8 vs.length)) s (u.ended s.cfg.i2cTEdge) t) noPin noMbx s.env.plan
      (i2cMRdnProg s.cfg addr (BitVec.ofNat 8 vs.length).toNat) s.env.ext (s.taken .gathered) 0 := by
    rw [hplan, hcount]
    exact .rdn (fun k hk => hc.getElem? hk) fun t u hu hd => ⟨u, hu, hd⟩
  exact exec_plays _ _ rfl hidle (gateI2cMaster_of hm) rfl hplay

theorem i2cMXfer_plays {s : State} (addr : Addr) {ys : List Byte} {acks : List Bool} (hlen : ys.length ≤ 255)
    (hacks : AckList acks (ys.length + 1)) (hidle : s.seq.busy = false) (hm : s.i2c.role = .master)
    (hplan : s.env.plan = i2cXferPeer s.cfg.i2cTEdge acks) (hc : s.cfgSucceeds (2 * acks.length)) :
    ∃ t, exec (.i2cMXfer addr ys) s = .next t ∧
      ∃ u, Xfer peerDriven s.cfg.i2cTEdge ((s.taken .gathered).begun s.cfg.i2cTEdge) (addressByte addr false :: ys) acks u ∧
        Done (.i2cMXfer addr ys) s (u.ended s.cfg.i2cTEdge) t := by
  have hplay : Plays (.i2cMXfer addr ys) s
      (fun t => ∃ u, Xfer peerDriven s.cfg.i2cTEdge ((s.taken .gathered).begun s.cfg.i2cTEdge) (addressByte addr false :: ys) acks u ∧
        Done (.i2cMXfer addr ys) s (u.ended s.cfg.i2cTEdge) t) noPin noMbx s.env.plan (i2cMXferProg s.cfg addr ys) s.env.ext
      (s.taken .gathered) 0 := by
    rw [hplan, i2cMXferProg_eq]
    exact .start <| .xferBytes (fun k hk => hc.getElem? hk) hacks fun t u hu hd => ⟨u, hu, hd⟩
  exact exec_plays _ _ rfl hidle (gateI2cMaster_of hm) (Instr.i2cMXfer_wf addr hlen) hplay

/-- Settles O45: each sample of a master command is the level its peer drove before the clock pulse, so the walk of the command, with
its reads so fixed, has the peer's bytes and answers as its results. -/
theorem i2cMasterReadsPeer : Obligations.I2cMasterReadsPeer := by
  unfold Obligations.I2cMasterReadsPeer
  intro s hidle hm
  refine ⟨fun ack v hplan hc => ?_, fun addr vs hlen hplan hc => ?_, fun addr ys acks hlen hpos hle hones hcut hplan hc => ?_⟩
  · obtain ⟨t, ht, ok, hd⟩ := i2cMRead_plays ack v hidle hm hplan hc
    exact ⟨t, ht, hd.words fun _ => congrArg (· :: []) (resultWord_ok v), congrArg I2c.shift hd.i2c, hd.now⟩
  · obtain ⟨t, ht, u, hu, hd⟩ := i2cMRdn_plays addr vs hlen hidle hm hplan hc
    exact ⟨t, ht, hu.returned (Nat.lt_succ_of_le hlen) hd⟩
  · obtain ⟨t, ht, u, hu, hd⟩ := i2cMXfer_plays addr hlen ⟨hpos, hle, hones, fun h => hcut (Nat.le_of_lt_succ h)⟩ hidle hm hplan hc
    obtain ⟨v, hret⟩ := hu.returned hd
    exact ⟨t, _, ht, hret, fun h => if_pos (Nat.lt_succ_of_le h)⟩

end Sys2Proof.Machine
end
